-- ==== Sys2Proof/Word.lean ====
section
/-! DEFINITION. The words of the Ulvigan 480: octets of a frame, cabin numbers and wind grades. -/

namespace Sys2Proof

/-- One octet of a frame or of a table entry (01, section 1.2). -/
abbrev Byte := BitVec 8

/-- A cabin number, 0 to 47 (00, Stations and identifiers). -/
abbrev Cabin := Fin 48

/-- A wind grade: 0 CALM, 1 WATCH, 2 REDUCE, 3 SUSPEND, 4 STOP (07). -/
abbrev Grade := Fin 5

end Sys2Proof
end

