-- ==== Sys2Proof/Config.lean ====
section
/-! DEFINITION. The fixed numbers of the part: geometry (00) and capacities (01). The spec leaves no
value free, so there is no opaque constant here. -/

namespace Sys2Proof.Config

/-- The rim circumference in mm (00, Geometry and coordinates). -/
def circumference : Nat := 393216

/-- The cabin pitch in mm (00, Geometry and coordinates). -/
def pitch : Nat := 8192

/-- The broadcast address (00, Stations and identifiers). -/
def broadcast : Byte := 63

/-- The roster's "no station holds the role" (R5). -/
def noStation : Byte := 62

/-- The forward buffer holds up to 8 frames (R17). -/
def forwardRoom : Nat := 8

/-- The door queue holds up to 8 items (R20). -/
def doorRoom : Nat := 8

/-- The response queue holds up to 8 RESPONSE frames (R21). -/
def responseRoom : Nat := 8

/-- The notice queue holds up to 16 NOTICE frames (R22). -/
def noticeRoom : Nat := 16

/-- The release lapse in ms (R45). -/
def releaseLapse : Nat := 1000

/-- The gust ring's length in samples (R95). -/
def gustSamples : Nat := 12

end Sys2Proof.Config
end

