-- ==== Sys2Proof/Syntax.lean ====
section
/-! DEFINITION. The commands of the part: one constructor per row of spec/opcode_table.json.

A command that is taken on the millisecond time base carries the moment `t` at which it is taken
(log 1). A frame row carries the frame's octets that its row does not fix. A request row carries the
source of the REQUEST frame, its tag and the argument octets after the request kind; the frame is
addressed to the part (R13, R168). -/

namespace Sys2Proof

/-- The two encoder heads (R25). -/
inductive EncoderId where
  | a | b
  deriving DecidableEq, Repr

/-- The levels of the service key line: low is OPERATE, high is MAINTAIN (01, section 1.1). -/
inductive KeyLevel where
  | operate | maintain
  deriving DecidableEq, Repr

/-- The two kinds of drive frame that only the part may send (R10). -/
inductive DriveFrameKind where
  | driveRef | driveApply
  deriving DecidableEq, Repr

/-- What is on the lines and on ring-in when the reset line is released: the level of the strap lines (R1), and
whether a frame is already under way on ring-in (R2; log 25). -/
structure ResetRelease where
  straps : BitVec 4
  underWay : Bool
  deriving DecidableEq, Repr

/-- The commands, one per row of the table, in the table's order. -/
inductive Instr where
  /-- RESET_ASSERT (R2): the reset line goes low. -/
  | resetAssert
  /-- POWER_ON_RESET (R2): the reset line is released. -/
  | powerOnReset (release : ResetRelease)
  /-- POSITION (R26): a POSITION frame of length 4. -/
  | position (t : Nat) (dst src : Byte) (pos : BitVec 24) (health : Byte)
  /-- WIND (R98): a WIND frame of length 5. -/
  | wind (t : Nat) (dst src : Byte) (speed direction : BitVec 16) (health : Byte)
  /-- DOOR_REPORT (R41): a DOOR_REPORT frame of length 3. -/
  | doorReport (t : Nat) (dst src cabin door occupancy : Byte)
  /-- DRIVE_STATUS (R160): a DRIVE_STATUS frame of length 4. -/
  | driveStatus (t : Nat) (dst src ready fault : Byte) (speed : BitVec 16)
  /-- UNLOCK (R64): a DOOR_COMMAND frame of length 2 with action UNLOCK. -/
  | unlock (t : Nat) (dst src cabin : Byte)
  /-- LOCK (R63): a DOOR_COMMAND frame of length 2 with action LOCK. -/
  | lock (t : Nat) (dst src cabin : Byte)
  /-- ALL_STOP (R12): an ALL_STOP frame with any payload. -/
  | allStop (t : Nat) (dst src : Byte) (payload : List Byte)
  /-- STRIP (R9): a frame whose source is the part's own address. -/
  | strip (t : Nat) (dst kind : Byte) (payload : List Byte)
  /-- FOREIGN_DRIVE_FRAME (R10): a DRIVE_REF or DRIVE_APPLY frame from another source. -/
  | foreignDriveFrame (t : Nat) (dst src : Byte) (kind : DriveFrameKind) (payload : List Byte)
  /-- OTHER_FRAME (R16, R3): the octets between a start mark and an end mark on ring-in. -/
  | otherFrame (t : Nat) (octets : List Byte)
  /-- FRAME_SEND_END (R23): ring-out finishes the frame it is sending. -/
  | frameSendEnd (t : Nat)
  /-- READ_STATUS (R170). -/
  | readStatus (t : Nat) (src tag : Byte) (args : List Byte)
  /-- READ_TABLE (R173). -/
  | readTable (t : Nat) (src tag : Byte) (args : List Byte)
  /-- LOAD_ROSTER (R6): LOAD_TABLE on ROSTER; `args` are the octets after the table code. -/
  | loadRoster (t : Nat) (src tag : Byte) (args : List Byte)
  /-- LOAD_PASS (R7): LOAD_TABLE on PASS; `args` are the octets after the table code. -/
  | loadPass (t : Nat) (src tag : Byte) (args : List Byte)
  /-- LOAD_CABINS (R39): LOAD_TABLE on CABINS; `args` are the octets after the table code. -/
  | loadCabins (t : Nat) (src tag : Byte) (args : List Byte)
  /-- LOAD_ZONES (R56): LOAD_TABLE on ZONES; `args` are the octets after the table code. -/
  | loadZones (t : Nat) (src tag : Byte) (args : List Byte)
  /-- LOAD_PARAMETERS (R176): LOAD_TABLE on PARAMETERS; `args` are the octets after the table code. -/
  | loadParameters (t : Nat) (src tag : Byte) (args : List Byte)
  /-- LOAD_HEADS (R94): LOAD_TABLE on HEADS; `args` are the octets after the table code. -/
  | loadHeads (t : Nat) (src tag : Byte) (args : List Byte)
  /-- LOAD_RULES (R108): LOAD_TABLE on RULES; `args` are the octets after the table code. -/
  | loadRules (t : Nat) (src tag : Byte) (args : List Byte)
  /-- SET_LOCKS (R175). -/
  | setLocks (t : Nat) (src tag : Byte) (args : List Byte)
  /-- RESTART (R178). -/
  | restart (t : Nat) (src tag : Byte) (args : List Byte)
  /-- READ_HOLDS (R134). -/
  | readHolds (t : Nat) (src tag : Byte) (args : List Byte)
  /-- HOLD (R129). -/
  | hold (t : Nat) (src tag : Byte) (args : List Byte)
  /-- ACK_HOLD (R130). -/
  | ackHold (t : Nat) (src tag : Byte) (args : List Byte)
  /-- READ_CABINS (R53). -/
  | readCabins (t : Nat) (src tag : Byte) (args : List Byte)
  /-- READ_WIND (R105). -/
  | readWind (t : Nat) (src tag : Byte) (args : List Byte)
  /-- UNSTOW (R140). -/
  | unstow (t : Nat) (src tag : Byte) (args : List Byte)
  /-- STOW (R140). -/
  | stow (t : Nat) (src tag : Byte) (args : List Byte)
  /-- START (R141). -/
  | start (t : Nat) (src tag : Byte) (args : List Byte)
  /-- STOP (R142). -/
  | stop (t : Nat) (src tag : Byte) (args : List Byte)
  /-- RESUME (R144). -/
  | resume (t : Nat) (src tag : Byte) (args : List Byte)
  /-- RESET_BRAKE (R145). -/
  | resetBrake (t : Nat) (src tag : Byte) (args : List Byte)
  /-- SET_TRIM (R146). -/
  | setTrim (t : Nat) (src tag : Byte) (args : List Byte)
  /-- OPEN_SERVICE (R79). -/
  | openService (t : Nat) (src tag : Byte) (args : List Byte)
  /-- BEGIN_CLEARDOWN (R80). -/
  | beginClearDown (t : Nat) (src tag : Byte) (args : List Byte)
  /-- CLOSE_SERVICE (R81). -/
  | closeService (t : Nat) (src tag : Byte) (args : List Byte)
  /-- ARM_ZONE (R58). -/
  | armZone (t : Nat) (src tag : Byte) (args : List Byte)
  /-- UNKNOWN_REQUEST (R169): a REQUEST of any kind, with that kind's octet. -/
  | unknownRequest (t : Nat) (src tag kind : Byte) (args : List Byte)
  /-- ROTATION_UPDATE (R151): the rotation update timer expires. -/
  | rotationUpdate (t : Nat)
  /-- WIND_EVALUATION (R113): the evaluation timer expires. -/
  | windEvaluation (t : Nat)
  /-- DWELL_EXPIRY (R118): the fall dwell expires. -/
  | dwellExpiry (t : Nat)
  /-- SETTLING_END (R119): the settling period elapses. -/
  | settlingEnd (t : Nat)
  /-- ENCODER_LAPSE (R27): an encoder head's age first exceeds P15. -/
  | encoderLapse (t : Nat) (head : EncoderId)
  /-- STALE_EVENT (R42): a fresh door's age first exceeds P16. -/
  | staleEvent (t : Nat) (cabin : Cabin)
  /-- HEAD_LAPSE (R102): a wind head's age first exceeds P18. -/
  | headLapse (t : Nat) (head : Fin 4)
  /-- DRIVE_LAPSE (R161): a drive's age first exceeds P17. -/
  | driveLapse (t : Nat) (drive : Fin 4)
  /-- SERVICE_KEY_CHANGE (R1, R175): the service key line takes a level. -/
  | serviceKeyChange (level : KeyLevel)
  deriving DecidableEq, Repr

end Sys2Proof
end

