-- ==== Sys2Proof/Machine/Records.lean ====
section
/-! DEFINITION. The records each block keeps, as the chapters give them: plain data. -/

namespace Sys2Proof.Machine

/-! ### Names -/

/-- The two boarding zones (R55). -/
inductive Zone where
  | unload | load
  deriving DecidableEq, Repr

/-- One value for each zone. -/
structure ByZone (α : Type) where
  unload : α
  load : α
  deriving DecidableEq, Repr

/-- The value of a zone. -/
def ByZone.get {α : Type} (b : ByZone α) : Zone → α
  | .unload => b.unload
  | .load => b.load

/-- The pair with one zone's value replaced. -/
def ByZone.set {α : Type} (b : ByZone α) (z : Zone) (a : α) : ByZone α :=
  match z with
  | .unload => { b with unload := a }
  | .load => { b with load := a }

/-- A health octet decoded (R15). -/
inductive Health where
  | ok | degraded
  deriving DecidableEq, Repr

/-- A door state (R40). -/
inductive Door where
  | locked | closed | opened | fault | unknown
  deriving DecidableEq, Repr

/-- A door cycle (R45). -/
inductive Cycle where
  | idle | releaseSent | cycling
  deriving DecidableEq, Repr

/-- A zone permit (R57). -/
inductive Permit where
  | clear
  | armed (cabin : Cabin)
  | spent (cabin : Cabin)
  deriving DecidableEq, Repr

/-- The service mode (R78): CLOSED, OPEN, CLEARDOWN, CLEARED. -/
inductive ServiceMode where
  | closed | opened | clearDown | cleared
  deriving DecidableEq, Repr

/-- The destination of a STOPPING wheel (R139). -/
inductive StopDest where
  | held | standby
  deriving DecidableEq, Repr

/-- The wheel state (R139). -/
inductive Wheel where
  | stowed | standby | running
  | stopping (dest : StopDest)
  | held | braked
  deriving DecidableEq, Repr

/-- The accepted position with its validity, value and mode (R29); mode INVALID is `invalid`. -/
inductive Accepted where
  | invalid
  | dual (p : Nat)
  | single (p : Nat)
  deriving DecidableEq, Repr

/-! ### Frames -/

/-- A frame (01, section 1.2). Its length octet is the payload's length and its check is a function
of the other octets (R3, R4; log 6). -/
structure Frame where
  dest : Byte
  source : Byte
  kind : Byte
  payload : List Byte
  deriving DecidableEq, Repr

/-- What an item of the door queue is (R20). -/
inductive DoorItemKind where
  | unlock | lock | denial
  deriving DecidableEq, Repr

/-- An item of the door queue (R20). -/
structure DoorItem where
  what : DoorItemKind
  frame : Frame
  deriving DecidableEq, Repr

/-- Ring-out: idle, or sending a frame, which is a forwarded one or an own one (R23). -/
inductive RingOut where
  | idle
  | sending (frame : Frame) (forwarded : Bool)
  deriving DecidableEq, Repr

/-- The ring interface's buffer, queues and arbiter (R17, R19 to R23). -/
structure Ring where
  forward : List Frame
  driveSet : List Frame
  doorQueue : List DoorItem
  responses : List Frame
  notices : List Frame
  noticeOverflow : Bool
  ringOut : RingOut
  ownDue : Bool
  deriving DecidableEq, Repr

/-- The lines and the time base (R1, R2); `underWay` while a frame that was under way on ring-in at the
release of the reset line has not ended (R2; log 25). -/
structure Lines where
  inReset : Bool
  underWay : Bool
  strap : BitVec 4
  svcKey : KeyLevel
  now : Nat
  deriving DecidableEq, Repr

/-! ### Tables -/

/-- The control octet of a PASS entry (R7, section 1.9). -/
inductive PassControl where
  | disabled | forward | drop
  deriving DecidableEq, Repr

/-- A PASS entry; `none` is ANY (R7). -/
structure PassEntry where
  control : PassControl
  source : Option Byte
  dest : Option Byte
  kind : Option Byte
  deriving DecidableEq, Repr

/-- A CABINS entry (R39). -/
structure CabinEntry where
  inService : Bool
  capacity : Nat
  deriving DecidableEq, Repr

/-- How a zone's overrun ends (R55). -/
inductive OverrunRelease where
  | auto | attended
  deriving DecidableEq, Repr

/-- A ZONES entry (R55); `finish` is the zone's end. -/
structure ZoneEntry where
  start : Nat
  finish : Nat
  cutoff : Nat
  permitRequired : Bool
  release : OverrunRelease
  deriving DecidableEq, Repr

/-- The unit of a wind head (R93). -/
inductive WindUnit where
  | deci | centi
  deriving DecidableEq, Repr

/-- A HEADS entry (R93). -/
structure HeadEntry where
  enabled : Bool
  unit : WindUnit
  factor : Nat
  shift : Nat
  deriving DecidableEq, Repr

/-- A quantity a rule may test (R109). -/
inductive Quantity where
  | siteGust | siteSustained | gustSpread | validHeads
  | headGust (head : Fin 4)
  | sector | marker1 | marker2 | gradeInForce
  deriving DecidableEq, Repr

/-- A comparison of a test (R110). -/
inductive Comparison where
  | atLeast | below | inSet | isSet
  deriving DecidableEq, Repr

/-- One test of a rule (R107). -/
structure RuleTest where
  quantity : Quantity
  comparison : Comparison
  threshold : Nat
  deriving DecidableEq, Repr

/-- The two markers (R112). -/
inductive Marker where
  | m1 | m2
  deriving DecidableEq, Repr

/-- The four marker operations (R112). -/
inductive MarkerOp where
  | set | and | or | xor
  deriving DecidableEq, Repr

/-- A RULES entry (R107). `grade` and `effect` are absent for NONE. -/
structure RuleEntry where
  enabled : Bool
  testA : RuleTest
  testB : RuleTest
  combination : Nat
  grade : Option Grade
  effect : Option (Marker × MarkerOp)
  deriving DecidableEq, Repr

/-- The seven tables and the lock set (R171 to R176). -/
structure Tables where
  roster : Vector Byte 14
  pass : Vector PassEntry 32
  cabins : Vector CabinEntry 48
  zones : ByZone ZoneEntry
  params : Vector Nat 28
  heads : Vector HeadEntry 4
  rules : Vector RuleEntry 16
  locks : BitVec 7
  deriving DecidableEq, Repr

/-! ### The blocks -/

/-- An encoder head record (R25). -/
structure EncoderHead where
  latest : Option Nat
  taken : Option Nat
  health : Health
  fresh : Bool
  deriving DecidableEq, Repr

/-- A zone's occupancy record (R32). -/
structure Occupancy where
  occupant : Option Cabin
  past : Bool
  deriving DecidableEq, Repr

/-- The position tracker (R25 to R32). -/
structure Tracker where
  headA : EncoderHead
  headB : EncoderHead
  disagreements : Nat
  latch : Bool
  accepted : Accepted
  occ : ByZone Occupancy
  deriving DecidableEq, Repr

/-- The dynamic part of a cabin record (R40). -/
structure CabinRecord where
  door : Door
  occupancy : Nat
  lastReport : Option Nat
  location : Option Zone
  cycle : Cycle
  releaseTime : Option Nat
  overloaded : Bool
  deriving DecidableEq, Repr

/-- The service sequencer (R78, R85, R90). -/
structure Service where
  mode : ServiceMode
  list : List Cabin
  fMode : Nat
  deriving DecidableEq, Repr

/-- A wind head record (R95); `acc` is the accumulator A, and `initialized` says whether it has been
(log 16). -/
structure Head where
  health : Health
  lastSample : Option Nat
  fresh : Bool
  ring : List Nat
  entered : Nat
  acc : Nat
  initialized : Bool
  sector : Option Nat
  gust : Nat
  sustained : Nat
  deriving DecidableEq, Repr

/-- A fall dwell (R117); times in ms. -/
structure Dwell where
  start : Nat
  grade : Grade
  length : Nat
  highest : Grade
  deriving DecidableEq, Repr

/-- The wind grader (R113 to R119); `settling` is the end time while settling runs. -/
structure Grader where
  computed : Grade
  headsShort : Bool
  inForce : Grade
  dwell : Option Dwell
  settling : Option Nat
  deriving DecidableEq, Repr

/-- What a hold record records: its kind with the fields that kind has (R123, R124). -/
inductive Hold where
  | allStop (source reason : Byte)
  | consoleHold
  | windStop
  | positionLost
  | encoderDisagree
  | drivesLost
  | doorBreach (cabins : List Cabin)
  | zoneOverrun (zone : Zone) (cabin : Cabin)
  | cabinOverload (cabin : Cabin)
  deriving DecidableEq, Repr

/-- What the hold list looks a record up by: its kind, and the zone for ZONE_OVERRUN (R125). -/
inductive HoldKey where
  | allStop | consoleHold | windStop | positionLost | encoderDisagree | drivesLost | doorBreach
  | zoneOverrun (zone : Zone)
  | cabinOverload
  deriving DecidableEq, Repr

/-- A hold record (R123); its effect class and resume class follow from its kind (R124). -/
structure HoldRecord where
  what : Hold
  raised : Nat
  acked : Bool
  deriving DecidableEq, Repr

/-- The hold list and the resume-required flag (R123, R135). -/
structure Holds where
  records : List HoldRecord
  resumeRequired : Bool
  deriving DecidableEq, Repr

/-- The rotation controller (R139, R151, R152). -/
structure Rotation where
  wheel : Wheel
  stopPending : Bool
  vCmd : Nat
  vLim : Nat
  deriving DecidableEq, Repr

/-- A drive record (R159). -/
structure Drive where
  reportedReady : Bool
  fault : Byte
  speed : Nat
  lastReport : Option Nat
  fresh : Bool
  ready : Bool
  deriving DecidableEq, Repr

end Sys2Proof.Machine
end

