-- ==== Sys2Proof/Machine/Defaults.lean ====
section
/-! DEFINITION. Table defaults (R5, R7, R39, R55, R176, R93, R107) and the reset values of the blocks
(R38, R54, R77, R92, R106, R122, R138, R158, R167). -/

namespace Sys2Proof.Machine

/-! ### Table defaults -/

/-- ROSTER: role i stands at address i (R5). -/
def defaultRoster : Vector Byte 14 := #v[0, 1, 2, 3, 4, 5, 6, 7, 8, 9, 10, 11, 12, 13]

/-- A PASS entry: disabled, source, destination and kind ANY (R7). -/
def defaultPassEntry : PassEntry :=
  { control := .disabled, source := none, dest := none, kind := none }

/-- A CABINS entry: in service, capacity 25 (R39). -/
def defaultCabinEntry : CabinEntry := { inService := true, capacity := 25 }

/-- ZONES (R55). -/
def defaultZones : ByZone ZoneEntry :=
  { unload := { start := 1000, finish := 9000, cutoff := 2500, permitRequired := false, release := .auto }
    load := { start := 10000, finish := 18000, cutoff := 2500, permitRequired := true, release := .auto } }

/-- PARAMETERS, P0 to P27 (R176). -/
def defaultParams : Vector Nat 28 :=
  #v[1512, 10, 20, 400, 100, 150, 2, 100, 100, 70, 100, 100, 75, 40,
     60, 200, 4000, 500, 2000, 2, 120, 300, 600, 900, 10, 300, 0x00FE, 0]

/-- A HEADS entry: enabled, DECI, height factor 1,024, sustained shift 8 (R93). -/
def defaultHeadEntry : HeadEntry := { enabled := true, unit := .deci, factor := 1024, shift := 8 }

/-- The default test of a rule: SITE_GUST AT_LEAST 0 (R107). -/
def defaultTest : RuleTest := { quantity := .siteGust, comparison := .atLeast, threshold := 0 }

/-- A RULES entry: disabled, NEVER, grade NONE, effect NONE (R107). -/
def defaultRule : RuleEntry :=
  { enabled := false, testA := defaultTest, testB := defaultTest, combination := 0
    grade := none, effect := none }

/-- Every table at its default and every lock set (R2, R174, R179). -/
def defaultTables : Tables :=
  { roster := defaultRoster
    pass := Vector.replicate 32 defaultPassEntry
    cabins := Vector.replicate 48 defaultCabinEntry
    zones := defaultZones
    params := defaultParams
    heads := Vector.replicate 4 defaultHeadEntry
    rules := Vector.replicate 16 defaultRule
    locks := 0x7F }

/-! ### Reset values of the blocks -/

/-- The ring interface: buffer and queues empty, the arbiter idle (R2, R23, R179). -/
def resetRing : Ring :=
  { forward := [], driveSet := [], doorQueue := [], responses := [], notices := []
    noticeOverflow := false, ringOut := .idle, ownDue := false }

/-- An encoder head record (R38). -/
def resetEncoder : EncoderHead := { latest := none, taken := none, health := .degraded, fresh := false }

/-- An empty zone (R38). -/
def emptyOccupancy : Occupancy := { occupant := none, past := false }

/-- Both zones empty. -/
def emptyZones : ByZone Occupancy := { unload := emptyOccupancy, load := emptyOccupancy }

/-- The position tracker (R38). -/
def resetTracker : Tracker :=
  { headA := resetEncoder, headB := resetEncoder, disagreements := 0, latch := false
    accepted := .invalid, occ := emptyZones }

/-- A cabin record (R54). -/
def resetCabin : CabinRecord :=
  { door := .unknown, occupancy := 0, lastReport := none, location := none, cycle := .idle
    releaseTime := none, overloaded := false }

/-- Both permits CLEAR (R77). -/
def resetPermits : ByZone Permit := { unload := .clear, load := .clear }

/-- The service sequencer (R92). -/
def resetService : Service := { mode := .closed, list := [], fMode := 100 }

/-- A wind head record (R106). -/
def resetHead : Head :=
  { health := .degraded, lastSample := none, fresh := false, ring := [], entered := 0
    acc := 0, initialized := false, sector := none, gust := 0, sustained := 0 }

/-- The wind grader, with settling running from `now` for `settle` seconds (R122). -/
def resetGrader (now settle : Nat) : Grader :=
  { computed := 4, headsShort := true, inForce := 4, dwell := none, settling := some (now + 1000 * settle) }

/-- The hold list with its three records raised at `now`, resume-required set (R138). -/
def resetHolds (now : Nat) : Holds :=
  { records :=
      [ { what := .windStop, raised := now, acked := false },
        { what := .positionLost, raised := now, acked := false },
        { what := .drivesLost, raised := now, acked := false } ]
    resumeRequired := true }

/-- The rotation controller after a power-on reset (R158). -/
def resetRotation : Rotation := { wheel := .stowed, stopPending := false, vCmd := 0, vLim := 0 }

/-- A drive record (R167). -/
def resetDrive : Drive :=
  { reportedReady := false, fault := 0, speed := 0, lastReport := none, fresh := false, ready := false }

end Sys2Proof.Machine
end

