-- ==== Sys2Proof/Machine/State.lean ====
section
/-! DEFINITION. The state of the part: every piece of state the spec gives it, as plain data, and the
state right after a power-on reset. -/

namespace Sys2Proof.Machine

/-- The reasons the part can stop with a fault: none. The spec names no condition under which the
part stops; malformed frames are discarded (R3) and requests are refused with a response (R169).
No command raises a fault (safe: nothing is cut off). -/
inductive Fault where
  deriving DecidableEq, Repr

/-- The reasons the model can refuse a command. -/
inductive Refusal where
  /-- Raised by `exec` for a row of the table that has no meaning yet, with the row's mnemonic. No
  arm raises it now. Safe: nothing is claimed of a refused command. -/
  | notModelled (mnemonic : String)
  deriving DecidableEq, Repr

/-- The state of the part (INVENTORY.md, State). -/
structure State where
  /-- The commands that are waiting, first in first out (the model's own). -/
  pending : List Instr
  /-- The lines and the time base (R1, R2). -/
  lines : Lines
  /-- The seven tables and the lock set (chapter 11). -/
  tables : Tables
  /-- The ring interface (chapter 1). -/
  ring : Ring
  /-- The position tracker (chapter 2). -/
  tracker : Tracker
  /-- The 48 cabin records (chapter 3). -/
  cabins : Vector CabinRecord 48
  /-- The two permits (chapter 4). -/
  permits : ByZone Permit
  /-- The service sequencer (chapter 5). -/
  service : Service
  /-- The four wind head records (chapter 6). -/
  heads : Vector Head 4
  /-- The wind grader (chapter 7). -/
  grader : Grader
  /-- The hold list (chapter 8). -/
  holds : Holds
  /-- The rotation controller (chapter 9). -/
  rot : Rotation
  /-- The four drive records (chapter 10). -/
  drives : Vector Drive 4
  deriving DecidableEq, Repr

/-- The part right after a power-on reset with the strap lines at `strap`, a frame under way on ring-in
or none, and the service key line at `key` (R2 and the reset values of each chapter). The time base starts
at 0 (log 3). -/
def State.powerOn (strap : BitVec 4) (underWay : Bool) (key : KeyLevel) (pending : List Instr) : State :=
  { pending := pending
    lines := { inReset := false, underWay := underWay, strap := strap, svcKey := key, now := 0 }
    tables := defaultTables
    ring := resetRing
    tracker := resetTracker
    cabins := Vector.replicate 48 resetCabin
    permits := resetPermits
    service := resetService
    heads := Vector.replicate 4 resetHead
    grader := resetGrader 0 10
    holds := resetHolds 0
    rot := resetRotation
    drives := Vector.replicate 4 resetDrive }

/-- The machine right after reset: straps 0, ring-in between two frames and the service key at OPERATE
(log 3), nothing waiting. -/
def State.reset : State := State.powerOn 0 false .operate []

/-! ### Replacing one block's state -/

/-- Replace the lines and the time base. -/
def State.setLines (s : State) (x : Lines) : State := { s with lines := x }
/-- Replace the tables. -/
def State.setTables (s : State) (x : Tables) : State := { s with tables := x }
/-- Replace the ring interface. -/
def State.setRing (s : State) (x : Ring) : State := { s with ring := x }
/-- Replace the tracker. -/
def State.setTracker (s : State) (x : Tracker) : State := { s with tracker := x }
/-- Replace the cabin records. -/
def State.setCabins (s : State) (x : Vector CabinRecord 48) : State := { s with cabins := x }
/-- Replace the permits. -/
def State.setPermits (s : State) (x : ByZone Permit) : State := { s with permits := x }
/-- Replace the sequencer. -/
def State.setService (s : State) (x : Service) : State := { s with service := x }
/-- Replace the wind heads. -/
def State.setHeads (s : State) (x : Vector Head 4) : State := { s with heads := x }
/-- Replace the grader. -/
def State.setGrader (s : State) (x : Grader) : State := { s with grader := x }
/-- Replace the hold list. -/
def State.setHolds (s : State) (x : Holds) : State := { s with holds := x }
/-- Replace the rotation controller. -/
def State.setRot (s : State) (x : Rotation) : State := { s with rot := x }
/-- Replace the drive records. -/
def State.setDrives (s : State) (x : Vector Drive 4) : State := { s with drives := x }
/-- Replace the queue of waiting commands. -/
def State.setPending (s : State) (x : List Instr) : State := { s with pending := x }

end Sys2Proof.Machine
end

