-- ==== Sys2Proof/Machine/Operands.lean ====
section
/-! DEFINITION. The octets of frames, payloads and table entries: multi-octet fields, the coded fields
of R15, R24 and section 1.9, the check of R4, and the reading of a received frame (R3). -/

namespace Sys2Proof.Machine

/-! ### Octets (section 1.9: most significant octet first) -/

/-- The low octet of a number. -/
def octet (n : Nat) : Byte := BitVec.ofNat 8 n

/-- A 2-octet field. -/
def octets2 (n : Nat) : List Byte := [octet (n / 256), octet n]

/-- A 3-octet field. -/
def octets3 (n : Nat) : List Byte := [octet (n / 65536), octet (n / 256), octet n]

/-- The number in a 2-octet field. -/
def num2 (hi lo : Byte) : Nat := 256 * hi.toNat + lo.toNat

/-- The octets of a 16-bit field. -/
def halfOctets (w : BitVec 16) : List Byte := octets2 w.toNat

/-- A yes/no field (R24). -/
def yesNo (b : Bool) : Byte := if b then 0x01 else 0x00

/-- The code of an absent field (R24). -/
def absent : Byte := 0xFF

/-! ### Kind codes of frames and requests (section 1.9) -/

def kindPosition : Byte := 0x21
def kindWind : Byte := 0x24
def kindDoorReport : Byte := 0x31
def kindDoorCommand : Byte := 0x32
def kindDriveRef : Byte := 0x41
def kindDriveApply : Byte := 0x42
def kindDriveStatus : Byte := 0x43
def kindAllStop : Byte := 0x5A
def kindRequest : Byte := 0x61
def kindResponse : Byte := 0x62
def kindNotice : Byte := 0x68

def reqReadStatus : Byte := 0x01
def reqReadTable : Byte := 0x02
def reqLoadTable : Byte := 0x03
def reqSetLocks : Byte := 0x04
def reqRestart : Byte := 0x05
def reqReadHolds : Byte := 0x10
def reqHold : Byte := 0x11
def reqAckHold : Byte := 0x12
def reqReadCabins : Byte := 0x18
def reqReadWind : Byte := 0x20
def reqUnstow : Byte := 0x30
def reqStow : Byte := 0x31
def reqStart : Byte := 0x32
def reqStop : Byte := 0x33
def reqResume : Byte := 0x34
def reqResetBrake : Byte := 0x35
def reqSetTrim : Byte := 0x36
def reqOpenService : Byte := 0x40
def reqBeginClearDown : Byte := 0x41
def reqCloseService : Byte := 0x42
def reqArmZone : Byte := 0x48

/-- The action octet of a DOOR_COMMAND (section 1.9). -/
def actionUnlock : Byte := 0x01
/-- The action octet of a DOOR_COMMAND (section 1.9). -/
def actionLock : Byte := 0x02

/-- The reason BRAKE_POINT of the part's own ALL_STOP (section 1.9). -/
def reasonBrakePoint : Byte := 0x02

/-- The kind code of a drive frame (section 1.9). -/
def driveFrameCode : DriveFrameKind → Byte
  | .driveRef => kindDriveRef
  | .driveApply => kindDriveApply

/-! ### Coded fields received (R15) -/

/-- A health octet. -/
def decodeHealth (o : Byte) : Health := if o = 0x00 then .ok else .degraded

/-- A door state octet; any value above 0x03 is FAULT. -/
def decodeDoor (o : Byte) : Door :=
  if o = 0x00 then .locked else if o = 0x01 then .closed else if o = 0x02 then .opened else .fault

/-- A ready octet; only 0x01 is ready. -/
def decodeReady (o : Byte) : Bool := o == 0x01

/-- A cabin octet: a cabin 0 to 47, or no cabin. -/
def decodeCabin (o : Byte) : Option Cabin :=
  if h : o.toNat < 48 then some ⟨o.toNat, h⟩ else none

/-- A zone octet: 0x00 UNLOAD, 0x01 LOAD, else no zone. -/
def decodeZone (o : Byte) : Option Zone :=
  if o = 0x00 then some .unload else if o = 0x01 then some .load else none

/-! ### Coded fields sent (section 1.9) -/

/-- A cabin number's octet. -/
def cabinOctet (k : Cabin) : Byte := octet k.val

/-- A cabin field that can be absent (R24). -/
def cabinField : Option Cabin → Byte
  | some k => cabinOctet k
  | none => absent

def Zone.code : Zone → Byte
  | .unload => 0x00
  | .load => 0x01

/-- A zone field that can be absent (R24). -/
def zoneField : Option Zone → Byte
  | some z => z.code
  | none => absent

def Door.code : Door → Byte
  | .locked => 0x00
  | .closed => 0x01
  | .opened => 0x02
  | .fault => 0x03
  | .unknown => 0x04

def Cycle.code : Cycle → Byte
  | .idle => 0x00
  | .releaseSent => 0x01
  | .cycling => 0x02

/-- A cabin's location: 0x00 NONE, 0x01 UNLOAD, 0x02 LOAD. -/
def locationCode : Option Zone → Byte
  | none => 0x00
  | some .unload => 0x01
  | some .load => 0x02

def Wheel.code : Wheel → Byte
  | .stowed => 0x00
  | .standby => 0x01
  | .running => 0x02
  | .stopping _ => 0x03
  | .held => 0x04
  | .braked => 0x05

def StopDest.code : StopDest → Byte
  | .held => 0x00
  | .standby => 0x01

/-- The stopping destination field; 0xFF when the state is not STOPPING (R139). -/
def Wheel.destCode : Wheel → Byte
  | .stopping d => d.code
  | _ => absent

def ServiceMode.code : ServiceMode → Byte
  | .closed => 0x00
  | .opened => 0x01
  | .clearDown => 0x02
  | .cleared => 0x03

/-- A permit's state field (R57). -/
def Permit.code : Permit → Byte
  | .clear => 0x00
  | .armed _ => 0x01
  | .spent _ => 0x02

/-- The cabin a permit is bound to (R57). -/
def Permit.cabin : Permit → Option Cabin
  | .clear => none
  | .armed k => some k
  | .spent k => some k

/-- The position mode field. -/
def Accepted.code : Accepted → Byte
  | .invalid => 0x00
  | .dual _ => 0x01
  | .single _ => 0x02

/-- The value of a valid accepted position (R29). -/
def Accepted.value : Accepted → Option Nat
  | .invalid => none
  | .dual p => some p
  | .single p => some p

/-- The key line field. -/
def keyCode : KeyLevel → Byte
  | .operate => 0x00
  | .maintain => 0x01

/-- A grade's octet. -/
def gradeOctet (g : Grade) : Byte := octet g.val

/-- The key a hold is looked up by (R125). -/
def Hold.key : Hold → HoldKey
  | .allStop _ _ => .allStop
  | .consoleHold => .consoleHold
  | .windStop => .windStop
  | .positionLost => .positionLost
  | .encoderDisagree => .encoderDisagree
  | .drivesLost => .drivesLost
  | .doorBreach _ => .doorBreach
  | .zoneOverrun z _ => .zoneOverrun z
  | .cabinOverload _ => .cabinOverload

/-- The hold kind codes. -/
def HoldKey.code : HoldKey → Byte
  | .allStop => 0x01
  | .consoleHold => 0x02
  | .windStop => 0x03
  | .positionLost => 0x04
  | .encoderDisagree => 0x05
  | .drivesLost => 0x06
  | .doorBreach => 0x07
  | .zoneOverrun _ => 0x08
  | .cabinOverload => 0x09

/-- The zone of a record: present for ZONE_OVERRUN (R123). -/
def Hold.zone : Hold → Option Zone
  | .zoneOverrun z _ => some z
  | _ => none

/-- The cabin of a record in responses and notices: the record's cabin, or the first listed cabin of
DOOR_BREACH (R134, R137). -/
def Hold.cabin : Hold → Option Cabin
  | .zoneOverrun _ k => some k
  | .cabinOverload k => some k
  | .doorBreach ks => ks.head?
  | _ => none

/-- The resume class of a kind is CONSOLE but for the two boarding holds (R124). -/
def HoldKey.console : HoldKey → Bool
  | .zoneOverrun _ => false
  | .cabinOverload => false
  | _ => true

/-- The effect class of a kind is HALT but for the two boarding holds (R124). -/
def HoldKey.halt : HoldKey → Bool
  | .zoneOverrun _ => false
  | .cabinOverload => false
  | _ => true

/-- Why a door command is refused (R64). -/
inductive DenialReason where
  | badCabin | wrongSource | noPosition | notInZone | wind | braked | stale | tooLate | outOfService
  | mode | noPermit
  deriving DecidableEq, Repr

def DenialReason.code : DenialReason → Byte
  | .badCabin => 0x01
  | .wrongSource => 0x02
  | .noPosition => 0x03
  | .notInZone => 0x04
  | .wind => 0x05
  | .braked => 0x06
  | .stale => 0x07
  | .tooLate => 0x08
  | .outOfService => 0x09
  | .mode => 0x0A
  | .noPermit => 0x0B

/-- The result of a request (R169). -/
inductive Result where
  | done | doneClamped | refusedSource | refusedState | refusedCondition | refusedLocked | refusedKey
  | busy | noCabin | badLength | badArgument | badKind
  deriving DecidableEq, Repr

def Result.code : Result → Byte
  | .done => 0x00
  | .doneClamped => 0x01
  | .refusedSource => 0x10
  | .refusedState => 0x11
  | .refusedCondition => 0x12
  | .refusedLocked => 0x13
  | .refusedKey => 0x14
  | .busy => 0x15
  | .noCabin => 0x16
  | .badLength => 0x20
  | .badArgument => 0x21
  | .badKind => 0x22

/-- An answer to a request: its result and its data (R168). -/
structure Reply where
  result : Result
  data : List Byte
  deriving DecidableEq, Repr

/-- An answer without data (R24). -/
def Reply.plain (r : Result) : Reply := { result := r, data := [] }

/-- DONE, or DONE_CLAMPED with the count when it is above 0 (R172, R24). -/
def Reply.clamped (count : Nat) : Reply :=
  if count = 0 then .plain .done else { result := .doneClamped, data := [octet count] }

/-! ### Notices (section 1.9) -/

/-- The cause of a MODE_CHANGED notice (R78). -/
inductive ModeCause where
  | request | wind | listEmpty
  deriving DecidableEq, Repr

def ModeCause.code : ModeCause → Byte
  | .request => 0x00
  | .wind => 0x01
  | .listEmpty => 0x02

/-- The cause of an emergency brake (R150). -/
inductive BrakeCause where
  | allStopRecord
  | overrun (zone : Zone) (cabin : Cabin)
  | overload (cabin : Cabin)
  | ceiling
  deriving DecidableEq, Repr

/-- Whether the cause is the emergency test of a rotation update (R150). -/
def BrakeCause.emergency : BrakeCause → Bool
  | .allStopRecord => false
  | _ => true

/-- The notices the part sends. -/
inductive Notice where
  | stateChanged (wheel : Wheel)
  | modeChanged (mode : ServiceMode) (cause : ModeCause)
  | gradeChanged (inForce computed : Grade)
  | holdRaised (what : Hold)
  | holdCleared (what : Hold)
  | breachCabinAdded (cabin : Cabin)
  | doorStale (cabin : Cabin)
  | uncommandedOpening (cabin : Cabin) (door : Door)
  | unknownOutside (cabin : Cabin)
  | positionMode (accepted : Accepted)
  | headsShort (valid : Nat)
  | driveReady (drive : Fin 4) (ready : Bool) (fault : Byte)
  | clearDownComplete
  | denied (what : DoorItemKind) (cabin : Byte) (reason : DenialReason)
  | emergencyBrake (cause : BrakeCause)
  | restarted
  deriving DecidableEq, Repr

/-- A notice's class (R177). -/
def Notice.cls : Notice → Nat
  | .stateChanged _ => 1
  | .modeChanged _ _ => 2
  | .gradeChanged _ _ => 3
  | .holdRaised _ => 4
  | .holdCleared _ => 4
  | .breachCabinAdded _ => 4
  | .doorStale _ => 5
  | .uncommandedOpening _ _ => 5
  | .unknownOutside _ => 5
  | .positionMode _ => 6
  | .headsShort _ => 6
  | .driveReady _ _ _ => 6
  | .clearDownComplete => 7
  | .denied _ _ _ => 8
  | .emergencyBrake _ => 9
  | .restarted => 10

/-- The five fields of a HOLD notice (R137). -/
def holdFields (h : Hold) : List Byte :=
  [h.key.code, zoneField h.zone, cabinField h.cabin] ++
    match h with
    | .allStop src reason => [src, reason]
    | _ => [absent, absent]

/-- A notice's kind code and its fields, in order. -/
def Notice.body : Notice → List Byte
  | .stateChanged w => [0x01, w.code, w.destCode]
  | .modeChanged m c => [0x01, m.code, c.code]
  | .gradeChanged g c => [0x01, gradeOctet g, gradeOctet c]
  | .holdRaised h => 0x01 :: holdFields h
  | .holdCleared h => 0x02 :: holdFields h
  | .breachCabinAdded k => 0x03 :: holdFields (.doorBreach [k])
  | .doorStale k => [0x01, cabinOctet k, Door.unknown.code]
  | .uncommandedOpening k d => [0x02, cabinOctet k, d.code]
  | .unknownOutside k => [0x03, cabinOctet k, Door.unknown.code]
  | .positionMode a => [0x01, a.code]
  | .headsShort n => [0x02, octet n]
  | .driveReady n r f => [0x03, octet n.val, yesNo r, f]
  | .clearDownComplete => [0x01]
  | .denied .lock k r => [0x02, k, r.code]
  | .denied _ k r => [0x01, k, r.code]
  | .emergencyBrake .allStopRecord => [0x01, 0x00, absent, absent]
  | .emergencyBrake (.overrun z k) => [0x01, 0x01, z.code, cabinOctet k]
  | .emergencyBrake (.overload k) => [0x01, 0x01, Zone.load.code, cabinOctet k]
  | .emergencyBrake .ceiling => [0x01, 0x01, absent, absent]
  | .restarted => [0x01]

/-- A notice's payload: class, kind, fields. -/
def Notice.payload (n : Notice) : List Byte := octet n.cls :: n.body

/-! ### The check and the reading of a received frame (R3, R4) -/

/-- One bit into the check register: generator x^16 + x^12 + x^5 + 1. -/
def checkBit (r : BitVec 16) (b : Bool) : BitVec 16 :=
  if r.msb != b then (r <<< 1) ^^^ 0x1021 else r <<< 1

/-- One octet into the check register, most significant bit first. -/
def checkOctet (r : BitVec 16) (o : Byte) : BitVec 16 :=
  [7, 6, 5, 4, 3, 2, 1, 0].foldl (fun r i => checkBit r (o.getLsbD i)) r

/-- The check over a list of octets: the register starts at 0xFFFF, no final inversion (R4). -/
def check (os : List Byte) : BitVec 16 := os.foldl checkOctet 0xFFFF

/-- The octets a frame's check runs over: destination, source, kind, length and payload (R4). -/
def Frame.body (f : Frame) : List Byte :=
  f.dest :: f.source :: f.kind :: octet f.payload.length :: f.payload

/-- All the octets of a frame as they stand on the ring, its check last, high octet first. -/
def Frame.octets (f : Frame) : List Byte := f.body ++ halfOctets (check f.body)

/-- The conditions of R3 on a frame whose length field and check agree with its octets. -/
def Frame.wellFormed (f : Frame) : Bool :=
  decide (f.payload.length ≤ 64) && decide (f.dest.toNat ≤ 63) && decide (f.dest.toNat ≠ 62) &&
    decide (f.source.toNat ≤ 61)

/-- The frame that the octets between a start mark and an end mark carry, or none where R3 discards
them. -/
def readFrame (os : List Byte) : Option Frame :=
  match os with
  | d :: s :: k :: l :: rest =>
    let f : Frame := { dest := d, source := s, kind := k, payload := rest.take l.toNat }
    if rest.length = l.toNat + 2 ∧ f.octets = os ∧ f.wellFormed then some f else none
  | _ => none

/-! ### The frames of the table's rows -/

def positionFrame (dst src : Byte) (pos : BitVec 24) (health : Byte) : Frame :=
  { dest := dst, source := src, kind := kindPosition, payload := octets3 pos.toNat ++ [health] }

def windFrame (dst src : Byte) (speed direction : BitVec 16) (health : Byte) : Frame :=
  { dest := dst, source := src, kind := kindWind
    payload := halfOctets speed ++ halfOctets direction ++ [health] }

def doorReportFrame (dst src cabin door occupancy : Byte) : Frame :=
  { dest := dst, source := src, kind := kindDoorReport, payload := [cabin, door, occupancy] }

def driveStatusFrame (dst src ready fault : Byte) (speed : BitVec 16) : Frame :=
  { dest := dst, source := src, kind := kindDriveStatus, payload := [ready, fault] ++ halfOctets speed }

def doorCommandFrame (dst src cabin action : Byte) : Frame :=
  { dest := dst, source := src, kind := kindDoorCommand, payload := [cabin, action] }

def allStopFrame (dst src : Byte) (payload : List Byte) : Frame :=
  { dest := dst, source := src, kind := kindAllStop, payload := payload }

def requestFrame (dst src tag kind : Byte) (args : List Byte) : Frame :=
  { dest := dst, source := src, kind := kindRequest, payload := tag :: kind :: args }

end Sys2Proof.Machine
end

