-- ==== Sys2Proof/Machine/Ops.lean ====
section
/-! DEFINITION. The shared operations over the tables' entries, the cabin, head and drive records, the
buffer and queues of the ring interface, the arbiter, and the frame of every step. -/

namespace Sys2Proof.Machine

/-! ### Reading the tables and records -/

/-- Parameter P<i> as it stands (R176). -/
def State.p (s : State) (i : Fin 28) : Nat := s.tables.params[i]

/-- The roster address of role i (R5). -/
def State.role (s : State) (i : Fin 14) : Byte := s.tables.roster[i]

/-- The role of drive n (R5). -/
def driveRole (n : Fin 4) : Fin 14 := ⟨4 + n.val, by omega⟩

/-- The role of wind head n (R5). -/
def headRole (n : Fin 4) : Fin 14 := ⟨10 + n.val, by omega⟩

def roleConsole : Fin 14 := 0
def roleUnloadGate : Fin 14 := 1
def roleLoadGate : Fin 14 := 2
def roleConcentrator : Fin 14 := 3
def roleEncoderA : Fin 14 := 8
def roleEncoderB : Fin 14 := 9

/-- The role of a zone's gate station (R64). -/
def gateRole : Zone → Fin 14
  | .unload => roleUnloadGate
  | .load => roleLoadGate

/-- The part's own station address, 32 plus the sampled strap value (R1). -/
def State.ownAddress (s : State) : Byte := octet (32 + s.lines.strap.toNat)

/-- The ZONES entry of a zone as it stands (R55). -/
def State.zone (s : State) (z : Zone) : ZoneEntry := s.tables.zones.get z

/-- Cabin k's dynamic record (R40). -/
def State.cabin (s : State) (k : Cabin) : CabinRecord := s.cabins[k]

/-- Replace cabin k's dynamic record. -/
def State.setCabin (s : State) (k : Cabin) (c : CabinRecord) : State :=
  s.setCabins (s.cabins.set k.val c)

/-- Cabin k's CABINS entry (R39). -/
def State.cabinEntry (s : State) (k : Cabin) : CabinEntry := s.tables.cabins[k]

/-- Wind head n's record (R95). -/
def State.head (s : State) (n : Fin 4) : Head := s.heads[n]

/-- Replace wind head n's record. -/
def State.setHead (s : State) (n : Fin 4) (h : Head) : State := s.setHeads (s.heads.set n.val h)

/-- Wind head n's HEADS entry (R93). -/
def State.headEntry (s : State) (n : Fin 4) : HeadEntry := s.tables.heads[n]

/-- Drive n's record (R159). -/
def State.drive (s : State) (n : Fin 4) : Drive := s.drives[n]

/-- Replace drive n's record. -/
def State.setDrive (s : State) (n : Fin 4) (d : Drive) : State := s.setDrives (s.drives.set n.val d)

/-- The cabins in order 0 to 47. -/
def allCabins : List Cabin := List.finRange 48

/-- The drives, or wind heads, in order 0 to 3. -/
def allFour : List (Fin 4) := List.finRange 4

/-- The two zones, UNLOAD first (log 10). -/
def bothZones : List Zone := [.unload, .load]

/-- Act for each element of a list in order. -/
def State.forEach {α : Type} (s : State) (xs : List α) (f : α → State → State) : State :=
  xs.foldl (fun s x => f x s) s

/-! ### The time base -/

/-- The time base moves on to the moment t; it never moves back (R1, log 1). -/
def State.advance (s : State) (t : Nat) : State := s.setLines { s.lines with now := max s.lines.now t }

/-- The age of a time on the time base. -/
def State.age (s : State) (taken : Nat) : Nat := s.lines.now - taken

/-! ### The outgoing arbiter (R23) -/

/-- The head frame of the highest-priority non-empty own-frame queue, and the ring without it. -/
def takeOwn (r : Ring) : Option (Frame × Ring) :=
  match r.driveSet with
  | f :: fs => some (f, { r with driveSet := fs })
  | [] =>
    match r.doorQueue with
    | i :: is => some (i.frame, { r with doorQueue := is })
    | [] =>
      match r.responses with
      | f :: fs => some (f, { r with responses := fs })
      | [] =>
        match r.notices with
        | f :: fs => some (f, { r with notices := fs })
        | [] => none

/-- Start the head own frame, or leave ring-out idle where there is none. -/
def startOwn (r : Ring) : Ring :=
  match takeOwn r with
  | some (f, r') => { r' with ringOut := .sending f false, ownDue := false }
  | none => r

/-- Whether any own-frame queue is not empty. -/
def ownWaiting (r : Ring) : Bool := (takeOwn r).isSome

/-- The arbiter's choice on an idle ring-out, cases 1 to 4 of R23. With own-due clear and a forwarded frame
waiting, case 2 goes before a brake set, where R166 has the brake set start at the first choice after the
frame in progress: DESIGN CHOICE (log 24). -/
def chooseFrame (r : Ring) : Ring :=
  if r.ownDue && ownWaiting r then startOwn r
  else
    match r.forward with
    | f :: fs => { r with forward := fs, ringOut := .sending f true }
    | [] => startOwn r

/-- Whether ring-out is idle (R23). -/
def RingOut.isIdle : RingOut → Bool
  | .idle => true
  | .sending _ _ => false

/-- The arbiter starts a waiting frame when ring-out is idle (R23). -/
def startIfIdle (r : Ring) : Ring := if r.ringOut.isIdle then chooseFrame r else r

/-- Ring-out finishes its frame: own-due is set at the end of a forwarded frame, and ring-out is idle
(R23). -/
def endSending (r : Ring) : Ring :=
  match r.ringOut with
  | .idle => r
  | .sending _ fwd => { r with ringOut := .idle, ownDue := r.ownDue || fwd }

/-! ### One step -/

/-- A step taken at the moment t outside reset: the time base moves on, the effect happens whole, and
then an idle ring-out starts a waiting frame (R23; log 4). While the reset line is low the part takes
and sends nothing (R2; log 17). -/
def inStep (t : Nat) (effect : State → State) (s : State) : State :=
  if s.lines.inReset then s
  else
    let s' := effect (s.advance t)
    s'.setRing (startIfIdle s'.ring)

/-- A frame ends on ring-in: one that was under way at the release of the reset line is discarded, and
reception begins with the next (R2; log 25). -/
def onFrame (effect : State → State) (s : State) : State :=
  if s.lines.underWay then s.setLines { s.lines with underWay := false } else effect s

/-- A step in which a frame ends on ring-in. -/
def frameStep (t : Nat) (effect : State → State) (s : State) : State := inStep t (onFrame effect) s

/-! ### The forward buffer and the queues -/

/-- Append to the forward buffer, or lose the frame when it holds 8 (R17). -/
def pushForward (f : Frame) (s : State) : State :=
  if s.ring.forward.length < Config.forwardRoom then
    s.setRing { s.ring with forward := s.ring.forward ++ [f] }
  else s

/-- An own frame, built whole when it is queued (R18). -/
def State.ownFrame (s : State) (dest kind : Byte) (payload : List Byte) : Frame :=
  { dest := dest, source := s.ownAddress, kind := kind, payload := payload }

/-- Whether an item of the door queue may be displaced by an arriving LOCK (R20). -/
def DoorItem.displaceable (i : DoorItem) : Bool := i.what != .lock

/-- The door queue after an item arrives (R20). -/
def arriveDoor (q : List DoorItem) (i : DoorItem) : List DoorItem :=
  if q.length < Config.doorRoom then q ++ [i]
  else if i.what = .lock ∧ q.any DoorItem.displaceable then q.eraseP DoorItem.displaceable ++ [i]
  else q

/-- An item arrives at the door queue (R20). -/
def pushDoor (i : DoorItem) (s : State) : State :=
  s.setRing { s.ring with doorQueue := arriveDoor s.ring.doorQueue i }

/-- Append a RESPONSE to the response queue (R21, R168). -/
def pushResponse (dest tag kind : Byte) (r : Reply) (s : State) : State :=
  let f := s.ownFrame dest kindResponse (tag :: kind :: r.result.code :: r.data)
  s.setRing { s.ring with responses := s.ring.responses ++ [f] }

/-- Whether P26 masks a notice's class (R177). -/
def State.masks (s : State) (n : Notice) : Bool :=
  decide (1 ≤ n.cls) && decide (n.cls ≤ 7) && !(Nat.testBit (s.p 26) n.cls)

/-- Queue a notice to the console: the mask, the destination, the queue (R177, R22, R18). -/
def notify (n : Notice) (s : State) : State :=
  if s.masks n then s
  else if s.role roleConsole = Config.noStation then s
  else if s.ring.notices.length < Config.noticeRoom then
    let f := s.ownFrame (s.role roleConsole) kindNotice n.payload
    s.setRing { s.ring with notices := s.ring.notices ++ [f] }
  else s.setRing { s.ring with noticeOverflow := true }

/-! ### The drive set (R19, R165, R166) -/

/-- Whether P27 is GANGED (R176). -/
def State.ganged (s : State) : Bool := s.p 27 == 0

/-- The DRIVE_REF of one drive, none where its role is 62 (R165). Brake demand and await-apply go out as 0x01 for
yes and 0x00 for no: DESIGN CHOICE (log 26). -/
def driveRef (s : State) (v : Nat) (brake : Bool) (n : Fin 4) : Option Frame :=
  if s.role (driveRole n) = Config.noStation then none
  else some (s.ownFrame (s.role (driveRole n)) kindDriveRef (octets2 v ++ [yesNo brake, yesNo s.ganged]))

/-- The DRIVE_APPLY, when P27 is GANGED (R165). -/
def driveApply (s : State) : List Frame :=
  if s.ganged then [s.ownFrame Config.broadcast kindDriveApply []] else []

/-- The part's own ALL_STOP with reason BRAKE_POINT (R19, R166). -/
def ownAllStop (s : State) : Frame := s.ownFrame Config.broadcast kindAllStop [reasonBrakePoint]

/-- Whether a frame is an ALL_STOP. -/
def isAllStop (f : Frame) : Bool := f.kind == kindAllStop

/-- The ALL_STOP frames of the drive set after a new set: an unsent one is kept, and an emergency adds
one where none waits (R19). -/
def keptAllStop (emergency : Bool) (s : State) : List Frame :=
  let kept := s.ring.driveSet.filter isAllStop
  if emergency && kept.isEmpty then [ownAllStop s] else kept

/-- Queue a drive set: it replaces the unsent references and apply frame of the set before (R19). -/
def queueDriveSet (v : Nat) (brake emergency : Bool) (s : State) : State :=
  s.setRing { s.ring with
    driveSet := allFour.filterMap (driveRef s v brake) ++ driveApply s ++ keptAllStop emergency s }

end Sys2Proof.Machine
end

