-- ==== Sys2Proof/Machine/Flags.lean ====
section
/-! DEFINITION. The conditions the rules compute from the state: freshness, validity, coordinates,
admission, rest, the overrun condition and the ready count. -/

namespace Sys2Proof.Machine

/-! ### The accepted position and coordinates (R29, R31) -/

/-- Whether the accepted position is valid (R29). -/
def Accepted.valid (a : Accepted) : Bool := a.value.isSome

/-- Whether the accepted position is valid, in a state. -/
def State.positionValid (s : State) : Bool := s.tracker.accepted.valid

/-- Cabin k's platform coordinate at rim position p: (p − 8,192 × k) mod 393,216 (R31). -/
def coordinate (p : Nat) (k : Cabin) : Nat :=
  (((p : Int) - Config.pitch * k.val) % Config.circumference).toNat

/-- Cabin k's platform coordinate while the position is valid (R31). -/
def State.coord (s : State) (k : Cabin) : Option Nat := s.tracker.accepted.value.map (coordinate · k)

/-- The forward distance from a coordinate to a platform point (R31). -/
def forwardDistance (c x : Nat) : Nat := (((x : Int) - c) % Config.circumference).toNat

/-- The signed distance from a coordinate to a platform point (R31). -/
def signedDistance (c : Nat) (x : Int) : Int :=
  (x - c + 196608) % Config.circumference - 196608

/-- Whether a coordinate lies in a zone: start ≤ c < end (R32). -/
def ZoneEntry.holds (z : ZoneEntry) (c : Nat) : Bool := decide (z.start ≤ c) && decide (c < z.finish)

/-- Whether a coordinate in a zone is past its cutoff: at least end − cutoff (R32). -/
def ZoneEntry.pastCutoff (z : ZoneEntry) (c : Nat) : Bool := decide (z.finish - z.cutoff ≤ c)

/-- A zone's stop point, end − P25 (R75). -/
def State.stopPoint (s : State) (z : Zone) : Int := (s.zone z).finish - s.p 25

/-- A zone's occupancy record (R32). -/
def State.occ (s : State) (z : Zone) : Occupancy := s.tracker.occ.get z

/-! ### Doors and zones -/

/-- CLOSED, OPEN or FAULT: a door that is reported not locked (R46, R48). -/
def Door.notLocked : Door → Bool
  | .closed => true
  | .opened => true
  | .fault => true
  | _ => false

/-- Whether a cabin is both LOCKED and IDLE (R70, R72, R73). -/
def CabinRecord.secured (c : CabinRecord) : Bool := c.door == .locked && c.cycle == .idle

/-- Whether a service mode admits a zone for release and arming (R64, R78). -/
def ServiceMode.admits : ServiceMode → Zone → Bool
  | .opened, _ => true
  | .clearDown, .unload => true
  | _, _ => false

/-- Whether a release made at `releaseTime` lies at least the release lapse back (R45; log 20 for a
release with no time). -/
def State.releaseLapsed (s : State) : Option Nat → Bool
  | some r => decide (Config.releaseLapse ≤ s.age r)
  | none => true

/-! ### Ages -/

/-- Whether a time was taken and its age exceeds a limit in ms. -/
def State.olderThan (s : State) (taken : Option Nat) (limit : Nat) : Bool :=
  match taken with
  | some t => decide (limit < s.age t)
  | none => false

/-! ### The wheel -/

/-- RUNNING and STOPPING are the moving states (R139). -/
def Wheel.moving : Wheel → Bool
  | .running => true
  | .stopping _ => true
  | _ => false

/-- The state a stop with a destination enters (R149). -/
def StopDest.rest : StopDest → Wheel
  | .held => .held
  | .standby => .standby

/-- Brake demand is set in the states at rest (R156). -/
def Wheel.brakeDemand (w : Wheel) : Bool := !w.moving

/-- A stopping wheel has come to rest: V_cmd is 0 and every fresh drive last reported at most 16
speed units (R149; with no fresh drive the second half holds of none). -/
def State.atRest (s : State) : Bool :=
  s.rot.vCmd == 0 && allFour.all (fun n => !(s.drive n).fresh || decide ((s.drive n).speed ≤ 16))

/-! ### The drives -/

/-- A drive's readiness as derived (R162). -/
def Drive.derivedReady (d : Drive) : Bool := d.fresh && d.reportedReady && d.fault == 0

/-- The ready count (R162). -/
def State.readyCount (s : State) : Nat := allFour.countP (fun n => (s.drive n).ready)

/-! ### The hold list -/

/-- The record a key is looked up to (R125). -/
def State.holdRecord (s : State) (key : HoldKey) : Option HoldRecord :=
  s.holds.records.find? (fun r => r.what.key == key)

/-- Whether a record of a key stands. -/
def State.holdsKey (s : State) (key : HoldKey) : Bool := (s.holdRecord key).isSome

/-- Whether the hold list is empty (R136). -/
def State.noHolds (s : State) : Bool := s.holds.records.isEmpty

/-- Whether any HALT record stands (R136). -/
def State.haltStands (s : State) : Bool := s.holds.records.any (fun r => r.what.key.halt)

/-- The zone and cabin of a BRAKE_POINT record: its own zone, or LOAD for CABIN_OVERLOAD (R75). -/
def Hold.brakePoint : Hold → Option (Zone × Cabin)
  | .zoneOverrun z k => some (z, k)
  | .cabinOverload k => some (.load, k)
  | _ => none

/-! ### Wind heads (R97) -/

/-- The four states of a head (R97). -/
inductive HeadState where
  | disabled | stale | warming | valid
  deriving DecidableEq, Repr

def HeadState.code : HeadState → Byte
  | .disabled => 0x00
  | .stale => 0x01
  | .warming => 0x02
  | .valid => 0x03

/-- Head n's state (R97). -/
def State.headState (s : State) (n : Fin 4) : HeadState :=
  if !(s.headEntry n).enabled then .disabled
  else if !(s.head n).fresh then .stale
  else if (s.head n).entered < Config.gustSamples then .warming
  else .valid

/-- Whether head n is valid (R97). -/
def State.headValid (s : State) (n : Fin 4) : Bool := s.headState n == .valid

end Sys2Proof.Machine
end

