-- ==== Sys2Proof/Machine/Wheel.lean ====
section
/-! DEFINITION. The rotation controller's changes of wheel state (R139, R142, R143, R147 to R150). -/

namespace Sys2Proof.Machine

/-- Whether a wheel state has STOP pending (R139). -/
def Wheel.pendsStop : Wheel → Bool
  | .stopping .standby => true
  | _ => false

/-- The wheel takes a state; STOP pending goes with it (R139). -/
def putWheel (w : Wheel) (s : State) : State :=
  s.setRot { s.rot with wheel := w, stopPending := w.pendsStop }

/-- A change of the wheel state, or of the stopping destination, with its notice (R139). -/
def changeWheel (w : Wheel) (s : State) : State := notify (.stateChanged w) (putWheel w s)

/-- The end of stopping is judged: a STOPPING wheel at rest enters its destination (R149). -/
def judgeEnd (s : State) : State :=
  match s.rot.wheel with
  | .stopping d => if s.atRest then changeWheel d.rest s else s
  | _ => s

/-- An entry to STOPPING, at which the end of stopping is judged (R149). -/
def enterStopping (d : StopDest) (s : State) : State := judgeEnd (changeWheel (.stopping d) s)

/-- The entry to BRAKED (R150): state, V_cmd, brake set, then the two notices. -/
def enterBraked (cause : BrakeCause) (s : State) : State :=
  let s := putWheel .braked s
  let s := s.setRot { s.rot with vCmd := 0 }
  let s := queueDriveSet 0 true cause.emergency s
  notify (.emergencyBrake cause) (notify (.stateChanged .braked) s)

/-- What the rotation controller does at a raise that creates a record (R147). -/
def onRaise (key : HoldKey) (s : State) : State :=
  match s.rot.wheel with
  | .running => if key = .allStop then enterBraked .allStopRecord s else enterStopping .held s
  | .stopping _ => if key = .allStop then enterBraked .allStopRecord s else s
  | _ => s

/-- What the rotation controller does at a clear that removes a record (R148). -/
def onClear (s : State) : State :=
  if s.noHolds && !s.holds.resumeRequired then
    match s.rot.wheel with
    | .stopping .held => changeWheel .running s
    | .held => changeWheel .running s
    | _ => s
  else s

/-- A stop with destination STANDBY: the effects of R142 and R143. -/
def stopToStandby (s : State) : State :=
  match s.rot.wheel with
  | .running => enterStopping .standby s
  | .stopping .held => changeWheel (.stopping .standby) s
  | .held => changeWheel .standby s
  | _ => s

end Sys2Proof.Machine
end

