-- ==== Sys2Proof/Machine/Holds.lean ====
section
/-! DEFINITION. The hold list's raises and clears (R125 to R128). -/

namespace Sys2Proof.Machine

/-- Set the resume-required flag to a value (R135). -/
def putResume (b : Bool) (s : State) : State := s.setHolds { s.holds with resumeRequired := b }

/-- Append a new record and set resume-required for a CONSOLE-class kind (R125, steps 1 and 2). -/
def appendHold (h : Hold) (s : State) : State :=
  s.setHolds
    { records := s.holds.records ++ [{ what := h, raised := s.lines.now, acked := false }]
      resumeRequired := s.holds.resumeRequired || h.key.console }

/-- A raise: a new record with its notice and hand-over, or nothing where a record of that key stands
(R125). -/
def raiseHold (h : Hold) (s : State) : State :=
  if s.holdsKey h.key then s
  else onRaise h.key (notify (.holdRaised h) (appendHold h s))

/-- The record with a cabin appended to a DOOR_BREACH list (R126). -/
def HoldRecord.addBreach (k : Cabin) (r : HoldRecord) : HoldRecord :=
  match r.what with
  | .doorBreach ks => { r with what := .doorBreach (ks ++ [k]) }
  | _ => r

/-- The cabins of the DOOR_BREACH record, in detection order; none without a record (R126, R134). -/
def State.breachCabins (s : State) : List Cabin :=
  match s.holdRecord .doorBreach with
  | some { what := .doorBreach ks, .. } => ks
  | _ => []

/-- A DOOR_BREACH raise naming a cabin (R126). -/
def raiseBreach (k : Cabin) (s : State) : State :=
  if s.holdsKey .doorBreach then
    if k ∈ s.breachCabins then s
    else
      notify (.breachCabinAdded k)
        (s.setHolds { s.holds with records := s.holds.records.map (HoldRecord.addBreach k) })
  else raiseHold (.doorBreach [k]) s

/-- Remove the record of a key. -/
def removeHold (key : HoldKey) (s : State) : State :=
  s.setHolds { s.holds with records := s.holds.records.filter (fun r => r.what.key != key) }

/-- A clear: the record of the key is removed, its notice queued and the change handed to the rotation
controller; nothing without a record (R128). -/
def clearHold (key : HoldKey) (s : State) : State :=
  match s.holdRecord key with
  | none => s
  | some r => onClear (notify (.holdCleared r.what) (removeHold key s))

/-- The owner's clear of CABIN_OVERLOAD, which applies only to a record naming the cabin (R128, R52). -/
def clearOverload (k : Cabin) (s : State) : State :=
  match s.holdRecord .cabinOverload with
  | some { what := .cabinOverload k', .. } => if k' = k then clearHold .cabinOverload s else s
  | _ => s

/-- The record of a key becomes acknowledged (R132). -/
def markAcked (key : HoldKey) (s : State) : State :=
  s.setHolds { s.holds with
    records := s.holds.records.map (fun r => if r.what.key = key then { r with acked := true } else r) }

end Sys2Proof.Machine
end

