-- ==== Sys2Proof/Machine/Gate.lean ====
section
/-! DEFINITION. The release gate: permits (R57 to R62), the overrun test and its records (R70 to R74). -/

namespace Sys2Proof.Machine

/-! ### Permits -/

/-- A permit bound to a cabin becomes CLEAR (R60, R61). -/
def Permit.releaseCabin (k : Cabin) (p : Permit) : Permit := if p.cabin = some k then .clear else p

/-- A completion or an out-of-service event of a cabin clears the permit bound to it (R60, R61). -/
def clearPermitsOf (k : Cabin) (s : State) : State :=
  s.setPermits { unload := s.permits.unload.releaseCabin k, load := s.permits.load.releaseCabin k }

/-- A zone exit clears the zone's permit where it is bound to the cabin (R60). -/
def clearPermitAt (z : Zone) (k : Cabin) (s : State) : State :=
  s.setPermits (s.permits.set z ((s.permits.get z).releaseCabin k))

/-- A change of the grade in force to 4 clears both permits (R61). -/
def clearBothPermits (s : State) : State := s.setPermits { unload := .clear, load := .clear }

/-- An ARMED permit of a zone that a mode does not allow becomes CLEAR (R62). -/
def Permit.underMode (m : ServiceMode) (z : Zone) (p : Permit) : Permit :=
  match p with
  | .armed _ => if m.admits z then p else .clear
  | _ => p

/-- The gate takes a change of the service mode (R62). -/
def gateModeChange (m : ServiceMode) (s : State) : State :=
  s.setPermits
    { unload := s.permits.unload.underMode m .unload, load := s.permits.load.underMode m .load }

/-- A permit ARMED for a forwarded cabin becomes SPENT for it (R59). -/
def Permit.spend (k : Cabin) (p : Permit) : Permit := if p = .armed k then .spent k else p

/-- The gate forwards an UNLOCK for a cabin in a zone: its permit (R59). -/
def spendPermit (z : Zone) (k : Cabin) (s : State) : State :=
  s.setPermits (s.permits.set z ((s.permits.get z).spend k))

/-! ### Zone overrun -/

/-- The cabin for which a zone's overrun condition holds: its occupant past the cutoff, not both LOCKED
and IDLE (R70). -/
def State.overrunCabin (s : State) (z : Zone) : Option Cabin :=
  match s.occ z with
  | { occupant := some k, past := true } => if (s.cabin k).secured then none else some k
  | _ => none

/-- The overrun test of a zone: it raises ZONE_OVERRUN where the condition holds (R70, R71). -/
def testOverrun (z : Zone) (s : State) : State :=
  match s.overrunCabin z with
  | some k => raiseHold (.zoneOverrun z k) s
  | none => s

/-- The overrun test at an event of a cabin: of the zone it is located in, as its occupant (R70; log
11). -/
def testCabin (k : Cabin) (s : State) : State :=
  match (s.cabin k).location with
  | some z => if (s.occ z).occupant = some k then testOverrun z s else s
  | none => s

/-- A ZONE_OVERRUN record is removed, and the zone's present occupant is tested (R72, R73). -/
def clearOverrun (z : Zone) (s : State) : State := testOverrun z (clearHold (.zoneOverrun z) s)

/-- The cabin a zone's ZONE_OVERRUN record names. -/
def State.overrunRecordCabin (s : State) (z : Zone) : Option Cabin :=
  match s.holdRecord (.zoneOverrun z) with
  | some r => r.what.cabin
  | none => none

/-- At a report of its cabin, secured, an AUTO zone's record is cleared (R72). -/
def autoClear (z : Zone) (k : Cabin) (s : State) : State :=
  if s.overrunRecordCabin z = some k ∧ (s.zone z).release = .auto ∧ (s.cabin k).secured then
    clearOverrun z s
  else s

/-- The gate takes an updated record after a DOOR_REPORT: R72 for each zone's record, then the test of
R70 (log 12). -/
def gateReport (k : Cabin) (s : State) : State :=
  testCabin k (autoClear .load k (autoClear .unload k s))

/-- The gate takes a change of a door cycle (R47). -/
def gateCycleChange (k : Cabin) (s : State) : State := testCabin k s

/-- The gate takes a completion: the test, and the permit bound to the cabin is consumed (R47, R60). -/
def gateCompletion (k : Cabin) (s : State) : State := clearPermitsOf k (testCabin k s)

end Sys2Proof.Machine
end

