-- ==== Sys2Proof/Machine/Service.lean ====
section
/-! DEFINITION. The service sequencer: the service mode, the clear-down list and F_mode (R78 to R91). -/

namespace Sys2Proof.Machine

/-! ### Order keys and lists (R85) -/

/-- A cabin's order key at rim position p: the forward distance to the UNLOAD end, a full revolution
where that is 0 (R85). -/
def orderKey (p unloadEnd : Nat) (k : Cabin) : Nat :=
  let d := forwardDistance (coordinate p k) unloadEnd
  if d = 0 then Config.circumference else d

/-- Place a cabin before the first listed cabin whose key is greater than its own, or at the tail
(R86). -/
def insertByKey (key : Cabin → Nat) (k : Cabin) : List Cabin → List Cabin
  | [] => [k]
  | x :: xs => if key k < key x then k :: x :: xs else x :: insertByKey key k xs

/-- A list in ascending key order (R84, R89). -/
def sortByKey (key : Cabin → Nat) : List Cabin → List Cabin
  | [] => []
  | k :: ks => insertByKey key k (sortByKey key ks)

/-- The order key of the present position, while it is valid (R85). -/
def State.keyOf (s : State) : Option (Cabin → Nat) :=
  s.tracker.accepted.value.map (fun p => orderKey p (s.zone .unload).finish)

/-- The clear-down list in key order while the position is valid (R84, R89). -/
def State.ordered (s : State) (ks : List Cabin) : List Cabin :=
  match s.keyOf with
  | some key => sortByKey key ks
  | none => ks

/-- The cabins whose recorded occupancy is above 0, in cabin order (R84). -/
def State.occupied (s : State) : List Cabin := allCabins.filter (fun k => decide (0 < (s.cabin k).occupancy))

/-- Replace the clear-down list. -/
def putList (ks : List Cabin) (s : State) : State := s.setService { s.service with list := ks }

/-! ### Changes of the service mode (R78) -/

/-- A change of the service mode: the notice, then the hand-over to the release gate (R78). -/
def changeMode (m : ServiceMode) (cause : ModeCause) (s : State) : State :=
  gateModeChange m (notify (.modeChanged m cause) (s.setService { s.service with mode := m }))

/-- The completion of clear-down (R91). -/
def completeClearDown (s : State) : State :=
  let s := s.setService { s.service with mode := .cleared }
  let s := notify (.modeChanged .cleared .listEmpty) s
  let s := notify .clearDownComplete s
  stopToStandby (gateModeChange .cleared s)

/-- The check for completion: CLEARDOWN with an empty list (R91). -/
def checkComplete (s : State) : State :=
  if s.service.mode = .clearDown ∧ s.service.list = [] then completeClearDown s else s

/-- The entry to CLEARDOWN (R84): mode, list, notice, gate, completion. -/
def enterClearDown (cause : ModeCause) (s : State) : State :=
  let s := s.setService { s.service with mode := .clearDown, list := s.ordered s.occupied }
  checkComplete (gateModeChange .clearDown (notify (.modeChanged .clearDown cause) s))

/-- The sequencer takes a change of the grade in force (R83). -/
def sequencerGrade (g : Grade) (s : State) : State :=
  if s.service.mode = .opened ∧ 3 ≤ g.val then enterClearDown .wind s else s

/-! ### Reports and exits in CLEARDOWN -/

/-- The sequencer takes an updated cabin record (R86, R88). -/
def sequencerReport (k : Cabin) (s : State) : State :=
  if s.service.mode = .clearDown ∧ 0 < (s.cabin k).occupancy ∧ k ∉ s.service.list then
    match s.keyOf with
    | some key => putList (insertByKey key k s.service.list) s
    | none => putList (s.service.list ++ [k]) s
  else s

/-- Whether an exit is a passage: the signed distance to the UNLOAD end is 0 or less (R87). -/
def State.passed (s : State) (k : Cabin) : Bool :=
  match s.coord k with
  | some c => decide (signedDistance c (s.zone .unload).finish ≤ 0)
  | none => false

/-- A passage of a listed cabin: removal and completion check, or the move to the tail (R87). -/
def passage (k : Cabin) (s : State) : State :=
  if (s.cabin k).occupancy = 0 then checkComplete (putList (s.service.list.erase k) s)
  else putList (s.service.list.erase k ++ [k]) s

/-- The sequencer takes an UNLOAD exit; `moved` says that it was delivered by a re-formation with the
position valid before and after (R87, R88). -/
def sequencerExit (moved : Bool) (k : Cabin) (s : State) : State :=
  if s.service.mode = .clearDown ∧ moved ∧ s.passed k ∧ k ∈ s.service.list then passage k s else s

/-! ### F_mode (R89, R90) -/

/-- The list is reordered before F_mode is answered (R89). -/
def reorderList (s : State) : State :=
  if s.service.mode = .clearDown then putList (s.ordered s.service.list) s else s

/-- F_mode as answered, after the reordering (R90). -/
def State.modeFactor (s : State) : Nat :=
  match s.service.mode, s.keyOf, s.service.list with
  | .clearDown, some key, k :: _ => if s.p 6 * Config.pitch < key k then s.p 5 else 100
  | _, _, _ => 100

/-- The reading of F_mode at a rotation update (R89, R90). -/
def readFMode (s : State) : State :=
  let s := reorderList s
  s.setService { s.service with fMode := s.modeFactor }

end Sys2Proof.Machine
end

