-- ==== Sys2Proof/Machine/CabinRecords.lean ====
section
/-! DEFINITION. The cabin records: door reports, staleness, location, the door cycle, breach and
overload (R40 to R52), and the zone events as their receivers take them (R33). -/

namespace Sys2Proof.Machine

/-! ### The door cycle (R45 to R47) -/

/-- A forwarded UNLOCK starts the cycle (R45). -/
def startCycle (k : Cabin) (s : State) : State :=
  s.setCabin k { s.cabin k with cycle := .releaseSent, releaseTime := some s.lines.now }

/-- A cycle becomes IDLE and its release time none (R45). -/
def endCycle (k : Cabin) (s : State) : State :=
  s.setCabin k { s.cabin k with cycle := .idle, releaseTime := none }

/-- An uncommanded opening: CYCLING with no release time, the notice, the hand-over (R46). -/
def uncommandedOpening (k : Cabin) (s : State) : State :=
  let s := s.setCabin k { s.cabin k with cycle := .cycling, releaseTime := none }
  gateCycleChange k (notify (.uncommandedOpening k (s.cabin k).door) s)

/-- The cycle at a report, by the reported door state now recorded (R45, R46). -/
def advanceCycle (k : Cabin) (s : State) : State :=
  let c := s.cabin k
  match c.cycle with
  | .idle => if c.door.notLocked ∧ c.location ≠ none then uncommandedOpening k s else s
  | .releaseSent =>
    if c.door.notLocked then gateCycleChange k (s.setCabin k { c with cycle := .cycling })
    else if s.releaseLapsed c.releaseTime then gateCompletion k (endCycle k s)
    else s
  | .cycling => if c.door.notLocked then s else gateCompletion k (endCycle k s)

/-! ### Overload (R51, R52) -/

/-- Overload as judged at a report (R51, R52). -/
def judgeOverload (k : Cabin) (s : State) : State :=
  let c := s.cabin k
  if c.occupancy ≤ (s.cabinEntry k).capacity then
    if c.overloaded then clearOverload k (s.setCabin k { c with overloaded := false }) else s
  else if c.door = .locked ∧ c.location = some .load ∧ !c.overloaded then
    raiseHold (.cabinOverload k) (s.setCabin k { c with overloaded := true })
  else s

/-! ### Breach (R48 to R50) -/

/-- A report is judged for breach (R48). -/
def judgeBreach (k : Cabin) (s : State) : State :=
  if s.positionValid ∧ (s.cabin k).location = none ∧ (s.cabin k).door.notLocked then raiseBreach k s
  else s

/-- A zone exit is judged for breach while the position is valid (R49). -/
def judgeExitBreach (k : Cabin) (s : State) : State :=
  if s.positionValid then
    match (s.cabin k).door with
    | .locked => s
    | .unknown => notify (.unknownOutside k) s
    | _ => raiseBreach k s
  else s

/-- The sweep of the cabins outside the zones when the position returns (R50). -/
def sweepBreach (s : State) : State := s.forEach allCabins judgeBreach

/-! ### Reports and staleness -/

/-- The record at a report: door state, time and occupancy clamped to 40 (R41, steps 1 and 2). -/
def recordReport (k : Cabin) (d : Door) (occupancy : Nat) (s : State) : State :=
  s.setCabin k { s.cabin k with
    door := d, lastReport := some s.lines.now, occupancy := min occupancy 40 }

/-- A DOOR_REPORT of a cabin: the five steps, then the hand-over to gate and sequencer (R41). -/
def cabinReport (k : Cabin) (d : Door) (occupancy : Nat) (s : State) : State :=
  let s := recordReport k d occupancy s
  let s := judgeOverload k s
  let s := advanceCycle k s
  let s := judgeBreach k s
  sequencerReport k (gateReport k s)

/-- A door becomes stale: UNKNOWN, the notice, the hand-over to the gate (R42). -/
def doorStale (k : Cabin) (s : State) : State :=
  let s := s.setCabin k { s.cabin k with door := .unknown }
  testCabin k (notify (.doorStale k) s)

/-- Whether a door is believed and older than a stale time (R42; log 18). -/
def State.doorOverdue (s : State) (k : Cabin) (limit : Nat) : Bool :=
  (s.cabin k).door != .unknown && s.olderThan (s.cabin k).lastReport limit

/-- A stale event of one cabin: taken when its age exceeds P16 (R42; log 14). -/
def staleEvent (k : Cabin) (s : State) : State :=
  if s.doorOverdue k (s.p 16) then doorStale k s else s

/-- A CONCENTRATOR change for one cabin: no report time, and a believed door becomes stale (R43). -/
def forgetDoor (k : Cabin) (s : State) : State :=
  let s := s.setCabin k { s.cabin k with lastReport := none }
  if (s.cabin k).door = .unknown then s else doorStale k s

/-- A CONCENTRATOR change: every cabin, in cabin order (R43; log 21). -/
def forgetDoors (s : State) : State := s.forEach allCabins forgetDoor

/-- A load that lowered P16 makes overdue doors stale, in cabin order (R43). -/
def stalenessLowered (s : State) : State := s.forEach allCabins staleEvent

/-! ### Zone events (R33, R44) -/

/-- The cabin records take a zone exit: location NONE, the cycle ends, breach (R44, R45, R49). -/
def cabinExit (k : Cabin) (s : State) : State :=
  let c := s.cabin k
  let s := s.setCabin k { c with location := none }
  let s := if c.cycle = .idle then s else gateCycleChange k (endCycle k s)
  judgeExitBreach k s

/-- A zone exit as its receivers take it: cabin records, gate, and for UNLOAD the sequencer (R33). -/
def zoneExit (moved : Bool) (z : Zone) (k : Cabin) (s : State) : State :=
  let s := clearPermitAt z k (cabinExit k s)
  if z = .unload then sequencerExit moved k s else s

/-- A zone entry: the location, and an uncommanded opening where the door is not locked (R44). -/
def zoneEntry (z : Zone) (k : Cabin) (s : State) : State :=
  let s := s.setCabin k { s.cabin k with location := some z }
  if (s.cabin k).cycle = .idle ∧ (s.cabin k).door.notLocked then uncommandedOpening k s else s

end Sys2Proof.Machine
end

