-- ==== Sys2Proof/Machine/Positions.lean ====
section
/-! DEFINITION. The position tracker: head records, the comparison, the accepted position and zone
membership (R25 to R37). -/

namespace Sys2Proof.Machine

/-! ### Head records -/

/-- An encoder head's record. -/
def Tracker.head (tr : Tracker) : EncoderId → EncoderHead
  | .a => tr.headA
  | .b => tr.headB

/-- Replace an encoder head's record. -/
def Tracker.setHead (tr : Tracker) (e : EncoderId) (h : EncoderHead) : Tracker :=
  match e with
  | .a => { tr with headA := h }
  | .b => { tr with headB := h }

/-- Whether at least one head is fresh (R30). -/
def Tracker.anyFresh (tr : Tracker) : Bool := tr.headA.fresh || tr.headB.fresh

/-- Whether both heads are fresh (R26). -/
def Tracker.bothFresh (tr : Tracker) : Bool := tr.headA.fresh && tr.headB.fresh

/-- A head record after an accepted report (R26, step 1). -/
def EncoderHead.report (h : EncoderHead) (p now : Nat) : Health → EncoderHead
  | .ok => { latest := some p, taken := some now, health := .ok, fresh := true }
  | .degraded => { h with health := .degraded, fresh := false }

/-! ### The agreement comparison (R28) -/

/-- The circular difference of two positions (R28). -/
def circularDifference (a b : Nat) : Nat :=
  let d := max a b - min a b
  min d (Config.circumference - d)

/-- The tracker after a comparison whose circular difference is d, with tolerance P14 (R28). -/
def Tracker.compared (tr : Tracker) (d tolerance : Nat) : Tracker :=
  if d ≤ tolerance then { tr with disagreements := 0, latch := false }
  else
    let n := min 3 (tr.disagreements + 1)
    { tr with disagreements := n, latch := tr.latch || n == 3 }

/-- The comparison, run when both heads are fresh; a latch newly set raises ENCODER_DISAGREE (R28; log
8). -/
def compareHeads (s : State) : State :=
  match s.tracker.bothFresh, s.tracker.headA.latest, s.tracker.headB.latest with
  | true, some a, some b =>
    let tr := s.tracker.compared (circularDifference a b) (s.p 14)
    let s' := s.setTracker tr
    if tr.latch && !s.tracker.latch then raiseHold .encoderDisagree s' else s'
  | _, _, _ => s

/-! ### Zone membership (R32 to R37) -/

/-- The cabin a zone contains at rim position p (R32). -/
def occupantAt (p : Nat) (z : ZoneEntry) : Option Cabin :=
  allCabins.find? (fun k => z.holds (coordinate p k))

/-- A zone's occupancy record at rim position p (R32). -/
def occupancyAt (p : Nat) (z : ZoneEntry) : Occupancy :=
  match occupantAt p z with
  | some k => { occupant := some k, past := z.pastCutoff (coordinate p k) }
  | none => emptyOccupancy

/-- Both occupancy records at an accepted position: empty while it is invalid (R32). -/
def membership (zones : ByZone ZoneEntry) (a : Accepted) : ByZone Occupancy :=
  match a.value with
  | some p => { unload := occupancyAt p zones.unload, load := occupancyAt p zones.load }
  | none => emptyZones

/-- The zone exit of one zone, where its occupant changed (R33, step 1). -/
def deliverExit (moved : Bool) (old new : ByZone Occupancy) (z : Zone) (s : State) : State :=
  match (old.get z).occupant with
  | some k => if (new.get z).occupant = some k then s else zoneExit moved z k s
  | none => s

/-- The zone entry of one zone, where its occupant changed (R33, step 2). -/
def deliverEntry (old new : ByZone Occupancy) (z : Zone) (s : State) : State :=
  match (new.get z).occupant with
  | some k => if (old.get z).occupant = some k then s else zoneEntry z k s
  | none => s

/-- The cutoff crossing of one zone, where its occupant is past the cutoff and was not so recorded
before; the gate alone acts on it (R33, step 3; R34; R70). -/
def deliverCrossing (old new : ByZone Occupancy) (z : Zone) (s : State) : State :=
  if (new.get z).past ∧ ¬(old.get z = new.get z) then testOverrun z s else s

/-- Store new occupancy records. -/
def putOcc (new : ByZone Occupancy) (s : State) : State := s.setTracker { s.tracker with occ := new }

/-- Deliver the exits and then the entries that lead from one membership to another (R33; log 10). -/
def deliverMoves (moved : Bool) (old new : ByZone Occupancy) (s : State) : State :=
  (s.forEach bothZones (deliverExit moved old new)).forEach bothZones (deliverEntry old new)

/-- Deliver the cutoff crossings (R33). -/
def deliverCrossings (old new : ByZone Occupancy) (s : State) : State :=
  s.forEach bothZones (deliverCrossing old new)

/-- Recompute membership against the accepted position and the zones as they stand, and deliver the
differences (R33, R37). -/
def recompute (moved : Bool) (s : State) : State :=
  let old := s.tracker.occ
  let new := membership s.tables.zones s.tracker.accepted
  deliverCrossings old new (deliverMoves moved old new (putOcc new s))

/-! ### The accepted position (R29, R35, R36) -/

/-- The accepted position as the heads and the latch give it (R29). -/
def Tracker.formed (tr : Tracker) : Accepted :=
  if tr.latch then .invalid
  else
    match tr.headA.fresh, tr.headA.latest, tr.headB.fresh, tr.headB.latest with
    | true, some a, true, _ => .dual a
    | true, some a, false, _ => .single a
    | false, _, true, some b => .single b
    | _, _, _, _ => .invalid

/-- Store the accepted position. -/
def putAccepted (a : Accepted) (s : State) : State := s.setTracker { s.tracker with accepted := a }

/-- The position stays valid: the notice of a mode change, then membership (R29, R33; log 7). -/
def positionMoves (old new : Accepted) (s : State) : State :=
  recompute true (if old.code = new.code then s else notify (.positionMode new) s)

/-- The position is lost: exits for both occupants, both zones empty, the notice (R35). -/
def positionLost (s : State) : State :=
  let old := s.tracker.occ
  notify (.positionMode .invalid) (deliverMoves false old emptyZones (putOcc emptyZones s))

/-- The position returns: entries as though both zones had been empty, the sweep, the crossings, the
notice, and the clear of POSITION_LOST (R36, R50; log 9). -/
def positionReturns (a : Accepted) (s : State) : State :=
  let new := membership s.tables.zones a
  let s := deliverMoves false emptyZones new (putOcc new s)
  let s := deliverCrossings emptyZones new (sweepBreach s)
  clearHold .positionLost (notify (.positionMode a) s)

/-- Re-form the accepted position and update zone membership (R29). -/
def reform (s : State) : State :=
  let old := s.tracker.accepted
  let new := s.tracker.formed
  let s := putAccepted new s
  match old.valid, new.valid with
  | true, true => positionMoves old new s
  | true, false => positionLost s
  | false, true => positionReturns new s
  | false, false => s

/-- Re-form after an event, and raise POSITION_LOST where the event left neither head fresh after one
was (R30). -/
def reformAfter (wasFresh : Bool) (s : State) : State :=
  let s := reform s
  if wasFresh && !s.tracker.anyFresh then raiseHold .positionLost s else s

/-! ### Events of the tracker -/

/-- An accepted report of a head: record, comparison, re-formation (R26). -/
def encoderReport (e : EncoderId) (p : Nat) (h : Health) (s : State) : State :=
  if p < Config.circumference then
    let was := s.tracker.anyFresh
    let s := s.setTracker (s.tracker.setHead e ((s.tracker.head e).report p s.lines.now h))
    reformAfter was (compareHeads s)
  else s

/-- The fresh heads among those an event names become not fresh together, and the accepted position is
re-formed once (R27). -/
def dropHeads (a b : Bool) (s : State) : State :=
  let tr := s.tracker
  if (a && tr.headA.fresh) || (b && tr.headB.fresh) then
    reformAfter true (s.setTracker { tr with
      headA := { tr.headA with fresh := tr.headA.fresh && !a }
      headB := { tr.headB with fresh := tr.headB.fresh && !b } })
  else s

/-- Whether an encoder head's age exceeds a stale time (R25). -/
def State.encoderOverdue (s : State) (e : EncoderId) (limit : Nat) : Bool :=
  s.olderThan (s.tracker.head e).taken limit

/-- A lapse of a head: taken when its age exceeds P15 (R27; log 14). -/
def encoderLapse (e : EncoderId) (s : State) : State :=
  if s.encoderOverdue e (s.p 15) then dropHeads (e == .a) (e == .b) s else s

/-- A load that lowered P15 drops the heads whose age exceeds it, together (R27). -/
def encodersLowered (s : State) : State :=
  dropHeads (s.encoderOverdue .a (s.p 15)) (s.encoderOverdue .b (s.p 15)) s

/-- A ZONES load: membership is recomputed at once while the position is valid (R37). -/
def zonesChanged (s : State) : State := if s.positionValid then recompute false s else s

end Sys2Proof.Machine
end

