-- ==== Sys2Proof/Machine/DriveStations.lean ====
section
/-! DEFINITION. The drive stations: reports, freshness, readiness, DRIVES_LOST and the availability
factor (R159 to R164). -/

namespace Sys2Proof.Machine

/-- DRIVES_LOST at a change of the ready count from `before` (R163). -/
def judgeDrivesLost (before : Nat) (s : State) : State :=
  if 2 ≤ before ∧ s.readyCount < 2 then raiseHold .drivesLost s
  else if before < 2 ∧ 2 ≤ s.readyCount then clearHold .drivesLost s
  else s

/-- Drive n's readiness is derived anew, and a change acted on (R162). -/
def deriveReady (n : Fin 4) (s : State) : State :=
  let d := s.drive n
  if d.derivedReady = d.ready then s
  else
    let before := s.readyCount
    let s := s.setDrive n { d with ready := d.derivedReady }
    judgeDrivesLost before (notify (.driveReady n d.derivedReady d.fault) s)

/-- A DRIVE_STATUS report of drive n (R160). -/
def driveReport (n : Fin 4) (ready : Bool) (fault : Byte) (speed : Nat) (s : State) : State :=
  let s := s.setDrive n { s.drive n with
    reportedReady := ready, fault := fault, speed := speed, lastReport := some s.lines.now
    fresh := true }
  judgeEnd (deriveReady n s)

/-- A fresh drive becomes not fresh: readiness, then the end of stopping (R161). -/
def dropDrive (n : Fin 4) (s : State) : State :=
  if (s.drive n).fresh then
    judgeEnd (deriveReady n (s.setDrive n { s.drive n with fresh := false }))
  else s

/-- A lapse of drive n: taken when its age exceeds P17 (R161; log 14). -/
def driveLapse (n : Fin 4) (s : State) : State :=
  if s.olderThan (s.drive n).lastReport (s.p 17) then dropDrive n s else s

/-- A roster change of drive n: not fresh, and no report time (R161). -/
def forgetDrive (n : Fin 4) (s : State) : State :=
  dropDrive n (s.setDrive n { s.drive n with lastReport := none })

/-- A load that lowered P17 drops the overdue drives in drive order (R161). -/
def drivesLowered (s : State) : State := s.forEach allFour driveLapse

/-- F_drive from the ready count (R164). -/
def State.driveFactor (s : State) : Nat :=
  match s.readyCount with
  | 4 => s.p 11
  | 3 => s.p 12
  | 2 => s.p 13
  | _ => 0

end Sys2Proof.Machine
end

