-- ==== Sys2Proof/Machine/WindHeads.lean ====
section
/-! DEFINITION. The wind heads: samples, the gust ring, the accumulator, freshness and the site figures
(R96 to R103). -/

namespace Sys2Proof.Machine

/-- A head restarted: ring, samples entered, sector, G and S emptied and A uninitialized; health, last
sample time and fresh as they stand (R96), and the value of A too (log 16). -/
def Head.restart (h : Head) : Head :=
  { h with ring := [], entered := 0, initialized := false, sector := none, gust := 0, sustained := 0 }

/-- A head that becomes not fresh is restarted (R96, R102). -/
def Head.drop (h : Head) : Head := { h.restart with fresh := false }

/-- The raw speed in 0.1 m/s, clamped to 999 (R99, step 1). -/
def normalizeSpeed (u : WindUnit) (r : Nat) : Nat :=
  match u with
  | .deci => min r 999
  | .centi => min ((r + 5) / 10) 999

/-- The corrected speed (R99, step 2). -/
def correctedSpeed (e : HeadEntry) (r : Nat) : Nat := min 999 (normalizeSpeed e.unit r * e.factor / 1024)

/-- The sector of a direction, clamped to 359 (R100). -/
def sectorOf (direction : Nat) : Nat := min direction 359 / 45

/-- The ring after an entry: the oldest leaves when it held 12 (R101, part 1). -/
def enterRing (ring : List Nat) (c : Nat) : List Nat :=
  if ring.length < Config.gustSamples then ring ++ [c] else ring.tail ++ [c]

/-- The gust of a full ring (R101, part 1). -/
def gustOf (ring : List Nat) : Nat := (ring.sum + 6) / 12

/-- The accumulator after an entry of c with shift k: initialized, or moved on by a division that floors
(R101, part 2). -/
def accumulate (initialized : Bool) (a c k : Nat) : Nat :=
  if initialized then ((a : Int) + ((256 * c : Int) - a) / (2 ^ k : Nat)).toNat else 256 * c

/-- The sustained figure of an accumulator (R101, part 2). -/
def sustainedOf (a : Nat) : Nat := (a + 128) / 256

/-- A head after a corrected speed and sector are entered (R98, steps 2 to 4). -/
def Head.enter (h : Head) (c sector shift : Nat) : Head :=
  let ring := enterRing h.ring c
  let n := min Config.gustSamples (h.entered + 1)
  let a := accumulate h.initialized h.acc c shift
  { h with
    ring := ring, entered := n, gust := if n = Config.gustSamples then gustOf ring else h.gust
    acc := a, initialized := true, sustained := sustainedOf a, sector := some sector }

/-- A head after a sample (R98). -/
def Head.sample (h : Head) (e : HeadEntry) (now speed direction : Nat) : Health → Head
  | .degraded => if h.fresh then { h.drop with health := .degraded } else { h with health := .degraded }
  | .ok =>
    let h := { h with health := .ok, lastSample := some now, fresh := true }
    if e.enabled then h.enter (correctedSpeed e speed) (sectorOf direction) e.shift else h

/-- A WIND sample of head n (R98). -/
def windSample (n : Fin 4) (speed direction : Nat) (health : Health) (s : State) : State :=
  s.setHead n ((s.head n).sample (s.headEntry n) s.lines.now speed direction health)

/-- A fresh head becomes not fresh without a sample (R102). -/
def dropHead (n : Fin 4) (s : State) : State :=
  if (s.head n).fresh then s.setHead n (s.head n).drop else s

/-- A lapse of head n: taken when its age exceeds P18 (R102; log 14). -/
def headLapse (n : Fin 4) (s : State) : State :=
  if s.olderThan (s.head n).lastSample (s.p 18) then dropHead n s else s

/-- A load that lowered P18 drops the overdue heads (R102). -/
def headsLowered (s : State) : State := s.forEach allFour headLapse

/-! ### Site figures (R103) -/

/-- The site figures. -/
structure SiteFigures where
  valid : Nat
  gust : Nat
  sustained : Nat
  spread : Nat
  headGust : Fin 4 → Nat
  sector : Option Nat

/-- The valid heads in head order. -/
def State.validHeads (s : State) : List (Fin 4) := allFour.filter s.headValid

/-- The greatest of some numbers, 0 for none. -/
def greatest (xs : List Nat) : Nat := xs.foldr max 0

/-- The smallest of some numbers, 0 for none. -/
def smallest : List Nat → Nat
  | [] => 0
  | x :: xs => xs.foldr min x

/-- The site figures as the head records stand (R103). -/
def State.siteFigures (s : State) : SiteFigures :=
  let heads := s.validHeads
  let gusts := heads.map (fun n => (s.head n).gust)
  { valid := heads.length
    gust := greatest gusts
    sustained := greatest (heads.map (fun n => (s.head n).sustained))
    spread := greatest gusts - smallest gusts
    headGust := fun n => if s.headValid n then (s.head n).gust else 0
    sector := (heads.find? (fun n => (s.head n).gust == greatest gusts)).bind (fun n => (s.head n).sector) }

end Sys2Proof.Machine
end

