-- ==== Sys2Proof/Machine/WindGrader.lean ====
section
/-! DEFINITION. The wind grader: rules, markers, evaluation, the grade in force, dwell and settling
(R109 to R121). -/

namespace Sys2Proof.Machine

/-! ### Tests, combinations and markers -/

/-- The two markers during an evaluation (R112). -/
structure Markers where
  m1 : Bool
  m2 : Bool
  deriving DecidableEq, Repr

/-- A 0 or 1 value. -/
def bit (b : Bool) : Nat := if b then 1 else 0

/-- A quantity's value at the moment a rule is run; none for an undefined sector (R109). -/
def Quantity.value (fig : SiteFigures) (inForce : Grade) (m : Markers) : Quantity → Option Nat
  | .siteGust => some fig.gust
  | .siteSustained => some fig.sustained
  | .gustSpread => some fig.spread
  | .validHeads => some fig.valid
  | .headGust n => some (fig.headGust n)
  | .sector => fig.sector
  | .marker1 => some (bit m.m1)
  | .marker2 => some (bit m.m2)
  | .gradeInForce => some inForce.val

/-- A comparison of a value with a threshold (R110). -/
def Comparison.holds (c : Comparison) (v threshold : Nat) : Bool :=
  match c with
  | .atLeast => decide (threshold ≤ v)
  | .below => decide (v < threshold)
  | .inSet => decide (v ≤ 7) && threshold.testBit v
  | .isSet => v != 0

/-- A test is judged; on an undefined sector it is false (R110). -/
def RuleTest.judge (t : RuleTest) (fig : SiteFigures) (inForce : Grade) (m : Markers) : Bool :=
  match t.quantity.value fig inForce m with
  | some v => t.comparison.holds v t.threshold
  | none => false

/-- The outcome of a combination code: bit 0 for (0,0), 1 for (0,1), 2 for (1,0), 3 for (1,1) (R111). -/
def combine (code : Nat) (a b : Bool) : Bool := code.testBit (2 * bit a + bit b)

/-- A marker after an effect (R112). -/
def MarkerOp.apply (op : MarkerOp) (old outcome : Bool) : Bool :=
  match op with
  | .set => outcome
  | .and => old && outcome
  | .or => old || outcome
  | .xor => old != outcome

/-- The markers after a rule's effect (R112). -/
def Markers.act (m : Markers) (effect : Option (Marker × MarkerOp)) (outcome : Bool) : Markers :=
  match effect with
  | none => m
  | some (.m1, op) => { m with m1 := op.apply m.m1 outcome }
  | some (.m2, op) => { m with m2 := op.apply m.m2 outcome }

/-- One rule of an evaluation: the markers and the candidate after it (R114, step 3). -/
def runRule (fig : SiteFigures) (inForce : Grade) (r : RuleEntry) (acc : Markers × Grade) :
    Markers × Grade :=
  if r.enabled then
    let outcome :=
      combine r.combination (r.testA.judge fig inForce acc.1) (r.testB.judge fig inForce acc.1)
    let candidate :=
      match r.grade with
      | some g => if outcome then max acc.2 g else acc.2
      | none => acc.2
    (acc.1.act r.effect outcome, candidate)
  else acc

/-- The candidate grade of the enabled rules in index order (R114, steps 2 and 3). -/
def candidateGrade (rules : Vector RuleEntry 16) (fig : SiteFigures) (inForce : Grade) : Grade :=
  (rules.toList.foldl (fun acc r => runRule fig inForce r acc)
    ({ m1 := false, m2 := false }, (0 : Grade))).2

/-! ### The grade in force -/

/-- A change of the grade in force: the notice, then hold list, release gate and service sequencer, each
in full (R120). -/
def changeGrade (g : Grade) (s : State) : State :=
  let old := s.grader.inForce
  let s := s.setGrader { s.grader with inForce := g }
  let s := notify (.gradeChanged g s.grader.computed) s
  let s :=
    if old ≠ 4 ∧ g = 4 then raiseHold .windStop s
    else if old = 4 ∧ g ≠ 4 then clearHold .windStop s
    else s
  let s := if g = 4 then clearBothPermits s else s
  sequencerGrade g s

/-- The dwell parameter of a grade in ms: P20 to P23 for grades 1 to 4, in seconds (R117). -/
def State.dwellLength (s : State) (g : Grade) : Nat :=
  1000 *
    (match g with
      | 1 => s.p 20
      | 2 => s.p 21
      | 3 => s.p 22
      | 4 => s.p 23
      | 0 => 0)

/-- Replace the fall dwell. -/
def putDwell (d : Option Dwell) (s : State) : State := s.setGrader { s.grader with dwell := d }

/-- The fall dwell after a computed grade below the grade in force (R117). -/
def State.fallDwell (s : State) (c : Grade) : Option Dwell :=
  match s.grader.settling, s.grader.dwell with
  | some _, d => d
  | none, none =>
    some { start := s.lines.now, grade := s.grader.inForce
           length := s.dwellLength s.grader.inForce, highest := c }
  | none, some d => some { d with highest := max d.highest c }

/-- The grade-in-force step of an evaluation (R116, R117). -/
def gradeStep (c : Grade) (s : State) : State :=
  if s.grader.inForce < c then changeGrade c (putDwell none s)
  else if c = s.grader.inForce then putDwell none s
  else putDwell (s.fallDwell c) s

/-- The minimum-heads override (R115). -/
def overrideGrade (short : Bool) (candidate : Grade) : Grade := if short then 4 else candidate

/-- The heads-short flag takes a value, with HEADS_SHORT at a change (R115). -/
def putHeadsShort (short : Bool) (n : Nat) (s : State) : State :=
  if s.grader.headsShort = short then s
  else notify (.headsShort n) (s.setGrader { s.grader with headsShort := short })

/-- An evaluation (R114 to R117). -/
def evaluate (s : State) : State :=
  let fig := s.siteFigures
  let short := decide (fig.valid < s.p 19)
  let c := overrideGrade short (candidateGrade s.tables.rules fig s.grader.inForce)
  let s := putHeadsShort short fig.valid s
  gradeStep c (s.setGrader { s.grader with computed := c })

/-- The fall dwell expires at its start plus its length (R118; log 14). -/
def expireDwell (s : State) : State :=
  match s.grader.dwell with
  | some d => if d.start + d.length ≤ s.lines.now then changeGrade d.highest (putDwell none s) else s
  | none => s

/-- Settling begins or restarts, and a running dwell is cancelled (R119). -/
def startSettling (s : State) : State :=
  s.setGrader { s.grader with dwell := none, settling := some (s.lines.now + 1000 * s.p 24) }

/-- Settling ends when its period has elapsed (R119; log 14). -/
def endSettling (s : State) : State :=
  match s.grader.settling with
  | some e => if e ≤ s.lines.now then s.setGrader { s.grader with settling := none } else s
  | none => s

/-- F_wind of the grade in force (R121). -/
def State.windFactor (s : State) : Nat :=
  match s.grader.inForce with
  | 0 => s.p 7
  | 1 => s.p 8
  | 2 => s.p 9
  | 3 => s.p 10
  | 4 => 0

end Sys2Proof.Machine
end

