-- ==== Sys2Proof/Machine/RotationUpdate.lean ====
section
/-! DEFINITION. The rotation update: speeds, limit, quanta, emergency test, target, ramp (R151 to R156). -/

namespace Sys2Proof.Machine

/-! ### Speeds and limit (R152) -/

/-- V_svc (R152). -/
def State.serviceSpeed (s : State) : Nat := 6291456 / s.p 0

/-- V_mode (R152). -/
def State.modeSpeed (s : State) : Nat := s.serviceSpeed * s.service.fMode / 100

/-- The ceiling, 16 × P3 (R152). -/
def State.ceiling (s : State) : Nat := 16 * s.p 3

/-- V_lim (R152). -/
def State.speedLimit (s : State) : Nat :=
  min (s.modeSpeed * min s.windFactor (min s.driveFactor (s.p 4)) / 100) s.ceiling

/-! ### Quanta and the stopping speed (R153) -/

/-- Δ_up (R153). -/
def State.rise (s : State) : Nat := 16 * s.p 1 / 10

/-- Δ_dn (R153). -/
def State.fall (s : State) : Nat := 16 * s.p 2 / 10

/-- The integer square root of n < 4^fuel, one base-4 digit at a time. -/
def rootDigits : Nat → Nat → Nat
  | 0, _ => 0
  | fuel + 1, n =>
    let r := 2 * rootDigits fuel (n / 4)
    if (r + 1) * (r + 1) ≤ n then r + 1 else r

/-- The integer square root: the greatest integer whose square does not exceed n (00, Conventions). -/
def integerRoot (n : Nat) : Nat := rootDigits (n.log2 / 2 + 1) n

/-- V_stop of a signed distance, with deceleration P2 (R153). -/
def stoppingSpeed (deceleration : Nat) (d : Int) : Nat :=
  if 0 < d then integerRoot (512 * deceleration * d.toNat) else 0

/-! ### Distances of a BRAKE_POINT record (R75) -/

/-- A BRAKE_POINT record's signed distances to its stop point and to its emergency line, while the
position is valid (R75). -/
def State.brakeDistances (s : State) (h : Hold) : Option (Int × Int) :=
  match h.brakePoint, s.tracker.accepted.value with
  | some (z, k), some p =>
    let c := coordinate p k
    some (signedDistance c (s.stopPoint z), signedDistance c (s.zone z).finish)
  | _, _ => none

/-! ### The emergency test (R154) -/

/-- The cause of an emergency brake on a BRAKE_POINT record (R150). -/
def Hold.brakeCause : Hold → Option BrakeCause
  | .zoneOverrun z k => some (.overrun z k)
  | .cabinOverload k => some (.overload k)
  | _ => none

/-- Whether a speed is out of reach of a lower bound within one step of deceleration: bound below
V_old − Δ_dn (R154). -/
def State.outruns (s : State) (bound : Nat) : Bool := decide (bound + s.fall < s.rot.vCmd)

/-- Whether a record trips the test (R154, brake points). -/
def State.tripsOn (s : State) (r : HoldRecord) : Bool :=
  match s.brakeDistances r.what with
  | some (_, e) => if e ≤ 0 then decide (0 < s.rot.vCmd) else s.outruns (stoppingSpeed (s.p 2) e)
  | none => false

/-- The cause of the trip of a moving wheel: the first record that trips, or else the ceiling (R154). -/
def State.emergencyCause (s : State) : Option BrakeCause :=
  if s.rot.wheel.moving then
    match s.holds.records.find? s.tripsOn with
    | some r => r.what.brakeCause
    | none => if s.outruns s.ceiling then some .ceiling else none
  else none

/-! ### Target and ramp (R155, R156) -/

/-- The smallest stopping speed of the BRAKE_POINT records, at most `start` (R155). -/
def State.brakePointSpeed (s : State) (start : Nat) : Nat :=
  s.holds.records.foldl
    (fun v r =>
      match s.brakeDistances r.what with
      | some (d, _) => min v (stoppingSpeed (s.p 2) d)
      | none => v)
    start

/-- Whether any BRAKE_POINT record stands (R136). -/
def State.brakePointStands (s : State) : Bool := s.holds.records.any (fun r => !r.what.key.halt)

/-- V_target (R155). -/
def State.target (s : State) : Nat :=
  if !s.rot.wheel.moving then 0
  else if s.haltStands || (!s.positionValid && s.brakePointStands) || s.rot.stopPending then 0
  else if !s.noHolds then s.brakePointSpeed (min s.rot.vCmd s.rot.vLim)
  else if s.rot.wheel = .running then s.rot.vLim
  else 0

/-- V_new: the ramp from V_old towards a target (R156). -/
def State.ramp (s : State) (target : Nat) : Nat :=
  if s.rot.vCmd ≤ target then min target (s.rot.vCmd + s.rise) else max target (s.rot.vCmd - s.fall)

/-- The speed limit stages: F_mode is read and V_lim set (R152). -/
def setLimit (s : State) : State :=
  let s := readFMode s
  s.setRot { s.rot with vLim := s.speedLimit }

/-- The ramp stage: V_cmd, the end of stopping, the drive set (R156, R165). -/
def rampStage (s : State) : State :=
  let s := s.setRot { s.rot with vCmd := s.ramp s.target }
  let s := judgeEnd s
  queueDriveSet s.rot.vCmd s.rot.wheel.brakeDemand false s

/-- One rotation update (R151). -/
def rotationUpdate (s : State) : State :=
  let s := setLimit s
  match s.emergencyCause with
  | some cause => enterBraked cause s
  | none => rampStage s

end Sys2Proof.Machine
end

