-- ==== Sys2Proof/Machine/TableEntries.lean ====
section
/-! DEFINITION. The seven tables: codes and pages (R171), the entries of a load, clamping (R6, R7, R39,
R55, R176, R93, R108) and the entries as read back (R24, section 1.9). -/

namespace Sys2Proof.Machine

/-! ### The tables (section 1.9, R171, R173) -/

/-- The seven tables. -/
inductive Table where
  | roster | pass | cabins | zones | parameters | heads | rules
  deriving DecidableEq, Repr

/-- A table's code. -/
def Table.code : Table → Byte
  | .roster => 0x01
  | .pass => 0x02
  | .cabins => 0x03
  | .zones => 0x04
  | .parameters => 0x05
  | .heads => 0x06
  | .rules => 0x07

/-- The table of a code, none for a code other than 0x01 to 0x07. -/
def tableOf (o : Byte) : Option Table :=
  [Table.roster, .pass, .cabins, .zones, .parameters, .heads, .rules].find? (fun t => t.code == o)

/-- A table's number of entries. -/
def Table.entries : Table → Nat
  | .roster => 14
  | .pass => 32
  | .cabins => 48
  | .zones => 2
  | .parameters => 28
  | .heads => 4
  | .rules => 16

/-- A table's octets per entry. -/
def Table.size : Table → Nat
  | .roster => 1
  | .pass => 4
  | .cabins => 2
  | .zones => 8
  | .parameters => 2
  | .heads => 6
  | .rules => 12

/-- The most entries of one READ_TABLE response. -/
def Table.readLimit : Table → Nat
  | .roster => 16
  | .pass => 14
  | .cabins => 16
  | .zones => 7
  | .parameters => 16
  | .heads => 9
  | .rules => 4

/-- Whether a table is locked: bit (table code − 1) of the lock set (R174). -/
def State.locked (s : State) (t : Table) : Bool := s.tables.locks.getLsbD (t.code.toNat - 1)

/-- The first index of the load page that holds an index: pages of 16 entries (R171). -/
def pageStart (i : Nat) : Nat := i / 16 * 16

/-- The length of the load page that holds an index; the last page ends at the table's end (R171). -/
def Table.pageLength (t : Table) (i : Nat) : Nat := min 16 (t.entries - pageStart i)

/-- The index of the i-th entry of a load or read from a start index (R171). -/
def Table.pageIndex (t : Table) (start i : Nat) : Nat :=
  pageStart start + (start - pageStart start + i) % t.pageLength start

/-! ### The entries of a load -/

/-- The first `n` groups of `size` octets. -/
def groups (size : Nat) : Nat → List Byte → List (List Byte)
  | 0, _ => []
  | n + 1, os => os.take size :: groups size n (os.drop size)

/-- The entries of a load with the index each is addressed to, in frame order (R171). -/
def Table.paged (t : Table) (start : Nat) (body : List Byte) : List (Nat × List Byte) :=
  (groups t.size (body.length / t.size) body).mapIdx (fun i e => (t.pageIndex start i, e))

/-- The last entry of a load addressed to an index (R171). -/
def written (ps : List (Nat × List Byte)) (j : Nat) : Option (List Byte) :=
  (ps.reverse.find? (fun p => p.1 == j)).map (·.2)

/-- Octet i of an entry. -/
def entryOctet (e : List Byte) (i : Nat) : Byte := e.getD i 0

/-- The 2-octet field at octet i of an entry. -/
def entryNum (e : List Byte) (i : Nat) : Nat := num2 (entryOctet e i) (entryOctet e (i + 1))

/-- A table with the entries of a load in place: `clamp j` gives the stored entry and its clamps. -/
def loadedTable {α : Type} {n : Nat} (clamp : Fin n → List Byte → α × Nat) (old : Vector α n)
    (ps : List (Nat × List Byte)) : Vector α n :=
  Vector.ofFn (fun j =>
    match written ps j.val with
    | some e => (clamp j e).1
    | none => old[j])

/-- The clamped count of a load (R172). -/
def loadedClamps {α : Type} {n : Nat} (clamp : Fin n → List Byte → α × Nat)
    (ps : List (Nat × List Byte)) : Nat :=
  ((List.finRange n).map (fun j =>
    match written ps j.val with
    | some e => (clamp j e).2
    | none => 0)).sum

/-- 1 where a field was clamped. -/
def clampCount (b : Bool) : Nat := if b then 1 else 0

/-! ### Clamping, entry by entry -/

/-- A ROSTER entry: 64 to 255 is taken as 62 (R6). -/
def clampRoster (_ : Fin 14) (e : List Byte) : Byte × Nat :=
  let o := entryOctet e 0
  if 64 ≤ o.toNat then (Config.noStation, 1) else (o, 0)

/-- A PASS address octet: 0xFF is ANY, 64 to 254 is taken as 63 (R7). -/
def clampPassAddress (o : Byte) : Option Byte × Nat :=
  if o = 0xFF then (none, 0) else if 64 ≤ o.toNat then (some 63, 1) else (some o, 0)

/-- A PASS control octet: above 0x02 is taken as 0x02 (R7). -/
def clampPassControl (o : Byte) : PassControl × Nat :=
  if o = 0x00 then (.disabled, 0)
  else if o = 0x01 then (.forward, 0)
  else (.drop, clampCount (o != 0x02))

/-- A PASS entry (R7). -/
def clampPass (_ : Fin 32) (e : List Byte) : PassEntry × Nat :=
  let c := clampPassControl (entryOctet e 0)
  let src := clampPassAddress (entryOctet e 1)
  let dst := clampPassAddress (entryOctet e 2)
  let k := entryOctet e 3
  ({ control := c.1, source := src.1, dest := dst.1, kind := if k = 0xFF then none else some k },
    c.2 + src.2 + dst.2)

/-- A yes/no octet: above 0x01 is taken as 0x01 (R39, R55, R93, R108). -/
def clampYes (o : Byte) : Bool × Nat := (o != 0x00, clampCount (decide (1 < o.toNat)))

/-- A number held between two limits. -/
def clampNum (lo hi v : Nat) : Nat × Nat :=
  (max lo (min hi v), clampCount (decide (v < lo) || decide (hi < v)))

/-- A CABINS entry (R39). -/
def clampCabin (_ : Fin 48) (e : List Byte) : CabinEntry × Nat :=
  let y := clampYes (entryOctet e 0)
  let c := clampNum 1 40 (entryOctet e 1).toNat
  ({ inService := y.1, capacity := c.1 }, y.2 + c.2)

/-- A ZONES entry (R55): start, end by the clamped length, cutoff, and the two coded fields; each stored
field that differs from the loaded one counts. -/
def clampZone (e : List Byte) : ZoneEntry × Nat :=
  let start := min (entryNum e 0) 32767
  let length := (max 1000 (min 8191 ((entryNum e 2 : Int) - start))).toNat
  let finish := start + length
  let cutoff := max 500 (min (length - 500) (entryNum e 4))
  let permit := clampYes (entryOctet e 6)
  let release := clampYes (entryOctet e 7)
  ({ start := start, finish := finish, cutoff := cutoff, permitRequired := permit.1
     release := if release.1 then .attended else .auto },
    clampCount (start != entryNum e 0) + clampCount (finish != entryNum e 2) +
      clampCount (cutoff != entryNum e 4) + permit.2 + release.2)

/-- The ranges of P0 to P27 (R176); those of P26 and P27 are of what is stored. -/
def paramRanges : Vector (Nat × Nat) 28 :=
  #v[(1200, 3600), (2, 40), (5, 60), (100, 600), (50, 100), (100, 200), (1, 6),
     (0, 100), (0, 100), (0, 100), (0, 100), (0, 100), (0, 100), (0, 100),
     (10, 500), (100, 1000), (1000, 10000), (200, 2000), (500, 10000), (1, 4),
     (10, 1800), (10, 1800), (10, 1800), (10, 1800), (1, 60), (0, 1000), (0, 0x00FE), (0, 1)]

/-- A PARAMETERS entry: between its limits; P26 keeps bits 1 to 7 and is not counted (R176). -/
def clampParam (i : Fin 28) (e : List Byte) : Nat × Nat :=
  let v := entryNum e 0
  if i = 26 then (v &&& 0x00FE, 0) else clampNum (paramRanges[i]).1 (paramRanges[i]).2 v

/-- A HEADS entry (R93); its sixth octet is ignored. -/
def clampHead (_ : Fin 4) (e : List Byte) : HeadEntry × Nat :=
  let y := clampYes (entryOctet e 0)
  let u := clampYes (entryOctet e 1)
  let h := clampNum 512 2048 (entryNum e 2)
  let k := clampNum 4 10 (entryOctet e 4).toNat
  ({ enabled := y.1, unit := if u.1 then .centi else .deci, factor := h.1, shift := k.1 },
    y.2 + u.2 + h.2 + k.2)

/-- A quantity code; above 0x0B is taken as 0x0B (R108, section 1.9). -/
def clampQuantity (o : Byte) : Quantity × Nat :=
  match o.toNat with
  | 0 => (.siteGust, 0)
  | 1 => (.siteSustained, 0)
  | 2 => (.gustSpread, 0)
  | 3 => (.validHeads, 0)
  | 4 => (.headGust 0, 0)
  | 5 => (.headGust 1, 0)
  | 6 => (.headGust 2, 0)
  | 7 => (.headGust 3, 0)
  | 8 => (.sector, 0)
  | 9 => (.marker1, 0)
  | 10 => (.marker2, 0)
  | 11 => (.gradeInForce, 0)
  | _ => (.gradeInForce, 1)

/-- A comparison code; above 0x03 is taken as 0x03 (R108, section 1.9). -/
def clampComparison (o : Byte) : Comparison × Nat :=
  match o.toNat with
  | 0 => (.atLeast, 0)
  | 1 => (.below, 0)
  | 2 => (.inSet, 0)
  | 3 => (.isSet, 0)
  | _ => (.isSet, 1)

/-- The test at octet i of a RULES entry (R108). -/
def clampTest (e : List Byte) (i : Nat) : RuleTest × Nat :=
  let q := clampQuantity (entryOctet e i)
  let c := clampComparison (entryOctet e (i + 1))
  ({ quantity := q.1, comparison := c.1, threshold := entryNum e (i + 2) }, q.2 + c.2)

/-- A grade octet: 0xFF is NONE, 5 to 0xFE is taken as 4 (R108). -/
def clampGrade (o : Byte) : Option Grade × Nat :=
  if o = 0xFF then (none, 0)
  else if h : o.toNat < 5 then (some ⟨o.toNat, h⟩, 0)
  else (some 4, 1)

/-- A marker effect octet; an unlisted code is taken as NONE (R108, section 1.9). -/
def clampEffect (o : Byte) : Option (Marker × MarkerOp) × Nat :=
  match o.toNat with
  | 0x00 => (none, 0)
  | 0x11 => (some (.m1, .set), 0)
  | 0x12 => (some (.m1, .and), 0)
  | 0x13 => (some (.m1, .or), 0)
  | 0x14 => (some (.m1, .xor), 0)
  | 0x21 => (some (.m2, .set), 0)
  | 0x22 => (some (.m2, .and), 0)
  | 0x23 => (some (.m2, .or), 0)
  | 0x24 => (some (.m2, .xor), 0)
  | _ => (none, 1)

/-- A RULES entry (R108). -/
def clampRule (_ : Fin 16) (e : List Byte) : RuleEntry × Nat :=
  let y := clampYes (entryOctet e 0)
  let a := clampTest e 1
  let b := clampTest e 5
  let c := clampNum 0 15 (entryOctet e 9).toNat
  let g := clampGrade (entryOctet e 10)
  let m := clampEffect (entryOctet e 11)
  ({ enabled := y.1, testA := a.1, testB := b.1, combination := c.1, grade := g.1, effect := m.1 },
    y.2 + a.2 + b.2 + c.2 + g.2 + m.2)

/-! ### Entries read back (R24, section 1.9) -/

def PassControl.code : PassControl → Byte
  | .disabled => 0x00
  | .forward => 0x01
  | .drop => 0x02

/-- A PASS field; ANY is 0xFF. -/
def anyOctet : Option Byte → Byte
  | some o => o
  | none => 0xFF

def PassEntry.octets (e : PassEntry) : List Byte :=
  [e.control.code, anyOctet e.source, anyOctet e.dest, anyOctet e.kind]

def CabinEntry.octets (e : CabinEntry) : List Byte := [yesNo e.inService, octet e.capacity]

def OverrunRelease.code : OverrunRelease → Byte
  | .auto => 0x00
  | .attended => 0x01

def ZoneEntry.octets (e : ZoneEntry) : List Byte :=
  octets2 e.start ++ octets2 e.finish ++ octets2 e.cutoff ++ [yesNo e.permitRequired, e.release.code]

def WindUnit.code : WindUnit → Byte
  | .deci => 0x00
  | .centi => 0x01

/-- A HEADS entry; the sixth octet is read back as 0x00 (R24). -/
def HeadEntry.octets (e : HeadEntry) : List Byte :=
  [yesNo e.enabled, e.unit.code] ++ octets2 e.factor ++ [octet e.shift, 0x00]

def Quantity.code : Quantity → Byte
  | .siteGust => 0x00
  | .siteSustained => 0x01
  | .gustSpread => 0x02
  | .validHeads => 0x03
  | .headGust n => octet (4 + n.val)
  | .sector => 0x08
  | .marker1 => 0x09
  | .marker2 => 0x0A
  | .gradeInForce => 0x0B

def Comparison.code : Comparison → Byte
  | .atLeast => 0x00
  | .below => 0x01
  | .inSet => 0x02
  | .isSet => 0x03

def MarkerOp.code : MarkerOp → Nat
  | .set => 1
  | .and => 2
  | .or => 3
  | .xor => 4

/-- A marker effect's code. -/
def effectCode : Option (Marker × MarkerOp) → Byte
  | none => 0x00
  | some (.m1, op) => octet (0x10 + op.code)
  | some (.m2, op) => octet (0x20 + op.code)

def RuleTest.octets (t : RuleTest) : List Byte := [t.quantity.code, t.comparison.code] ++ octets2 t.threshold

/-- A rule's grade octet; NONE is 0xFF. -/
def ruleGradeOctet : Option Grade → Byte
  | some g => gradeOctet g
  | none => 0xFF

def RuleEntry.octets (r : RuleEntry) : List Byte :=
  [yesNo r.enabled] ++ r.testA.octets ++ r.testB.octets ++
    [octet r.combination, ruleGradeOctet r.grade, effectCode r.effect]

/-- The octets of entry i of a vector, none beyond its end. -/
def vectorOctets {α : Type} {n : Nat} (v : Vector α n) (f : α → List Byte) (i : Nat) : List Byte :=
  if h : i < n then f v[i] else []

/-- The octets of entry i of a table as stored (R173, R24). -/
def State.entryOctets (s : State) (t : Table) (i : Nat) : List Byte :=
  match t with
  | .roster => vectorOctets s.tables.roster (fun a => [a]) i
  | .pass => vectorOctets s.tables.pass PassEntry.octets i
  | .cabins => vectorOctets s.tables.cabins CabinEntry.octets i
  | .zones => if i = 0 then s.tables.zones.unload.octets else s.tables.zones.load.octets
  | .parameters => vectorOctets s.tables.params octets2 i
  | .heads => vectorOctets s.tables.heads HeadEntry.octets i
  | .rules => vectorOctets s.tables.rules RuleEntry.octets i

end Sys2Proof.Machine
end

