-- ==== Sys2Proof/Machine/TableLoads.lean ====
section
/-! DEFINITION. Loading and reading tables (R171 to R173), each table's load with its consequences (R6,
R7, R39, R56, R94, R108, R176). -/

namespace Sys2Proof.Machine

/-- The paged entries of a load: each index with the entry addressed to it, in frame order (R171). -/
abbrev Entries := List (Nat × List Byte)

/-! ### ROSTER (R6) -/

/-- Whether a loaded entry holds 63 (R6). -/
def holdsBroadcast (ps : Entries) : Bool :=
  (List.finRange 14).any (fun i =>
    match written ps i.val with
    | some e => entryOctet e 0 == Config.broadcast
    | none => false)

/-- Whether two roles share an address from 0 to 61, or a role holds the part's own address (R6). -/
def rosterClashes (own : Byte) (r : Vector Byte 14) : Bool :=
  (List.finRange 14).any (fun i => r[i] == own ||
    (List.finRange 14).any (fun j => decide (i < j) && r[i] == r[j] && decide (r[i].toNat ≤ 61)))

/-- What the owners do at the roles whose address a load changed, encoder heads first and drives last
(R6). -/
def rosterConsequences (changed : Fin 14 → Bool) (s : State) : State :=
  let s := dropHeads (changed roleEncoderA) (changed roleEncoderB) s
  let s := if changed roleConcentrator then forgetDoors s else s
  let s := s.forEach allFour (fun n s => if changed (headRole n) then dropHead n s else s)
  s.forEach allFour (fun n s => if changed (driveRole n) then forgetDrive n s else s)

/-- A ROSTER load (R6). -/
def applyRoster (ps : Entries) (s : State) : Reply × State :=
  let old := s.tables.roster
  let new := loadedTable clampRoster old ps
  if holdsBroadcast ps || rosterClashes s.ownAddress new then (.plain .badArgument, s)
  else
    (.clamped (loadedClamps clampRoster ps),
      rosterConsequences (fun i => old[i] != new[i]) (s.setTables { s.tables with roster := new }))

/-! ### PASS (R7) -/

/-- A PASS load (R7). -/
def applyPass (ps : Entries) (s : State) : Reply × State :=
  (.clamped (loadedClamps clampPass ps),
    s.setTables { s.tables with pass := loadedTable clampPass s.tables.pass ps })

/-! ### CABINS (R39) -/

/-- A CABINS load: the entries, then an out-of-service event for each cabin taken out (R39, R61). -/
def applyCabins (ps : Entries) (s : State) : Reply × State :=
  let old := s.tables.cabins
  let new := loadedTable clampCabin old ps
  (.clamped (loadedClamps clampCabin ps),
    (s.setTables { s.tables with cabins := new }).forEach allCabins (fun k s =>
      if old[k].inService && !new[k].inService then clearPermitsOf k s else s))

/-! ### ZONES (R56) -/

/-- The index of a zone's entry (R55). -/
def zoneIndex : Zone → Nat
  | .unload => 0
  | .load => 1

/-- A zone's entry with a load in place, and its clamps. -/
def loadedZone (ps : Entries) (old : ByZone ZoneEntry) (z : Zone) : ZoneEntry × Nat :=
  match written ps (zoneIndex z) with
  | some e => clampZone e
  | none => (old.get z, 0)

/-- A ZONES load: clamping, the structural check, then membership (R56, R37). -/
def applyZones (ps : Entries) (s : State) : Reply × State :=
  let u := loadedZone ps s.tables.zones .unload
  let l := loadedZone ps s.tables.zones .load
  if l.1.start < u.1.finish then (.plain .badArgument, s)
  else
    (.clamped (u.2 + l.2),
      zonesChanged (s.setTables { s.tables with zones := { unload := u.1, load := l.1 } }))

/-! ### PARAMETERS (R176) -/

/-- A PARAMETERS load: the values, then what lowered stale times do, P15 first (R176). -/
def applyParameters (ps : Entries) (s : State) : Reply × State :=
  let old := s.tables.params
  let new := loadedTable clampParam old ps
  let s := s.setTables { s.tables with params := new }
  let s := if new[15] < old[15] then encodersLowered s else s
  let s := if new[16] < old[16] then stalenessLowered s else s
  let s := if new[17] < old[17] then drivesLowered s else s
  let s := if new[18] < old[18] then headsLowered s else s
  (.clamped (loadedClamps clampParam ps), s)

/-! ### HEADS and RULES (R94, R108) -/

/-- Restart a head whose entry a load wrote (R94, R96). -/
def restartHead (n : Fin 4) (s : State) : State := s.setHead n (s.head n).restart

/-- A HEADS load: the entries, the restarts, settling (R94). -/
def applyHeads (ps : Entries) (s : State) : Reply × State :=
  let s := s.setTables { s.tables with heads := loadedTable clampHead s.tables.heads ps }
  let s := s.forEach allFour (fun n s => if (written ps n.val).isSome then restartHead n s else s)
  (.clamped (loadedClamps clampHead ps), startSettling s)

/-- A RULES load: the entries, then settling (R108). -/
def applyRules (ps : Entries) (s : State) : Reply × State :=
  let s := s.setTables { s.tables with rules := loadedTable clampRule s.tables.rules ps }
  (.clamped (loadedClamps clampRule ps), startSettling s)

/-! ### LOAD_TABLE and READ_TABLE (R172, R173) -/

/-- A table's owner takes the paged entries of a load (R172). -/
def Table.apply : Table → Entries → State → Reply × State
  | .roster => applyRoster
  | .pass => applyPass
  | .cabins => applyCabins
  | .zones => applyZones
  | .parameters => applyParameters
  | .heads => applyHeads
  | .rules => applyRules

/-- LOAD_TABLE on a table: `args` are the octets after the table code; the cases of R172 in order. -/
def loadOn (t : Table) (args : List Byte) (s : State) : Reply × State :=
  match args with
  | [] => (.plain .badLength, s)
  | start :: body =>
    if body = [] ∨ body.length % t.size ≠ 0 then (.plain .badLength, s)
    else if t.entries ≤ start.toNat then (.plain .badArgument, s)
    else if s.locked t ∧ s.rot.wheel ≠ .stowed then (.plain .refusedLocked, s)
    else t.apply (t.paged start.toNat body) s

/-- LOAD_TABLE with its table code (R172). -/
def loadTable (args : List Byte) (s : State) : Reply × State :=
  match args with
  | code :: start :: body =>
    match tableOf code with
    | some t => loadOn t (start :: body) s
    | none => (.plain .badArgument, s)
  | _ => (.plain .badLength, s)

/-- The octets of count entries from a start index, within its page (R173, R171). -/
def State.readEntries (s : State) (t : Table) (start count : Nat) : List Byte :=
  (List.range count).flatMap (fun i => s.entryOctets t (t.pageIndex start i))

/-- READ_TABLE (R173). -/
def readTable (args : List Byte) (s : State) : Reply × State :=
  match args with
  | [code, start, count] =>
    match tableOf code with
    | none => (.plain .badArgument, s)
    | some t =>
      if t.entries ≤ start.toNat ∨ count = 0 ∨ t.readLimit < count.toNat then (.plain .badArgument, s)
      else
        ({ result := .done
           data := code :: start :: count :: s.readEntries t start.toNat count.toNat }, s)
  | _ => (.plain .badLength, s)

end Sys2Proof.Machine
end

