-- ==== Sys2Proof/Machine/RequestReads.lean ====
section
/-! DEFINITION. The data of the reading requests: status record (R170), hold records (R134), cabin
records (R53) and wind record (R105), laid out as section 1.9 gives them. -/

namespace Sys2Proof.Machine

/-- What decides a request: it takes the source, the arguments after the request kind and the state, and
gives the answer with the state after it (R168). -/
abbrev Owner := Byte → List Byte → State → Reply × State

/-- An answer that leaves the state as it is. -/
def answer (r : Result) (s : State) : Reply × State := (.plain r, s)

/-- A DONE answer with data. -/
def Reply.done (data : List Byte) : Reply := { result := .done, data := data }

/-! ### READ_STATUS (R170) -/

/-- The status record, 23 octets. -/
def State.statusRecord (s : State) : List Byte :=
  [s.rot.wheel.code, s.rot.wheel.destCode, yesNo s.rot.stopPending, s.service.mode.code,
    gradeOctet s.grader.inForce, yesNo s.grader.settling.isSome, s.tracker.accepted.code] ++
    octets3 (s.tracker.accepted.value.getD 0) ++ octets2 s.rot.vCmd ++
    [octet s.readyCount, octet s.holds.records.length, yesNo s.holds.resumeRequired,
      s.permits.unload.code, cabinField s.permits.unload.cabin,
      s.permits.load.code, cabinField s.permits.load.cabin,
      octet s.service.list.length, keyCode s.lines.svcKey, s.tables.locks.setWidth 8,
      yesNo s.ring.noticeOverflow]

/-- The notice overflow flag becomes clear. -/
def clearOverflow (s : State) : State := s.setRing { s.ring with noticeOverflow := false }

/-- READ_STATUS: a read from the console clears the notice overflow flag (R170). -/
def readStatus : Owner := fun src args s =>
  match args with
  | [] => (.done s.statusRecord, if src = s.role roleConsole then clearOverflow s else s)
  | _ => answer .badLength s

/-! ### READ_HOLDS (R134) -/

/-- A record's age in whole seconds, saturating (R134). -/
def State.holdAge (s : State) (r : HoldRecord) : Nat := min 65535 (s.age r.raised / 1000)

/-- The 6 octets of a hold record (R134). -/
def State.holdOctets (s : State) (r : HoldRecord) : List Byte :=
  [r.what.key.code, zoneField r.what.zone, cabinField r.what.cabin, yesNo r.acked] ++
    octets2 (s.holdAge r)

/-- The hold records: the count, then the records in raise order (R134). -/
def State.holdData (s : State) : List Byte :=
  octet s.holds.records.length :: s.holds.records.flatMap s.holdOctets

/-- The breach cabins: the count, then the cabins in detection order (R134). -/
def State.breachData (s : State) : List Byte :=
  octet s.breachCabins.length :: s.breachCabins.map cabinOctet

/-- READ_HOLDS (R134). -/
def readHolds : Owner := fun _ args s =>
  match args with
  | [part] =>
    if part = 0x00 then (.done s.holdData, s)
    else if part = 0x01 then (.done s.breachData, s)
    else answer .badArgument s
  | _ => answer .badLength s

/-! ### READ_CABINS (R53) -/

/-- The 7 octets of a cabin (R53). -/
def State.cabinOctets (s : State) (k : Cabin) : List Byte :=
  let c := s.cabin k
  [cabinOctet k, yesNo (s.cabinEntry k).inService, c.door.code, octet c.occupancy,
    locationCode c.location, c.cycle.code, yesNo c.overloaded]

/-- The records of some consecutive cabins (R53). -/
def State.cabinData (s : State) (first count : Nat) : List Byte :=
  ((allCabins.drop first).take count).flatMap s.cabinOctets

/-- READ_CABINS (R53). -/
def readCabins : Owner := fun _ args s =>
  match args with
  | [first, count] =>
    if 48 ≤ first.toNat ∨ count = 0 ∨ 8 < count.toNat ∨ 48 < first.toNat + count.toNat then
      answer .badArgument s
    else (.done (s.cabinData first.toNat count.toNat), s)
  | _ => answer .badLength s

/-! ### READ_WIND (R105) -/

/-- A sector field; 0xFF when none (R24). -/
def sectorField : Option Nat → Byte
  | some x => octet x
  | none => absent

/-- A figure of a head, 0 when the head is not VALID (R105). -/
def State.figureOf (s : State) (n : Fin 4) (x : Nat) : Nat := if s.headValid n then x else 0

/-- The 7 octets of a head (R105). -/
def State.headOctets (s : State) (n : Fin 4) : List Byte :=
  let h := s.head n
  [(s.headState n).code, octet h.entered, sectorField h.sector] ++
    octets2 (s.figureOf n h.gust) ++ octets2 (s.figureOf n h.sustained)

/-- The wind record, 38 octets (R105). -/
def State.windRecord (s : State) : List Byte :=
  let fig := s.siteFigures
  [gradeOctet s.grader.inForce, gradeOctet s.grader.computed, octet fig.valid] ++
    octets2 fig.gust ++ octets2 fig.sustained ++ octets2 fig.spread ++ [sectorField fig.sector] ++
    allFour.flatMap s.headOctets

/-- READ_WIND (R105). -/
def readWind : Owner := fun _ args s =>
  match args with
  | [] => (.done s.windRecord, s)
  | _ => answer .badLength s

end Sys2Proof.Machine
end

