-- ==== Sys2Proof/Machine/RequestOwners.lean ====
section
/-! DEFINITION. The owners of the acting requests: locks and RESTART (R175, R178), the hold list (R129 to
R132), the rotation controller (R140 to R146), the service sequencer (R79 to R82) and the release gate
(R58). -/

namespace Sys2Proof.Machine

/-- A request without arguments: any other payload length is BAD_LENGTH (R169). -/
def plainRequest (decide : State → Reply × State) : Owner := fun _ args s =>
  match args with
  | [] => decide s
  | _ => answer .badLength s

/-! ### SET_LOCKS and RESTART (R175, R178) -/

/-- SET_LOCKS (R175). -/
def setLocks : Owner := fun _ args s =>
  match args with
  | [locks] =>
    match s.lines.svcKey with
    | .operate => answer .refusedKey s
    | .maintain => answer .done (s.setTables { s.tables with locks := locks.setWidth 7 })
  | _ => answer .badLength s

/-- The dynamic state of every block returns to its reset value (R178 and the rules it lists). -/
def State.restarted (s : State) : State :=
  { s with
    tracker := resetTracker
    cabins := Vector.replicate 48 resetCabin
    permits := resetPermits
    service := resetService
    heads := Vector.replicate 4 resetHead
    grader := resetGrader s.lines.now (s.p 24)
    holds := resetHolds s.lines.now
    rot := { s.rot with stopPending := false, vCmd := 0 }
    drives := Vector.replicate 4 resetDrive }

/-- RESTART (R178). -/
def restart : Owner := plainRequest fun s =>
  if (s.rot.wheel = .stowed ∨ s.rot.wheel = .standby) ∧ s.service.mode = .closed then
    answer .done (notify .restarted s.restarted)
  else answer .refusedState s

/-! ### HOLD and ACK_HOLD (R129 to R132) -/

/-- HOLD (R129). -/
def holdRequest : Owner := plainRequest fun s => answer .done (raiseHold .consoleHold s)

/-- The record that an ACK_HOLD names; none for a BAD_ARGUMENT (R130). -/
def ackKey (kind zone : Byte) : Option HoldKey :=
  if kind = 0x08 then (decodeZone zone).map .zoneOverrun
  else
    [HoldKey.allStop, .consoleHold, .windStop, .positionLost, .encoderDisagree, .drivesLost, .doorBreach,
      .cabinOverload].find? (fun key => key.code == kind)

/-- What an ACK_HOLD does with a present record (R131, R132). -/
inductive AckEffect where
  | clears | marks | refused
  deriving DecidableEq, Repr

/-- Clear where a condition holds, refuse where it does not (R131). -/
def ackIf (b : Bool) : AckEffect := if b then .clears else .refused

/-- The effect of an ACK_HOLD on a record, as the condition stands (R131, R132). -/
def State.ackEffect (s : State) : Hold → AckEffect
  | .allStop _ _ => .clears
  | .consoleHold => .clears
  | .encoderDisagree => ackIf (!s.tracker.latch)
  | .doorBreach ks => ackIf (ks.all (fun k => (s.cabin k).door == .locked))
  | .zoneOverrun z k =>
    match (s.zone z).release with
    | .attended => ackIf (s.cabin k).secured
    | .auto => .marks
  | .cabinOverload _ => .clears
  | .windStop => .marks
  | .positionLost => .marks
  | .drivesLost => .marks

/-- The clear of an acknowledged record; after a ZONE_OVERRUN record the gate tests the zone's occupant
(R131, R73). -/
def ackClear (key : HoldKey) (s : State) : State :=
  match key with
  | .zoneOverrun z => clearOverrun z s
  | _ => clearHold key s

/-- ACK_HOLD on a record of a key (R130 to R132). -/
def ackRecord (key : HoldKey) (s : State) : Reply × State :=
  match s.holdRecord key with
  | none => answer .refusedCondition s
  | some r =>
    match s.ackEffect r.what with
    | .clears => answer .done (ackClear key s)
    | .marks => answer .done (markAcked key s)
    | .refused => answer .refusedCondition s

/-- ACK_HOLD (R130). -/
def ackHold : Owner := fun _ args s =>
  match args with
  | [kind, zone] =>
    match ackKey kind zone with
    | some key => ackRecord key s
    | none => answer .badArgument s
  | _ => answer .badLength s

/-! ### The rotation controller's requests (R140 to R146) -/

/-- UNSTOW (R140). -/
def unstow : Owner := plainRequest fun s =>
  match s.rot.wheel with
  | .stowed => answer .done (changeWheel .standby s)
  | _ => answer .refusedState s

/-- An accepted STOW as the service sequencer takes it (R82). It comes after the wheel's change, so that
STATE_CHANGED STOWED is queued before MODE_CHANGED CLOSED: DESIGN CHOICE (log 23). -/
def sequencerStow (s : State) : State :=
  if s.service.mode = .cleared then changeMode .closed .request s else s

/-- STOW (R140); the order of its two notices in CLEARED is DESIGN CHOICE (log 23). -/
def stow : Owner := plainRequest fun s =>
  match s.rot.wheel with
  | .standby =>
    match s.service.mode with
    | .closed => answer .done (sequencerStow (changeWheel .stowed s))
    | .cleared => answer .done (sequencerStow (changeWheel .stowed s))
    | .opened => answer .refusedCondition s
    | .clearDown => answer .refusedCondition s
  | _ => answer .refusedState s

/-- The wheel is set turning and resume-required cleared (R141, R144). -/
def setTurning (s : State) : State := putResume false (changeWheel .running s)

/-- START (R141). -/
def start : Owner := plainRequest fun s =>
  match s.rot.wheel with
  | .standby =>
    if !s.noHolds || !s.positionValid then answer .refusedCondition s else answer .done (setTurning s)
  | _ => answer .refusedState s

/-- STOP (R142). -/
def stop : Owner := plainRequest fun s =>
  match s.rot.wheel with
  | .running => answer .done (stopToStandby s)
  | .stopping _ => answer .done (stopToStandby s)
  | .held => answer .done (stopToStandby s)
  | _ => answer .refusedState s

/-- RESUME (R144). -/
def resume : Owner := plainRequest fun s =>
  match s.rot.wheel with
  | .held => if s.noHolds then answer .done (setTurning s) else answer .refusedCondition s
  | _ => answer .refusedState s

/-- RESET_BRAKE (R145). -/
def resetBrake : Owner := plainRequest fun s =>
  match s.rot.wheel with
  | .braked =>
    if s.holdsKey .allStop then answer .refusedCondition s
    else answer .done (putResume true (changeWheel .held s))
  | _ => answer .refusedState s

/-- P4 takes a value (R146). -/
def putTrim (v : Nat) (s : State) : State :=
  s.setTables { s.tables with params := s.tables.params.set 4 v }

/-- SET_TRIM (R146). -/
def setTrim : Owner := fun _ args s =>
  match args with
  | [trim] => (.clamped (clampNum 50 100 trim.toNat).2, putTrim (clampNum 50 100 trim.toNat).1 s)
  | _ => answer .badLength s

/-! ### The service sequencer's requests (R79 to R81) -/

/-- A change to OPEN by request; from CLEARDOWN the list is emptied and F_mode is 100 (R79). -/
def openMode (s : State) : State :=
  let s :=
    match s.service.mode with
    | .clearDown => s.setService { s.service with list := [], fMode := 100 }
    | _ => s
  changeMode .opened .request s

/-- OPEN_SERVICE (R79). -/
def openService : Owner := plainRequest fun s =>
  if s.service.mode = .opened then answer .done s
  else if s.service.mode = .closed ∧ (s.rot.wheel = .stowed ∨ s.rot.wheel = .braked) then
    answer .refusedState s
  else if 3 ≤ s.grader.inForce.val then answer .refusedCondition s
  else answer .done (openMode s)

/-- BEGIN_CLEARDOWN (R80). -/
def beginClearDown : Owner := plainRequest fun s =>
  match s.service.mode with
  | .opened => answer .done (enterClearDown .request s)
  | .clearDown => answer .done s
  | _ => answer .refusedState s

/-- CLOSE_SERVICE (R81). -/
def closeService : Owner := plainRequest fun s =>
  match s.service.mode with
  | .cleared => answer .done (changeMode .closed .request s)
  | .closed => answer .done s
  | _ => answer .refusedState s

/-! ### ARM_ZONE (R58) -/

/-- A zone's permit takes a state. -/
def putPermit (z : Zone) (p : Permit) (s : State) : State := s.setPermits (s.permits.set z p)

/-- ARM_ZONE on an admitted zone with an occupant (R58; log 19). -/
def armFor (z : Zone) (k : Cabin) (s : State) : Reply × State :=
  match s.permits.get z with
  | .clear => answer .done (putPermit z (.armed k) s)
  | .armed _ => answer .done s
  | .spent _ => answer .busy s

/-- ARM_ZONE naming a zone (R58). -/
def armNamed (z : Zone) (src : Byte) (s : State) : Reply × State :=
  if src ≠ s.role roleConsole ∧ src ≠ s.role (gateRole z) then answer .refusedSource s
  else if !s.service.mode.admits z then answer .refusedState s
  else if s.grader.inForce = 4 then answer .refusedCondition s
  else
    match (s.occ z).occupant with
    | none => answer .noCabin s
    | some k => armFor z k s

/-- ARM_ZONE (R58). -/
def armZone : Owner := fun src args s =>
  match args with
  | [zone] =>
    match decodeZone zone with
    | some z => armNamed z src s
    | none => answer .badArgument s
  | _ => answer .badLength s

end Sys2Proof.Machine
end

