-- ==== Sys2Proof/Machine/RequestHandler.lean ====
section
/-! DEFINITION. The request handler: who owns a request kind, the source check and the response (R168,
R169, R21). -/

namespace Sys2Proof.Machine

/-- LOAD_TABLE as an owner (R172). -/
def loadRequest : Owner := fun _ args s => loadTable args s

/-- READ_TABLE as an owner (R173). -/
def readTableRequest : Owner := fun _ args s => readTable args s

/-- The request table of section 1.9: each known kind with its owner. -/
def requestTable : List (Byte × Owner) :=
  [(reqReadStatus, readStatus), (reqReadTable, readTableRequest), (reqLoadTable, loadRequest),
    (reqSetLocks, setLocks), (reqRestart, restart), (reqReadHolds, readHolds), (reqHold, holdRequest),
    (reqAckHold, ackHold), (reqReadCabins, readCabins), (reqReadWind, readWind), (reqUnstow, unstow),
    (reqStow, stow), (reqStart, start), (reqStop, stop), (reqResume, resume),
    (reqResetBrake, resetBrake), (reqSetTrim, setTrim), (reqOpenService, openService),
    (reqBeginClearDown, beginClearDown), (reqCloseService, closeService), (reqArmZone, armZone)]

/-- The owner of a request kind, none for a kind that is not in the table. -/
def ownerOf (kind : Byte) : Option Owner := (requestTable.find? (fun e => e.1 == kind)).map (·.2)

/-- Whether a source is a gate station's roster address (R169). -/
def State.isGate (s : State) (src : Byte) : Bool :=
  src == s.role roleUnloadGate || src == s.role roleLoadGate

/-- Whether a kind is one that a gate station may use (R169). -/
def gateKind (kind : Byte) : Bool := kind == reqArmZone || kind == reqReadStatus

/-- The cases of R169: the owner's answer, BAD_KIND or REFUSED_SOURCE. -/
def judgeRequest (owner : Option Owner) (src kind : Byte) (args : List Byte) (s : State) :
    Reply × State :=
  if src = s.role roleConsole then
    match owner with
    | some o => o src args s
    | none => answer .badKind s
  else if s.isGate src && gateKind kind then
    match owner with
    | some o => o src args s
    | none => answer .badKind s
  else answer .refusedSource s

/-- A REQUEST of length 2 or more handed over: taken when the response queue has room, and answered with
one RESPONSE (R168, R21). -/
def takeRequest (owner : Option Owner) (src tag kind : Byte) (args : List Byte) (s : State) : State :=
  if s.ring.responses.length < Config.responseRoom then
    let r := judgeRequest owner src kind args s
    pushResponse src tag kind r.1 r.2
  else s

end Sys2Proof.Machine
end

