-- ==== Sys2Proof/Machine/RingIntake.lean ====
section
/-! DEFINITION. Deciding a received frame: door commands (R11, R63 to R67), ALL_STOP (R12), observation
(R14), the pass table and forwarding (R7, R13, R16). -/

namespace Sys2Proof.Machine

/-! ### Admission (R3, R9) -/

/-- A frame acts only when it is well formed and does not carry the part's own address as source: R3
discards it otherwise, or R9 strips it. -/
def heard (f : Frame) (handle : State → State) (s : State) : State :=
  if f.wellFormed ∧ f.source ≠ s.ownAddress then handle s else s

/-! ### The pass table and forwarding (R7, R16) -/

/-- Whether a field of a PASS entry, `none` for ANY, takes a frame's field (R7). -/
def fieldMatches (x : Option Byte) (o : Byte) : Bool :=
  match x with
  | some v => v == o
  | none => true

/-- Whether an entry is enabled and matches a frame (R7). -/
def PassEntry.hits (e : PassEntry) (f : Frame) : Bool :=
  e.control != .disabled && fieldMatches e.source f.source && fieldMatches e.dest f.dest &&
    fieldMatches e.kind f.kind

/-- Whether the pass table forwards a frame: the first entry that hits gives the action, and a frame
that none hits is forwarded (R7). -/
def State.passes (s : State) (f : Frame) : Bool :=
  match s.tables.pass.toList.find? (·.hits f) with
  | some e => e.control == .forward
  | none => true

/-- What happens to a frame that R9 to R12 do not decide: one addressed to the part is not forwarded
(R13), a broadcast one is, and any other as the pass table decides (R16). -/
def passOn (f : Frame) (s : State) : State :=
  if f.dest = s.ownAddress then s
  else if f.dest = Config.broadcast then pushForward f s
  else if s.passes f then pushForward f s
  else s

/-! ### Observation (R14) -/

/-- Act for the encoder head whose role the source holds (R14). -/
def observePosition (src : Byte) (p : Nat) (h : Health) (s : State) : State :=
  if src = s.role roleEncoderA then encoderReport .a p h s
  else if src = s.role roleEncoderB then encoderReport .b p h s
  else s

/-- The role among four that a source holds (R14). -/
def State.roleAmong (s : State) (role : Fin 4 → Fin 14) (src : Byte) : Option (Fin 4) :=
  allFour.find? (fun n => s.role (role n) == src)

/-- Act for the wind head whose role the source holds (R14). -/
def observeWind (src : Byte) (speed direction : Nat) (h : Health) (s : State) : State :=
  match s.roleAmong headRole src with
  | some n => windSample n speed direction h s
  | none => s

/-- Act for the concentrator's report of a cabin; a cabin of 48 or above changes nothing (R14, R41). -/
def observeDoor (src cabin : Byte) (d : Door) (occupancy : Nat) (s : State) : State :=
  if src = s.role roleConcentrator then
    match decodeCabin cabin with
    | some k => cabinReport k d occupancy s
    | none => s
  else s

/-- Act for the drive whose role the source holds (R14). -/
def observeDrive (src : Byte) (ready : Bool) (fault : Byte) (speed : Nat) (s : State) : State :=
  match s.roleAmong driveRole src with
  | some n => driveReport n ready fault speed s
  | none => s

/-- Observation of a frame by its kind and length, with the coded fields decoded (R14, R15). -/
def observe (f : Frame) (s : State) : State :=
  match f.payload with
  | [a, b, c, d] =>
    if f.kind = kindPosition then
      observePosition f.source (65536 * a.toNat + num2 b c) (decodeHealth d) s
    else if f.kind = kindDriveStatus then observeDrive f.source (decodeReady a) b (num2 c d) s
    else s
  | [a, b, c, d, e] =>
    if f.kind = kindWind then observeWind f.source (num2 a b) (num2 c d) (decodeHealth e) s else s
  | [a, b, c] =>
    if f.kind = kindDoorReport then observeDoor f.source a (decodeDoor b) c.toNat s else s
  | _ => s

/-! ### Door commands (R63 to R67) -/

/-- A denial of a door command, addressed to its source (R67). -/
def deny (what : DoorItemKind) (src cabin : Byte) (reason : DenialReason) (s : State) : State :=
  pushDoor
    { what := .denial, frame := s.ownFrame src kindNotice (Notice.denied what cabin reason).payload } s

/-- The copy of a forwarded door command: the received destination and payload, the part as source
(R11). -/
def forwardDoor (what : DoorItemKind) (dst cabin action : Byte) (s : State) : State :=
  pushDoor { what := what, frame := s.ownFrame dst kindDoorCommand [cabin, action] } s

/-- A LOCK is decided on its cabin number alone (R63). -/
def decideLock (dst src cabin : Byte) (s : State) : State :=
  match decodeCabin cabin with
  | some _ => forwardDoor .lock dst cabin actionLock s
  | none => deny .lock src cabin .badCabin s

/-- Whether a source is the roster address of the console, a gate station or the concentrator (R64,
check 2). -/
def State.mayCommandDoors (s : State) (src : Byte) : Bool :=
  src == s.role roleConsole || s.isGate src || src == s.role roleConcentrator

/-- The zone whose occupant a cabin is (R64, check 4). -/
def State.zoneOf (s : State) (k : Cabin) : Option Zone :=
  bothZones.find? (fun z => (s.occ z).occupant == some k)

/-- The first check of some that fails, as the denial reason. -/
def firstFailure (checks : List (Bool × DenialReason)) : Option DenialReason :=
  (checks.find? (fun c => !c.1)).map (·.2)

/-- The console override: a command of the console while the wheel is HELD (R65). -/
def State.overrides (s : State) (src : Byte) : Bool :=
  src == s.role roleConsole && s.rot.wheel == .held

/-- Checks 5 to 7 of R64. -/
def State.checks5to7 (s : State) (k : Cabin) : List (Bool × DenialReason) :=
  [(s.grader.inForce != 4, .wind), (s.rot.wheel != .braked, .braked),
    ((s.cabin k).door != .unknown, .stale)]

/-- Checks 8 to 12 of R64. -/
def State.checks8to12 (s : State) (src : Byte) (z : Zone) (k : Cabin) : List (Bool × DenialReason) :=
  [(!(s.occ z).past, .tooLate), ((s.cabinEntry k).inService, .outOfService),
    (s.service.mode.admits z, .mode),
    (src == s.role roleConsole || src == s.role (gateRole z), .wrongSource),
    (!(s.zone z).permitRequired || s.permits.get z == .armed k, .noPermit)]

/-- The checks that decide an UNLOCK once its zone is known: 5 to 7, and 8 to 12 but under the console
override (R64, R65). -/
def State.zoneChecks (s : State) (src : Byte) (z : Zone) (k : Cabin) : Option DenialReason :=
  firstFailure (s.checks5to7 k ++ if s.overrides src then [] else s.checks8to12 src z k)

/-- The decision on an UNLOCK: the cabin and its zone, or the reason of the denial (R64, R65). -/
def State.judgeUnlock (s : State) (src cabin : Byte) : Except DenialReason (Cabin × Zone) :=
  match decodeCabin cabin with
  | none => .error .badCabin
  | some k =>
    if !s.mayCommandDoors src then .error .wrongSource
    else if !s.positionValid then .error .noPosition
    else
      match s.zoneOf k with
      | none => .error .notInZone
      | some z =>
        match s.zoneChecks src z k with
        | some reason => .error reason
        | none => .ok (k, z)

/-- A forwarded UNLOCK: permit, cycle, copy, and the overrun test of a cabin past the cutoff (R66). -/
def forwardUnlock (dst cabin : Byte) (k : Cabin) (z : Zone) (s : State) : State :=
  let s := spendPermit z k s
  let s := startCycle k s
  let s := forwardDoor .unlock dst cabin actionUnlock s
  if (s.occ z).past then testOverrun z s else s

/-- An UNLOCK as the release gate decides it (R64 to R67). -/
def decideUnlock (dst src cabin : Byte) (s : State) : State :=
  match s.judgeUnlock src cabin with
  | .ok (k, z) => forwardUnlock dst cabin k z s
  | .error reason => deny .unlock src cabin reason s

/-- A DOOR_COMMAND; a malformed one is discarded (R11). -/
def doorCommand (f : Frame) (s : State) : State :=
  match f.payload with
  | [cabin, action] =>
    if action = actionUnlock then decideUnlock f.dest f.source cabin s
    else if action = actionLock then decideLock f.dest f.source cabin s
    else s
  | _ => s

/-! ### ALL_STOP (R12, R127) -/

/-- An ALL_STOP: the hold list takes it, and the frame is forwarded unchanged (R12). -/
def takeAllStop (f : Frame) (s : State) : State :=
  pushForward f (raiseHold (.allStop f.source (f.payload.headD 0x00)) s)

/-! ### Any frame (R8) -/

/-- A REQUEST addressed to the part; one of length 0 or 1 is discarded (R13). -/
def requestArrives (f : Frame) (s : State) : State :=
  match f.payload with
  | tag :: kind :: args => takeRequest (ownerOf kind) f.source tag kind args s
  | _ => s

/-- Whether a kind code is DRIVE_REF or DRIVE_APPLY (R10). -/
def isDriveKind (kind : Byte) : Bool := kind == kindDriveRef || kind == kindDriveApply

/-- An admitted frame, decided by R10 to R16 in their order. -/
def decideFrame (f : Frame) (s : State) : State :=
  if isDriveKind f.kind then s
  else if f.kind = kindDoorCommand then doorCommand f s
  else if f.kind = kindAllStop then takeAllStop f s
  else if f.dest = s.ownAddress ∧ f.kind = kindRequest then requestArrives f s
  else passOn f (observe f s)

/-- The octets received between a start mark and an end mark (R3, R8, R9). -/
def receive (os : List Byte) (s : State) : State :=
  match readFrame os with
  | some f => heard f (decideFrame f) s
  | none => s

end Sys2Proof.Machine
end

