-- ==== Sys2Proof/Machine/ResetCommands.lean ====
section
/-! DEFINITION. The meanings of the commands on the lines: reset and the service key (R1, R2, R175). -/

namespace Sys2Proof.Machine

/-- The reset line goes low: the part takes and sends nothing, and a frame being sent is cut off (R2; log
17). -/
def assertReset (s : State) : State :=
  (s.setLines { s.lines with inReset := true }).setRing { s.ring with ringOut := .idle }

/-- RESET_ASSERT (R2). -/
def execResetAssert (s : State) : Host.Outcome State Fault Refusal := .next (assertReset s)

/-- The reset line is released: the straps are sampled, and tables, locks and blocks take their power-on
values, and reception begins with the first frame that starts after it (R1, R2, R179; log 25). The service
key line and the waiting commands are not the part's to reset. -/
def releaseReset (release : ResetRelease) (s : State) : State :=
  State.powerOn release.straps release.underWay s.lines.svcKey s.pending

/-- POWER_ON_RESET (R2). -/
def execPowerOnReset (release : ResetRelease) (s : State) : Host.Outcome State Fault Refusal :=
  .next (releaseReset release s)

/-- SERVICE_KEY_CHANGE: the line takes a level; the lock set stays as it is (R1, R175). -/
def execServiceKeyChange (level : KeyLevel) (s : State) : Host.Outcome State Fault Refusal :=
  .next (s.setLines { s.lines with svcKey := level })

end Sys2Proof.Machine
end

