-- ==== Sys2Proof/Machine/FrameCommands.lean ====
section
/-! DEFINITION. The meanings of the frames received on ring-in and of the end of a frame on ring-out (R8 to
R16, R23). -/

namespace Sys2Proof.Machine

/-- A POSITION frame: its head takes the report, and the frame passes on (R26, R14, R16). -/
def takePosition (dst src : Byte) (pos : BitVec 24) (health : Byte) : State → State :=
  let f := positionFrame dst src pos health
  heard f (fun s => passOn f (observePosition src pos.toNat (decodeHealth health) s))

/-- POSITION (R26). -/
def execPosition (t : Nat) (dst src : Byte) (pos : BitVec 24) (health : Byte) (s : State) :
    Host.Outcome State Fault Refusal :=
  .next (frameStep t (takePosition dst src pos health) s)

/-- A WIND frame: its head takes the sample, and the frame passes on (R98, R14, R16). -/
def takeWind (dst src : Byte) (speed direction : BitVec 16) (health : Byte) : State → State :=
  let f := windFrame dst src speed direction health
  heard f (fun s => passOn f (observeWind src speed.toNat direction.toNat (decodeHealth health) s))

/-- WIND (R98). -/
def execWind (t : Nat) (dst src : Byte) (speed direction : BitVec 16) (health : Byte) (s : State) :
    Host.Outcome State Fault Refusal :=
  .next (frameStep t (takeWind dst src speed direction health) s)

/-- A DOOR_REPORT frame: the cabin records take the report, and the frame passes on (R41, R14, R16). -/
def takeDoorReport (dst src cabin door occupancy : Byte) : State → State :=
  let f := doorReportFrame dst src cabin door occupancy
  heard f (fun s => passOn f (observeDoor src cabin (decodeDoor door) occupancy.toNat s))

/-- DOOR_REPORT (R41). -/
def execDoorReport (t : Nat) (dst src cabin door occupancy : Byte) (s : State) :
    Host.Outcome State Fault Refusal :=
  .next (frameStep t (takeDoorReport dst src cabin door occupancy) s)

/-- A DRIVE_STATUS frame: its drive takes the report, and the frame passes on (R160, R14, R16). -/
def takeDriveStatus (dst src ready fault : Byte) (speed : BitVec 16) : State → State :=
  let f := driveStatusFrame dst src ready fault speed
  heard f (fun s => passOn f (observeDrive src (decodeReady ready) fault speed.toNat s))

/-- DRIVE_STATUS (R160). -/
def execDriveStatus (t : Nat) (dst src ready fault : Byte) (speed : BitVec 16) (s : State) :
    Host.Outcome State Fault Refusal :=
  .next (frameStep t (takeDriveStatus dst src ready fault speed) s)

/-- UNLOCK (R64). -/
def execUnlock (t : Nat) (dst src cabin : Byte) (s : State) : Host.Outcome State Fault Refusal :=
  .next (frameStep t (heard (doorCommandFrame dst src cabin actionUnlock) (decideUnlock dst src cabin)) s)

/-- LOCK (R63). -/
def execLock (t : Nat) (dst src cabin : Byte) (s : State) : Host.Outcome State Fault Refusal :=
  .next (frameStep t (heard (doorCommandFrame dst src cabin actionLock) (decideLock dst src cabin)) s)

/-- ALL_STOP (R12). -/
def execAllStop (t : Nat) (dst src : Byte) (payload : List Byte) (s : State) :
    Host.Outcome State Fault Refusal :=
  .next (frameStep t (heard (allStopFrame dst src payload) (takeAllStop (allStopFrame dst src payload))) s)

/-- STRIP: a frame that carries the part's own address as source is removed from the ring; nothing
observes it and nothing is forwarded (R9). -/
def execStrip (t : Nat) (_dst _kind : Byte) (_payload : List Byte) (s : State) :
    Host.Outcome State Fault Refusal :=
  .next (frameStep t id s)

/-- FOREIGN_DRIVE_FRAME: dropped, whatever its destination and the pass table (R10). -/
def execForeignDriveFrame (t : Nat) (_dst _src : Byte) (_kind : DriveFrameKind) (_payload : List Byte)
    (s : State) : Host.Outcome State Fault Refusal :=
  .next (frameStep t id s)

/-- OTHER_FRAME: the octets between a start mark and an end mark, discarded or decided (R3, R8, R16). -/
def execOtherFrame (t : Nat) (octets : List Byte) (s : State) : Host.Outcome State Fault Refusal :=
  .next (frameStep t (receive octets) s)

/-- FRAME_SEND_END: ring-out finishes its frame, and the arbiter chooses the next (R23). -/
def execFrameSendEnd (t : Nat) (s : State) : Host.Outcome State Fault Refusal :=
  .next (inStep t (fun s => s.setRing (endSending s.ring)) s)

end Sys2Proof.Machine
end

