-- ==== Sys2Proof/Machine/RequestCommands.lean ====
section
/-! DEFINITION. The meanings of the requests other than LOAD_TABLE: each is one REQUEST frame addressed to
the part, with its kind and its owner (R168, R169). -/

namespace Sys2Proof.Machine

/-- A REQUEST frame to the part's own address, with the owner of its kind (R13, R168). -/
def takeRequestFrame (owner : Option Owner) (src tag kind : Byte) (args : List Byte) (s : State) : State :=
  heard (requestFrame s.ownAddress src tag kind args) (takeRequest owner src tag kind args) s

/-- READ_STATUS (R170). -/
def execReadStatus (t : Nat) (src tag : Byte) (args : List Byte) (s : State) :
    Host.Outcome State Fault Refusal :=
  .next (frameStep t (takeRequestFrame (some readStatus) src tag reqReadStatus args) s)

/-- READ_TABLE (R173). -/
def execReadTable (t : Nat) (src tag : Byte) (args : List Byte) (s : State) :
    Host.Outcome State Fault Refusal :=
  .next (frameStep t (takeRequestFrame (some readTableRequest) src tag reqReadTable args) s)

/-- SET_LOCKS (R175). -/
def execSetLocks (t : Nat) (src tag : Byte) (args : List Byte) (s : State) :
    Host.Outcome State Fault Refusal :=
  .next (frameStep t (takeRequestFrame (some setLocks) src tag reqSetLocks args) s)

/-- RESTART (R178). -/
def execRestart (t : Nat) (src tag : Byte) (args : List Byte) (s : State) :
    Host.Outcome State Fault Refusal :=
  .next (frameStep t (takeRequestFrame (some restart) src tag reqRestart args) s)

/-- READ_HOLDS (R134). -/
def execReadHolds (t : Nat) (src tag : Byte) (args : List Byte) (s : State) :
    Host.Outcome State Fault Refusal :=
  .next (frameStep t (takeRequestFrame (some readHolds) src tag reqReadHolds args) s)

/-- HOLD (R129). -/
def execHold (t : Nat) (src tag : Byte) (args : List Byte) (s : State) :
    Host.Outcome State Fault Refusal :=
  .next (frameStep t (takeRequestFrame (some holdRequest) src tag reqHold args) s)

/-- ACK_HOLD (R130). -/
def execAckHold (t : Nat) (src tag : Byte) (args : List Byte) (s : State) :
    Host.Outcome State Fault Refusal :=
  .next (frameStep t (takeRequestFrame (some ackHold) src tag reqAckHold args) s)

/-- READ_CABINS (R53). -/
def execReadCabins (t : Nat) (src tag : Byte) (args : List Byte) (s : State) :
    Host.Outcome State Fault Refusal :=
  .next (frameStep t (takeRequestFrame (some readCabins) src tag reqReadCabins args) s)

/-- READ_WIND (R105). -/
def execReadWind (t : Nat) (src tag : Byte) (args : List Byte) (s : State) :
    Host.Outcome State Fault Refusal :=
  .next (frameStep t (takeRequestFrame (some readWind) src tag reqReadWind args) s)

/-- UNSTOW (R140). -/
def execUnstow (t : Nat) (src tag : Byte) (args : List Byte) (s : State) :
    Host.Outcome State Fault Refusal :=
  .next (frameStep t (takeRequestFrame (some unstow) src tag reqUnstow args) s)

/-- STOW (R140). -/
def execStow (t : Nat) (src tag : Byte) (args : List Byte) (s : State) :
    Host.Outcome State Fault Refusal :=
  .next (frameStep t (takeRequestFrame (some stow) src tag reqStow args) s)

/-- START (R141). -/
def execStart (t : Nat) (src tag : Byte) (args : List Byte) (s : State) :
    Host.Outcome State Fault Refusal :=
  .next (frameStep t (takeRequestFrame (some start) src tag reqStart args) s)

/-- STOP (R142). -/
def execStop (t : Nat) (src tag : Byte) (args : List Byte) (s : State) :
    Host.Outcome State Fault Refusal :=
  .next (frameStep t (takeRequestFrame (some stop) src tag reqStop args) s)

/-- RESUME (R144). -/
def execResume (t : Nat) (src tag : Byte) (args : List Byte) (s : State) :
    Host.Outcome State Fault Refusal :=
  .next (frameStep t (takeRequestFrame (some resume) src tag reqResume args) s)

/-- RESET_BRAKE (R145). -/
def execResetBrake (t : Nat) (src tag : Byte) (args : List Byte) (s : State) :
    Host.Outcome State Fault Refusal :=
  .next (frameStep t (takeRequestFrame (some resetBrake) src tag reqResetBrake args) s)

/-- SET_TRIM (R146). -/
def execSetTrim (t : Nat) (src tag : Byte) (args : List Byte) (s : State) :
    Host.Outcome State Fault Refusal :=
  .next (frameStep t (takeRequestFrame (some setTrim) src tag reqSetTrim args) s)

/-- OPEN_SERVICE (R79). -/
def execOpenService (t : Nat) (src tag : Byte) (args : List Byte) (s : State) :
    Host.Outcome State Fault Refusal :=
  .next (frameStep t (takeRequestFrame (some openService) src tag reqOpenService args) s)

/-- BEGIN_CLEARDOWN (R80). -/
def execBeginClearDown (t : Nat) (src tag : Byte) (args : List Byte) (s : State) :
    Host.Outcome State Fault Refusal :=
  .next (frameStep t (takeRequestFrame (some beginClearDown) src tag reqBeginClearDown args) s)

/-- CLOSE_SERVICE (R81). -/
def execCloseService (t : Nat) (src tag : Byte) (args : List Byte) (s : State) :
    Host.Outcome State Fault Refusal :=
  .next (frameStep t (takeRequestFrame (some closeService) src tag reqCloseService args) s)

/-- ARM_ZONE (R58). -/
def execArmZone (t : Nat) (src tag : Byte) (args : List Byte) (s : State) :
    Host.Outcome State Fault Refusal :=
  .next (frameStep t (takeRequestFrame (some armZone) src tag reqArmZone args) s)

/-- UNKNOWN_REQUEST: a REQUEST of any kind; a kind outside the request table is BAD_KIND or, but from the
console, REFUSED_SOURCE (R169; log 5). -/
def execUnknownRequest (t : Nat) (src tag kind : Byte) (args : List Byte) (s : State) :
    Host.Outcome State Fault Refusal :=
  .next (frameStep t (takeRequestFrame (ownerOf kind) src tag kind args) s)

end Sys2Proof.Machine
end

