-- ==== Sys2Proof/Machine/LoadCommands.lean ====
section
/-! DEFINITION. The meanings of LOAD_TABLE, one for each table (R172). -/

namespace Sys2Proof.Machine

/-- A LOAD_TABLE frame on a table; `args` are the octets after the table code (R172). -/
def takeLoad (table : Table) (src tag : Byte) (args : List Byte) : State → State :=
  takeRequestFrame (some loadRequest) src tag reqLoadTable (table.code :: args)

/-- LOAD_ROSTER (R6). -/
def execLoadRoster (t : Nat) (src tag : Byte) (args : List Byte) (s : State) :
    Host.Outcome State Fault Refusal :=
  .next (frameStep t (takeLoad .roster src tag args) s)

/-- LOAD_PASS (R7). -/
def execLoadPass (t : Nat) (src tag : Byte) (args : List Byte) (s : State) :
    Host.Outcome State Fault Refusal :=
  .next (frameStep t (takeLoad .pass src tag args) s)

/-- LOAD_CABINS (R39). -/
def execLoadCabins (t : Nat) (src tag : Byte) (args : List Byte) (s : State) :
    Host.Outcome State Fault Refusal :=
  .next (frameStep t (takeLoad .cabins src tag args) s)

/-- LOAD_ZONES (R56). -/
def execLoadZones (t : Nat) (src tag : Byte) (args : List Byte) (s : State) :
    Host.Outcome State Fault Refusal :=
  .next (frameStep t (takeLoad .zones src tag args) s)

/-- LOAD_PARAMETERS (R176). -/
def execLoadParameters (t : Nat) (src tag : Byte) (args : List Byte) (s : State) :
    Host.Outcome State Fault Refusal :=
  .next (frameStep t (takeLoad .parameters src tag args) s)

/-- LOAD_HEADS (R94). -/
def execLoadHeads (t : Nat) (src tag : Byte) (args : List Byte) (s : State) :
    Host.Outcome State Fault Refusal :=
  .next (frameStep t (takeLoad .heads src tag args) s)

/-- LOAD_RULES (R108). -/
def execLoadRules (t : Nat) (src tag : Byte) (args : List Byte) (s : State) :
    Host.Outcome State Fault Refusal :=
  .next (frameStep t (takeLoad .rules src tag args) s)

end Sys2Proof.Machine
end

