-- ==== Sys2Proof/Machine/TimerCommands.lean ====
section
/-! DEFINITION. The meanings of the events of the millisecond time base: timers, lapses and expiries. -/

namespace Sys2Proof.Machine

/-- ROTATION_UPDATE: the rotation update timer expires (R151). -/
def execRotationUpdate (t : Nat) (s : State) : Host.Outcome State Fault Refusal :=
  .next (inStep t rotationUpdate s)

/-- WIND_EVALUATION: the evaluation timer expires (R113, R114). -/
def execWindEvaluation (t : Nat) (s : State) : Host.Outcome State Fault Refusal :=
  .next (inStep t evaluate s)

/-- DWELL_EXPIRY: the fall dwell expires where its time has come (R118; log 14). -/
def execDwellExpiry (t : Nat) (s : State) : Host.Outcome State Fault Refusal :=
  .next (inStep t expireDwell s)

/-- SETTLING_END: settling ends where its time has come (R119; log 14). -/
def execSettlingEnd (t : Nat) (s : State) : Host.Outcome State Fault Refusal :=
  .next (inStep t endSettling s)

/-- ENCODER_LAPSE: an encoder head lapses where its age exceeds P15 (R27; log 14). -/
def execEncoderLapse (t : Nat) (head : EncoderId) (s : State) : Host.Outcome State Fault Refusal :=
  .next (inStep t (encoderLapse head) s)

/-- STALE_EVENT: a door becomes stale where its age exceeds P16 (R42; log 14). -/
def execStaleEvent (t : Nat) (cabin : Cabin) (s : State) : Host.Outcome State Fault Refusal :=
  .next (inStep t (staleEvent cabin) s)

/-- HEAD_LAPSE: a wind head lapses where its age exceeds P18 (R102; log 14). -/
def execHeadLapse (t : Nat) (head : Fin 4) (s : State) : Host.Outcome State Fault Refusal :=
  .next (inStep t (headLapse head) s)

/-- DRIVE_LAPSE: a drive lapses where its age exceeds P17 (R161; log 14). -/
def execDriveLapse (t : Nat) (drive : Fin 4) (s : State) : Host.Outcome State Fault Refusal :=
  .next (inStep t (driveLapse drive) s)

end Sys2Proof.Machine
end

