-- ==== Sys2Proof/Machine/Dispatch.lean ====
section
/-! DEFINITION. The meaning of every command, one arm for each row of the table. -/

namespace Sys2Proof.Machine

/-- The effect of a command on everything but the queue of waiting commands. -/
def exec (i : Instr) (s : State) : Host.Outcome State Fault Refusal :=
  match i with
  | .resetAssert => Sys2Proof.Machine.execResetAssert s
  | .powerOnReset release => Sys2Proof.Machine.execPowerOnReset release s
  | .position t dst src pos health => Sys2Proof.Machine.execPosition t dst src pos health s
  | .wind t dst src speed direction health => Sys2Proof.Machine.execWind t dst src speed direction health s
  | .doorReport t dst src cabin door occupancy => Sys2Proof.Machine.execDoorReport t dst src cabin door occupancy s
  | .driveStatus t dst src ready fault speed => Sys2Proof.Machine.execDriveStatus t dst src ready fault speed s
  | .unlock t dst src cabin => Sys2Proof.Machine.execUnlock t dst src cabin s
  | .lock t dst src cabin => Sys2Proof.Machine.execLock t dst src cabin s
  | .allStop t dst src payload => Sys2Proof.Machine.execAllStop t dst src payload s
  | .strip t dst kind payload => Sys2Proof.Machine.execStrip t dst kind payload s
  | .foreignDriveFrame t dst src kind payload => Sys2Proof.Machine.execForeignDriveFrame t dst src kind payload s
  | .otherFrame t octets => Sys2Proof.Machine.execOtherFrame t octets s
  | .frameSendEnd t => Sys2Proof.Machine.execFrameSendEnd t s
  | .readStatus t src tag args => Sys2Proof.Machine.execReadStatus t src tag args s
  | .readTable t src tag args => Sys2Proof.Machine.execReadTable t src tag args s
  | .loadRoster t src tag args => Sys2Proof.Machine.execLoadRoster t src tag args s
  | .loadPass t src tag args => Sys2Proof.Machine.execLoadPass t src tag args s
  | .loadCabins t src tag args => Sys2Proof.Machine.execLoadCabins t src tag args s
  | .loadZones t src tag args => Sys2Proof.Machine.execLoadZones t src tag args s
  | .loadParameters t src tag args => Sys2Proof.Machine.execLoadParameters t src tag args s
  | .loadHeads t src tag args => Sys2Proof.Machine.execLoadHeads t src tag args s
  | .loadRules t src tag args => Sys2Proof.Machine.execLoadRules t src tag args s
  | .setLocks t src tag args => Sys2Proof.Machine.execSetLocks t src tag args s
  | .restart t src tag args => Sys2Proof.Machine.execRestart t src tag args s
  | .readHolds t src tag args => Sys2Proof.Machine.execReadHolds t src tag args s
  | .hold t src tag args => Sys2Proof.Machine.execHold t src tag args s
  | .ackHold t src tag args => Sys2Proof.Machine.execAckHold t src tag args s
  | .readCabins t src tag args => Sys2Proof.Machine.execReadCabins t src tag args s
  | .readWind t src tag args => Sys2Proof.Machine.execReadWind t src tag args s
  | .unstow t src tag args => Sys2Proof.Machine.execUnstow t src tag args s
  | .stow t src tag args => Sys2Proof.Machine.execStow t src tag args s
  | .start t src tag args => Sys2Proof.Machine.execStart t src tag args s
  | .stop t src tag args => Sys2Proof.Machine.execStop t src tag args s
  | .resume t src tag args => Sys2Proof.Machine.execResume t src tag args s
  | .resetBrake t src tag args => Sys2Proof.Machine.execResetBrake t src tag args s
  | .setTrim t src tag args => Sys2Proof.Machine.execSetTrim t src tag args s
  | .openService t src tag args => Sys2Proof.Machine.execOpenService t src tag args s
  | .beginClearDown t src tag args => Sys2Proof.Machine.execBeginClearDown t src tag args s
  | .closeService t src tag args => Sys2Proof.Machine.execCloseService t src tag args s
  | .armZone t src tag args => Sys2Proof.Machine.execArmZone t src tag args s
  | .unknownRequest t src tag kind args => Sys2Proof.Machine.execUnknownRequest t src tag kind args s
  | .rotationUpdate t => Sys2Proof.Machine.execRotationUpdate t s
  | .windEvaluation t => Sys2Proof.Machine.execWindEvaluation t s
  | .dwellExpiry t => Sys2Proof.Machine.execDwellExpiry t s
  | .settlingEnd t => Sys2Proof.Machine.execSettlingEnd t s
  | .encoderLapse t head => Sys2Proof.Machine.execEncoderLapse t head s
  | .staleEvent t cabin => Sys2Proof.Machine.execStaleEvent t cabin s
  | .headLapse t head => Sys2Proof.Machine.execHeadLapse t head s
  | .driveLapse t drive => Sys2Proof.Machine.execDriveLapse t drive s
  | .serviceKeyChange level => Sys2Proof.Machine.execServiceKeyChange level s

end Sys2Proof.Machine
end

