-- ==== Sys2Proof/Safety.lean ====
section
/-! DEFINITION. What claims about the part are said in: the state a command's own effect leaves, what a
request is heard by, and the laws of the device that every step keeps. -/

namespace Sys2Proof.Machine

/-! ### A command that completes -/

/-- The command answers next from `s`: its own effect leaves `u`, and an idle ring-out then starts a
waiting frame of `u` (R23; log 4). -/
def Completes (c : Instr) (s u : State) : Prop := exec c s = .next (u.setRing (startIfIdle u.ring))

/-- The time base at a command taken at the moment t: it never moves back (R1, log 1). -/
def State.linesAt (s : State) (t : Nat) : Lines := { s.lines with now := max s.lines.now t }

/-- The part receives frames: it is out of reset, and no frame that was under way at the release is still to
end (R2; log 25). -/
abbrev State.receiving (s : State) : Prop := s.lines.inReset = false ∧ s.lines.underWay = false

/-- The part receives, and hears a frame of this source: R3 takes it and R9 does not strip it. -/
abbrev State.hears (s : State) (src : Byte) : Prop :=
  s.receiving ∧ src.toNat ≤ 61 ∧ src ≠ s.ownAddress

/-- The role of an encoder head (R5). -/
def encoderRole : EncoderId → Fin 14
  | .a => roleEncoderA
  | .b => roleEncoderB

/-- A destination that R3 takes. -/
abbrev destTaken (dst : Byte) : Prop := dst.toNat ≤ 63 ∧ dst.toNat ≠ 62

/-- The part takes a REQUEST of this source: it hears it, and the response queue has room (R21). -/
abbrev State.takes (s : State) (src : Byte) : Prop := s.hears src ∧ s.ring.responses.length < 8

/-- The part takes a REQUEST of the console (R169). -/
abbrev State.takesConsole (s : State) (src : Byte) : Prop := s.takes src ∧ src = s.role roleConsole

/-- The RESPONSE to a request (R168, R18): to its source, from the part, with tag, request kind, result
and data. -/
def State.responseFrame (s : State) (src tag kind : Byte) (result : Result) (data : List Byte) : Frame :=
  { dest := src, source := s.ownAddress, kind := 0x62, payload := tag :: kind :: result.code :: data }

/-- The response queue of `s` with one RESPONSE appended. -/
def State.answered (s : State) (src tag kind : Byte) (result : Result) (data : List Byte) : List Frame :=
  s.ring.responses ++ [s.responseFrame src tag kind result data]

/-- The source, tag and request kind of a command that is a REQUEST addressed to the part. -/
def requestOf : Instr → Option (Byte × Byte × Byte)
  | .readStatus _ src tag _ => some (src, tag, 0x01)
  | .readTable _ src tag _ => some (src, tag, 0x02)
  | .loadRoster _ src tag _ => some (src, tag, 0x03)
  | .loadPass _ src tag _ => some (src, tag, 0x03)
  | .loadCabins _ src tag _ => some (src, tag, 0x03)
  | .loadZones _ src tag _ => some (src, tag, 0x03)
  | .loadParameters _ src tag _ => some (src, tag, 0x03)
  | .loadHeads _ src tag _ => some (src, tag, 0x03)
  | .loadRules _ src tag _ => some (src, tag, 0x03)
  | .setLocks _ src tag _ => some (src, tag, 0x04)
  | .restart _ src tag _ => some (src, tag, 0x05)
  | .readHolds _ src tag _ => some (src, tag, 0x10)
  | .hold _ src tag _ => some (src, tag, 0x11)
  | .ackHold _ src tag _ => some (src, tag, 0x12)
  | .readCabins _ src tag _ => some (src, tag, 0x18)
  | .readWind _ src tag _ => some (src, tag, 0x20)
  | .unstow _ src tag _ => some (src, tag, 0x30)
  | .stow _ src tag _ => some (src, tag, 0x31)
  | .start _ src tag _ => some (src, tag, 0x32)
  | .stop _ src tag _ => some (src, tag, 0x33)
  | .resume _ src tag _ => some (src, tag, 0x34)
  | .resetBrake _ src tag _ => some (src, tag, 0x35)
  | .setTrim _ src tag _ => some (src, tag, 0x36)
  | .openService _ src tag _ => some (src, tag, 0x40)
  | .beginClearDown _ src tag _ => some (src, tag, 0x41)
  | .closeService _ src tag _ => some (src, tag, 0x42)
  | .armZone _ src tag _ => some (src, tag, 0x48)
  | .unknownRequest _ src tag kind _ => some (src, tag, kind)
  | _ => none

/-- Whether a command is taken on the millisecond time base: every one but the three of the lines. -/
def timed : Instr → Bool
  | .resetAssert => false
  | .powerOnReset _ => false
  | .serviceKeyChange _ => false
  | _ => true

/-! ### Which blocks two states share -/

/-- The blocks of State other than the lines and the ring interface. -/
inductive Block where
  | tables | tracker | cabins | permits | service | heads | grader | holds | rot | drives
  deriving DecidableEq, Repr

/-- One block is in `u` as it was in `s`. -/
def Block.same (s u : State) : Block → Prop
  | .tables => u.tables = s.tables
  | .tracker => u.tracker = s.tracker
  | .cabins => u.cabins = s.cabins
  | .permits => u.permits = s.permits
  | .service => u.service = s.service
  | .heads => u.heads = s.heads
  | .grader => u.grader = s.grader
  | .holds => u.holds = s.holds
  | .rot => u.rot = s.rot
  | .drives => u.drives = s.drives

/-- The waiting commands and every block not listed are as they were. -/
def Untouched (changed : List Block) (s u : State) : Prop :=
  u.pending = s.pending ∧ ∀ b, b ∉ changed → b.same s u

/-- Every block but the ring interface and the lines is as it was. -/
abbrev SameBlocks (s u : State) : Prop := Untouched [] s u

/-! ### Notices -/

/-- The state after some notices are queued in order (R177, R22). -/
def State.afterNotices (s : State) (ns : List Notice) : State := ns.foldl (fun s n => notify n s) s

/-- The notice queue and its overflow flag are as some notices, queued in order, leave them. -/
def NoticesQueued (s u : State) (ns : List Notice) : Prop :=
  u.ring.notices = (s.afterNotices ns).ring.notices ∧
    u.ring.noticeOverflow = (s.afterNotices ns).ring.noticeOverflow

/-! ### Reset values -/

/-- The dynamic state of every block has its reset value, settling runs for so many seconds from now and
the three reset records were raised now (R38, R54, R77, R92, R106, R122, R138, R158, R167). -/
def BlocksReset (u : State) (settle : Nat) : Prop :=
  (∀ e, u.tracker.head e = { latest := none, taken := none, health := .degraded, fresh := false }) ∧
    u.tracker.disagreements = 0 ∧ u.tracker.latch = false ∧ u.tracker.accepted = .invalid ∧
    (∀ z, u.occ z = { occupant := none, past := false }) ∧
    (∀ k, u.cabin k =
      { door := .unknown, occupancy := 0, lastReport := none, location := none, cycle := .idle
        releaseTime := none, overloaded := false }) ∧
    (∀ z, u.permits.get z = .clear) ∧
    u.service = { mode := .closed, list := [], fMode := 100 } ∧
    (∀ n, u.head n =
      { health := .degraded, lastSample := none, fresh := false, ring := [], entered := 0
        acc := 0, initialized := false, sector := none, gust := 0, sustained := 0 }) ∧
    u.grader =
      { computed := 4, headsShort := true, inForce := 4, dwell := none
        settling := some (u.lines.now + 1000 * settle) } ∧
    u.holds.records.map (fun r => r.what) = [.windStop, .positionLost, .drivesLost] ∧
    (∀ r ∈ u.holds.records, r.raised = u.lines.now ∧ r.acked = false) ∧
    u.holds.resumeRequired = true ∧ u.rot.stopPending = false ∧ u.rot.vCmd = 0 ∧
    ∀ n, u.drive n =
      { reportedReady := false, fault := 0, speed := 0, lastReport := none, fresh := false, ready := false }

/-! ### Answers to requests -/

/-- The command is a request taken at the moment t and answered: it completes, one RESPONSE joins the
response queue, and the forward buffer, the door queue and ring-out are as they were (R168). -/
def Answers (c : Instr) (t : Nat) (s u : State) (src tag kind : Byte) (result : Result)
    (data : List Byte) : Prop :=
  Completes c s u ∧ u.lines = s.linesAt t ∧ u.ring.responses = s.answered src tag kind result data ∧
    u.ring.forward = s.ring.forward ∧ u.ring.doorQueue = s.ring.doorQueue ∧
    u.ring.ringOut = s.ring.ringOut ∧ u.ring.ownDue = s.ring.ownDue

/-- The request is answered with a result and data, and changes nothing else (R168, R170). -/
def AnswersOnly (c : Instr) (t : Nat) (s u : State) (src tag kind : Byte) (result : Result)
    (data : List Byte) : Prop :=
  Answers c t s u src tag kind result data ∧ SameBlocks s u ∧ u.ring.driveSet = s.ring.driveSet ∧
    u.ring.notices = s.ring.notices ∧ u.ring.noticeOverflow = s.ring.noticeOverflow

/-- The request is turned away with a result and no data, and changes nothing else (R168). -/
def TurnsAway (c : Instr) (t : Nat) (s : State) (src tag kind : Byte) (result : Result) : Prop :=
  ∃ u, AnswersOnly c t s u src tag kind result []

/-- The request is answered DONE without data, with its notices; only the listed blocks change, and the
drive set is as it was. -/
def Done (c : Instr) (t : Nat) (s u : State) (src tag kind : Byte) (changed : List Block)
    (ns : List Notice) : Prop :=
  Answers c t s u src tag kind .done [] ∧ Untouched changed s u ∧ u.ring.driveSet = s.ring.driveSet ∧
    NoticesQueued s u ns

/-- The sum, over the entries of a table that a load writes, of how many of some conditions its octets meet
(R171, R172). -/
def countWritten (entries : Nat) (ps : Entries) (conditions : List Byte → List Bool) : Nat :=
  ((List.range entries).map (fun j =>
    match written ps j with
    | some e => (conditions e).count true
    | none => 0)).sum

/-- The command does nothing: only the time base moves on. -/
def OnlyTime (c : Instr) (t : Nat) (s : State) : Prop :=
  ∃ u, Completes c s u ∧ u.lines = s.linesAt t ∧ u.ring = s.ring ∧ SameBlocks s u

/-- LOAD_TABLE on a table: `args` are the octets after the table code. -/
def loadOf (table : Table) (t : Nat) (src tag : Byte) (args : List Byte) : Instr :=
  match table with
  | .roster => .loadRoster t src tag args
  | .pass => .loadPass t src tag args
  | .cabins => .loadCabins t src tag args
  | .zones => .loadZones t src tag args
  | .parameters => .loadParameters t src tag args
  | .heads => .loadHeads t src tag args
  | .rules => .loadRules t src tag args

/-- The octets of a LOAD_TABLE are judged with the table's own conditions met: a start index in the table,
at least one whole entry, at most 64 octets of payload, and the table unlocked or the wheel STOWED (R172). -/
abbrev State.loadable (s : State) (table : Table) (start : Byte) (body : List Byte) : Prop :=
  start.toNat < table.entries ∧ body ≠ [] ∧ body.length % table.size = 0 ∧ body.length ≤ 60 ∧
    (s.tables.locks.getLsbD (table.code.toNat - 1) = false ∨ s.rot.wheel = .stowed)

/-- DONE, or DONE_CLAMPED with the clamped count as its one data octet (R172, R24). -/
def clampedResult (count : Nat) : Result := if count = 0 then .done else .doneClamped

/-- The data of a DONE or DONE_CLAMPED answer to a load (R24). -/
def clampedData (count : Nat) : List Byte := if count = 0 then [] else [octet count]

/-! ### Frames -/

/-- The forward buffer with a frame appended, or as it was when it holds 8 (R17). -/
def State.forwarded (s : State) (f : Frame) : List Frame :=
  if s.ring.forward.length < 8 then s.ring.forward ++ [f] else s.ring.forward

/-- The decision of R16 by the pass table of R7: forwarded by the first enabled entry that matches, or by
none matching. -/
def State.passTableForwards (s : State) (f : Frame) : Prop :=
  (∀ i : Fin 32, (s.tables.pass[i]).hits f = false) ∨
    ∃ i : Fin 32, (s.tables.pass[i]).hits f = true ∧ (s.tables.pass[i]).control = .forward ∧
      ∀ j : Fin 32, j < i → (s.tables.pass[j]).hits f = false

/-- The forward buffer after R13 or R16 decides a frame: one to the part is not forwarded, a broadcast one
is, and any other as the pass table says. -/
def PassesOn (s u : State) (f : Frame) : Prop :=
  (f.dest = s.ownAddress → u.ring.forward = s.ring.forward) ∧
    (f.dest = 63 → u.ring.forward = s.forwarded f) ∧
    (f.dest ≠ s.ownAddress → f.dest ≠ 63 →
      (s.passTableForwards f → u.ring.forward = s.forwarded f) ∧
        (¬ s.passTableForwards f → u.ring.forward = s.ring.forward))

/-- A role frame leaves the drive set, the door queue, the responses and ring-out as they were, and passes
on (R8). -/
def RoleFrameOnRing (s u : State) (f : Frame) : Prop :=
  u.ring.driveSet = s.ring.driveSet ∧ u.ring.doorQueue = s.ring.doorQueue ∧
    u.ring.responses = s.ring.responses ∧ u.ring.ringOut = s.ring.ringOut ∧
    u.ring.ownDue = s.ring.ownDue ∧ PassesOn s u f

/-- The frames that R14 has observed: a role frame of its kind's length from a roster address of a role
that sends the kind. -/
def State.observes (s : State) (f : Frame) : Prop :=
  (f.kind = 0x21 ∧ f.payload.length = 4 ∧
      (f.source = s.role roleEncoderA ∨ f.source = s.role roleEncoderB)) ∨
    (f.kind = 0x24 ∧ f.payload.length = 5 ∧ ∃ n, f.source = s.role (headRole n)) ∨
    (f.kind = 0x31 ∧ f.payload.length = 3 ∧ f.source = s.role roleConcentrator) ∨
    (f.kind = 0x43 ∧ f.payload.length = 4 ∧ ∃ n, f.source = s.role (driveRole n))

/-- The frame that a command stands for, with the moment it is taken: a row of a frame or of a REQUEST
addressed to the part. -/
def State.frameOf (s : State) : Instr → Option (Nat × Frame)
  | .position t dst src pos health => some (t, positionFrame dst src pos health)
  | .wind t dst src speed direction health => some (t, windFrame dst src speed direction health)
  | .doorReport t dst src cabin door occupancy => some (t, doorReportFrame dst src cabin door occupancy)
  | .driveStatus t dst src ready fault speed => some (t, driveStatusFrame dst src ready fault speed)
  | .unlock t dst src cabin => some (t, doorCommandFrame dst src cabin 0x01)
  | .lock t dst src cabin => some (t, doorCommandFrame dst src cabin 0x02)
  | .allStop t dst src payload => some (t, allStopFrame dst src payload)
  | .strip t dst kind payload =>
    some (t, { dest := dst, source := s.ownAddress, kind := kind, payload := payload })
  | .foreignDriveFrame t dst src kind payload =>
    some (t, { dest := dst, source := src, kind := driveFrameCode kind, payload := payload })
  | .readStatus t src tag args => some (t, requestFrame s.ownAddress src tag 0x01 args)
  | .readTable t src tag args => some (t, requestFrame s.ownAddress src tag 0x02 args)
  | .loadRoster t src tag args => some (t, requestFrame s.ownAddress src tag 0x03 (0x01 :: args))
  | .loadPass t src tag args => some (t, requestFrame s.ownAddress src tag 0x03 (0x02 :: args))
  | .loadCabins t src tag args => some (t, requestFrame s.ownAddress src tag 0x03 (0x03 :: args))
  | .loadZones t src tag args => some (t, requestFrame s.ownAddress src tag 0x03 (0x04 :: args))
  | .loadParameters t src tag args => some (t, requestFrame s.ownAddress src tag 0x03 (0x05 :: args))
  | .loadHeads t src tag args => some (t, requestFrame s.ownAddress src tag 0x03 (0x06 :: args))
  | .loadRules t src tag args => some (t, requestFrame s.ownAddress src tag 0x03 (0x07 :: args))
  | .setLocks t src tag args => some (t, requestFrame s.ownAddress src tag 0x04 args)
  | .restart t src tag args => some (t, requestFrame s.ownAddress src tag 0x05 args)
  | .readHolds t src tag args => some (t, requestFrame s.ownAddress src tag 0x10 args)
  | .hold t src tag args => some (t, requestFrame s.ownAddress src tag 0x11 args)
  | .ackHold t src tag args => some (t, requestFrame s.ownAddress src tag 0x12 args)
  | .readCabins t src tag args => some (t, requestFrame s.ownAddress src tag 0x18 args)
  | .readWind t src tag args => some (t, requestFrame s.ownAddress src tag 0x20 args)
  | .unstow t src tag args => some (t, requestFrame s.ownAddress src tag 0x30 args)
  | .stow t src tag args => some (t, requestFrame s.ownAddress src tag 0x31 args)
  | .start t src tag args => some (t, requestFrame s.ownAddress src tag 0x32 args)
  | .stop t src tag args => some (t, requestFrame s.ownAddress src tag 0x33 args)
  | .resume t src tag args => some (t, requestFrame s.ownAddress src tag 0x34 args)
  | .resetBrake t src tag args => some (t, requestFrame s.ownAddress src tag 0x35 args)
  | .setTrim t src tag args => some (t, requestFrame s.ownAddress src tag 0x36 args)
  | .openService t src tag args => some (t, requestFrame s.ownAddress src tag 0x40 args)
  | .beginClearDown t src tag args => some (t, requestFrame s.ownAddress src tag 0x41 args)
  | .closeService t src tag args => some (t, requestFrame s.ownAddress src tag 0x42 args)
  | .armZone t src tag args => some (t, requestFrame s.ownAddress src tag 0x48 args)
  | .unknownRequest t src tag kind args => some (t, requestFrame s.ownAddress src tag kind args)
  | _ => none

/-- A command that stands for the end of a frame on ring-in at the moment t. -/
def State.endsFrameAt (s : State) (c : Instr) (t : Nat) : Prop :=
  (∃ f, s.frameOf c = some (t, f)) ∨ ∃ os, c = .otherFrame t os

/-- The own frames that wait, in the order of the queues' priority (R23). -/
def Ring.ownFrames (r : Ring) : List Frame :=
  r.driveSet ++ r.doorQueue.map (fun i => i.frame) ++ r.responses ++ r.notices

/-- The references and the apply frame of a drive set: one DRIVE_REF for each drive whose role is not 62,
in drive order, with reference, brake demand and await-apply, then the DRIVE_APPLY when P27 is GANGED
(R165). The octets of brake demand and await-apply are the model's choice (log 26). -/
def State.driveSetOf (s : State) (v : Nat) (brake : Bool) : List Frame :=
  let ganged := decide (s.p 27 = 0)
  let ref := fun n : Fin 4 =>
    ({ dest := s.role (driveRole n), source := s.ownAddress, kind := 0x41
       payload := [octet (v / 256), octet v, yesNo brake, yesNo ganged] } : Frame)
  ([(0 : Fin 4), 1, 2, 3].filter (fun n => s.role (driveRole n) != 62)).map ref ++
    if ganged then [{ dest := 63, source := s.ownAddress, kind := 0x42, payload := [] }] else []

/-- The verdict of checks 5 to 12 on an UNLOCK for a cabin in its zone, checks 8 to 12 left out under the
console override: the reason of the first check that fails (R64, R65). -/
def State.unlockVerdict (s : State) (src : Byte) (z : Zone) (k : Cabin) : Option DenialReason :=
  if s.grader.inForce = 4 then some .wind
  else if s.rot.wheel = .braked then some .braked
  else if (s.cabin k).door = .unknown then some .stale
  else if src = s.role roleConsole ∧ s.rot.wheel = .held then none
  else if (s.occ z).past = true then some .tooLate
  else if (s.cabinEntry k).inService = false then some .outOfService
  else if s.service.mode.admits z = false then some .mode
  else if src ≠ s.role roleConsole ∧ src ≠ s.role (gateRole z) then some .wrongSource
  else if (s.zone z).permitRequired = true ∧ s.permits.get z ≠ .armed k then some .noPermit
  else none

/-- The item of the door queue that denies a door command to its source (R67). -/
def State.denialItem (s : State) (kind src cabin : Byte) (reason : DenialReason) : DoorItem :=
  { what := .denial
    frame := { dest := src, source := s.ownAddress, kind := 0x68, payload := [0x08, kind, cabin, reason.code] } }

/-- The item of the door queue that carries a forwarded door command (R11). -/
def State.commandItem (s : State) (what : DoorItemKind) (dst cabin action : Byte) : DoorItem :=
  { what := what
    frame := { dest := dst, source := s.ownAddress, kind := 0x32, payload := [cabin, action] } }

/-- A door command completes with one item arriving at the door queue, and nothing else of the ring
interface changes (R11, R63). -/
def DoorItemArrives (c : Instr) (t : Nat) (s u : State) (i : DoorItem) : Prop :=
  Completes c s u ∧ u.lines = s.linesAt t ∧ u.ring = { s.ring with doorQueue := arriveDoor s.ring.doorQueue i }

/-- A permit of a zone that the service mode does not allow any more: ARMED becomes CLEAR, SPENT stays
(R62). -/
def Permit.withoutArmed : Permit → Permit
  | .armed _ => .clear
  | p => p

/-! ### The laws of the device -/

/-- The buffer and the queues keep to their capacities, at most one ALL_STOP waits in the drive set, and
outside reset an idle ring-out leaves nothing waiting (R17, R19 to R23). -/
def QueueLaw (s : State) : Prop :=
  s.ring.forward.length ≤ 8 ∧ s.ring.driveSet.length ≤ 6 ∧ s.ring.doorQueue.length ≤ 8 ∧
    s.ring.responses.length ≤ 8 ∧ s.ring.notices.length ≤ 16 ∧ s.ring.driveSet.countP isAllStop ≤ 1 ∧
    (s.lines.inReset = false → s.ring.ringOut = .idle →
      s.ring.forward = [] ∧ s.ring.driveSet = [] ∧ s.ring.doorQueue = [] ∧ s.ring.responses = [] ∧
        s.ring.notices = [])

/-- The hold list: at most one record of each kind, and of each zone for ZONE_OVERRUN, so at most 10; no
record is raised in the future; a breach list is not empty and holds no cabin twice (R123, R125, R126). -/
def HoldLaw (s : State) : Prop :=
  (s.holds.records.map (fun r => r.what.key)).Nodup ∧ s.holds.records.length ≤ 10 ∧
    ∀ r ∈ s.holds.records,
      r.raised ≤ s.lines.now ∧ ∀ ks, r.what = .doorBreach ks → ks ≠ [] ∧ ks.Nodup

/-- The wheel: STOP is pending just in STOPPING(STANDBY), the hold list is empty in RUNNING, the
reference is 0 at rest, and a STOWED wheel stands with the service CLOSED (R139, R147, R156, R140). -/
def WheelLaw (s : State) : Prop :=
  (s.rot.stopPending = true ↔ s.rot.wheel = .stopping .standby) ∧
    (s.rot.wheel = .running → s.holds.records = []) ∧
    (s.rot.wheel.moving = false → s.rot.vCmd = 0) ∧
    (s.rot.wheel = .stowed → s.service.mode = .closed)

/-- The grade in force: never below the computed grade, 4 just while WIND_STOP stands, below 3 in OPEN;
no dwell runs in settling, and a running dwell is on the grade in force and would lower it (R117 to R120,
R79). -/
def GradeLaw (s : State) : Prop :=
  s.grader.computed ≤ s.grader.inForce ∧
    (s.grader.inForce = 4 ↔ s.holdsKey .windStop = true) ∧
    (s.service.mode = .opened → s.grader.inForce < 3) ∧
    ∀ d, s.grader.dwell = some d →
      s.grader.settling = none ∧ d.grade = s.grader.inForce ∧ d.highest < s.grader.inForce ∧
        s.grader.computed ≤ d.highest

/-- The drives: ready is as derived, and DRIVES_LOST stands exactly while the ready count is below 2
(R162, R163). -/
def DriveLaw (s : State) : Prop :=
  (∀ n, (s.drive n).ready = ((s.drive n).fresh && (s.drive n).reportedReady && (s.drive n).fault == 0)) ∧
    (s.holdsKey .drivesLost = true ↔ s.readyCount < 2)

/-- A ZONES entry in its ranges (R55). -/
def ZoneEntry.inRange (z : ZoneEntry) : Prop :=
  z.start ≤ 32767 ∧ z.start + 1000 ≤ z.finish ∧ z.finish ≤ z.start + 8191 ∧ 500 ≤ z.cutoff ∧
    z.cutoff + 500 ≤ z.finish - z.start

/-- Both ZONES entries in their ranges, and the UNLOAD end not past the LOAD start (R55, R56). -/
def ZonesLaw (s : State) : Prop :=
  s.tables.zones.unload.inRange ∧ s.tables.zones.load.inRange ∧
    s.tables.zones.unload.finish ≤ s.tables.zones.load.start

/-- The roster: addresses 0 to 61 or 62, those assigned distinct, none the part's own (R5). -/
def RosterLaw (s : State) : Prop :=
  ∀ i : Fin 14, (s.role i).toNat ≤ 62 ∧ s.role i ≠ s.ownAddress ∧
    ∀ j : Fin 14, s.role i = s.role j → i ≠ j → s.role i = 62

/-- The ranges of P0 to P27 as R176 gives them; that of P26 is of what is stored, the bits 1 to 7. -/
def paramLimits : List (Nat × Nat) :=
  [(1200, 3600), (2, 40), (5, 60), (100, 600), (50, 100), (100, 200), (1, 6)] ++
    List.replicate 7 (0, 100) ++
    [(10, 500), (100, 1000), (1000, 10000), (200, 2000), (500, 10000), (1, 4)] ++
    List.replicate 4 (10, 1800) ++ [(1, 60), (0, 1000), (0, 0x00FE), (0, 1)]

/-- The lower limit of P<i> (R176). -/
def paramLow (i : Fin 28) : Nat := (paramLimits.getD i.val (0, 0)).1

/-- The upper limit of P<i> (R176). -/
def paramHigh (i : Fin 28) : Nat := (paramLimits.getD i.val (0, 0)).2

/-- Every table in the ranges its rule gives: ROSTER, PASS, CABINS, ZONES, PARAMETERS, HEADS and RULES (R5,
R7, R39, R55, R56, R176, R93, R107). -/
def TableLaw (s : State) : Prop :=
  RosterLaw s ∧ ZonesLaw s ∧
    (∀ k : Fin 48, 1 ≤ (s.cabinEntry k).capacity ∧ (s.cabinEntry k).capacity ≤ 40) ∧
    (∀ (i : Fin 32) (a : Byte),
      (s.tables.pass[i]).source = some a ∨ (s.tables.pass[i]).dest = some a → a.toNat ≤ 63) ∧
    (∀ i : Fin 28, paramLow i ≤ s.p i ∧ s.p i ≤ paramHigh i) ∧
    (∀ n : Fin 4, 512 ≤ (s.headEntry n).factor ∧ (s.headEntry n).factor ≤ 2048 ∧
      4 ≤ (s.headEntry n).shift ∧ (s.headEntry n).shift ≤ 10) ∧
    ∀ i : Fin 16, (s.tables.rules[i]).combination ≤ 15

/-- A wind head's record in the ranges of R95, and empty while it is not fresh or disabled (R96, R97). -/
def Head.inRange (h : Head) (enabled : Bool) : Prop :=
  h.ring.length = h.entered ∧ h.entered ≤ 12 ∧ (∀ c ∈ h.ring, c ≤ 999) ∧
    h.acc ≤ 255744 ∧ (∀ x, h.sector = some x → x ≤ 7) ∧
    h.gust ≤ 999 ∧ h.sustained ≤ 999 ∧ (h.entered < 12 → h.gust = 0) ∧
    ((h.fresh && enabled) = false → h.entered = 0 ∧ h.initialized = false ∧ h.sector = none ∧ h.sustained = 0)

/-- The four wind heads (R95 to R97, R101). -/
def HeadLaw (s : State) : Prop := ∀ n : Fin 4, (s.head n).inRange (s.headEntry n).enabled

/-- The tracker: fresh heads have a position on the rim, the latch stands with a count of 3, the accepted
position is as the heads and the latch form it, the occupancy records are those of the accepted position,
and a cabin's location is the zone it occupies (R25 to R37, R44). -/
def TrackLaw (s : State) : Prop :=
  (∀ e, (s.tracker.head e).fresh = true →
      ∃ p, (s.tracker.head e).latest = some p ∧ p < 393216) ∧
    (s.tracker.disagreements ≤ 3 ∧ (s.tracker.latch = true ↔ s.tracker.disagreements = 3)) ∧
    s.tracker.accepted = s.tracker.formed ∧
    s.tracker.occ = membership s.tables.zones s.tracker.accepted ∧
    ∀ z k, (s.cabin k).location = some z ↔ (s.occ z).occupant = some k

/-- Each permit is CLEAR or bound to the cabin that is in its zone (R57). -/
def PermitLaw (s : State) : Prop :=
  ∀ z k, (s.permits.get z).cabin = some k → (s.occ z).occupant = some k

/-- The door cycles: IDLE has no release time, a cabin outside the zones is IDLE, RELEASE_SENT has a
release time, and CYCLING is not LOCKED (R44 to R46, R70). -/
def CycleLaw (s : State) : Prop :=
  ∀ k, ((s.cabin k).cycle = .idle → (s.cabin k).releaseTime = none) ∧
    ((s.cabin k).location = none → (s.cabin k).cycle = .idle) ∧
    ((s.cabin k).cycle = .releaseSent → (s.cabin k).releaseTime ≠ none) ∧
    ((s.cabin k).cycle = .cycling → (s.cabin k).door ≠ .locked)

/-- While the position is valid, every cabin outside both zones whose door is CLOSED, OPEN or FAULT is
listed in the DOOR_BREACH record (R50). -/
def BreachLaw (s : State) : Prop :=
  s.positionValid = true → ∀ k, (s.cabin k).location = none → (s.cabin k).door.notLocked = true →
    ∃ r ∈ s.holds.records, ∃ ks, r.what = .doorBreach ks ∧ k ∈ ks

/-- The clear-down list: no cabin twice; in CLEARDOWN it is not empty and holds every cabin with an
occupancy above 0; in every other mode it is empty (R85, R91). -/
def ClearDownLaw (s : State) : Prop :=
  s.service.list.Nodup ∧ (s.service.mode ≠ .clearDown → s.service.list = []) ∧
    (s.service.mode = .clearDown →
      s.service.list ≠ [] ∧ ∀ k, 0 < (s.cabin k).occupancy → k ∈ s.service.list)

/-- A law that every step keeps, from any state that meets it. -/
def Kept (law : State → Prop) : Prop := ∀ s s', law s → step s = .next s' → law s'

end Sys2Proof.Machine
end

