-- ==== Sys2Proof/Certificates/Slice0/Obligations.lean ====
section
/-! DEFINITION. The statements for the provers: what the numbered rules of the spec say the part does, over
all states, and the laws of the device that every step keeps. -/

open Sys2Proof Sys2Proof.Machine

/-! ### The block's step and its lines (chapter 1) -/

/-- A step takes the command at the front of the queue and runs it on the queue's rest; an empty queue
idles, which is the model's choice (log 2). -/
def Obligations.StepTakesTheFrontCommand : Prop :=
  (∀ c rest (s : State), step (s.setPending (c :: rest)) = exec c (s.setPending rest)) ∧
    ∀ s : State, s.pending = [] → step s = .next s

/-- Every command is answered with a next state, and leaves the commands that wait behind it. -/
def Obligations.EveryCommandAnswersANextState : Prop :=
  ∀ c s, ∃ u, exec c s = .next u ∧ u.pending = s.pending

/-- A power-on reset leaves every table at its default, every lock set, every block at its reset values,
the buffer and queues empty, and the address 32 plus the straps (R1, R2, R179). A frame that the command says is
then under way on ring-in is still to be discarded (R2; read from it by the model, log 25), and the service key
line stands as it was, which is the model's choice (log 3). -/
def Obligations.PowerOnResetLeavesTheResetValues : Prop :=
  ∀ straps underWay s, ∃ u, exec (.powerOnReset { straps := straps, underWay := underWay }) s = .next u ∧
    u.lines.inReset = false ∧ u.lines.underWay = underWay ∧ u.ownAddress.toNat = 32 + straps.toNat ∧
    u.lines.svcKey = s.lines.svcKey ∧
    (∀ i : Fin 14, (u.role i).toNat = i.val) ∧
    (∀ i : Fin 32, u.tables.pass[i] =
      { control := .disabled, source := none, dest := none, kind := none }) ∧
    (∀ k : Fin 48, u.cabinEntry k = { inService := true, capacity := 25 }) ∧
    u.zone .unload =
      { start := 1000, finish := 9000, cutoff := 2500, permitRequired := false, release := .auto } ∧
    u.zone .load =
      { start := 10000, finish := 18000, cutoff := 2500, permitRequired := true, release := .auto } ∧
    u.tables.params.toList =
      [1512, 10, 20, 400, 100, 150, 2, 100, 100, 70, 100, 100, 75, 40, 60, 200, 4000, 500, 2000, 2,
        120, 300, 600, 900, 10, 300, 0x00FE, 0] ∧
    (∀ n : Fin 4, u.headEntry n = { enabled := true, unit := .deci, factor := 1024, shift := 8 }) ∧
    (∀ i : Fin 16, u.tables.rules[i] =
      { enabled := false
        testA := { quantity := .siteGust, comparison := .atLeast, threshold := 0 }
        testB := { quantity := .siteGust, comparison := .atLeast, threshold := 0 }
        combination := 0, grade := none, effect := none }) ∧
    u.tables.locks = 0x7F ∧
    u.ring = { forward := [], driveSet := [], doorQueue := [], responses := [], notices := []
               noticeOverflow := false, ringOut := .idle, ownDue := false } ∧
    u.rot.wheel = .stowed ∧ u.rot.vLim = 0 ∧ BlocksReset u 10

/-- While the reset line is low the part sends nothing and takes nothing on the time base: RESET_ASSERT cuts
ring-out off and leaves the blocks, and then no command but those of the lines changes anything (R2; that the
blocks stand until the release is the model's choice, log 17). The part's own address changes at a power-on
reset alone and the time base never moves back but at one (R1; log 1); the key line moves at its own command
alone (that a power-on reset leaves it is the model's choice, log 3); a command of the time base leaves the
reset line; and the lock set is written by SET_LOCKS and a power-on reset alone (R174, R175). A frame that was under way on ring-in at the release is discarded when it
ends: of the frames it is the next to end, and then reception begins; no other command touches this (R2; log
25). -/
def Obligations.ResetAndKeyLinesActAloneAndRegistersKeepTheirWriters : Prop :=
  ((∀ s, ∃ u, exec .resetAssert s = .next u ∧ u.lines = { s.lines with inReset := true } ∧
       u.ring = { s.ring with ringOut := .idle } ∧ SameBlocks s u) ∧
     (∀ c s, s.lines.inReset = true → timed c = true → exec c s = .next s) ∧
     ∀ level s, ∃ u, exec (.serviceKeyChange level) s = .next u ∧
       u.lines = { s.lines with svcKey := level } ∧ u.ring = s.ring ∧ SameBlocks s u) ∧
  (∀ c t s, s.endsFrameAt c t → s.lines.inReset = false → s.lines.underWay = true →
     ∃ u, Completes c s u ∧ u.lines = { s.linesAt t with underWay := false } ∧ u.ring = s.ring ∧
       SameBlocks s u) ∧
  (∀ c s u, exec c s = .next u →
     ((∀ r, c ≠ .powerOnReset r) → (∀ t, ¬ s.endsFrameAt c t) → u.lines.underWay = s.lines.underWay) ∧
     ((∀ r, c ≠ .powerOnReset r) → u.ownAddress = s.ownAddress ∧ s.lines.now ≤ u.lines.now) ∧
     ((∀ l, c ≠ .serviceKeyChange l) → u.lines.svcKey = s.lines.svcKey) ∧
     (timed c = true → u.lines.inReset = s.lines.inReset) ∧
     ((∀ r, c ≠ .powerOnReset r) → (∀ t src tag args, c ≠ .setLocks t src tag args) →
       (∀ t src tag kind args, c ≠ .unknownRequest t src tag kind args) →
       (∀ t os, c ≠ .otherFrame t os) → u.tables.locks = s.tables.locks))

/-! ### Frames (chapter 1) -/

/-- Reading the octets of a frame that R3 takes gives the frame back, and octets that read as a frame are
that frame's octets (R3, R4, section 1.2). -/
def Obligations.FrameOctetsReadBack : Prop :=
  (∀ f : Frame, f.wellFormed = true → readFrame f.octets = some f) ∧
    ∀ os f, readFrame os = some f → f.octets = os ∧ f.wellFormed = true

/-- Octets that meet one of the conditions of R3 are discarded: not observed, not handed on, not forwarded and
without a notice. Octets that meet none are a well-formed frame. A row whose operands spell no frame that R3
takes does nothing either. (The time base after a command is the model's: log 1.) -/
def Obligations.MalformedFramesAreDiscarded : Prop :=
  (∀ t os s, s.receiving →
     let len := (os.getD 3 0).toNat
     let bad :=
       os.length < 6 ∨ 70 < os.length ∨ 64 < len ∨ len + 6 ≠ os.length ∨
         (os.getD 0 0).toNat = 62 ∨ 63 < (os.getD 0 0).toNat ∨ 61 < (os.getD 1 0).toNat ∨
         256 * (os.getD (os.length - 2) 0).toNat + (os.getD (os.length - 1) 0).toNat ≠
           (check (os.take (os.length - 2))).toNat
     (bad → OnlyTime (.otherFrame t os) t s) ∧ (¬ bad → ∃ f, readFrame os = some f)) ∧
  ∀ c s t f, s.receiving → s.frameOf c = some (t, f) → f.wellFormed = false → OnlyTime c t s

/-- A row that stands for a frame does what reception of that frame's octets does: the rows of the table are the
cases of R8 to R16 and of R169. (What a row carries is the model's choice: log 5.) -/
def Obligations.FrameRowsAgreeWithReception : Prop :=
  ∀ c s t f, s.frameOf c = some (t, f) → f.wellFormed = true → exec c s = exec (.otherFrame t f.octets) s

/-- A frame that carries the part's own address as source is stripped, whatever its kind and destination (R9); a
DRIVE_REF or DRIVE_APPLY of another source is dropped, not forwarded and not observed (R10). (The time base
after a command is the model's: log 1.) -/
def Obligations.OwnAndForeignDriveFramesGoNoFurther : Prop :=
  (∀ s, s.receiving →
     (∀ t dst kind payload, OnlyTime (.strip t dst kind payload) t s) ∧
       ∀ c t f, s.frameOf c = some (t, f) → f.source = s.ownAddress → OnlyTime c t s) ∧
  (∀ s, s.receiving →
     (∀ t dst src kind payload, OnlyTime (.foreignDriveFrame t dst src kind payload) t s) ∧
       ∀ t os f, readFrame os = some f → (f.kind = 0x41 ∨ f.kind = 0x42) → OnlyTime (.otherFrame t os) t s)

/-- A frame that no rule before R13 decides and that is not a taken REQUEST: one to the part is not
forwarded, a broadcast one is, any other goes by the pass table; and one that R14 does not observe
changes nothing else (R7, R13, R14, R16, R17). -/
def Obligations.OtherFramesPassOn : Prop :=
  ∀ t os f s, s.receiving → readFrame os = some f → f.source ≠ s.ownAddress →
    f.kind ≠ 0x41 → f.kind ≠ 0x42 → f.kind ≠ 0x32 → f.kind ≠ 0x5A →
    (f.dest = s.ownAddress → f.kind = 0x61 → f.payload.length < 2) →
    ∃ u, Completes (.otherFrame t os) s u ∧ u.lines = s.linesAt t ∧ RoleFrameOnRing s u f ∧
      (¬ s.observes f → SameBlocks s u ∧ u.ring = { s.ring with forward := u.ring.forward })

/-- Ring-out ends its frame and the arbiter chooses: an own frame first where one is owed and waits, else
the oldest forwarded frame, else the first own frame in the queues' priority, else nothing (R23). That with
own-due clear a forwarded frame goes before a brake set too, as R23 has it, is the model's choice beside R166
(log 24). -/
def Obligations.ArbiterChoosesAtTheEndOfAFrame : Prop :=
  ∀ t s, s.lines.inReset = false →
    ∃ u, exec (.frameSendEnd t) s = .next u ∧ u.lines = s.linesAt t ∧ SameBlocks s u ∧
      u.ring.noticeOverflow = s.ring.noticeOverflow ∧
      u.ring.driveSet <:+ s.ring.driveSet ∧ u.ring.doorQueue <:+ s.ring.doorQueue ∧
      u.ring.responses <:+ s.ring.responses ∧ u.ring.notices <:+ s.ring.notices ∧
      let due := s.ring.ownDue || match s.ring.ringOut with
        | .sending _ forwarded => forwarded
        | .idle => false
      match s.ring.ownFrames, s.ring.forward with
      | [], [] => u.ring.ringOut = .idle ∧ u.ring.ownDue = due ∧ u.ring.forward = [] ∧ u.ring.ownFrames = []
      | g :: gs, [] =>
        u.ring.ringOut = .sending g false ∧ u.ring.ownDue = false ∧ u.ring.forward = [] ∧
          u.ring.ownFrames = gs
      | [], f :: fs =>
        u.ring.ringOut = .sending f true ∧ u.ring.ownDue = due ∧ u.ring.forward = fs ∧ u.ring.ownFrames = []
      | g :: gs, f :: fs =>
        if due = true then
          u.ring.ringOut = .sending g false ∧ u.ring.ownDue = false ∧ u.ring.forward = f :: fs ∧
            u.ring.ownFrames = gs
        else
          u.ring.ringOut = .sending f true ∧ u.ring.ownDue = false ∧ u.ring.forward = fs ∧
            u.ring.ownFrames = g :: gs

/-- An item arriving at a door queue of at most 8: appended where there is room; a LOCK at a full queue takes
the place of the oldest item that is no LOCK; anything else is lost (R20). A notice queued has the class, kind
and fields of section 1.9, a HOLD notice the five of R137. Masked by its class's bit of P26, or without a
console, it changes nothing; else it joins the queue addressed to the console, or at 16 waiting is lost with
the overflow flag set (R177, R22, R18). -/
def Obligations.DoorItemsAndNoticesQueueByTheirRules : Prop :=
  (∀ (q : List DoorItem) (i : DoorItem),
     (q.length < 8 → arriveDoor q i = q ++ [i]) ∧
     (q.length = 8 → i.what ≠ .lock → arriveDoor q i = q) ∧
     (q.length = 8 → i.what = .lock → (∀ x ∈ q, x.what = .lock) → arriveDoor q i = q) ∧
     ∀ pre x post, q = pre ++ x :: post → q.length = 8 → i.what = .lock → (∀ y ∈ pre, y.what = .lock) →
       x.what ≠ .lock → arriveDoor q i = pre ++ post ++ [i]) ∧
  (∀ n s,
     let u := notify n s
     let cabin : Cabin → Byte := fun k => octet k.val
     let zone : Zone → Byte := fun z => if z = .unload then 0x00 else 0x01
     let wheel : Wheel → List Byte
       | .stowed => [0x00, 0xFF]
       | .standby => [0x01, 0xFF]
       | .running => [0x02, 0xFF]
       | .stopping .held => [0x03, 0x00]
       | .stopping .standby => [0x03, 0x01]
       | .held => [0x04, 0xFF]
       | .braked => [0x05, 0xFF]
     let hold : Hold → List Byte
       | .allStop source reason => [0x01, 0xFF, 0xFF, source, reason]
       | .consoleHold => [0x02, 0xFF, 0xFF, 0xFF, 0xFF]
       | .windStop => [0x03, 0xFF, 0xFF, 0xFF, 0xFF]
       | .positionLost => [0x04, 0xFF, 0xFF, 0xFF, 0xFF]
       | .encoderDisagree => [0x05, 0xFF, 0xFF, 0xFF, 0xFF]
       | .drivesLost => [0x06, 0xFF, 0xFF, 0xFF, 0xFF]
       | .doorBreach ks => [0x07, 0xFF, (ks.head?.map cabin).getD 0xFF, 0xFF, 0xFF]
       | .zoneOverrun z k => [0x08, zone z, cabin k, 0xFF, 0xFF]
       | .cabinOverload k => [0x09, 0xFF, cabin k, 0xFF, 0xFF]
     let door : Door → Byte
       | .locked => 0x00
       | .closed => 0x01
       | .opened => 0x02
       | .fault => 0x03
       | .unknown => 0x04
     let mode : ServiceMode → Byte
       | .closed => 0x00
       | .opened => 0x01
       | .clearDown => 0x02
       | .cleared => 0x03
     let cause : ModeCause → Byte
       | .request => 0x00
       | .wind => 0x01
       | .listEmpty => 0x02
     let position : Accepted → Byte
       | .invalid => 0x00
       | .dual _ => 0x01
       | .single _ => 0x02
     let denial : DenialReason → Byte
       | .badCabin => 0x01
       | .wrongSource => 0x02
       | .noPosition => 0x03
       | .notInZone => 0x04
       | .wind => 0x05
       | .braked => 0x06
       | .stale => 0x07
       | .tooLate => 0x08
       | .outOfService => 0x09
       | .mode => 0x0A
       | .noPermit => 0x0B
     let payload : List Byte :=
       match n with
       | .stateChanged w => [0x01, 0x01] ++ wheel w
       | .modeChanged m c => [0x02, 0x01, mode m, cause c]
       | .gradeChanged g c => [0x03, 0x01, octet g.val, octet c.val]
       | .holdRaised h => [0x04, 0x01] ++ hold h
       | .holdCleared h => [0x04, 0x02] ++ hold h
       | .breachCabinAdded k => [0x04, 0x03, 0x07, 0xFF, cabin k, 0xFF, 0xFF]
       | .doorStale k => [0x05, 0x01, cabin k, 0x04]
       | .uncommandedOpening k d => [0x05, 0x02, cabin k, door d]
       | .unknownOutside k => [0x05, 0x03, cabin k, 0x04]
       | .positionMode a => [0x06, 0x01, position a]
       | .headsShort v => [0x06, 0x02, octet v]
       | .driveReady d ready fault => [0x06, 0x03, octet d.val, if ready then 0x01 else 0x00, fault]
       | .clearDownComplete => [0x07, 0x01]
       | .denied what k reason => [0x08, if what = .lock then 0x02 else 0x01, k, denial reason]
       | .emergencyBrake .allStopRecord => [0x09, 0x01, 0x00, 0xFF, 0xFF]
       | .emergencyBrake (.overrun z k) => [0x09, 0x01, 0x01, zone z, cabin k]
       | .emergencyBrake (.overload k) => [0x09, 0x01, 0x01, 0x01, cabin k]
       | .emergencyBrake .ceiling => [0x09, 0x01, 0x01, 0xFF, 0xFF]
       | .restarted => [0x0A, 0x01]
     let cls := (payload.getD 0 0).toNat
     u = { s with ring := u.ring } ∧
     if cls ≤ 7 ∧ s.p 26 / 2 ^ cls % 2 = 0 then u.ring = s.ring
     else if s.role roleConsole = 62 then u.ring = s.ring
     else if s.ring.notices.length < 16 then
       u.ring = { s.ring with
         notices := s.ring.notices ++
           [{ dest := s.role roleConsole, source := s.ownAddress, kind := 0x68, payload := payload }] }
     else u.ring = { s.ring with noticeOverflow := true })

/-! ### Role frames (chapters 2, 3, 6, 10) -/

/-- A POSITION report in range of an encoder head: its record by the health (R26), the comparison where both
heads are then fresh (R28), the accepted position as R29 forms it, ENCODER_DISAGREE at a new latch,
POSITION_LOST raised and cleared (R30), and the frame passed on. The occupancy records are those of the
accepted position (R32). An UNLOAD exit that is a passage removes a listed cabin without occupants, with the
mode then CLEARED where the list is empty, or moves an occupied one to the tail; nothing else touches the list
(R87, R91). With the tracker's law: a cabin's location is its zone (R44); one that leaves the zones is IDLE and,
where the position is valid, breaches with a door not locked, or is told of with an UNKNOWN one (R44, R45, R49);
one that enters with its cycle IDLE and its door not locked is CYCLING, and else stays IDLE (R44, R46); an exit
clears the permit bound to the cabin (R60); and ZONE_OVERRUN is raised for an occupant that is past the cutoff
and was not so recorded before and is not both LOCKED and IDLE, and for no other (R34, R70, R71). Door states,
occupancies, report times and overloaded flags stand, as do tables, wind heads, grader and drives. -/
def Obligations.PositionReportsReachTheTracker : Prop :=
  ∀ e t dst src pos health s,
    s.hears src → destTaken dst → src = s.role (encoderRole e) →
    (e = .b → src ≠ s.role roleEncoderA) → pos.toNat < 393216 →
    (∀ h, (s.tracker.head h).fresh = true → (s.tracker.head h).latest ≠ none) →
    ∃ u, Completes (.position t dst src pos health) s u ∧ u.lines = s.linesAt t ∧
      RoleFrameOnRing s u (positionFrame dst src pos health) ∧
      Untouched [.tracker, .cabins, .permits, .service, .holds, .rot] s u ∧
      u.tracker.head e =
        (if health = 0x00 then
          { latest := some pos.toNat, taken := some (max s.lines.now t), health := .ok, fresh := true }
        else { s.tracker.head e with health := .degraded, fresh := false }) ∧
      (∀ h, h ≠ e → u.tracker.head h = s.tracker.head h) ∧
      (match u.tracker.headA.fresh, u.tracker.headB.fresh with
      | true, true =>
        ∀ a b, u.tracker.headA.latest = some a → u.tracker.headB.latest = some b →
          let apart := max a b - min a b
          if min apart (393216 - apart) ≤ s.p 14 then
            u.tracker.disagreements = 0 ∧ u.tracker.latch = false
          else
            u.tracker.disagreements = min 3 (s.tracker.disagreements + 1) ∧
              u.tracker.latch = (s.tracker.latch || u.tracker.disagreements == 3)
      | _, _ => u.tracker.disagreements = s.tracker.disagreements ∧ u.tracker.latch = s.tracker.latch) ∧
      (match u.tracker.latch, u.tracker.headA.fresh, u.tracker.headB.fresh with
      | true, _, _ => u.tracker.accepted = .invalid
      | false, true, true => ∃ a, u.tracker.headA.latest = some a ∧ u.tracker.accepted = .dual a
      | false, true, false => ∃ a, u.tracker.headA.latest = some a ∧ u.tracker.accepted = .single a
      | false, false, true => ∃ b, u.tracker.headB.latest = some b ∧ u.tracker.accepted = .single b
      | false, false, false => u.tracker.accepted = .invalid) ∧
      (s.tracker.latch = false → u.tracker.latch = true → u.holdsKey .encoderDisagree = true) ∧
      ((s.tracker.headA.fresh = true ∨ s.tracker.headB.fresh = true) → u.tracker.headA.fresh = false →
        u.tracker.headB.fresh = false → u.holdsKey .positionLost = true) ∧
      (s.tracker.accepted = .invalid → u.tracker.accepted ≠ .invalid → u.holdsKey .positionLost = false) ∧
      (∀ k, (u.cabin k).door = (s.cabin k).door ∧ (u.cabin k).occupancy = (s.cabin k).occupancy ∧
        (u.cabin k).lastReport = (s.cabin k).lastReport ∧
        (u.cabin k).overloaded = (s.cabin k).overloaded) ∧
      let passage : Cabin → Prop := fun k =>
        s.service.mode = .clearDown ∧ s.tracker.accepted ≠ .invalid ∧ k ∈ s.service.list ∧
          (s.occ .unload).occupant = some k ∧ (u.occ .unload).occupant ≠ some k ∧
          ∃ p, u.tracker.accepted.value = some p ∧
            signedDistance (coordinate p k) (s.zone .unload).finish ≤ 0
      (∀ k, passage k →
        u.service =
          if 0 < (s.cabin k).occupancy then { s.service with list := s.service.list.erase k ++ [k] }
          else if s.service.list.erase k = [] then { s.service with mode := .cleared, list := [] }
          else { s.service with list := s.service.list.erase k }) ∧
      ((∀ k, ¬ passage k) → u.service = s.service) ∧
      (ZonesLaw s → TrackLaw s →
        let notLocked : Cabin → Prop := fun k =>
          (s.cabin k).door = .closed ∨ (s.cabin k).door = .opened ∨ (s.cabin k).door = .fault
        (∀ z, u.occ z =
          match u.tracker.accepted.value with
          | some p => occupancyAt p (s.zone z)
          | none => { occupant := none, past := false }) ∧
        (∀ k z, (u.cabin k).location = some z ↔ (u.occ z).occupant = some k) ∧
        (∀ k z, (s.cabin k).location = some z → (u.occ z).occupant ≠ some k →
          ((s.permits.get z).cabin = some k → u.permits.get z = .clear) ∧
          ((u.cabin k).location = none →
            (u.cabin k).cycle = .idle ∧ ((s.cabin k).cycle ≠ .idle → (u.cabin k).releaseTime = none)) ∧
          (u.tracker.accepted ≠ .invalid → notLocked k →
            ∃ r ∈ u.holds.records, ∃ ks, r.what = .doorBreach ks ∧ k ∈ ks) ∧
          (u.tracker.accepted ≠ .invalid → u.tracker.accepted.code = s.tracker.accepted.code →
            (s.cabin k).door = .unknown → (s.cabin k).cycle = .idle → s.service.mode ≠ .clearDown →
            (u.occ z).occupant = none → (∀ y, y ≠ z → u.occ y = s.occ y) →
            NoticesQueued s u [.unknownOutside k])) ∧
        (∀ k z, (u.cabin k).location = some z → (s.cabin k).location ≠ some z →
          (s.cabin k).cycle = .idle ∨ (s.cabin k).location ≠ none →
          (notLocked k → (u.cabin k).cycle = .cycling ∧ (u.cabin k).releaseTime = none) ∧
          (¬ notLocked k → (u.cabin k).cycle = .idle)) ∧
        (∀ k, (u.cabin k).location = (s.cabin k).location → u.cabin k = s.cabin k) ∧
        ∀ z,
          let crosses : Cabin → Prop := fun k =>
            u.occ z = { occupant := some k, past := true } ∧ s.occ z ≠ u.occ z ∧
              ¬((u.cabin k).door = .locked ∧ (u.cabin k).cycle = .idle)
          (∀ k, crosses k → u.holdsKey (.zoneOverrun z) = true ∧
            (s.holdsKey (.zoneOverrun z) = false → ∃ r ∈ u.holds.records, r.what = .zoneOverrun z k)) ∧
          ((∀ k, ¬ crosses k) → u.holdsKey (.zoneOverrun z) = s.holdsKey (.zoneOverrun z)))

/-- A POSITION report of 393,216 or more is discarded by the tracker (R26), and a DOOR_REPORT that names a cabin
of 48 or above is ignored (R41): nothing but its passing on happens. -/
def Obligations.ReportsOutOfRangeChangeNothing : Prop :=
  (∀ t dst src pos health s, s.hears src → destTaken dst → 393216 ≤ pos.toNat →
     ∃ u, Completes (.position t dst src pos health) s u ∧ u.lines = s.linesAt t ∧ SameBlocks s u ∧
       RoleFrameOnRing s u (positionFrame dst src pos health) ∧ u.ring.notices = s.ring.notices) ∧
  (∀ t dst src cabin door occupancy s, s.hears src → destTaken dst → 48 ≤ cabin.toNat →
     ∃ u, Completes (.doorReport t dst src cabin door occupancy) s u ∧ u.lines = s.linesAt t ∧
       SameBlocks s u ∧ RoleFrameOnRing s u (doorReportFrame dst src cabin door occupancy) ∧
       u.ring.notices = s.ring.notices)

/-- A cabin is in a zone when the zone's start ≤ c < end for its coordinate c (R31, R32); a zone in its ranges
holds at most one cabin, the one the occupancy record names, with its past-cutoff field. The order key of a
cabin is the forward distance to the UNLOAD end, a full revolution where that is 0: a cabin in the zone has
the smallest key, and different cabins have different keys (R85). -/
def Obligations.OccupantsAndOrderKeysFollowTheCoordinate : Prop :=
  (∀ (z : ZoneEntry) p, z.inRange → p < 393216 →
     (∀ k : Cabin, (coordinate p k : Int) = ((p : Int) - 8192 * k.val) % 393216) ∧
     (∀ k j : Cabin, z.start ≤ coordinate p k → coordinate p k < z.finish → z.start ≤ coordinate p j →
       coordinate p j < z.finish → k = j) ∧
     (∀ k : Cabin, (occupancyAt p z).occupant = some k ↔
       z.start ≤ coordinate p k ∧ coordinate p k < z.finish) ∧
     ((occupancyAt p z).past = true ↔
       ∃ k : Cabin, (occupancyAt p z).occupant = some k ∧ z.finish - z.cutoff ≤ coordinate p k)) ∧
  (∀ p finish, p < 393216 → finish < 393216 →
     (∀ k : Cabin, 0 < orderKey p finish k ∧ orderKey p finish k ≤ 393216 ∧
       ((orderKey p finish k : Int) - ((finish : Int) - coordinate p k)) % 393216 = 0) ∧
     (∀ k j : Cabin, orderKey p finish k = orderKey p finish j → k = j) ∧
     ∀ (z : ZoneEntry) (k j : Cabin), z.inRange → z.finish = finish → k ≠ j →
       z.start ≤ coordinate p k → coordinate p k < finish → orderKey p finish k < orderKey p finish j)

/-- A WIND sample of a head: DEGRADED restarts a fresh head; OK refreshes it, and when it is enabled enters
the normalized, corrected and clamped speed into the gust ring and the accumulator, and the sector of the
clamped direction (R96, R98 to R101). That a restart leaves the accumulator's number as it stands, uninitialized,
is the model's reading (log 16). Nothing else changes but the frame's passing on. -/
def Obligations.WindSamplesReachTheirHead : Prop :=
  ∀ n t dst src speed direction health s,
    s.hears src → destTaken dst → src = s.role (headRole n) →
    (∀ m, src = s.role (headRole m) → m = n) →
    ∃ u, Completes (.wind t dst src speed direction health) s u ∧ u.lines = s.linesAt t ∧
      RoleFrameOnRing s u (windFrame dst src speed direction health) ∧
      u.ring.notices = s.ring.notices ∧ Untouched [.heads] s u ∧
      (∀ m, m ≠ n → u.head m = s.head m) ∧
      let h := s.head n
      let e := s.headEntry n
      if health ≠ 0x00 then
        u.head n =
          if h.fresh = true then
            { health := .degraded, lastSample := h.lastSample, fresh := false, ring := [], entered := 0
              acc := h.acc, initialized := false, sector := none, gust := 0, sustained := 0 }
          else { h with health := .degraded }
      else if e.enabled = false then
        u.head n = { h with health := .ok, lastSample := some (max s.lines.now t), fresh := true }
      else
        let r := speed.toNat
        let normal := if e.unit = .deci then min r 999 else min ((r + 5) / 10) 999
        let c := min 999 (normal * e.factor / 1024)
        let v := u.head n
        v.health = .ok ∧ v.lastSample = some (max s.lines.now t) ∧ v.fresh = true ∧
          v.sector = some (min direction.toNat 359 / 45) ∧
          v.ring = (if h.ring.length < 12 then h.ring else h.ring.drop 1) ++ [c] ∧
          v.entered = min 12 (h.entered + 1) ∧
          v.gust = (if v.entered = 12 then (v.ring.sum + 6) / 12 else h.gust) ∧
          v.initialized = true ∧ v.sustained = (v.acc + 128) / 256 ∧
          if h.initialized = true then (v.acc : Int) = h.acc + (256 * (c : Int) - h.acc) / 2 ^ e.shift
          else v.acc = 256 * c

/-- A DOOR_REPORT of the concentrator for a cabin below 48: the record takes door, time and clamped
occupancy (R41), overload is judged (R51, R52), the door cycle advances (R45, R46), a completion clears the
cabin's permits (R47, R60), a breach is raised (R48), the zone's overrun is raised or an AUTO record
cleared (R70, R72), and an occupied cabin is listed in CLEARDOWN (R86). A flag cleared at the capacity clears the
CABIN_OVERLOAD record that names the cabin and no other (R52). Where the report empties the list, a wheel HELD
or STOPPING(HELD) returns to RUNNING with resume-required clear, and no other wheel moves (R148); where it
raises into an empty list, a RUNNING wheel stops for it (R147, R149); and it leaves the wheel where it leaves
the list. -/
def Obligations.DoorReportsReachTheCabinRecord : Prop :=
  ∀ t dst src (k : Cabin) cabin door occupancy s,
    s.hears src → destTaken dst → src = s.role roleConcentrator → cabin.toNat = k.val →
    ∃ u, Completes (.doorReport t dst src cabin door occupancy) s u ∧ u.lines = s.linesAt t ∧
      RoleFrameOnRing s u (doorReportFrame dst src cabin door occupancy) ∧
      Untouched [.cabins, .permits, .service, .holds, .rot] s u ∧
      (∀ j, j ≠ k → u.cabin j = s.cabin j) ∧
      let d : Door :=
        if door = 0x00 then .locked else if door = 0x01 then .closed else if door = 0x02 then .opened
        else .fault
      let c := s.cabin k
      let v := u.cabin k
      let capacity := (s.cabinEntry k).capacity
      let now := max s.lines.now t
      v.door = d ∧ v.occupancy = min occupancy.toNat 40 ∧ v.lastReport = some now ∧
      v.location = c.location ∧
      v.overloaded =
        (if v.occupancy ≤ capacity then false
        else if d = .locked ∧ c.location = some .load then true else c.overloaded) ∧
      (match c.cycle with
      | .idle =>
        if d ≠ .locked ∧ c.location ≠ none then v.cycle = .cycling ∧ v.releaseTime = none
        else v.cycle = .idle ∧ v.releaseTime = c.releaseTime
      | .releaseSent =>
        if d ≠ .locked then v.cycle = .cycling ∧ v.releaseTime = c.releaseTime
        else if ∃ r, c.releaseTime = some r ∧ now - r < 1000 then
          v.cycle = .releaseSent ∧ v.releaseTime = c.releaseTime
        else v.cycle = .idle ∧ v.releaseTime = none
      | .cycling =>
        if d ≠ .locked then v.cycle = .cycling ∧ v.releaseTime = c.releaseTime
        else v.cycle = .idle ∧ v.releaseTime = none) ∧
      (∀ z, u.permits.get z =
        if c.cycle ≠ .idle ∧ v.cycle = .idle ∧ (s.permits.get z).cabin = some k then .clear
        else s.permits.get z) ∧
      (s.tracker.accepted ≠ .invalid → c.location = none → d ≠ .locked →
        ∃ r ∈ u.holds.records, ∃ ks, r.what = .doorBreach ks ∧ k ∈ ks) ∧
      (c.overloaded = false → v.overloaded = true → u.holdsKey .cabinOverload = true ∧
        (s.holdsKey .cabinOverload = false → ∃ r ∈ u.holds.records, r.what = .cabinOverload k)) ∧
      (let record := s.holds.records.find? (fun r => r.what.key == .cabinOverload)
       (c.overloaded = true → v.overloaded = false →
         record.map (fun r => r.what) = some (.cabinOverload k) → u.holdsKey .cabinOverload = false) ∧
       (c.overloaded = v.overloaded ∨ record.map (fun r => r.what) ≠ some (.cabinOverload k) →
         c.overloaded = true ∨ v.overloaded = false →
         u.holds.records.find? (fun r => r.what.key == .cabinOverload) = record)) ∧
      (s.holds.records ≠ [] → u.holds.records = [] →
        u.rot.wheel =
          if s.holds.resumeRequired = false ∧ (s.rot.wheel = .held ∨ s.rot.wheel = .stopping .held) then
            .running
          else s.rot.wheel) ∧
      (s.holds.records = [] → u.holds.records ≠ [] → s.rot.wheel = .running →
        u.rot.wheel =
          if s.rot.vCmd = 0 ∧ ∀ n, (s.drive n).fresh = true → (s.drive n).speed ≤ 16 then .held
          else .stopping .held) ∧
      (u.holds = s.holds → u.rot = s.rot) ∧ u.rot.vCmd = s.rot.vCmd ∧ u.rot.vLim = s.rot.vLim ∧
      (∀ z, c.location = some z → s.occ z = { occupant := some k, past := true } →
        ¬(v.door = .locked ∧ v.cycle = .idle) → u.holdsKey (.zoneOverrun z) = true) ∧
      (∀ z, s.overrunRecordCabin z = some k → (s.zone z).release = .auto → v.door = .locked →
        v.cycle = .idle → ∀ r ∈ u.holds.records, r.what ≠ .zoneOverrun z k) ∧
      u.service =
        { s.service with
          list :=
            if s.service.mode = .clearDown ∧ 0 < v.occupancy ∧ k ∉ s.service.list then
              match s.keyOf with
              | some key => insertByKey key k s.service.list
              | none => s.service.list ++ [k]
            else s.service.list }

/-- A DRIVE_STATUS of a drive: its record is as reported and fresh, ready as R162 derives it; DRIVES_LOST is
raised and cleared as the ready count crosses 2 (R163); and a stopping wheel now at rest enters its
destination where the list did not change (R149, R160). -/
def Obligations.DriveReportsReachTheirDrive : Prop :=
  ∀ n t dst src ready fault speed s,
    s.hears src → destTaken dst → src = s.role (driveRole n) →
    (∀ m, src = s.role (driveRole m) → m = n) →
    ∃ u, Completes (.driveStatus t dst src ready fault speed) s u ∧ u.lines = s.linesAt t ∧
      RoleFrameOnRing s u (driveStatusFrame dst src ready fault speed) ∧
      Untouched [.drives, .holds, .rot] s u ∧
      u.rot.vCmd = s.rot.vCmd ∧ u.rot.vLim = s.rot.vLim ∧
      (∀ m, m ≠ n → u.drive m = s.drive m) ∧
      u.drive n =
        { reportedReady := ready == 0x01, fault := fault, speed := speed.toNat
          lastReport := some (max s.lines.now t), fresh := true
          ready := ready == 0x01 && fault == 0x00 } ∧
      (2 ≤ s.readyCount → u.readyCount < 2 → u.holdsKey .drivesLost = true) ∧
      (s.readyCount < 2 → 2 ≤ u.readyCount → u.holdsKey .drivesLost = false) ∧
      ((2 ≤ s.readyCount ↔ 2 ≤ u.readyCount) → u.holds = s.holds ∧
        match s.rot.wheel with
        | .stopping d =>
          if s.rot.vCmd = 0 ∧ ∀ m, (u.drive m).fresh = true → (u.drive m).speed ≤ 16 then
            u.rot.wheel = d.rest
          else u.rot.wheel = .stopping d
        | w => u.rot.wheel = w)

/-! ### Door commands and ALL_STOP (chapters 1, 4, 8) -/

/-- An UNLOCK of a source that may command doors, with the position valid, for the cabin in one zone, that
passes the checks of R64 or the override of R65: the copy arrives at the door queue, the cycle is
RELEASE_SENT from now, and a permit ARMED for the cabin is SPENT (R59, R66); past the cutoff, ZONE_OVERRUN
stands. -/
def Obligations.UnlocksThatPassAreForwarded : Prop :=
  ∀ t dst src cabin (k : Cabin) z s,
    s.hears src → destTaken dst → cabin.toNat = k.val →
    (src = s.role roleConsole ∨ src = s.role roleUnloadGate ∨ src = s.role roleLoadGate ∨
      src = s.role roleConcentrator) →
    s.tracker.accepted ≠ .invalid → (s.occ z).occupant = some k →
    (∀ y, (s.occ y).occupant = some k → y = z) → s.unlockVerdict src z k = none →
    ∃ u, Completes (.unlock t dst src cabin) s u ∧ u.lines = s.linesAt t ∧
      u.ring.doorQueue = arriveDoor s.ring.doorQueue (s.commandItem .unlock dst cabin 0x01) ∧
      u.ring.forward = s.ring.forward ∧ u.ring.responses = s.ring.responses ∧
      u.ring.driveSet = s.ring.driveSet ∧ u.rot = s.rot ∧
      u.cabin k =
        { s.cabin k with cycle := .releaseSent, releaseTime := some (max s.lines.now t) } ∧
      (∀ j, j ≠ k → u.cabin j = s.cabin j) ∧
      u.permits.get z = (if s.permits.get z = .armed k then .spent k else s.permits.get z) ∧
      (∀ y, y ≠ z → u.permits.get y = s.permits.get y) ∧
      Untouched [.cabins, .permits, .holds, .rot] s u ∧
      ((s.occ z).past = false → u.holds = s.holds ∧ u.ring.notices = s.ring.notices) ∧
      ((s.occ z).past = true → u.holdsKey (.zoneOverrun z) = true)

/-- An UNLOCK that fails a check of R64 is denied with the reason of the first that fails, and changes
nothing else (R64, R65, R67). -/
def Obligations.UnlocksThatFailAreDenied : Prop :=
  ∀ t dst src cabin s, s.hears src → destTaken dst →
    let denied := fun reason =>
      ∃ u, DoorItemArrives (.unlock t dst src cabin) t s u (s.denialItem 0x01 src cabin reason) ∧
        SameBlocks s u
    let known := src = s.role roleConsole ∨ src = s.role roleUnloadGate ∨ src = s.role roleLoadGate ∨
      src = s.role roleConcentrator
    (48 ≤ cabin.toNat → denied .badCabin) ∧
    ∀ k : Cabin, cabin.toNat = k.val →
      (¬ known → denied .wrongSource) ∧
      (known → s.tracker.accepted = .invalid → denied .noPosition) ∧
      (known → s.tracker.accepted ≠ .invalid → (∀ z, (s.occ z).occupant ≠ some k) →
        denied .notInZone) ∧
      ∀ z reason, known → s.tracker.accepted ≠ .invalid → (s.occ z).occupant = some k →
        (∀ y, (s.occ y).occupant = some k → y = z) → s.unlockVerdict src z k = some reason →
        denied reason

/-- A LOCK is forwarded for a cabin 0 to 47, from any source and in any state, and denied BAD_CABIN for any
other; it changes nothing else (R63). -/
def Obligations.LocksAreForwardedOnTheCabinAlone : Prop :=
  ∀ t dst src cabin s, s.hears src → destTaken dst →
    ∃ u, SameBlocks s u ∧
      DoorItemArrives (.lock t dst src cabin) t s u
        (if cabin.toNat < 48 then s.commandItem .lock dst cabin 0x02
        else s.denialItem 0x02 src cabin .badCabin)

/-- An ALL_STOP is forwarded whatever its destination. Without an ALL_STOP record it makes one with source
and reason and sets resume-required, and a moving wheel enters BRAKED with V_cmd 0, the brake set queued and
the two notices; with one it changes nothing (R12, R127, R147, R150, R166). The octets of brake demand and
await-apply in the brake set are the model's choice (log 26). -/
def Obligations.AllStopBrakesTheWheelAndPassesOn : Prop :=
  ∀ t dst src payload s, s.hears src → destTaken dst → payload.length ≤ 64 →
    ∃ u, Completes (.allStop t dst src payload) s u ∧ u.lines = s.linesAt t ∧
      u.ring.forward = s.forwarded { dest := dst, source := src, kind := 0x5A, payload := payload } ∧
      u.ring.doorQueue = s.ring.doorQueue ∧ u.ring.responses = s.ring.responses ∧
      u.ring.ringOut = s.ring.ringOut ∧
      let what : Hold := .allStop src (payload.headD 0x00)
      if s.holdsKey .allStop = true then
        SameBlocks s u ∧ NoticesQueued s u [] ∧ u.ring.driveSet = s.ring.driveSet
      else
        Untouched [.holds, .rot] s u ∧
        u.holds =
          { records := s.holds.records ++ [{ what := what, raised := max s.lines.now t, acked := false }]
            resumeRequired := true } ∧
        if s.rot.wheel.moving = true then
          u.rot = { s.rot with wheel := .braked, stopPending := false, vCmd := 0 } ∧
            u.ring.driveSet = s.driveSetOf 0 true ++ s.ring.driveSet.filter (fun f => f.kind == 0x5A) ∧
            NoticesQueued s u
              [.holdRaised what, .stateChanged .braked, .emergencyBrake .allStopRecord]
        else
          u.rot = s.rot ∧ u.ring.driveSet = s.ring.driveSet ∧ NoticesQueued s u [.holdRaised what]

/-! ### Requests (chapter 11) -/

/-- A REQUEST to the part is taken when fewer than 8 responses wait, and then exactly one RESPONSE joins the
queue, to its source with its tag and kind; at 8 it is discarded without effect (R21, R168). A source that
may not send the kind is REFUSED_SOURCE, and a kind outside the request table is BAD_KIND to the console,
both without any other effect (R169). -/
def Obligations.EveryRequestTakenIsAnsweredOnce : Prop :=
  ∀ c s src tag kind t f, requestOf c = some (src, tag, kind) → s.frameOf c = some (t, f) →
    f.wellFormed = true → s.hears src →
    (8 ≤ s.ring.responses.length → OnlyTime c t s) ∧
    (s.ring.responses.length < 8 → ∃ u result data, Completes c s u ∧ u.lines = s.linesAt t ∧
      u.ring.responses = s.answered src tag kind result data ∧
      (result ≠ .done → result ≠ .doneClamped → data = [])) ∧
    (s.ring.responses.length < 8 →
      let gate := src = s.role roleUnloadGate ∨ src = s.role roleLoadGate
      let known := kind ∈ ([0x01, 0x02, 0x03, 0x04, 0x05, 0x10, 0x11, 0x12, 0x18, 0x20, 0x30, 0x31, 0x32,
        0x33, 0x34, 0x35, 0x36, 0x40, 0x41, 0x42, 0x48] : List Byte)
      (src = s.role roleConsole → ¬ known → TurnsAway c t s src tag kind .badKind) ∧
      (src ≠ s.role roleConsole → ¬ (gate ∧ (kind = 0x48 ∨ kind = 0x01)) →
        TurnsAway c t s src tag kind .refusedSource))

/-- READ_STATUS answers the console and the gates with the 23 octets of the status record; the console's
read clears the overflow flag after reporting it, a gate's leaves it, and nothing else changes (R170). -/
def Obligations.ReadStatusReportsTheRecord : Prop :=
  ∀ t src tag args s, s.takes src → args.length ≤ 62 →
    (src = s.role roleConsole ∨ src = s.role roleUnloadGate ∨ src = s.role roleLoadGate) →
    (args ≠ [] → TurnsAway (.readStatus t src tag args) t s src tag 0x01 .badLength) ∧
    (args = [] → ∃ u data, Answers (.readStatus t src tag []) t s u src tag 0x01 .done data ∧
      SameBlocks s u ∧ u.ring.notices = s.ring.notices ∧ u.ring.driveSet = s.ring.driveSet ∧
      u.ring.noticeOverflow = (if src = s.role roleConsole then false else s.ring.noticeOverflow) ∧
      let position := s.tracker.accepted.value.getD 0
      data =
        [s.rot.wheel.code, s.rot.wheel.destCode, yesNo s.rot.stopPending, s.service.mode.code,
          octet s.grader.inForce.val, yesNo s.grader.settling.isSome, s.tracker.accepted.code,
          octet (position / 65536), octet (position / 256), octet position,
          octet (s.rot.vCmd / 256), octet s.rot.vCmd, octet s.readyCount, octet s.holds.records.length,
          yesNo s.holds.resumeRequired, s.permits.unload.code, cabinField s.permits.unload.cabin,
          s.permits.load.code, cabinField s.permits.load.cabin, octet s.service.list.length,
          keyCode s.lines.svcKey, s.tables.locks.setWidth 8, yesNo s.ring.noticeOverflow] ∧
      data.length = 23)

/-- READ_TABLE answers the console with the table code, the start index, the count and that many entries as
stored, laid out as section 1.9 gives each table's, from the start index within its page; any lock, key or wheel
state stands aside, and nothing changes (R173, R171, R24). (The time base after a command is the model's: log 1.) -/
def Obligations.ReadTableReturnsStoredEntries : Prop :=
  ∀ t src tag args s, s.takesConsole src → args.length ≤ 62 →
    (args.length ≠ 3 → TurnsAway (.readTable t src tag args) t s src tag 0x02 .badLength) ∧
    ∀ code start count, args = [code, start, count] →
      ((∀ table : Table, table.code ≠ code) →
        TurnsAway (.readTable t src tag args) t s src tag 0x02 .badArgument) ∧
      ∀ table : Table, table.code = code →
        (table.entries ≤ start.toNat ∨ count.toNat = 0 ∨ table.readLimit < count.toNat →
          TurnsAway (.readTable t src tag args) t s src tag 0x02 .badArgument) ∧
        (start.toNat < table.entries → 0 < count.toNat → count.toNat ≤ table.readLimit →
          ∃ u data, AnswersOnly (.readTable t src tag args) t s u src tag 0x02 .done
              (code :: start :: count :: data) ∧
            data.length = count.toNat * table.size ∧
            ∀ i, i < count.toNat →
              let j := table.pageIndex start.toNat i
              let entry := (data.drop (i * table.size)).take table.size
              let yes : Bool → Byte := fun b => if b then 0x01 else 0x00
              let wide : Nat → List Byte := fun v => [octet (v / 256), octet v]
              match table with
              | .roster => ∀ r : Fin 14, r.val = j → entry = [s.role r]
              | .pass => ∀ r : Fin 32, r.val = j →
                let e := s.tables.pass[r]
                let control : Byte :=
                  match e.control with
                  | .disabled => 0x00
                  | .forward => 0x01
                  | .drop => 0x02
                entry = [control, e.source.getD 0xFF, e.dest.getD 0xFF, e.kind.getD 0xFF]
              | .cabins => ∀ r : Fin 48, r.val = j →
                entry = [yes (s.cabinEntry r).inService, octet (s.cabinEntry r).capacity]
              | .zones =>
                let e := s.zone (if j = 0 then .unload else .load)
                entry = wide e.start ++ wide e.finish ++ wide e.cutoff ++
                  [yes e.permitRequired, yes (decide (e.release = .attended))]
              | .parameters => ∀ r : Fin 28, r.val = j → entry = wide (s.p r)
              | .heads => ∀ r : Fin 4, r.val = j →
                let e := s.headEntry r
                entry = [yes e.enabled, yes (decide (e.unit = .centi))] ++ wide e.factor ++
                  [octet e.shift, 0x00]
              | .rules => ∀ r : Fin 16, r.val = j →
                let e := s.tables.rules[r]
                let quantity : Quantity → Byte
                  | .siteGust => 0x00
                  | .siteSustained => 0x01
                  | .gustSpread => 0x02
                  | .validHeads => 0x03
                  | .headGust n => octet (0x04 + n.val)
                  | .sector => 0x08
                  | .marker1 => 0x09
                  | .marker2 => 0x0A
                  | .gradeInForce => 0x0B
                let comparison : Comparison → Byte
                  | .atLeast => 0x00
                  | .below => 0x01
                  | .inSet => 0x02
                  | .isSet => 0x03
                let test : RuleTest → List Byte := fun t =>
                  [quantity t.quantity, comparison t.comparison] ++ wide t.threshold
                let grade : Byte :=
                  match e.grade with
                  | some g => octet g.val
                  | none => 0xFF
                let effect : Byte :=
                  match e.effect with
                  | none => 0x00
                  | some (.m1, .set) => 0x11
                  | some (.m1, .and) => 0x12
                  | some (.m1, .or) => 0x13
                  | some (.m1, .xor) => 0x14
                  | some (.m2, .set) => 0x21
                  | some (.m2, .and) => 0x22
                  | some (.m2, .or) => 0x23
                  | some (.m2, .xor) => 0x24
                entry = [yes e.enabled] ++ test e.testA ++ test e.testB ++
                  [octet e.combination, grade, effect])

/-- A load or read never leaves the page of 16 that holds its start index: its entries go to the next
index, and after the page's last index to its first; of the entries addressed to one index, the last of the
frame is the one that counts (R171). -/
def Obligations.LoadsStayWithinTheirPage : Prop :=
  ∀ (table : Table) start body n, start < table.entries → body.length = n * table.size →
    let lo := start / 16 * 16
    let hi := min (lo + 16) table.entries
    table.pageIndex start 0 = start ∧
    (∀ i, lo ≤ table.pageIndex start i ∧ table.pageIndex start i < hi ∧
      table.pageIndex start (i + 1) =
        if table.pageIndex start i + 1 = hi then lo else table.pageIndex start i + 1) ∧
    ∀ j e, written (table.paged start body) j = some e ↔
      ∃ i, i < n ∧ e = (body.drop (i * table.size)).take table.size ∧ table.pageIndex start i = j ∧
        ∀ i', i < i' → i' < n → table.pageIndex start i' ≠ j

/-- The reads of chapters 3, 6 and 8: READ_HOLDS gives the hold records or the breach cabins (R134),
READ_CABINS up to 8 cabins of 7 octets (R53), READ_WIND the 38 octets of the wind record, the last 28 of them
state, samples entered, sector, gust and sustained of each head (R105, R97); none changes any state. -/
def Obligations.HoldCabinAndWindReadsChangeNothing : Prop :=
  ∀ t src tag args s, s.takesConsole src → args.length ≤ 62 →
    (args.length ≠ 1 → TurnsAway (.readHolds t src tag args) t s src tag 0x10 .badLength) ∧
    (∀ part, args = [part] →
      (1 < part.toNat → TurnsAway (.readHolds t src tag args) t s src tag 0x10 .badArgument) ∧
      (part = 0x00 → ∃ u, AnswersOnly (.readHolds t src tag args) t s u src tag 0x10 .done
        (octet s.holds.records.length :: s.holds.records.flatMap (fun r =>
          let age := min 65535 ((max s.lines.now t - r.raised) / 1000)
          [r.what.key.code, zoneField r.what.zone, cabinField r.what.cabin, yesNo r.acked,
            octet (age / 256), octet age]))) ∧
      (part = 0x01 → ∃ u, AnswersOnly (.readHolds t src tag args) t s u src tag 0x10 .done
        (octet s.breachCabins.length :: s.breachCabins.map (fun k => octet k.val)))) ∧
    (args.length ≠ 2 → TurnsAway (.readCabins t src tag args) t s src tag 0x18 .badLength) ∧
    (∀ first count, args = [first, count] →
      (48 ≤ first.toNat ∨ count.toNat = 0 ∨ 8 < count.toNat ∨ 48 < first.toNat + count.toNat →
        TurnsAway (.readCabins t src tag args) t s src tag 0x18 .badArgument) ∧
      (first.toNat < 48 → 0 < count.toNat → count.toNat ≤ 8 → first.toNat + count.toNat ≤ 48 →
        ∃ u data, AnswersOnly (.readCabins t src tag args) t s u src tag 0x18 .done data ∧
          data.length = 7 * count.toNat ∧
          ∀ k : Cabin, first.toNat ≤ k.val → k.val < first.toNat + count.toNat →
            (data.drop (7 * (k.val - first.toNat))).take 7 =
              [octet k.val, yesNo (s.cabinEntry k).inService, (s.cabin k).door.code,
                octet (s.cabin k).occupancy, locationCode (s.cabin k).location, (s.cabin k).cycle.code,
                yesNo (s.cabin k).overloaded])) ∧
    (args ≠ [] → TurnsAway (.readWind t src tag args) t s src tag 0x20 .badLength) ∧
    (args = [] →
      let fig := s.siteFigures
      let wide : Nat → List Byte := fun v => [octet (v / 256), octet v]
      let sector : Option Nat → Byte := fun x => (x.map octet).getD 0xFF
      let head : Fin 4 → List Byte := fun n =>
        let h := s.head n
        let state : Byte :=
          if (s.headEntry n).enabled = false then 0x00 else if h.fresh = false then 0x01
          else if h.entered < 12 then 0x02 else 0x03
        [state, octet h.entered, sector h.sector] ++ wide (if state = 0x03 then h.gust else 0) ++
          wide (if state = 0x03 then h.sustained else 0)
      let record := [octet s.grader.inForce.val, octet s.grader.computed.val, octet fig.valid] ++
        wide fig.gust ++ wide fig.sustained ++ wide fig.spread ++ [sector fig.sector] ++ head 0 ++ head 1 ++
        head 2 ++ head 3
      record.length = 38 ∧ ∃ u, AnswersOnly (.readWind t src tag args) t s u src tag 0x20 .done record)

/-- The cases of LOAD_TABLE that are turned away for every table, in the order of R172: framing, table
code, start index, lock. -/
def Obligations.LoadsAreJudgedInOrder : Prop :=
  ∀ t src tag s, s.takesConsole src →
    (∀ code start rest, (∀ table : Table, table.code ≠ code) → rest.length ≤ 60 →
      TurnsAway (.unknownRequest t src tag 0x03 (code :: start :: rest)) t s src tag 0x03 .badArgument) ∧
    ∀ table : Table,
      TurnsAway (loadOf table t src tag []) t s src tag 0x03 .badLength ∧
      ∀ start body, body.length ≤ 60 →
        (body = [] ∨ body.length % table.size ≠ 0 →
          TurnsAway (loadOf table t src tag (start :: body)) t s src tag 0x03 .badLength) ∧
        (body ≠ [] → body.length % table.size = 0 → table.entries ≤ start.toNat →
          TurnsAway (loadOf table t src tag (start :: body)) t s src tag 0x03 .badArgument) ∧
        (body ≠ [] → body.length % table.size = 0 → start.toNat < table.entries →
          s.tables.locks.getLsbD (table.code.toNat - 1) = true → s.rot.wheel ≠ .stowed →
          TurnsAway (loadOf table t src tag (start :: body)) t s src tag 0x03 .refusedLocked)

/-- A ROSTER load: 63 in an entry, or a shared or own address in the roster as it would stand, refuses it
whole; else the roles take their entries, 64 and above as 62 and counted, and the owners of the changed roles
no longer believe their earlier reports (R6, R27, R43, R102, R161). That a wind head's restart leaves the
accumulator's number as it stands, uninitialized, is the model's reading (log 16). -/
def Obligations.RosterLoadsAreCheckedAndForgetChangedRoles : Prop :=
  ∀ t src tag start body s, s.takesConsole src → s.loadable .roster start body →
    let ps := Table.roster.paged start.toNat body
    let new : Fin 14 → Byte := fun i =>
      match written ps i.val with
      | some e => if 64 ≤ (e.getD 0 0).toNat then 62 else e.getD 0 0
      | none => s.role i
    let changed : Fin 14 → Prop := fun i => new i ≠ s.role i
    let refused :=
      (∃ (i : Fin 14) (e : List Byte), written ps i.val = some e ∧ (e.getD 0 0).toNat = 63) ∨
        (∃ i, new i = s.ownAddress) ∨ ∃ i j, i ≠ j ∧ new i = new j ∧ (new i).toNat ≤ 61
    let c := Instr.loadRoster t src tag (start :: body)
    (refused → TurnsAway c t s src tag 0x03 .badArgument) ∧
    (¬ refused → ∃ u count, Answers c t s u src tag 0x03 (clampedResult count) (clampedData count) ∧
      count = (List.finRange 14).countP (fun i =>
        match written ps i.val with
        | some e => decide (64 ≤ (e.getD 0 0).toNat)
        | none => false) ∧
      (∀ i, u.role i = new i) ∧ u.tables = { s.tables with roster := u.tables.roster } ∧
      u.grader = s.grader ∧
      (∀ e, (u.tracker.head e).latest = (s.tracker.head e).latest ∧
        (changed (encoderRole e) → (u.tracker.head e).fresh = false) ∧
        (¬ changed (encoderRole e) → u.tracker.head e = s.tracker.head e)) ∧
      (changed roleConcentrator → ∀ k, (u.cabin k).door = .unknown ∧ (u.cabin k).lastReport = none) ∧
      (¬ changed roleConcentrator → ∀ k, (u.cabin k).door = (s.cabin k).door ∧
        (u.cabin k).lastReport = (s.cabin k).lastReport) ∧
      (∀ n, changed (headRole n) → u.head n = if (s.head n).fresh = true then (s.head n).drop else s.head n) ∧
      (∀ n, ¬ changed (headRole n) → u.head n = s.head n) ∧
      (∀ n, changed (driveRole n) → (u.drive n).fresh = false ∧ (u.drive n).lastReport = none) ∧
      (∀ n, ¬ changed (driveRole n) → u.drive n = s.drive n))

/-- A PASS load takes its entries with the control at most DROP and an address of 64 to 254 as 63, a RULES load
with each field outside its codes at the nearest or NONE as R108 gives, and both count their clamps and leave
the other entries; nothing else changes, but that a RULES load starts settling and cancels a dwell (R7, R108,
R119). A CABINS load takes in-service and the capacity between 1 and 40, counting its clamps; the permit of a
cabin it takes out of service becomes CLEAR, and nothing else changes (R39, R61). -/
def Obligations.PassCabinAndRulesLoadsTakeTheirEntries : Prop :=
  (∀ t src tag start body s, s.takesConsole src →
     (s.loadable .pass start body →
       let ps := Table.pass.paged start.toNat body
       let address : Byte → Option Byte := fun o =>
         if o = 0xFF then none else if 64 ≤ o.toNat then some 63 else some o
       ∃ u count, Answers (.loadPass t src tag (start :: body)) t s u src tag 0x03 (clampedResult count)
           (clampedData count) ∧
         Untouched [.tables] s u ∧ u.tables = { s.tables with pass := u.tables.pass } ∧
         u.ring.notices = s.ring.notices ∧ u.ring.driveSet = s.ring.driveSet ∧
         count = countWritten 32 ps (fun e =>
           [decide (2 < (e.getD 0 0).toNat), decide (64 ≤ (e.getD 1 0).toNat ∧ (e.getD 1 0).toNat ≤ 254),
             decide (64 ≤ (e.getD 2 0).toNat ∧ (e.getD 2 0).toNat ≤ 254)]) ∧
         ∀ j : Fin 32, u.tables.pass[j] =
           match written ps j.val with
           | some e =>
             { control :=
                 if e.getD 0 0 = 0x00 then .disabled else if e.getD 0 0 = 0x01 then .forward else .drop
               source := address (e.getD 1 0), dest := address (e.getD 2 0)
               kind := if e.getD 3 0 = 0xFF then none else some (e.getD 3 0) }
           | none => s.tables.pass[j]) ∧
     (s.loadable .rules start body →
       let ps := Table.rules.paged start.toNat body
       let test : List Byte → Nat → RuleTest := fun e i =>
         { quantity :=
             ([.siteGust, .siteSustained, .gustSpread, .validHeads, .headGust 0, .headGust 1, .headGust 2,
               .headGust 3, .sector, .marker1, .marker2] : List Quantity).getD (e.getD i 0).toNat .gradeInForce
           comparison :=
             ([.atLeast, .below, .inSet] : List Comparison).getD (e.getD (i + 1) 0).toNat .isSet
           threshold := 256 * (e.getD (i + 2) 0).toNat + (e.getD (i + 3) 0).toNat }
       let effect : Byte → Option (Marker × MarkerOp) := fun o =>
         match o.toNat with
         | 0x11 => some (.m1, .set)
         | 0x12 => some (.m1, .and)
         | 0x13 => some (.m1, .or)
         | 0x14 => some (.m1, .xor)
         | 0x21 => some (.m2, .set)
         | 0x22 => some (.m2, .and)
         | 0x23 => some (.m2, .or)
         | 0x24 => some (.m2, .xor)
         | _ => none
       ∃ u count, Answers (.loadRules t src tag (start :: body)) t s u src tag 0x03 (clampedResult count)
           (clampedData count) ∧
         Untouched [.tables, .grader] s u ∧ u.tables = { s.tables with rules := u.tables.rules } ∧
         u.ring.notices = s.ring.notices ∧ u.ring.driveSet = s.ring.driveSet ∧
         u.grader =
           { s.grader with dwell := none, settling := some (max s.lines.now t + 1000 * s.p 24) } ∧
         count = countWritten 16 ps (fun e =>
           [decide (1 < (e.getD 0 0).toNat), decide (11 < (e.getD 1 0).toNat),
             decide (3 < (e.getD 2 0).toNat), decide (11 < (e.getD 5 0).toNat),
             decide (3 < (e.getD 6 0).toNat), decide (15 < (e.getD 9 0).toNat),
             decide (5 ≤ (e.getD 10 0).toNat ∧ (e.getD 10 0).toNat ≤ 254),
             decide (e.getD 11 0 ∉
               ([0x00, 0x11, 0x12, 0x13, 0x14, 0x21, 0x22, 0x23, 0x24] : List Byte))]) ∧
         ∀ j : Fin 16, u.tables.rules[j] =
           match written ps j.val with
           | some e =>
             { enabled := e.getD 0 0 != 0x00, testA := test e 1, testB := test e 5
               combination := min (e.getD 9 0).toNat 15
               grade :=
                 if e.getD 10 0 = 0xFF then none else some ⟨min (e.getD 10 0).toNat 4, by omega⟩
               effect := effect (e.getD 11 0) }
           | none => s.tables.rules[j])) ∧
  (∀ t src tag start body s, s.takesConsole src → s.loadable .cabins start body →
     let ps := Table.cabins.paged start.toNat body
     ∃ u count, Answers (.loadCabins t src tag (start :: body)) t s u src tag 0x03 (clampedResult count)
         (clampedData count) ∧
       Untouched [.tables, .permits] s u ∧ u.tables = { s.tables with cabins := u.tables.cabins } ∧
       u.ring.notices = s.ring.notices ∧ u.ring.driveSet = s.ring.driveSet ∧
       count = countWritten 48 ps (fun e =>
         [decide (1 < (e.getD 0 0).toNat),
           decide ((e.getD 1 0).toNat < 1 ∨ 40 < (e.getD 1 0).toNat)]) ∧
       (∀ k : Fin 48, u.cabinEntry k =
         match written ps k.val with
         | some e =>
           { inService := e.getD 0 0 != 0x00, capacity := max 1 (min 40 (e.getD 1 0).toNat) }
         | none => s.cabinEntry k) ∧
       ∀ z, u.permits.get z =
         match (s.permits.get z).cabin with
         | some k =>
           if (s.cabinEntry k).inService = true ∧ (u.cabinEntry k).inService = false then .clear
           else s.permits.get z
         | none => s.permits.get z)

/-- A ZONES load clamps start, end by its length, and cutoff, and counts each field that is stored otherwise than
loaded (R55); a table whose UNLOAD end lies past its
LOAD start refuses it whole; else the table takes the entries and, while the position is valid, the
occupancy records follow the new boundaries at once (R56, R37). -/
def Obligations.ZoneLoadsMoveTheBoundaries : Prop :=
  ∀ t src tag start body s, s.takesConsole src → s.loadable .zones start body →
    let ps := Table.zones.paged start.toNat body
    let index : Zone → Nat := fun z => if z = .unload then 0 else 1
    let new : Zone → ZoneEntry := fun z =>
      match written ps (index z) with
      | some e =>
        let first := min (256 * (e.getD 0 0).toNat + (e.getD 1 0).toNat) 32767
        let length : Int := max 1000 (min 8191 ((256 * (e.getD 2 0).toNat + (e.getD 3 0).toNat : Int) - first))
        { start := first, finish := first + length.toNat
          cutoff := max 500 (min (length.toNat - 500) (256 * (e.getD 4 0).toNat + (e.getD 5 0).toNat))
          permitRequired := e.getD 6 0 != 0x00
          release := if e.getD 7 0 = 0x00 then .auto else .attended }
      | none => s.zone z
    let clamps : Zone → Nat := fun z =>
      match written ps (index z) with
      | some e =>
        [decide ((new z).start ≠ 256 * (e.getD 0 0).toNat + (e.getD 1 0).toNat),
          decide ((new z).finish ≠ 256 * (e.getD 2 0).toNat + (e.getD 3 0).toNat),
          decide ((new z).cutoff ≠ 256 * (e.getD 4 0).toNat + (e.getD 5 0).toNat),
          decide (1 < (e.getD 6 0).toNat), decide (1 < (e.getD 7 0).toNat)].count true
      | none => 0
    let c := Instr.loadZones t src tag (start :: body)
    ((new .load).start < (new .unload).finish → TurnsAway c t s src tag 0x03 .badArgument) ∧
    ((new .unload).finish ≤ (new .load).start →
      ∃ u count, Answers c t s u src tag 0x03 (clampedResult count) (clampedData count) ∧
        count = clamps .unload + clamps .load ∧
        (∀ z, u.zone z = new z) ∧ u.tables = { s.tables with zones := u.tables.zones } ∧
        Untouched [.tables, .tracker, .cabins, .permits, .service, .holds, .rot] s u ∧
        u.tracker = { s.tracker with occ := u.tracker.occ } ∧
        (s.tracker.accepted = .invalid → Untouched [.tables] s u ∧ u.ring.notices = s.ring.notices) ∧
        (∀ p, s.tracker.accepted.value = some p → ∀ z, u.occ z = occupancyAt p (new z)) ∧
        ∀ k, (u.cabin k).door = (s.cabin k).door ∧ (u.cabin k).occupancy = (s.cabin k).occupancy)

/-- A PARAMETERS load holds each value between its limits, stores bits 1 to 7 of P26 and counts the others
clamped (R176); where it lowers a stale time, what is older than the new one is believed no longer (R27,
R43, R161, R102). The model's readings are that only a load that lowers a stale time ages records (log 18), and
that a wind head's restart leaves the accumulator's number as it stands, uninitialized (log 16). -/
def Obligations.ParameterLoadsLimitValuesAndAgeRecords : Prop :=
  ∀ t src tag start body s, s.takesConsole src → s.loadable .parameters start body →
    let ps := Table.parameters.paged start.toNat body
    let loaded : Fin 28 → Option Nat := fun i =>
      (written ps i.val).map (fun e => 256 * (e.getD 0 0).toNat + (e.getD 1 0).toNat)
    let now := max s.lines.now t
    let older : Option Nat → Nat → Prop := fun taken limit => ∃ m, taken = some m ∧ limit < now - m
    ∃ u count, Answers (.loadParameters t src tag (start :: body)) t s u src tag 0x03
        (clampedResult count) (clampedData count) ∧
      u.tables = { s.tables with params := u.tables.params } ∧
      count = (List.finRange 28).countP (fun i =>
        match loaded i with
        | some v => decide (i ≠ 26 ∧ (v < paramLow i ∨ paramHigh i < v))
        | none => false) ∧
      (∀ i, u.p i =
        match loaded i with
        | some v => if i = 26 then v &&& 0x00FE else max (paramLow i) (min (paramHigh i) v)
        | none => s.p i) ∧
      (s.p 15 ≤ u.p 15 → u.tracker = s.tracker) ∧
      (u.p 15 < s.p 15 → ∀ e,
        (older (s.tracker.head e).taken (u.p 15) → (u.tracker.head e).fresh = false) ∧
        (¬ older (s.tracker.head e).taken (u.p 15) → u.tracker.head e = s.tracker.head e)) ∧
      (∀ k, (u.cabin k).lastReport = (s.cabin k).lastReport ∧
        (u.cabin k).door =
          if u.p 16 < s.p 16 ∧ older (s.cabin k).lastReport (u.p 16) then .unknown
          else (s.cabin k).door) ∧
      (∀ n, (u.drive n).lastReport = (s.drive n).lastReport ∧
        ((u.drive n).fresh = true ↔ (s.drive n).fresh = true ∧
          ¬(u.p 17 < s.p 17 ∧ older (s.drive n).lastReport (u.p 17)))) ∧
      ∀ n, u.head n =
        if u.p 18 < s.p 18 ∧ older (s.head n).lastSample (u.p 18) ∧ (s.head n).fresh = true then
          (s.head n).drop
        else s.head n

/-- A HEADS load limits factor and shift and counts its clamps, restarts every head whose entry it writes and no
other, and starts settling; no fresh field changes (R93, R94, R96, R119). That a restart leaves the accumulator's
number as it stands, uninitialized, is the model's reading (log 16). -/
def Obligations.HeadLoadsRestartTheHeadsTheyWrite : Prop :=
  ∀ t src tag start body s, s.takesConsole src → s.loadable .heads start body →
    let ps := Table.heads.paged start.toNat body
    ∃ u count, Answers (.loadHeads t src tag (start :: body)) t s u src tag 0x03 (clampedResult count)
        (clampedData count) ∧
      Untouched [.tables, .heads, .grader] s u ∧ u.tables = { s.tables with heads := u.tables.heads } ∧
      u.ring.notices = s.ring.notices ∧ u.ring.driveSet = s.ring.driveSet ∧
      count = countWritten 4 ps (fun e =>
        let factor := 256 * (e.getD 2 0).toNat + (e.getD 3 0).toNat
        [decide (1 < (e.getD 0 0).toNat), decide (1 < (e.getD 1 0).toNat),
          decide (factor < 512 ∨ 2048 < factor),
          decide ((e.getD 4 0).toNat < 4 ∨ 10 < (e.getD 4 0).toNat)]) ∧
      u.grader = { s.grader with dwell := none, settling := some (max s.lines.now t + 1000 * s.p 24) } ∧
      ∀ n : Fin 4,
        match written ps n.val with
        | some e =>
          u.headEntry n =
            { enabled := e.getD 0 0 != 0x00, unit := if e.getD 1 0 = 0x00 then .deci else .centi
              factor := max 512 (min 2048 (256 * (e.getD 2 0).toNat + (e.getD 3 0).toNat))
              shift := max 4 (min 10 (e.getD 4 0).toNat) } ∧
          u.head n =
            { s.head n with
              ring := [], entered := 0, initialized := false, sector := none, gust := 0, sustained := 0 }
        | none => u.headEntry n = s.headEntry n ∧ u.head n = s.head n

/-- SET_LOCKS answers by the key line: REFUSED_KEY at OPERATE; at MAINTAIN the lock set takes bits 0 to 6 of the
argument and bit 7 is ignored (R175). SET_TRIM writes P4 between 50 and 100 whatever the locks, the key line
and the wheel state, and tells of a clamp (R146). (The time base after a command is the model's: log 1.) -/
def Obligations.SetLocksAndSetTrimWriteTheirRegisters : Prop :=
  (∀ t src tag args s, s.takesConsole src → args.length ≤ 62 →
     let c := Instr.setLocks t src tag args
     (args.length ≠ 1 → TurnsAway c t s src tag 0x04 .badLength) ∧
     ∀ locks, args = [locks] →
       (s.lines.svcKey = .operate → TurnsAway c t s src tag 0x04 .refusedKey) ∧
       (s.lines.svcKey = .maintain → ∃ u, Done c t s u src tag 0x04 [.tables] [] ∧
         u.tables = { s.tables with locks := u.tables.locks } ∧
         ∀ i, i < 7 → u.tables.locks.getLsbD i = locks.getLsbD i)) ∧
  (∀ t src tag args s, s.takesConsole src → args.length ≤ 62 →
     let c := Instr.setTrim t src tag args
     (args.length ≠ 1 → TurnsAway c t s src tag 0x36 .badLength) ∧
     ∀ trim, args = [trim] →
       let inRange := 50 ≤ trim.toNat ∧ trim.toNat ≤ 100
       ∃ u, Answers c t s u src tag 0x36 (if inRange then .done else .doneClamped)
           (if inRange then [] else [0x01]) ∧
         Untouched [.tables] s u ∧ u.tables = { s.tables with params := u.tables.params } ∧
         u.ring.notices = s.ring.notices ∧ u.ring.driveSet = s.ring.driveSet ∧
         u.p 4 = (if trim.toNat < 50 then 50 else if 100 < trim.toNat then 100 else trim.toNat) ∧
         ∀ i, i ≠ 4 → u.p i = s.p i)

/-- RESTART is accepted in STOWED or STANDBY with the service CLOSED: every block takes its reset values
while tables, locks, wheel state, queues and time base stand, and the RESTARTED notice is queued (R178). -/
def Obligations.RestartResetsTheBlocksAndKeepsTheTables : Prop :=
  ∀ t src tag args s, s.takesConsole src → args.length ≤ 62 →
    let c := Instr.restart t src tag args
    let accepted := (s.rot.wheel = .stowed ∨ s.rot.wheel = .standby) ∧ s.service.mode = .closed
    (args ≠ [] → TurnsAway c t s src tag 0x05 .badLength) ∧
    (args = [] → ¬ accepted → TurnsAway c t s src tag 0x05 .refusedState) ∧
    (args = [] → accepted → ∃ u, Answers c t s u src tag 0x05 .done [] ∧ u.tables = s.tables ∧
      u.pending = s.pending ∧ u.rot.wheel = s.rot.wheel ∧ u.rot.vLim = s.rot.vLim ∧
      u.ring.driveSet = s.ring.driveSet ∧ NoticesQueued s u [.restarted] ∧ BlocksReset u (s.p 24))

/-! ### The hold list (chapter 8) -/

/-- HOLD raises CONSOLE_HOLD where none stands, sets resume-required, and a RUNNING wheel enters
STOPPING(HELD), or HELD where it is already at rest (R129, R125, R147, R149); where one stands nothing
changes. -/
def Obligations.HoldStopsTheWheelForTheConsole : Prop :=
  ∀ t src tag args s, s.takesConsole src → args.length ≤ 62 →
    let c := Instr.hold t src tag args
    let new : HoldRecord := { what := .consoleHold, raised := max s.lines.now t, acked := false }
    (args ≠ [] → TurnsAway c t s src tag 0x11 .badLength) ∧
    (args = [] → s.holdsKey .consoleHold = true → ∃ u, Done c t s u src tag 0x11 [] []) ∧
    (args = [] → s.holdsKey .consoleHold = false → s.rot.wheel ≠ .running →
      ∃ u, Done c t s u src tag 0x11 [.holds] [.holdRaised .consoleHold] ∧
        u.holds = { records := s.holds.records ++ [new], resumeRequired := true }) ∧
    (args = [] → s.holdsKey .consoleHold = false → s.rot.wheel = .running →
      let rest := decide (s.rot.vCmd = 0 ∧ ∀ n, (s.drive n).fresh = true → (s.drive n).speed ≤ 16)
      ∃ u, Done c t s u src tag 0x11 [.holds, .rot]
          ([.holdRaised .consoleHold, .stateChanged (.stopping .held)] ++
            if rest then [.stateChanged .held] else []) ∧
        u.holds = { records := s.holds.records ++ [new], resumeRequired := true } ∧
        u.rot = { s.rot with wheel := if rest then .held else .stopping .held, stopPending := false })

/-- ACK_HOLD: framing and kinds are judged first, an absent record is REFUSED_CONDITION; then by the kind
the record is cleared where its condition holds, or marked acknowledged, or the ACK refused; a clear that
empties the list returns a held or stopping wheel to RUNNING where resume-required is clear (R130 to R132,
R148). After an ATTENDED ZONE_OVERRUN is cleared the zone's occupant is tested, and a new record for it stops a
RUNNING wheel again (R73, R70, R147, R149). -/
def Obligations.AckHoldClearsMarksOrRefuses : Prop :=
  ∀ t src tag args s, s.takesConsole src → args.length ≤ 62 →
    let c := Instr.ackHold t src tag args
    (args.length ≠ 2 → TurnsAway c t s src tag 0x12 .badLength) ∧
    ∀ kind zone, args = [kind, zone] →
      (kind = 0x00 ∨ 9 < kind.toNat ∨ (kind = 0x08 ∧ 1 < zone.toNat) →
        TurnsAway c t s src tag 0x12 .badArgument) ∧
      ∀ key : HoldKey, key.code = kind → (∀ z, key = .zoneOverrun z → z.code = zone) →
        (s.holdsKey key = false → TurnsAway c t s src tag 0x12 .refusedCondition) ∧
        ∀ r, s.holds.records.find? (fun x => x.what.key == key) = some r →
          let secured := fun k => (s.cabin k).door = .locked ∧ (s.cabin k).cycle = .idle
          let accepted : Prop :=
            match r.what with
            | .allStop _ _ => True
            | .consoleHold => True
            | .encoderDisagree => s.tracker.latch = false
            | .doorBreach ks => ∀ k ∈ ks, (s.cabin k).door = .locked
            | .zoneOverrun z k => (s.zone z).release = .attended ∧ secured k
            | .cabinOverload _ => True
            | .windStop => False
            | .positionLost => False
            | .drivesLost => False
          let marks : Prop :=
            match r.what with
            | .zoneOverrun z _ => (s.zone z).release = .auto
            | .windStop => True
            | .positionLost => True
            | .drivesLost => True
            | _ => False
          let others := s.holds.records.filter (fun x => x.what.key != key)
          (¬ accepted → ¬ marks → TurnsAway c t s src tag 0x12 .refusedCondition) ∧
          (marks → ∃ u, Done c t s u src tag 0x12 [.holds] [] ∧
            u.holds = { s.holds with records := s.holds.records.map (fun x =>
              if x.what.key = key then { x with acked := true } else x) }) ∧
          (accepted → ∀ z, key = .zoneOverrun z →
            let returns := decide (others = [] ∧ s.holds.resumeRequired = false ∧
              (s.rot.wheel = .held ∨ s.rot.wheel = .stopping .held))
            let cleared : List Notice :=
              .holdCleared r.what :: if returns then [.stateChanged .running] else []
            let rest := decide (s.rot.vCmd = 0 ∧ ∀ n, (s.drive n).fresh = true → (s.drive n).speed ≤ 16)
            let next : Option Cabin :=
              match (s.occ z).occupant with
              | some k =>
                if (s.occ z).past = true ∧ ¬((s.cabin k).door = .locked ∧ (s.cabin k).cycle = .idle) then
                  some k
                else none
              | none => none
            match next with
            | none =>
              ∃ u, Done c t s u src tag 0x12 [.holds, .rot] cleared ∧
                u.holds = { s.holds with records := others } ∧
                u.rot =
                  if returns then { s.rot with wheel := .running, stopPending := false } else s.rot
            | some k =>
              let stops := returns || decide (s.rot.wheel = .running)
              ∃ u, Done c t s u src tag 0x12 [.holds, .rot]
                  (cleared ++ [.holdRaised (.zoneOverrun z k)] ++
                    if stops then
                      .stateChanged (.stopping .held) :: if rest then [.stateChanged .held] else []
                    else []) ∧
                u.holds =
                  { s.holds with
                    records := others ++
                      [{ what := .zoneOverrun z k, raised := max s.lines.now t, acked := false }] } ∧
                u.rot =
                  if stops then
                    { s.rot with wheel := if rest then .held else .stopping .held, stopPending := false }
                  else s.rot) ∧
          (accepted → (∀ z, key ≠ .zoneOverrun z) →
            if others = [] ∧ s.holds.resumeRequired = false ∧
                (s.rot.wheel = .held ∨ s.rot.wheel = .stopping .held) then
              ∃ u, Done c t s u src tag 0x12 [.holds, .rot]
                  [.holdCleared r.what, .stateChanged .running] ∧
                u.holds = { s.holds with records := others } ∧
                u.rot = { s.rot with wheel := .running, stopPending := false }
            else
              ∃ u, Done c t s u src tag 0x12 [.holds] [.holdCleared r.what] ∧
                u.holds = { s.holds with records := others })

/-! ### The wheel's requests (chapter 9) -/

/-- UNSTOW takes a STOWED wheel to STANDBY; STOW takes a wheel in STANDBY to STOWED with the service CLOSED or
CLEARED, which is then CLOSED; every other case is turned away as the table gives (R140, R82). In which order
the two notices of a STOW in CLEARED are queued it leaves open (log 23). RESET_BRAKE
releases a BRAKED wheel to HELD and sets resume-required, unless an ALL_STOP record stands (R145). (The time
base after a command is the model's: log 1.) -/
def Obligations.UnstowStowAndResetBrakeMoveTheRestStates : Prop :=
  (∀ t src tag args s, s.takesConsole src → args.length ≤ 62 →
     (args ≠ [] → TurnsAway (.unstow t src tag args) t s src tag 0x30 .badLength) ∧
     (args = [] → s.rot.wheel = .stowed → ∃ u,
       Done (.unstow t src tag args) t s u src tag 0x30 [.rot] [.stateChanged .standby] ∧
       u.rot = { s.rot with wheel := .standby, stopPending := false }) ∧
     (args = [] → s.rot.wheel ≠ .stowed →
       TurnsAway (.unstow t src tag args) t s src tag 0x30 .refusedState) ∧
     (args ≠ [] → TurnsAway (.stow t src tag args) t s src tag 0x31 .badLength) ∧
     (args = [] → s.rot.wheel = .standby → s.service.mode = .closed → ∃ u,
       Done (.stow t src tag args) t s u src tag 0x31 [.rot] [.stateChanged .stowed] ∧
       u.rot = { s.rot with wheel := .stowed, stopPending := false }) ∧
     (args = [] → s.rot.wheel = .standby → s.service.mode = .cleared → ∃ u ns,
       ns.Perm [.stateChanged .stowed, .modeChanged .closed .request] ∧
       Done (.stow t src tag args) t s u src tag 0x31 [.rot, .service, .permits] ns ∧
       u.rot = { s.rot with wheel := .stowed, stopPending := false } ∧
       u.service = { s.service with mode := .closed } ∧
       ∀ z, u.permits.get z = (s.permits.get z).withoutArmed) ∧
     (args = [] → s.rot.wheel = .standby → s.service.mode = .opened ∨ s.service.mode = .clearDown →
       TurnsAway (.stow t src tag args) t s src tag 0x31 .refusedCondition) ∧
     (args = [] → s.rot.wheel ≠ .standby →
       TurnsAway (.stow t src tag args) t s src tag 0x31 .refusedState)) ∧
  (∀ t src tag args s, s.takesConsole src → args.length ≤ 62 →
     let c := Instr.resetBrake t src tag args
     (args ≠ [] → TurnsAway c t s src tag 0x35 .badLength) ∧
     (args = [] → s.rot.wheel ≠ .braked → TurnsAway c t s src tag 0x35 .refusedState) ∧
     (args = [] → s.rot.wheel = .braked → (∃ r ∈ s.holds.records, r.what.key = .allStop) →
       TurnsAway c t s src tag 0x35 .refusedCondition) ∧
     (args = [] → s.rot.wheel = .braked → (∀ r ∈ s.holds.records, r.what.key ≠ .allStop) →
       ∃ u, Done c t s u src tag 0x35 [.rot, .holds] [.stateChanged .held] ∧
         u.rot = { s.rot with wheel := .held, stopPending := false } ∧
         u.holds = { s.holds with resumeRequired := true }))

/-- START from STANDBY and RESUME from HELD need an empty hold list, START a valid position too; accepted, the
wheel is RUNNING and resume-required clear (R141, R144). (The time base after a command is the model's: log
1.) -/
def Obligations.StartAndResumeSetTheWheelTurning : Prop :=
  ∀ t src tag args s, s.takesConsole src → args.length ≤ 62 →
    let a := Instr.start t src tag args
    let r := Instr.resume t src tag args
    let turning := fun (c : Instr) (kind : Byte) =>
      ∃ u, Done c t s u src tag kind [.rot, .holds] [.stateChanged .running] ∧
        u.rot = { s.rot with wheel := .running, stopPending := false } ∧
        u.holds = { s.holds with resumeRequired := false }
    (args ≠ [] → TurnsAway a t s src tag 0x32 .badLength) ∧
    (args = [] → s.rot.wheel ≠ .standby → TurnsAway a t s src tag 0x32 .refusedState) ∧
    (args = [] → s.rot.wheel = .standby → s.holds.records ≠ [] ∨ s.tracker.accepted = .invalid →
      TurnsAway a t s src tag 0x32 .refusedCondition) ∧
    (args = [] → s.rot.wheel = .standby → s.holds.records = [] → s.tracker.accepted ≠ .invalid →
      turning a 0x32) ∧
    (args ≠ [] → TurnsAway r t s src tag 0x34 .badLength) ∧
    (args = [] → s.rot.wheel ≠ .held → TurnsAway r t s src tag 0x34 .refusedState) ∧
    (args = [] → s.rot.wheel = .held → s.holds.records ≠ [] →
      TurnsAway r t s src tag 0x34 .refusedCondition) ∧
    (args = [] → s.rot.wheel = .held → s.holds.records = [] → turning r 0x34)

/-- STOP: RUNNING to STOPPING(STANDBY), which is judged at once for rest; STOPPING(HELD) to STOPPING(STANDBY);
HELD to STANDBY; nothing in STOPPING(STANDBY); REFUSED_STATE elsewhere (R142, R149). That the change of
destination in STOPPING(HELD) does not judge the end of the stop is the model's reading (log 13). -/
def Obligations.StopBringsTheWheelToStandby : Prop :=
  ∀ t src tag args s, s.takesConsole src → args.length ≤ 62 →
    let c := Instr.stop t src tag args
    let rest := decide (s.rot.vCmd = 0 ∧ ∀ n, (s.drive n).fresh = true → (s.drive n).speed ≤ 16)
    (args ≠ [] → TurnsAway c t s src tag 0x33 .badLength) ∧
    (args = [] → s.rot.wheel = .running → ∃ u,
      Done c t s u src tag 0x33 [.rot]
        ([.stateChanged (.stopping .standby)] ++ if rest then [.stateChanged .standby] else []) ∧
      u.rot = { s.rot with wheel := if rest then .standby else .stopping .standby, stopPending := !rest }) ∧
    (args = [] → s.rot.wheel = .stopping .held → ∃ u,
      Done c t s u src tag 0x33 [.rot] [.stateChanged (.stopping .standby)] ∧
      u.rot = { s.rot with wheel := .stopping .standby, stopPending := true }) ∧
    (args = [] → s.rot.wheel = .stopping .standby → ∃ u, Done c t s u src tag 0x33 [] []) ∧
    (args = [] → s.rot.wheel = .held → ∃ u,
      Done c t s u src tag 0x33 [.rot] [.stateChanged .standby] ∧
      u.rot = { s.rot with wheel := .standby, stopPending := false }) ∧
    (args = [] → s.rot.wheel = .stowed ∨ s.rot.wheel = .standby ∨ s.rot.wheel = .braked →
      TurnsAway c t s src tag 0x33 .refusedState)

/-! ### The service sequencer's requests (chapter 5) -/

/-- OPEN_SERVICE and CLOSE_SERVICE answer by mode, wheel state and grade; OPEN empties the clear-down list, and
CLOSE clears the ARMED permits (R79, R81, R62). (The time base after a command is the model's: log 1.) -/
def Obligations.OpenAndCloseServiceFollowTheirTables : Prop :=
  ∀ t src tag args s, s.takesConsole src → args.length ≤ 62 →
    let o := Instr.openService t src tag args
    let c := Instr.closeService t src tag args
    let barred := s.service.mode = .closed ∧ (s.rot.wheel = .stowed ∨ s.rot.wheel = .braked)
    (args ≠ [] → TurnsAway o t s src tag 0x40 .badLength ∧ TurnsAway c t s src tag 0x42 .badLength) ∧
    (args = [] → s.service.mode = .opened → ∃ u, Done o t s u src tag 0x40 [] []) ∧
    (args = [] → barred → TurnsAway o t s src tag 0x40 .refusedState) ∧
    (args = [] → s.service.mode ≠ .opened → ¬ barred → 3 ≤ s.grader.inForce.val →
      TurnsAway o t s src tag 0x40 .refusedCondition) ∧
    (args = [] → s.service.mode ≠ .opened → ¬ barred → s.grader.inForce.val < 3 →
      ∃ u, Done o t s u src tag 0x40 [.service] [.modeChanged .opened .request] ∧
        u.service =
          if s.service.mode = .clearDown then { mode := .opened, list := [], fMode := 100 }
          else { s.service with mode := .opened }) ∧
    (args = [] → s.service.mode = .cleared →
      ∃ u, Done c t s u src tag 0x42 [.service, .permits] [.modeChanged .closed .request] ∧
        u.service = { s.service with mode := .closed } ∧
        ∀ z, u.permits.get z = (s.permits.get z).withoutArmed) ∧
    (args = [] → s.service.mode = .closed → ∃ u, Done c t s u src tag 0x42 [] []) ∧
    (args = [] → s.service.mode = .opened ∨ s.service.mode = .clearDown →
      TurnsAway c t s src tag 0x42 .refusedState)

/-- BEGIN_CLEARDOWN in OPEN lists every cabin with an occupancy above 0, in key order while the position is
valid and else in cabin order, and clears an ARMED LOAD permit; with no such cabin the clear-down completes
at once: CLEARED, the two notices, both ARMED permits cleared and the wheel stopped for STANDBY (R80, R84,
R91, R143). That the stop taken in STOPPING(HELD) does not judge its end is the model's reading (log 13). -/
def Obligations.BeginClearDownListsTheOccupiedCabins : Prop :=
  ∀ t src tag args s, s.takesConsole src → args.length ≤ 62 →
    let c := Instr.beginClearDown t src tag args
    let occupied := (List.finRange 48).filter (fun k => decide (0 < (s.cabin k).occupancy))
    let rest := decide (s.rot.vCmd = 0 ∧ ∀ n, (s.drive n).fresh = true → (s.drive n).speed ≤ 16)
    (args ≠ [] → TurnsAway c t s src tag 0x41 .badLength) ∧
    (args = [] → s.service.mode = .clearDown → ∃ u, Done c t s u src tag 0x41 [] []) ∧
    (args = [] → s.service.mode = .closed ∨ s.service.mode = .cleared →
      TurnsAway c t s src tag 0x41 .refusedState) ∧
    (args = [] → s.service.mode = .opened → occupied ≠ [] →
      ∃ u, Done c t s u src tag 0x41 [.service, .permits] [.modeChanged .clearDown .request] ∧
        u.service.mode = .clearDown ∧ u.service.fMode = s.service.fMode ∧
        u.permits = { unload := s.permits.unload, load := s.permits.load.withoutArmed } ∧
        (s.tracker.accepted = .invalid → u.service.list = occupied) ∧
        ∀ p, s.tracker.accepted.value = some p → u.service.list.Perm occupied ∧
          u.service.list.Pairwise (fun a b =>
            orderKey p (s.zone .unload).finish a ≤ orderKey p (s.zone .unload).finish b)) ∧
    (args = [] → s.service.mode = .opened → occupied = [] →
      let stopped : Wheel × List Notice :=
        match s.rot.wheel with
        | .running =>
          if rest then (.standby, [.stateChanged (.stopping .standby), .stateChanged .standby])
          else (.stopping .standby, [.stateChanged (.stopping .standby)])
        | .stopping .held => (.stopping .standby, [.stateChanged (.stopping .standby)])
        | .held => (.standby, [.stateChanged .standby])
        | w => (w, [])
      ∃ u, Done c t s u src tag 0x41 [.service, .permits, .rot]
          ([.modeChanged .clearDown .request, .modeChanged .cleared .listEmpty, .clearDownComplete] ++
            stopped.2) ∧
        u.service = { s.service with mode := .cleared, list := [] } ∧
        (∀ z, u.permits.get z = (s.permits.get z).withoutArmed) ∧
        u.rot.wheel = stopped.1 ∧ u.rot.vCmd = s.rot.vCmd)

/-- ARM_ZONE answers by the cases of R58 in order; a CLEAR permit of an admitted zone is ARMED for the zone's
occupant, and no other case changes a permit. (The time base after a command is the model's: log 1.) -/
def Obligations.ArmZoneArmsForTheOccupant : Prop :=
  ∀ t src tag args s, s.takes src → args.length ≤ 62 →
    (src = s.role roleConsole ∨ src = s.role roleUnloadGate ∨ src = s.role roleLoadGate) →
    let c := Instr.armZone t src tag args
    (args.length ≠ 1 → TurnsAway c t s src tag 0x48 .badLength) ∧
    (∀ o : Byte, args = [o] → 1 < o.toNat → TurnsAway c t s src tag 0x48 .badArgument) ∧
    ∀ z : Zone, args = [z.code] →
      let allowed := src = s.role roleConsole ∨ src = s.role (gateRole z)
      let admitted := s.service.mode = .opened ∨ (s.service.mode = .clearDown ∧ z = .unload)
      (¬ allowed → TurnsAway c t s src tag 0x48 .refusedSource) ∧
      (allowed → ¬ admitted → TurnsAway c t s src tag 0x48 .refusedState) ∧
      (allowed → admitted → s.grader.inForce = 4 → TurnsAway c t s src tag 0x48 .refusedCondition) ∧
      (allowed → admitted → s.grader.inForce ≠ 4 → (s.occ z).occupant = none →
        TurnsAway c t s src tag 0x48 .noCabin) ∧
      ∀ k, allowed → admitted → s.grader.inForce ≠ 4 → (s.occ z).occupant = some k →
        (s.permits.get z = .clear → ∃ u, Done c t s u src tag 0x48 [.permits] [] ∧
          u.permits = s.permits.set z (.armed k)) ∧
        (s.permits.get z = .armed k → ∃ u, Done c t s u src tag 0x48 [] []) ∧
        ∀ j, s.permits.get z = .spent j → TurnsAway c t s src tag 0x48 .busy

/-! ### The rotation update (chapter 9) -/

/-- The signed distance of R31: the difference of point and coordinate brought between −196,608 and 196,607 by
whole revolutions. The stopping speed of R153: 0 at or past the point, else the greatest integer whose square
does not exceed 512 × P2 × d. The emergency test trips in a moving state on the first BRAKE_POINT record, in raise order and
with the position valid, whose cabin is at its line with V_old above 0 or cannot be stopped before it even
with one step of deceleration, and else on a ceiling below V_old − Δ_dn (R154, R75). -/
def Obligations.StoppingSpeedAndTheEmergencyTest : Prop :=
  (∀ (c : Nat) (x : Int),
     signedDistance c x = (x - c + 196608) % 393216 - 196608 ∧
     -196608 ≤ signedDistance c x ∧ signedDistance c x ≤ 196607 ∧
     (signedDistance c x - (x - c)) % 393216 = 0 ∧
     (-196608 ≤ x - c → x - c ≤ 196607 → signedDistance c x = x - c)) ∧
  (∀ (a : Nat) (d : Int),
     (d ≤ 0 → stoppingSpeed a d = 0) ∧
     (0 < d → ((stoppingSpeed a d : Int) ^ 2 ≤ 512 * a * d ∧
       512 * a * d < ((stoppingSpeed a d : Int) + 1) ^ 2))) ∧
  (∀ s : State,
     let fall := 16 * s.p 2 / 10
     let old := s.rot.vCmd
     let trips : HoldRecord → Prop := fun r =>
       ∃ z k p, (r.what = .zoneOverrun z k ∨ (r.what = .cabinOverload k ∧ z = .load)) ∧
         s.tracker.accepted.value = some p ∧
         let e := signedDistance (coordinate p k) (s.zone z).finish
         (e ≤ 0 ∧ 0 < old) ∨ (0 < e ∧ stoppingSpeed (s.p 2) e + fall < old)
     (s.rot.wheel.moving = false → s.emergencyCause = none) ∧
     (s.rot.wheel.moving = true →
       (∀ pre r post, s.holds.records = pre ++ r :: post → trips r → (∀ x ∈ pre, ¬ trips x) →
         s.emergencyCause = r.what.brakeCause ∧ s.emergencyCause ≠ none) ∧
       ((∀ r ∈ s.holds.records, ¬ trips r) →
         s.emergencyCause = if 16 * s.p 3 + fall < old then some .ceiling else none)))

/-- A rotation update reorders the list in CLEARDOWN and reads F_mode (R89, R90), forms V_lim (R152), and
then either brakes on the first cause of the emergency test (R154, R150, R166) or ramps V_cmd by the quanta
towards the target (R153, R155, R156), where a BRAKE_POINT record's stop point is its zone's end less P25, the
LOAD zone's for CABIN_OVERLOAD (R75), judges the end of stopping (R149) and queues the drive set (R165). The octets
of brake demand and await-apply in the set are the model's choice (log 26). -/
def Obligations.RotationUpdatesRunTheirStages : Prop :=
  ∀ t s, s.lines.inReset = false →
    ∃ u, Completes (.rotationUpdate t) s u ∧ u.lines = s.linesAt t ∧ Untouched [.service, .rot] s u ∧
      u.ring.forward = s.ring.forward ∧ u.ring.doorQueue = s.ring.doorQueue ∧
      u.ring.responses = s.ring.responses ∧
      u.service.mode = s.service.mode ∧ u.service.list.Perm s.service.list ∧
      (s.service.mode ≠ .clearDown ∨ s.tracker.accepted = .invalid → u.service.list = s.service.list) ∧
      (s.service.mode = .clearDown → ∀ p, s.tracker.accepted.value = some p →
        u.service.list.Pairwise (fun a b =>
          orderKey p (s.zone .unload).finish a ≤ orderKey p (s.zone .unload).finish b)) ∧
      u.service.fMode =
        (match s.service.mode, s.tracker.accepted.value, u.service.list with
        | .clearDown, some p, k :: _ =>
          if s.p 6 * 8192 < orderKey p (s.zone .unload).finish k then s.p 5 else 100
        | _, _, _ => 100) ∧
      let wind :=
        match s.grader.inForce with
        | 0 => s.p 7
        | 1 => s.p 8
        | 2 => s.p 9
        | 3 => s.p 10
        | 4 => 0
      let drive :=
        if s.readyCount = 4 then s.p 11 else if s.readyCount = 3 then s.p 12
        else if s.readyCount = 2 then s.p 13 else 0
      let limit :=
        min (6291456 / s.p 0 * u.service.fMode / 100 * min wind (min drive (s.p 4)) / 100) (16 * s.p 3)
      let rise := 16 * s.p 1 / 10
      let fall := 16 * s.p 2 / 10
      let old := s.rot.vCmd
      let allStops := s.ring.driveSet.filter (fun f => f.kind == 0x5A)
      u.rot.vLim = limit ∧
      match s.emergencyCause with
      | some cause =>
        u.rot.wheel = .braked ∧ u.rot.stopPending = false ∧ u.rot.vCmd = 0 ∧
          NoticesQueued s u [.stateChanged .braked, .emergencyBrake cause] ∧
          u.ring.driveSet = s.driveSetOf 0 true ++
            if allStops = [] then
              [{ dest := 63, source := s.ownAddress, kind := 0x5A, payload := [0x02] }]
            else allStops
      | none =>
        let speedAt : Zone → Cabin → Option Nat := fun z k =>
          s.tracker.accepted.value.map (fun p =>
            stoppingSpeed (s.p 2) (signedDistance (coordinate p k) (((s.zone z).finish : Int) - s.p 25)))
        let points := s.holds.records.filterMap (fun r =>
          match r.what with
          | .zoneOverrun z k => speedAt z k
          | .cabinOverload k => speedAt .load k
          | _ => none)
        let target :=
          if s.rot.wheel.moving = false then 0
          else if s.haltStands = true ∨ (s.tracker.accepted = .invalid ∧ s.brakePointStands = true) ∨
              s.rot.stopPending = true then 0
          else if s.holds.records ≠ [] then points.foldl min (min old limit)
          else if s.rot.wheel = .running then limit
          else 0
        u.rot.vCmd = (if old ≤ target then min target (old + rise) else max target (old - fall)) ∧
          u.ring.driveSet =
            s.driveSetOf u.rot.vCmd (decide (u.rot.wheel.moving = false)) ++ allStops ∧
          match s.rot.wheel with
          | .stopping d =>
            if u.rot.vCmd = 0 ∧ ∀ n, (s.drive n).fresh = true → (s.drive n).speed ≤ 16 then
              u.rot.wheel = d.rest ∧ u.rot.stopPending = false ∧ NoticesQueued s u [.stateChanged d.rest]
            else u.rot.wheel = s.rot.wheel ∧ u.rot.stopPending = s.rot.stopPending ∧ NoticesQueued s u []
          | w => u.rot.wheel = w ∧ u.rot.stopPending = s.rot.stopPending ∧ NoticesQueued s u []

/-- The three laws of the reference, over every command but a power-on reset: V_cmd rises only at a
rotation update, to at most V_lim and by at most Δ_up, and out of reset never stands past 16 × P3 after one (in
reset an update does nothing: R2, log 17); it falls by more than
Δ_dn only to 0 on entry to BRAKED; it does not rise while the hold list holds a record; and it is 0 at rest
(R156). -/
def Obligations.ReferenceKeepsItsLaws : Prop :=
  ∀ c s u, WheelLaw s → (∀ r, c ≠ .powerOnReset r) → exec c s = .next u →
    (∀ t, c = .rotationUpdate t → s.lines.inReset = false → u.rot.vCmd ≤ 16 * s.p 3) ∧
    (s.rot.vCmd < u.rot.vCmd → (∃ t, c = .rotationUpdate t) ∧ u.rot.vCmd ≤ u.rot.vLim ∧
      u.rot.vLim ≤ 16 * s.p 3 ∧ u.rot.vCmd ≤ s.rot.vCmd + 16 * s.p 1 / 10) ∧
    (u.rot.vCmd + 16 * s.p 2 / 10 < s.rot.vCmd → u.rot.vCmd = 0 ∧ u.rot.wheel = .braked) ∧
    (s.holds.records ≠ [] → u.rot.vCmd ≤ s.rot.vCmd) ∧
    (u.rot.wheel.moving = false → u.rot.vCmd = 0)

/-! ### The wind grader (chapter 7) -/

/-- The values of the quantities (R109), the comparisons (R110), the combinations, where each of the four cases of
the two results has its weight in the code (R111), and what a rule's effect does to the markers (R112). -/
def Obligations.TestsCompareAndCombineAsTheirTables : Prop :=
  (∀ v th : Nat,
    (Comparison.atLeast.holds v th = true ↔ th ≤ v) ∧ (Comparison.below.holds v th = true ↔ v < th) ∧
    (Comparison.inSet.holds v th = true ↔ v ≤ 7 ∧ th / 2 ^ v % 2 = 1) ∧
    (Comparison.isSet.holds v th = true ↔ v ≠ 0)) ∧
  (∀ (x : RuleTest) fig inForce m, x.quantity = .sector → fig.sector = none →
    x.judge fig inForce m = false) ∧
  (∀ code a b, code ≤ 15 →
    let weight := if a = true then (if b = true then 8 else 4) else if b = true then 2 else 1
    (combine code a b = true ↔ code / weight % 2 = 1)) ∧
  (∀ (q : Quantity) (fig : SiteFigures) (inForce : Grade) (m : Markers),
    q.value fig inForce m =
      match q with
      | .siteGust => some fig.gust
      | .siteSustained => some fig.sustained
      | .gustSpread => some fig.spread
      | .validHeads => some fig.valid
      | .headGust n => some (fig.headGust n)
      | .sector => fig.sector
      | .marker1 => some (if m.m1 = true then 1 else 0)
      | .marker2 => some (if m.m2 = true then 1 else 0)
      | .gradeInForce => some inForce.val) ∧
  ∀ (m : Markers) (marker : Marker) (op : MarkerOp) (outcome : Bool),
    let becomes := fun old : Bool =>
      match op with
      | .set => outcome
      | .and => old && outcome
      | .or => old || outcome
      | .xor => old != outcome
    m.act none outcome = m ∧
    m.act (some (marker, op)) outcome =
      match marker with
      | .m1 => { m with m1 := becomes m.m1 }
      | .m2 => { m with m2 := becomes m.m2 }

/-- An evaluation runs the enabled rules in index order, each with both tests judged on the site figures, the grade
in force and the markers as the rules before it left them, its outcome and its marker effect; the computed grade
is the greatest grade of a rule whose outcome is true, 0 without one, and 4 where fewer than P19 heads are valid;
and it sets the heads-short flag with its notice (R109 to R112, R114, R115). A computed grade above the grade in
force raises it at once and cancels a dwell, with WIND_STOP and the permits at 4 and CLEARDOWN from OPEN at 3;
an equal one cancels the dwell; a lower one begins or updates the dwell, outside settling alone (R116, R117, R120). -/
def Obligations.EvaluationsRaiseAtOnceAndDwellBeforeAFall : Prop :=
  ∀ t s, s.lines.inReset = false →
    let fig := s.siteFigures
    let short := decide (fig.valid < s.p 19)
    let g := s.grader.inForce
    let value : Bool → Bool → Quantity → Option Nat := fun m1 m2 q =>
      match q with
      | .siteGust => some fig.gust
      | .siteSustained => some fig.sustained
      | .gustSpread => some fig.spread
      | .validHeads => some fig.valid
      | .headGust n => some (fig.headGust n)
      | .sector => fig.sector
      | .marker1 => some (if m1 then 1 else 0)
      | .marker2 => some (if m2 then 1 else 0)
      | .gradeInForce => some g.val
    let holds : Bool → Bool → RuleTest → Bool := fun m1 m2 x =>
      match value m1 m2 x.quantity with
      | none => false
      | some v =>
        match x.comparison with
        | .atLeast => decide (x.threshold ≤ v)
        | .below => decide (v < x.threshold)
        | .inSet => decide (v ≤ 7 ∧ x.threshold / 2 ^ v % 2 = 1)
        | .isSet => decide (v ≠ 0)
    let run : Bool × Bool × Grade → RuleEntry → Bool × Bool × Grade := fun (m1, m2, best) r =>
      if r.enabled = false then (m1, m2, best)
      else
        let weight :=
          match holds m1 m2 r.testA, holds m1 m2 r.testB with
          | false, false => 1
          | false, true => 2
          | true, false => 4
          | true, true => 8
        let outcome := decide (r.combination / weight % 2 = 1)
        let best :=
          match r.grade with
          | some grade => if outcome then max best grade else best
          | none => best
        match r.effect with
        | none => (m1, m2, best)
        | some (.m1, .set) => (outcome, m2, best)
        | some (.m1, .and) => (m1 && outcome, m2, best)
        | some (.m1, .or) => (m1 || outcome, m2, best)
        | some (.m1, .xor) => (m1 != outcome, m2, best)
        | some (.m2, .set) => (m1, outcome, best)
        | some (.m2, .and) => (m1, m2 && outcome, best)
        | some (.m2, .or) => (m1, m2 || outcome, best)
        | some (.m2, .xor) => (m1, m2 != outcome, best)
    let computed : Grade := if short then 4 else (s.tables.rules.toList.foldl run (false, false, 0)).2.2
    ∃ u, Completes (.windEvaluation t) s u ∧ u.lines = s.linesAt t ∧
      Untouched [.permits, .service, .grader, .holds, .rot] s u ∧
      u.grader.computed = computed ∧ u.grader.headsShort = short ∧
      u.grader.settling = s.grader.settling ∧
      ((∀ i : Fin 16, (s.tables.rules[i]).enabled = false) → short = false → computed = 0) ∧
      (computed ≤ g → Untouched [.grader] s u ∧ u.grader.inForce = g ∧
        NoticesQueued s u (if s.grader.headsShort = short then [] else [.headsShort fig.valid])) ∧
      (computed = g → u.grader.dwell = none) ∧
      (computed < g → u.grader.dwell =
        match s.grader.settling, s.grader.dwell with
        | some _, d => d
        | none, some d => some { d with highest := max d.highest computed }
        | none, none =>
          let seconds :=
            if g = 1 then s.p 20 else if g = 2 then s.p 21 else if g = 3 then s.p 22 else s.p 23
          some { start := max s.lines.now t, grade := g, length := 1000 * seconds, highest := computed }) ∧
      (g < computed → u.grader.inForce = computed ∧ u.grader.dwell = none ∧
        (computed = 4 → u.holdsKey .windStop = true ∧ ∀ z, u.permits.get z = .clear) ∧
        (computed ≠ 4 → u.holds = s.holds) ∧
        (s.service.mode = .opened → 3 ≤ computed.val →
          u.service.mode = .clearDown ∨ u.service.mode = .cleared) ∧
        (¬(s.service.mode = .opened ∧ 3 ≤ computed.val) → u.service = s.service))

/-- The site figures of R103 over the valid heads: their count, the greatest gust and sustained figure, the
spread, each head's gust, and the sector of the lowest-numbered head of the greatest gust. -/
def Obligations.SiteFiguresAreOfTheValidHeads : Prop :=
  ∀ s : State,
    let fig := s.siteFigures
    let valid := fun n : Fin 4 => (s.headEntry n).enabled = true ∧ (s.head n).fresh = true ∧
      12 ≤ (s.head n).entered
    fig.valid = ((List.finRange 4).filter (fun n => (s.headEntry n).enabled && (s.head n).fresh &&
      decide (12 ≤ (s.head n).entered))).length ∧ fig.valid ≤ 4 ∧
    (∀ n, valid n → (s.head n).gust ≤ fig.gust ∧ (s.head n).sustained ≤ fig.sustained ∧
      fig.gust ≤ fig.spread + (s.head n).gust) ∧
    ((∀ n, ¬ valid n) → fig.gust = 0 ∧ fig.sustained = 0 ∧ fig.spread = 0 ∧ fig.sector = none) ∧
    ((∃ n, valid n) → (∃ n, valid n ∧ fig.gust = (s.head n).gust) ∧
      (∃ n, valid n ∧ fig.sustained = (s.head n).sustained) ∧
      (∃ n, valid n ∧ fig.gust = fig.spread + (s.head n).gust) ∧
      ∃ n, valid n ∧ fig.gust = (s.head n).gust ∧ fig.sector = (s.head n).sector ∧
        ∀ m, m < n → valid m → (s.head m).gust < fig.gust) ∧
    ∀ n, (valid n → fig.headGust n = (s.head n).gust) ∧ (¬ valid n → fig.headGust n = 0)

/-- A dwell whose time has come lowers the grade in force to its highest computed grade and ends, and a fall
from 4 clears WIND_STOP; settling whose time has come ends and changes nothing else (R118, R119, R120). An
encoder head, a door, a wind head and a drive older than P15, P16, P18 and P17 are believed no longer: the
head keeps its latest position and counts; the door becomes UNKNOWN with a DOOR_STALE notice, its record
otherwise stands, and its zone is tested for ZONE_OVERRUN (R42, R70); the wind head restarts; the drive is not
ready, and a stopping wheel now at rest enters its destination (R27, R102, R149, R161). The model's readings are
that before its time each of these changes nothing (log 14), and that the wind head's restart leaves the
accumulator's number as it stands, uninitialized (log 16). Nothing is said here of an overdue event of a record
that is already not believed, nor of the GRADE_CHANGED notice of a fall. -/
def Obligations.ExpiriesAndLapsesActAtTheirTime : Prop :=
  (∀ t s, s.lines.inReset = false →
     let now := max s.lines.now t
     (∀ d, s.grader.dwell = some d → d.start + d.length ≤ now → d.highest < s.grader.inForce →
       ∃ u, Completes (.dwellExpiry t) s u ∧ u.lines = s.linesAt t ∧
         u.grader = { s.grader with inForce := d.highest, dwell := none } ∧
         Untouched [.service, .permits, .grader, .holds, .rot] s u ∧
         (s.grader.inForce = 4 → u.holdsKey .windStop = false) ∧
         (s.grader.inForce ≠ 4 → u.holds = s.holds) ∧
         (s.service.mode ≠ .opened ∨ d.highest.val < 3 →
           u.service = s.service ∧ u.permits = s.permits)) ∧
     ((∀ d, s.grader.dwell = some d → now < d.start + d.length) → OnlyTime (.dwellExpiry t) t s) ∧
     (∀ e, s.grader.settling = some e → e ≤ now →
       ∃ u, Completes (.settlingEnd t) s u ∧ u.lines = s.linesAt t ∧ u.ring = s.ring ∧
         Untouched [.grader] s u ∧ u.grader = { s.grader with settling := none }) ∧
     ((∀ e, s.grader.settling = some e → now < e) → OnlyTime (.settlingEnd t) t s)) ∧
  (∀ t s, s.lines.inReset = false →
     let older : Option Nat → Nat → Prop := fun taken limit =>
       ∃ m, taken = some m ∧ limit < max s.lines.now t - m
     (∀ e, older (s.tracker.head e).taken (s.p 15) → (s.tracker.head e).fresh = true →
       ∃ u, Completes (.encoderLapse t e) s u ∧ u.lines = s.linesAt t ∧
         Untouched [.tracker, .cabins, .permits, .service, .holds, .rot] s u ∧
         u.tracker.head e = { s.tracker.head e with fresh := false } ∧
         (∀ h, h ≠ e → u.tracker.head h = s.tracker.head h) ∧
         u.tracker.disagreements = s.tracker.disagreements ∧ u.tracker.latch = s.tracker.latch ∧
         ((∀ h, h ≠ e → (s.tracker.head h).fresh = false) →
           u.tracker.accepted = .invalid ∧ u.holdsKey .positionLost = true)) ∧
     (∀ k, older (s.cabin k).lastReport (s.p 16) → (s.cabin k).door ≠ .unknown →
       ∃ u, Completes (.staleEvent t k) s u ∧ u.lines = s.linesAt t ∧
         Untouched [.cabins, .holds, .rot] s u ∧
         u.cabin k = { s.cabin k with door := .unknown } ∧ (∀ j, j ≠ k → u.cabin j = s.cabin j) ∧
         let raised : Option Zone :=
           match (s.cabin k).location with
           | some z =>
             if s.occ z = { occupant := some k, past := true } ∧ s.holdsKey (.zoneOverrun z) = false then
               some z
             else none
           | none => none
         let rest := decide (s.rot.vCmd = 0 ∧ ∀ n, (s.drive n).fresh = true → (s.drive n).speed ≤ 16)
         match raised with
         | none => u.holds = s.holds ∧ u.rot = s.rot ∧ NoticesQueued s u [.doorStale k]
         | some z =>
           u.holds =
             { s.holds with
               records := s.holds.records ++
                 [{ what := .zoneOverrun z k, raised := max s.lines.now t, acked := false }] } ∧
           if s.rot.wheel = .running then
             u.rot =
               { s.rot with wheel := if rest then .held else .stopping .held, stopPending := false } ∧
             NoticesQueued s u
               ([.doorStale k, .holdRaised (.zoneOverrun z k), .stateChanged (.stopping .held)] ++
                 if rest then [.stateChanged .held] else [])
           else
             u.rot = s.rot ∧ NoticesQueued s u [.doorStale k, .holdRaised (.zoneOverrun z k)]) ∧
     (∀ n, older (s.head n).lastSample (s.p 18) → (s.head n).fresh = true →
       ∃ u, Completes (.headLapse t n) s u ∧ u.lines = s.linesAt t ∧ u.ring = s.ring ∧
         Untouched [.heads] s u ∧ (∀ m, m ≠ n → u.head m = s.head m) ∧
         u.head n =
           { health := (s.head n).health, lastSample := (s.head n).lastSample, fresh := false, ring := []
             entered := 0, acc := (s.head n).acc, initialized := false, sector := none, gust := 0
             sustained := 0 }) ∧
     (∀ n, older (s.drive n).lastReport (s.p 17) → (s.drive n).fresh = true →
       ∃ u, Completes (.driveLapse t n) s u ∧ u.lines = s.linesAt t ∧
         Untouched [.drives, .holds, .rot] s u ∧ (∀ m, m ≠ n → u.drive m = s.drive m) ∧
         u.drive n = { s.drive n with fresh := false, ready := false } ∧
         (2 ≤ s.readyCount → u.readyCount < 2 → u.holdsKey .drivesLost = true) ∧
         u.rot.vCmd = s.rot.vCmd ∧ u.rot.vLim = s.rot.vLim ∧
         let rest := decide (s.rot.vCmd = 0 ∧ ∀ m, (u.drive m).fresh = true → (u.drive m).speed ≤ 16)
         u.rot.wheel =
           match s.rot.wheel with
           | .stopping d => if rest then d.rest else .stopping d
           | .running =>
             if 2 ≤ s.readyCount ∧ u.readyCount < 2 ∧ s.holdsKey .drivesLost = false then
               if rest then .held else .stopping .held
             else .running
           | w => w) ∧
     (∀ e, ¬ older (s.tracker.head e).taken (s.p 15) → OnlyTime (.encoderLapse t e) t s) ∧
     (∀ k, ¬ older (s.cabin k).lastReport (s.p 16) → OnlyTime (.staleEvent t k) t s) ∧
     (∀ n, ¬ older (s.head n).lastSample (s.p 18) → OnlyTime (.headLapse t n) t s) ∧
     ∀ n, ¬ older (s.drive n).lastReport (s.p 17) → OnlyTime (.driveLapse t n) t s)

/-! ### The laws that every step keeps -/

/-- Every step keeps the capacities of the buffer and queues, at most one ALL_STOP in the drive set, and an
idle ring-out with nothing waiting (R17, R19 to R23). -/
def Obligations.StepsKeepTheQueueLaw : Prop := Kept QueueLaw

/-- Every step keeps the hold list's law: one record of each kind and zone, at most 10, breach lists without
repeats (R123, R125, R126). -/
def Obligations.StepsKeepTheHoldLaw : Prop := Kept HoldLaw

/-- Every step keeps the wheel's law: STOP pending just in STOPPING(STANDBY), no holds in RUNNING, V_cmd 0 at
rest, the service CLOSED in STOWED (R139, R140, R147, R156). -/
def Obligations.StepsKeepTheWheelLaw : Prop := Kept WheelLaw

/-- Every step keeps the grade in force at or above the computed grade, 4 just while WIND_STOP stands, and
below 3 in OPEN (R79, R120). -/
def Obligations.StepsKeepTheGradeLaw : Prop := Kept GradeLaw

/-- Every step keeps each drive's ready field as derived, with DRIVES_LOST standing just while fewer than two
drives are ready (R162, R163); and it keeps the wind head records in their ranges, and empty while not fresh
or disabled (R95, R96, R97). -/
def Obligations.StepsKeepTheDriveAndHeadLaws : Prop :=
  (Kept DriveLaw) ∧
  (Kept HeadLaw)

/-- Every step keeps ROSTER, PASS, CABINS, ZONES, PARAMETERS, HEADS and RULES in the ranges their rules give (R5,
R7, R39, R55, R56, R93, R107, R176). -/
def Obligations.StepsKeepTheTablesInRange : Prop := Kept TableLaw

/-- With the zones in their ranges, every step keeps the tracker's law: the accepted position as R29 forms
it, the occupancy records of that position, and each cabin's location the zone it occupies (R29, R32 to R37,
R44). -/
def Obligations.StepsKeepTheTrackLaw : Prop := Kept (fun s => ZonesLaw s ∧ TrackLaw s)

/-- Every step keeps each permit CLEAR or bound to the cabin in its zone (R57), and the door cycles: IDLE
outside the zones, a release time just as R45 gives it, and CYCLING never LOCKED (R45, R70). -/
def Obligations.StepsKeepThePermitAndCycleLaws : Prop :=
  Kept (fun s => ZonesLaw s ∧ TrackLaw s ∧ PermitLaw s ∧ CycleLaw s)

/-- Every step keeps every cabin outside the zones with a door reported not locked in the DOOR_BREACH record,
while the position is valid (R50). -/
def Obligations.StepsKeepTheBreachLaw : Prop := Kept (fun s => HoldLaw s ∧ BreachLaw s)

/-- Every step keeps the clear-down list without repeats, empty outside CLEARDOWN and holding every occupied
cabin in it (R85, R91). -/
def Obligations.StepsKeepTheClearDownLaw : Prop := Kept ClearDownLaw

/-- The state after reset meets every law above. -/
def Obligations.ResetMeetsEveryLaw : Prop :=
  QueueLaw .reset ∧ HoldLaw .reset ∧ WheelLaw .reset ∧ GradeLaw .reset ∧ DriveLaw .reset ∧
    TableLaw .reset ∧ HeadLaw .reset ∧ ZonesLaw .reset ∧ TrackLaw .reset ∧ PermitLaw .reset ∧
    CycleLaw .reset ∧ BreachLaw .reset ∧ ClearDownLaw .reset
end

