-- ==== Sys2Proof/Laws/State.lean ====
section
/-! SUPPORT. Reading a block of the state after a block was replaced: one lemma for each pair. -/

namespace Sys2Proof.Machine

variable (s : State)

@[simp] theorem State.setPending_pending (x : List Instr) : (s.setPending x).pending = x := rfl
@[simp] theorem State.setPending_lines (x : List Instr) : (s.setPending x).lines = s.lines := rfl
@[simp] theorem State.setPending_tables (x : List Instr) : (s.setPending x).tables = s.tables := rfl
@[simp] theorem State.setPending_ring (x : List Instr) : (s.setPending x).ring = s.ring := rfl
@[simp] theorem State.setPending_tracker (x : List Instr) : (s.setPending x).tracker = s.tracker := rfl
@[simp] theorem State.setPending_cabins (x : List Instr) : (s.setPending x).cabins = s.cabins := rfl
@[simp] theorem State.setPending_permits (x : List Instr) : (s.setPending x).permits = s.permits := rfl
@[simp] theorem State.setPending_service (x : List Instr) : (s.setPending x).service = s.service := rfl
@[simp] theorem State.setPending_heads (x : List Instr) : (s.setPending x).heads = s.heads := rfl
@[simp] theorem State.setPending_grader (x : List Instr) : (s.setPending x).grader = s.grader := rfl
@[simp] theorem State.setPending_holds (x : List Instr) : (s.setPending x).holds = s.holds := rfl
@[simp] theorem State.setPending_rot (x : List Instr) : (s.setPending x).rot = s.rot := rfl
@[simp] theorem State.setPending_drives (x : List Instr) : (s.setPending x).drives = s.drives := rfl

@[simp] theorem State.setLines_pending (x : Lines) : (s.setLines x).pending = s.pending := rfl
@[simp] theorem State.setLines_lines (x : Lines) : (s.setLines x).lines = x := rfl
@[simp] theorem State.setLines_tables (x : Lines) : (s.setLines x).tables = s.tables := rfl
@[simp] theorem State.setLines_ring (x : Lines) : (s.setLines x).ring = s.ring := rfl
@[simp] theorem State.setLines_tracker (x : Lines) : (s.setLines x).tracker = s.tracker := rfl
@[simp] theorem State.setLines_cabins (x : Lines) : (s.setLines x).cabins = s.cabins := rfl
@[simp] theorem State.setLines_permits (x : Lines) : (s.setLines x).permits = s.permits := rfl
@[simp] theorem State.setLines_service (x : Lines) : (s.setLines x).service = s.service := rfl
@[simp] theorem State.setLines_heads (x : Lines) : (s.setLines x).heads = s.heads := rfl
@[simp] theorem State.setLines_grader (x : Lines) : (s.setLines x).grader = s.grader := rfl
@[simp] theorem State.setLines_holds (x : Lines) : (s.setLines x).holds = s.holds := rfl
@[simp] theorem State.setLines_rot (x : Lines) : (s.setLines x).rot = s.rot := rfl
@[simp] theorem State.setLines_drives (x : Lines) : (s.setLines x).drives = s.drives := rfl

@[simp] theorem State.setTables_pending (x : Tables) : (s.setTables x).pending = s.pending := rfl
@[simp] theorem State.setTables_lines (x : Tables) : (s.setTables x).lines = s.lines := rfl
@[simp] theorem State.setTables_tables (x : Tables) : (s.setTables x).tables = x := rfl
@[simp] theorem State.setTables_ring (x : Tables) : (s.setTables x).ring = s.ring := rfl
@[simp] theorem State.setTables_tracker (x : Tables) : (s.setTables x).tracker = s.tracker := rfl
@[simp] theorem State.setTables_cabins (x : Tables) : (s.setTables x).cabins = s.cabins := rfl
@[simp] theorem State.setTables_permits (x : Tables) : (s.setTables x).permits = s.permits := rfl
@[simp] theorem State.setTables_service (x : Tables) : (s.setTables x).service = s.service := rfl
@[simp] theorem State.setTables_heads (x : Tables) : (s.setTables x).heads = s.heads := rfl
@[simp] theorem State.setTables_grader (x : Tables) : (s.setTables x).grader = s.grader := rfl
@[simp] theorem State.setTables_holds (x : Tables) : (s.setTables x).holds = s.holds := rfl
@[simp] theorem State.setTables_rot (x : Tables) : (s.setTables x).rot = s.rot := rfl
@[simp] theorem State.setTables_drives (x : Tables) : (s.setTables x).drives = s.drives := rfl

@[simp] theorem State.setRing_pending (x : Ring) : (s.setRing x).pending = s.pending := rfl
@[simp] theorem State.setRing_lines (x : Ring) : (s.setRing x).lines = s.lines := rfl
@[simp] theorem State.setRing_tables (x : Ring) : (s.setRing x).tables = s.tables := rfl
@[simp] theorem State.setRing_ring (x : Ring) : (s.setRing x).ring = x := rfl
@[simp] theorem State.setRing_tracker (x : Ring) : (s.setRing x).tracker = s.tracker := rfl
@[simp] theorem State.setRing_cabins (x : Ring) : (s.setRing x).cabins = s.cabins := rfl
@[simp] theorem State.setRing_permits (x : Ring) : (s.setRing x).permits = s.permits := rfl
@[simp] theorem State.setRing_service (x : Ring) : (s.setRing x).service = s.service := rfl
@[simp] theorem State.setRing_heads (x : Ring) : (s.setRing x).heads = s.heads := rfl
@[simp] theorem State.setRing_grader (x : Ring) : (s.setRing x).grader = s.grader := rfl
@[simp] theorem State.setRing_holds (x : Ring) : (s.setRing x).holds = s.holds := rfl
@[simp] theorem State.setRing_rot (x : Ring) : (s.setRing x).rot = s.rot := rfl
@[simp] theorem State.setRing_drives (x : Ring) : (s.setRing x).drives = s.drives := rfl

@[simp] theorem State.setTracker_pending (x : Tracker) : (s.setTracker x).pending = s.pending := rfl
@[simp] theorem State.setTracker_lines (x : Tracker) : (s.setTracker x).lines = s.lines := rfl
@[simp] theorem State.setTracker_tables (x : Tracker) : (s.setTracker x).tables = s.tables := rfl
@[simp] theorem State.setTracker_ring (x : Tracker) : (s.setTracker x).ring = s.ring := rfl
@[simp] theorem State.setTracker_tracker (x : Tracker) : (s.setTracker x).tracker = x := rfl
@[simp] theorem State.setTracker_cabins (x : Tracker) : (s.setTracker x).cabins = s.cabins := rfl
@[simp] theorem State.setTracker_permits (x : Tracker) : (s.setTracker x).permits = s.permits := rfl
@[simp] theorem State.setTracker_service (x : Tracker) : (s.setTracker x).service = s.service := rfl
@[simp] theorem State.setTracker_heads (x : Tracker) : (s.setTracker x).heads = s.heads := rfl
@[simp] theorem State.setTracker_grader (x : Tracker) : (s.setTracker x).grader = s.grader := rfl
@[simp] theorem State.setTracker_holds (x : Tracker) : (s.setTracker x).holds = s.holds := rfl
@[simp] theorem State.setTracker_rot (x : Tracker) : (s.setTracker x).rot = s.rot := rfl
@[simp] theorem State.setTracker_drives (x : Tracker) : (s.setTracker x).drives = s.drives := rfl

@[simp] theorem State.setCabins_pending (x : Vector CabinRecord 48) : (s.setCabins x).pending = s.pending := rfl
@[simp] theorem State.setCabins_lines (x : Vector CabinRecord 48) : (s.setCabins x).lines = s.lines := rfl
@[simp] theorem State.setCabins_tables (x : Vector CabinRecord 48) : (s.setCabins x).tables = s.tables := rfl
@[simp] theorem State.setCabins_ring (x : Vector CabinRecord 48) : (s.setCabins x).ring = s.ring := rfl
@[simp] theorem State.setCabins_tracker (x : Vector CabinRecord 48) : (s.setCabins x).tracker = s.tracker := rfl
@[simp] theorem State.setCabins_cabins (x : Vector CabinRecord 48) : (s.setCabins x).cabins = x := rfl
@[simp] theorem State.setCabins_permits (x : Vector CabinRecord 48) : (s.setCabins x).permits = s.permits := rfl
@[simp] theorem State.setCabins_service (x : Vector CabinRecord 48) : (s.setCabins x).service = s.service := rfl
@[simp] theorem State.setCabins_heads (x : Vector CabinRecord 48) : (s.setCabins x).heads = s.heads := rfl
@[simp] theorem State.setCabins_grader (x : Vector CabinRecord 48) : (s.setCabins x).grader = s.grader := rfl
@[simp] theorem State.setCabins_holds (x : Vector CabinRecord 48) : (s.setCabins x).holds = s.holds := rfl
@[simp] theorem State.setCabins_rot (x : Vector CabinRecord 48) : (s.setCabins x).rot = s.rot := rfl
@[simp] theorem State.setCabins_drives (x : Vector CabinRecord 48) : (s.setCabins x).drives = s.drives := rfl

@[simp] theorem State.setPermits_pending (x : ByZone Permit) : (s.setPermits x).pending = s.pending := rfl
@[simp] theorem State.setPermits_lines (x : ByZone Permit) : (s.setPermits x).lines = s.lines := rfl
@[simp] theorem State.setPermits_tables (x : ByZone Permit) : (s.setPermits x).tables = s.tables := rfl
@[simp] theorem State.setPermits_ring (x : ByZone Permit) : (s.setPermits x).ring = s.ring := rfl
@[simp] theorem State.setPermits_tracker (x : ByZone Permit) : (s.setPermits x).tracker = s.tracker := rfl
@[simp] theorem State.setPermits_cabins (x : ByZone Permit) : (s.setPermits x).cabins = s.cabins := rfl
@[simp] theorem State.setPermits_permits (x : ByZone Permit) : (s.setPermits x).permits = x := rfl
@[simp] theorem State.setPermits_service (x : ByZone Permit) : (s.setPermits x).service = s.service := rfl
@[simp] theorem State.setPermits_heads (x : ByZone Permit) : (s.setPermits x).heads = s.heads := rfl
@[simp] theorem State.setPermits_grader (x : ByZone Permit) : (s.setPermits x).grader = s.grader := rfl
@[simp] theorem State.setPermits_holds (x : ByZone Permit) : (s.setPermits x).holds = s.holds := rfl
@[simp] theorem State.setPermits_rot (x : ByZone Permit) : (s.setPermits x).rot = s.rot := rfl
@[simp] theorem State.setPermits_drives (x : ByZone Permit) : (s.setPermits x).drives = s.drives := rfl

@[simp] theorem State.setService_pending (x : Service) : (s.setService x).pending = s.pending := rfl
@[simp] theorem State.setService_lines (x : Service) : (s.setService x).lines = s.lines := rfl
@[simp] theorem State.setService_tables (x : Service) : (s.setService x).tables = s.tables := rfl
@[simp] theorem State.setService_ring (x : Service) : (s.setService x).ring = s.ring := rfl
@[simp] theorem State.setService_tracker (x : Service) : (s.setService x).tracker = s.tracker := rfl
@[simp] theorem State.setService_cabins (x : Service) : (s.setService x).cabins = s.cabins := rfl
@[simp] theorem State.setService_permits (x : Service) : (s.setService x).permits = s.permits := rfl
@[simp] theorem State.setService_service (x : Service) : (s.setService x).service = x := rfl
@[simp] theorem State.setService_heads (x : Service) : (s.setService x).heads = s.heads := rfl
@[simp] theorem State.setService_grader (x : Service) : (s.setService x).grader = s.grader := rfl
@[simp] theorem State.setService_holds (x : Service) : (s.setService x).holds = s.holds := rfl
@[simp] theorem State.setService_rot (x : Service) : (s.setService x).rot = s.rot := rfl
@[simp] theorem State.setService_drives (x : Service) : (s.setService x).drives = s.drives := rfl

@[simp] theorem State.setHeads_pending (x : Vector Head 4) : (s.setHeads x).pending = s.pending := rfl
@[simp] theorem State.setHeads_lines (x : Vector Head 4) : (s.setHeads x).lines = s.lines := rfl
@[simp] theorem State.setHeads_tables (x : Vector Head 4) : (s.setHeads x).tables = s.tables := rfl
@[simp] theorem State.setHeads_ring (x : Vector Head 4) : (s.setHeads x).ring = s.ring := rfl
@[simp] theorem State.setHeads_tracker (x : Vector Head 4) : (s.setHeads x).tracker = s.tracker := rfl
@[simp] theorem State.setHeads_cabins (x : Vector Head 4) : (s.setHeads x).cabins = s.cabins := rfl
@[simp] theorem State.setHeads_permits (x : Vector Head 4) : (s.setHeads x).permits = s.permits := rfl
@[simp] theorem State.setHeads_service (x : Vector Head 4) : (s.setHeads x).service = s.service := rfl
@[simp] theorem State.setHeads_heads (x : Vector Head 4) : (s.setHeads x).heads = x := rfl
@[simp] theorem State.setHeads_grader (x : Vector Head 4) : (s.setHeads x).grader = s.grader := rfl
@[simp] theorem State.setHeads_holds (x : Vector Head 4) : (s.setHeads x).holds = s.holds := rfl
@[simp] theorem State.setHeads_rot (x : Vector Head 4) : (s.setHeads x).rot = s.rot := rfl
@[simp] theorem State.setHeads_drives (x : Vector Head 4) : (s.setHeads x).drives = s.drives := rfl

@[simp] theorem State.setGrader_pending (x : Grader) : (s.setGrader x).pending = s.pending := rfl
@[simp] theorem State.setGrader_lines (x : Grader) : (s.setGrader x).lines = s.lines := rfl
@[simp] theorem State.setGrader_tables (x : Grader) : (s.setGrader x).tables = s.tables := rfl
@[simp] theorem State.setGrader_ring (x : Grader) : (s.setGrader x).ring = s.ring := rfl
@[simp] theorem State.setGrader_tracker (x : Grader) : (s.setGrader x).tracker = s.tracker := rfl
@[simp] theorem State.setGrader_cabins (x : Grader) : (s.setGrader x).cabins = s.cabins := rfl
@[simp] theorem State.setGrader_permits (x : Grader) : (s.setGrader x).permits = s.permits := rfl
@[simp] theorem State.setGrader_service (x : Grader) : (s.setGrader x).service = s.service := rfl
@[simp] theorem State.setGrader_heads (x : Grader) : (s.setGrader x).heads = s.heads := rfl
@[simp] theorem State.setGrader_grader (x : Grader) : (s.setGrader x).grader = x := rfl
@[simp] theorem State.setGrader_holds (x : Grader) : (s.setGrader x).holds = s.holds := rfl
@[simp] theorem State.setGrader_rot (x : Grader) : (s.setGrader x).rot = s.rot := rfl
@[simp] theorem State.setGrader_drives (x : Grader) : (s.setGrader x).drives = s.drives := rfl

@[simp] theorem State.setHolds_pending (x : Holds) : (s.setHolds x).pending = s.pending := rfl
@[simp] theorem State.setHolds_lines (x : Holds) : (s.setHolds x).lines = s.lines := rfl
@[simp] theorem State.setHolds_tables (x : Holds) : (s.setHolds x).tables = s.tables := rfl
@[simp] theorem State.setHolds_ring (x : Holds) : (s.setHolds x).ring = s.ring := rfl
@[simp] theorem State.setHolds_tracker (x : Holds) : (s.setHolds x).tracker = s.tracker := rfl
@[simp] theorem State.setHolds_cabins (x : Holds) : (s.setHolds x).cabins = s.cabins := rfl
@[simp] theorem State.setHolds_permits (x : Holds) : (s.setHolds x).permits = s.permits := rfl
@[simp] theorem State.setHolds_service (x : Holds) : (s.setHolds x).service = s.service := rfl
@[simp] theorem State.setHolds_heads (x : Holds) : (s.setHolds x).heads = s.heads := rfl
@[simp] theorem State.setHolds_grader (x : Holds) : (s.setHolds x).grader = s.grader := rfl
@[simp] theorem State.setHolds_holds (x : Holds) : (s.setHolds x).holds = x := rfl
@[simp] theorem State.setHolds_rot (x : Holds) : (s.setHolds x).rot = s.rot := rfl
@[simp] theorem State.setHolds_drives (x : Holds) : (s.setHolds x).drives = s.drives := rfl

@[simp] theorem State.setRot_pending (x : Rotation) : (s.setRot x).pending = s.pending := rfl
@[simp] theorem State.setRot_lines (x : Rotation) : (s.setRot x).lines = s.lines := rfl
@[simp] theorem State.setRot_tables (x : Rotation) : (s.setRot x).tables = s.tables := rfl
@[simp] theorem State.setRot_ring (x : Rotation) : (s.setRot x).ring = s.ring := rfl
@[simp] theorem State.setRot_tracker (x : Rotation) : (s.setRot x).tracker = s.tracker := rfl
@[simp] theorem State.setRot_cabins (x : Rotation) : (s.setRot x).cabins = s.cabins := rfl
@[simp] theorem State.setRot_permits (x : Rotation) : (s.setRot x).permits = s.permits := rfl
@[simp] theorem State.setRot_service (x : Rotation) : (s.setRot x).service = s.service := rfl
@[simp] theorem State.setRot_heads (x : Rotation) : (s.setRot x).heads = s.heads := rfl
@[simp] theorem State.setRot_grader (x : Rotation) : (s.setRot x).grader = s.grader := rfl
@[simp] theorem State.setRot_holds (x : Rotation) : (s.setRot x).holds = s.holds := rfl
@[simp] theorem State.setRot_rot (x : Rotation) : (s.setRot x).rot = x := rfl
@[simp] theorem State.setRot_drives (x : Rotation) : (s.setRot x).drives = s.drives := rfl

@[simp] theorem State.setDrives_pending (x : Vector Drive 4) : (s.setDrives x).pending = s.pending := rfl
@[simp] theorem State.setDrives_lines (x : Vector Drive 4) : (s.setDrives x).lines = s.lines := rfl
@[simp] theorem State.setDrives_tables (x : Vector Drive 4) : (s.setDrives x).tables = s.tables := rfl
@[simp] theorem State.setDrives_ring (x : Vector Drive 4) : (s.setDrives x).ring = s.ring := rfl
@[simp] theorem State.setDrives_tracker (x : Vector Drive 4) : (s.setDrives x).tracker = s.tracker := rfl
@[simp] theorem State.setDrives_cabins (x : Vector Drive 4) : (s.setDrives x).cabins = s.cabins := rfl
@[simp] theorem State.setDrives_permits (x : Vector Drive 4) : (s.setDrives x).permits = s.permits := rfl
@[simp] theorem State.setDrives_service (x : Vector Drive 4) : (s.setDrives x).service = s.service := rfl
@[simp] theorem State.setDrives_heads (x : Vector Drive 4) : (s.setDrives x).heads = s.heads := rfl
@[simp] theorem State.setDrives_grader (x : Vector Drive 4) : (s.setDrives x).grader = s.grader := rfl
@[simp] theorem State.setDrives_holds (x : Vector Drive 4) : (s.setDrives x).holds = s.holds := rfl
@[simp] theorem State.setDrives_rot (x : Vector Drive 4) : (s.setDrives x).rot = s.rot := rfl
@[simp] theorem State.setDrives_drives (x : Vector Drive 4) : (s.setDrives x).drives = x := rfl

end Sys2Proof.Machine
end

