-- ==== Sys2Proof/Laws/Frames.lean ====
section
/-! SUPPORT. Which blocks the shared operations on the ring interface, the wheel, the hold list and the gate leave as they are: one lemma for each operation. -/

namespace Sys2Proof.Machine

variable (s : State)

/-- What each act of a list leaves as it was, the whole list leaves as it was. -/
theorem State.forEach_keeps {α β : Type} (view : State → β) {f : α → State → State}
    (h : ∀ x s, view (f x s) = view s) (xs : List α) : view (s.forEach xs f) = view s := by
  unfold State.forEach
  induction xs generalizing s with
  | nil => rfl
  | cons x xs ih => exact (ih (f x s)).trans (h x s)

@[simp] theorem notify_frame (n : Notice) :
    (notify n s).pending = s.pending ∧ (notify n s).lines = s.lines ∧
    (notify n s).tables = s.tables ∧ (notify n s).tracker = s.tracker ∧
    (notify n s).cabins = s.cabins ∧ (notify n s).permits = s.permits ∧
    (notify n s).service = s.service ∧ (notify n s).heads = s.heads ∧
    (notify n s).grader = s.grader ∧ (notify n s).holds = s.holds ∧ (notify n s).rot = s.rot ∧
    (notify n s).drives = s.drives := by
  dsimp only [notify]; repeat' split
  all_goals simp

@[simp] theorem pushForward_frame (f : Frame) :
    (pushForward f s).pending = s.pending ∧ (pushForward f s).lines = s.lines ∧
    (pushForward f s).tables = s.tables ∧ (pushForward f s).tracker = s.tracker ∧
    (pushForward f s).cabins = s.cabins ∧ (pushForward f s).permits = s.permits ∧
    (pushForward f s).service = s.service ∧ (pushForward f s).heads = s.heads ∧
    (pushForward f s).grader = s.grader ∧ (pushForward f s).holds = s.holds ∧
    (pushForward f s).rot = s.rot ∧ (pushForward f s).drives = s.drives := by
  dsimp only [pushForward]; split <;> simp

@[simp] theorem pushDoor_frame (i : DoorItem) :
    (pushDoor i s).pending = s.pending ∧ (pushDoor i s).lines = s.lines ∧
    (pushDoor i s).tables = s.tables ∧ (pushDoor i s).tracker = s.tracker ∧
    (pushDoor i s).cabins = s.cabins ∧ (pushDoor i s).permits = s.permits ∧
    (pushDoor i s).service = s.service ∧ (pushDoor i s).heads = s.heads ∧
    (pushDoor i s).grader = s.grader ∧ (pushDoor i s).holds = s.holds ∧
    (pushDoor i s).rot = s.rot ∧ (pushDoor i s).drives = s.drives := by
  simp [pushDoor]

@[simp] theorem pushResponse_frame (dest tag kind : Byte) (r : Reply) :
    (pushResponse dest tag kind r s).pending = s.pending ∧
    (pushResponse dest tag kind r s).lines = s.lines ∧
    (pushResponse dest tag kind r s).tables = s.tables ∧
    (pushResponse dest tag kind r s).tracker = s.tracker ∧
    (pushResponse dest tag kind r s).cabins = s.cabins ∧
    (pushResponse dest tag kind r s).permits = s.permits ∧
    (pushResponse dest tag kind r s).service = s.service ∧
    (pushResponse dest tag kind r s).heads = s.heads ∧
    (pushResponse dest tag kind r s).grader = s.grader ∧
    (pushResponse dest tag kind r s).holds = s.holds ∧
    (pushResponse dest tag kind r s).rot = s.rot ∧
    (pushResponse dest tag kind r s).drives = s.drives := by
  simp [pushResponse]

@[simp] theorem queueDriveSet_frame (v : Nat) (brake emergency : Bool) :
    (queueDriveSet v brake emergency s).pending = s.pending ∧
    (queueDriveSet v brake emergency s).lines = s.lines ∧
    (queueDriveSet v brake emergency s).tables = s.tables ∧
    (queueDriveSet v brake emergency s).tracker = s.tracker ∧
    (queueDriveSet v brake emergency s).cabins = s.cabins ∧
    (queueDriveSet v brake emergency s).permits = s.permits ∧
    (queueDriveSet v brake emergency s).service = s.service ∧
    (queueDriveSet v brake emergency s).heads = s.heads ∧
    (queueDriveSet v brake emergency s).grader = s.grader ∧
    (queueDriveSet v brake emergency s).holds = s.holds ∧
    (queueDriveSet v brake emergency s).rot = s.rot ∧
    (queueDriveSet v brake emergency s).drives = s.drives := by
  simp [queueDriveSet]

@[simp] theorem State.setCabin_frame (k : Cabin) (c : CabinRecord) :
    (s.setCabin k c).pending = s.pending ∧ (s.setCabin k c).lines = s.lines ∧
    (s.setCabin k c).tables = s.tables ∧ (s.setCabin k c).ring = s.ring ∧
    (s.setCabin k c).tracker = s.tracker ∧ (s.setCabin k c).permits = s.permits ∧
    (s.setCabin k c).service = s.service ∧ (s.setCabin k c).heads = s.heads ∧
    (s.setCabin k c).grader = s.grader ∧ (s.setCabin k c).holds = s.holds ∧
    (s.setCabin k c).rot = s.rot ∧ (s.setCabin k c).drives = s.drives := by
  simp [State.setCabin]

@[simp] theorem State.setHead_frame (n : Fin 4) (h : Head) :
    (s.setHead n h).pending = s.pending ∧ (s.setHead n h).lines = s.lines ∧
    (s.setHead n h).tables = s.tables ∧ (s.setHead n h).ring = s.ring ∧
    (s.setHead n h).tracker = s.tracker ∧ (s.setHead n h).cabins = s.cabins ∧
    (s.setHead n h).permits = s.permits ∧ (s.setHead n h).service = s.service ∧
    (s.setHead n h).grader = s.grader ∧ (s.setHead n h).holds = s.holds ∧
    (s.setHead n h).rot = s.rot ∧ (s.setHead n h).drives = s.drives := by
  simp [State.setHead]

@[simp] theorem State.setDrive_frame (n : Fin 4) (d : Drive) :
    (s.setDrive n d).pending = s.pending ∧ (s.setDrive n d).lines = s.lines ∧
    (s.setDrive n d).tables = s.tables ∧ (s.setDrive n d).ring = s.ring ∧
    (s.setDrive n d).tracker = s.tracker ∧ (s.setDrive n d).cabins = s.cabins ∧
    (s.setDrive n d).permits = s.permits ∧ (s.setDrive n d).service = s.service ∧
    (s.setDrive n d).heads = s.heads ∧ (s.setDrive n d).grader = s.grader ∧
    (s.setDrive n d).holds = s.holds ∧ (s.setDrive n d).rot = s.rot := by
  simp [State.setDrive]

@[simp] theorem State.advance_frame (t : Nat) :
    (s.advance t).pending = s.pending ∧ (s.advance t).tables = s.tables ∧
    (s.advance t).ring = s.ring ∧ (s.advance t).tracker = s.tracker ∧
    (s.advance t).cabins = s.cabins ∧ (s.advance t).permits = s.permits ∧
    (s.advance t).service = s.service ∧ (s.advance t).heads = s.heads ∧
    (s.advance t).grader = s.grader ∧ (s.advance t).holds = s.holds ∧ (s.advance t).rot = s.rot ∧
    (s.advance t).drives = s.drives := by
  simp [State.advance]

@[simp] theorem putWheel_frame (w : Wheel) :
    (putWheel w s).pending = s.pending ∧ (putWheel w s).lines = s.lines ∧
    (putWheel w s).tables = s.tables ∧ (putWheel w s).ring = s.ring ∧
    (putWheel w s).tracker = s.tracker ∧ (putWheel w s).cabins = s.cabins ∧
    (putWheel w s).permits = s.permits ∧ (putWheel w s).service = s.service ∧
    (putWheel w s).heads = s.heads ∧ (putWheel w s).grader = s.grader ∧
    (putWheel w s).holds = s.holds ∧ (putWheel w s).drives = s.drives := by
  simp [putWheel]

@[simp] theorem changeWheel_frame (w : Wheel) :
    (changeWheel w s).pending = s.pending ∧ (changeWheel w s).lines = s.lines ∧
    (changeWheel w s).tables = s.tables ∧ (changeWheel w s).tracker = s.tracker ∧
    (changeWheel w s).cabins = s.cabins ∧ (changeWheel w s).permits = s.permits ∧
    (changeWheel w s).service = s.service ∧ (changeWheel w s).heads = s.heads ∧
    (changeWheel w s).grader = s.grader ∧ (changeWheel w s).holds = s.holds ∧
    (changeWheel w s).drives = s.drives := by
  simp [changeWheel]

@[simp] theorem judgeEnd_frame :
    (judgeEnd s).pending = s.pending ∧ (judgeEnd s).lines = s.lines ∧
    (judgeEnd s).tables = s.tables ∧ (judgeEnd s).tracker = s.tracker ∧
    (judgeEnd s).cabins = s.cabins ∧ (judgeEnd s).permits = s.permits ∧
    (judgeEnd s).service = s.service ∧ (judgeEnd s).heads = s.heads ∧
    (judgeEnd s).grader = s.grader ∧ (judgeEnd s).holds = s.holds ∧ (judgeEnd s).drives = s.drives := by
  dsimp only [judgeEnd]; repeat' split
  all_goals simp

@[simp] theorem enterStopping_frame (d : StopDest) :
    (enterStopping d s).pending = s.pending ∧ (enterStopping d s).lines = s.lines ∧
    (enterStopping d s).tables = s.tables ∧ (enterStopping d s).tracker = s.tracker ∧
    (enterStopping d s).cabins = s.cabins ∧ (enterStopping d s).permits = s.permits ∧
    (enterStopping d s).service = s.service ∧ (enterStopping d s).heads = s.heads ∧
    (enterStopping d s).grader = s.grader ∧ (enterStopping d s).holds = s.holds ∧
    (enterStopping d s).drives = s.drives := by
  simp [enterStopping]

@[simp] theorem enterBraked_frame (cause : BrakeCause) :
    (enterBraked cause s).pending = s.pending ∧ (enterBraked cause s).lines = s.lines ∧
    (enterBraked cause s).tables = s.tables ∧ (enterBraked cause s).tracker = s.tracker ∧
    (enterBraked cause s).cabins = s.cabins ∧ (enterBraked cause s).permits = s.permits ∧
    (enterBraked cause s).service = s.service ∧ (enterBraked cause s).heads = s.heads ∧
    (enterBraked cause s).grader = s.grader ∧ (enterBraked cause s).holds = s.holds ∧
    (enterBraked cause s).drives = s.drives := by
  simp [enterBraked]

@[simp] theorem onRaise_frame (key : HoldKey) :
    (onRaise key s).pending = s.pending ∧ (onRaise key s).lines = s.lines ∧
    (onRaise key s).tables = s.tables ∧ (onRaise key s).tracker = s.tracker ∧
    (onRaise key s).cabins = s.cabins ∧ (onRaise key s).permits = s.permits ∧
    (onRaise key s).service = s.service ∧ (onRaise key s).heads = s.heads ∧
    (onRaise key s).grader = s.grader ∧ (onRaise key s).holds = s.holds ∧
    (onRaise key s).drives = s.drives := by
  dsimp only [onRaise]; repeat' split
  all_goals simp

@[simp] theorem onClear_frame :
    (onClear s).pending = s.pending ∧ (onClear s).lines = s.lines ∧ (onClear s).tables = s.tables ∧
    (onClear s).tracker = s.tracker ∧ (onClear s).cabins = s.cabins ∧
    (onClear s).permits = s.permits ∧ (onClear s).service = s.service ∧
    (onClear s).heads = s.heads ∧ (onClear s).grader = s.grader ∧ (onClear s).holds = s.holds ∧
    (onClear s).drives = s.drives := by
  dsimp only [onClear]; repeat' split
  all_goals simp

@[simp] theorem stopToStandby_frame :
    (stopToStandby s).pending = s.pending ∧ (stopToStandby s).lines = s.lines ∧
    (stopToStandby s).tables = s.tables ∧ (stopToStandby s).tracker = s.tracker ∧
    (stopToStandby s).cabins = s.cabins ∧ (stopToStandby s).permits = s.permits ∧
    (stopToStandby s).service = s.service ∧ (stopToStandby s).heads = s.heads ∧
    (stopToStandby s).grader = s.grader ∧ (stopToStandby s).holds = s.holds ∧
    (stopToStandby s).drives = s.drives := by
  dsimp only [stopToStandby]; split <;> simp

@[simp] theorem putResume_frame (b : Bool) :
    (putResume b s).pending = s.pending ∧ (putResume b s).lines = s.lines ∧
    (putResume b s).tables = s.tables ∧ (putResume b s).ring = s.ring ∧
    (putResume b s).tracker = s.tracker ∧ (putResume b s).cabins = s.cabins ∧
    (putResume b s).permits = s.permits ∧ (putResume b s).service = s.service ∧
    (putResume b s).heads = s.heads ∧ (putResume b s).grader = s.grader ∧
    (putResume b s).rot = s.rot ∧ (putResume b s).drives = s.drives := by
  simp [putResume]

@[simp] theorem appendHold_frame (h : Hold) :
    (appendHold h s).pending = s.pending ∧ (appendHold h s).lines = s.lines ∧
    (appendHold h s).tables = s.tables ∧ (appendHold h s).ring = s.ring ∧
    (appendHold h s).tracker = s.tracker ∧ (appendHold h s).cabins = s.cabins ∧
    (appendHold h s).permits = s.permits ∧ (appendHold h s).service = s.service ∧
    (appendHold h s).heads = s.heads ∧ (appendHold h s).grader = s.grader ∧
    (appendHold h s).rot = s.rot ∧ (appendHold h s).drives = s.drives := by
  simp [appendHold]

@[simp] theorem removeHold_frame (key : HoldKey) :
    (removeHold key s).pending = s.pending ∧ (removeHold key s).lines = s.lines ∧
    (removeHold key s).tables = s.tables ∧ (removeHold key s).ring = s.ring ∧
    (removeHold key s).tracker = s.tracker ∧ (removeHold key s).cabins = s.cabins ∧
    (removeHold key s).permits = s.permits ∧ (removeHold key s).service = s.service ∧
    (removeHold key s).heads = s.heads ∧ (removeHold key s).grader = s.grader ∧
    (removeHold key s).rot = s.rot ∧ (removeHold key s).drives = s.drives := by
  simp [removeHold]

@[simp] theorem markAcked_frame (key : HoldKey) :
    (markAcked key s).pending = s.pending ∧ (markAcked key s).lines = s.lines ∧
    (markAcked key s).tables = s.tables ∧ (markAcked key s).ring = s.ring ∧
    (markAcked key s).tracker = s.tracker ∧ (markAcked key s).cabins = s.cabins ∧
    (markAcked key s).permits = s.permits ∧ (markAcked key s).service = s.service ∧
    (markAcked key s).heads = s.heads ∧ (markAcked key s).grader = s.grader ∧
    (markAcked key s).rot = s.rot ∧ (markAcked key s).drives = s.drives := by
  simp [markAcked]

@[simp] theorem raiseHold_frame (h : Hold) :
    (raiseHold h s).pending = s.pending ∧ (raiseHold h s).lines = s.lines ∧
    (raiseHold h s).tables = s.tables ∧ (raiseHold h s).tracker = s.tracker ∧
    (raiseHold h s).cabins = s.cabins ∧ (raiseHold h s).permits = s.permits ∧
    (raiseHold h s).service = s.service ∧ (raiseHold h s).heads = s.heads ∧
    (raiseHold h s).grader = s.grader ∧ (raiseHold h s).drives = s.drives := by
  dsimp only [raiseHold]; split <;> simp

@[simp] theorem raiseBreach_frame (k : Cabin) :
    (raiseBreach k s).pending = s.pending ∧ (raiseBreach k s).lines = s.lines ∧
    (raiseBreach k s).tables = s.tables ∧ (raiseBreach k s).tracker = s.tracker ∧
    (raiseBreach k s).cabins = s.cabins ∧ (raiseBreach k s).permits = s.permits ∧
    (raiseBreach k s).service = s.service ∧ (raiseBreach k s).heads = s.heads ∧
    (raiseBreach k s).grader = s.grader ∧ (raiseBreach k s).drives = s.drives := by
  dsimp only [raiseBreach]; repeat' split
  all_goals simp

@[simp] theorem clearHold_frame (key : HoldKey) :
    (clearHold key s).pending = s.pending ∧ (clearHold key s).lines = s.lines ∧
    (clearHold key s).tables = s.tables ∧ (clearHold key s).tracker = s.tracker ∧
    (clearHold key s).cabins = s.cabins ∧ (clearHold key s).permits = s.permits ∧
    (clearHold key s).service = s.service ∧ (clearHold key s).heads = s.heads ∧
    (clearHold key s).grader = s.grader ∧ (clearHold key s).drives = s.drives := by
  dsimp only [clearHold]; split <;> simp

@[simp] theorem clearOverload_frame (k : Cabin) :
    (clearOverload k s).pending = s.pending ∧ (clearOverload k s).lines = s.lines ∧
    (clearOverload k s).tables = s.tables ∧ (clearOverload k s).tracker = s.tracker ∧
    (clearOverload k s).cabins = s.cabins ∧ (clearOverload k s).permits = s.permits ∧
    (clearOverload k s).service = s.service ∧ (clearOverload k s).heads = s.heads ∧
    (clearOverload k s).grader = s.grader ∧ (clearOverload k s).drives = s.drives := by
  dsimp only [clearOverload]; repeat' split
  all_goals simp

@[simp] theorem testOverrun_frame (z : Zone) :
    (testOverrun z s).pending = s.pending ∧ (testOverrun z s).lines = s.lines ∧
    (testOverrun z s).tables = s.tables ∧ (testOverrun z s).tracker = s.tracker ∧
    (testOverrun z s).cabins = s.cabins ∧ (testOverrun z s).permits = s.permits ∧
    (testOverrun z s).service = s.service ∧ (testOverrun z s).heads = s.heads ∧
    (testOverrun z s).grader = s.grader ∧ (testOverrun z s).drives = s.drives := by
  dsimp only [testOverrun]; split <;> simp

@[simp] theorem testCabin_frame (k : Cabin) :
    (testCabin k s).pending = s.pending ∧ (testCabin k s).lines = s.lines ∧
    (testCabin k s).tables = s.tables ∧ (testCabin k s).tracker = s.tracker ∧
    (testCabin k s).cabins = s.cabins ∧ (testCabin k s).permits = s.permits ∧
    (testCabin k s).service = s.service ∧ (testCabin k s).heads = s.heads ∧
    (testCabin k s).grader = s.grader ∧ (testCabin k s).drives = s.drives := by
  dsimp only [testCabin]; repeat' split
  all_goals simp

@[simp] theorem clearOverrun_frame (z : Zone) :
    (clearOverrun z s).pending = s.pending ∧ (clearOverrun z s).lines = s.lines ∧
    (clearOverrun z s).tables = s.tables ∧ (clearOverrun z s).tracker = s.tracker ∧
    (clearOverrun z s).cabins = s.cabins ∧ (clearOverrun z s).permits = s.permits ∧
    (clearOverrun z s).service = s.service ∧ (clearOverrun z s).heads = s.heads ∧
    (clearOverrun z s).grader = s.grader ∧ (clearOverrun z s).drives = s.drives := by
  simp [clearOverrun]

@[simp] theorem autoClear_frame (z : Zone) (k : Cabin) :
    (autoClear z k s).pending = s.pending ∧ (autoClear z k s).lines = s.lines ∧
    (autoClear z k s).tables = s.tables ∧ (autoClear z k s).tracker = s.tracker ∧
    (autoClear z k s).cabins = s.cabins ∧ (autoClear z k s).permits = s.permits ∧
    (autoClear z k s).service = s.service ∧ (autoClear z k s).heads = s.heads ∧
    (autoClear z k s).grader = s.grader ∧ (autoClear z k s).drives = s.drives := by
  dsimp only [autoClear]; split <;> simp

@[simp] theorem gateReport_frame (k : Cabin) :
    (gateReport k s).pending = s.pending ∧ (gateReport k s).lines = s.lines ∧
    (gateReport k s).tables = s.tables ∧ (gateReport k s).tracker = s.tracker ∧
    (gateReport k s).cabins = s.cabins ∧ (gateReport k s).permits = s.permits ∧
    (gateReport k s).service = s.service ∧ (gateReport k s).heads = s.heads ∧
    (gateReport k s).grader = s.grader ∧ (gateReport k s).drives = s.drives := by
  simp [gateReport]

@[simp] theorem gateCycleChange_frame (k : Cabin) :
    (gateCycleChange k s).pending = s.pending ∧ (gateCycleChange k s).lines = s.lines ∧
    (gateCycleChange k s).tables = s.tables ∧ (gateCycleChange k s).tracker = s.tracker ∧
    (gateCycleChange k s).cabins = s.cabins ∧ (gateCycleChange k s).permits = s.permits ∧
    (gateCycleChange k s).service = s.service ∧ (gateCycleChange k s).heads = s.heads ∧
    (gateCycleChange k s).grader = s.grader ∧ (gateCycleChange k s).drives = s.drives := by
  simp [gateCycleChange]

@[simp] theorem clearPermitsOf_frame (k : Cabin) :
    (clearPermitsOf k s).pending = s.pending ∧ (clearPermitsOf k s).lines = s.lines ∧
    (clearPermitsOf k s).tables = s.tables ∧ (clearPermitsOf k s).ring = s.ring ∧
    (clearPermitsOf k s).tracker = s.tracker ∧ (clearPermitsOf k s).cabins = s.cabins ∧
    (clearPermitsOf k s).service = s.service ∧ (clearPermitsOf k s).heads = s.heads ∧
    (clearPermitsOf k s).grader = s.grader ∧ (clearPermitsOf k s).holds = s.holds ∧
    (clearPermitsOf k s).rot = s.rot ∧ (clearPermitsOf k s).drives = s.drives := by
  simp [clearPermitsOf]

@[simp] theorem clearPermitAt_frame (z : Zone) (k : Cabin) :
    (clearPermitAt z k s).pending = s.pending ∧ (clearPermitAt z k s).lines = s.lines ∧
    (clearPermitAt z k s).tables = s.tables ∧ (clearPermitAt z k s).ring = s.ring ∧
    (clearPermitAt z k s).tracker = s.tracker ∧ (clearPermitAt z k s).cabins = s.cabins ∧
    (clearPermitAt z k s).service = s.service ∧ (clearPermitAt z k s).heads = s.heads ∧
    (clearPermitAt z k s).grader = s.grader ∧ (clearPermitAt z k s).holds = s.holds ∧
    (clearPermitAt z k s).rot = s.rot ∧ (clearPermitAt z k s).drives = s.drives := by
  simp [clearPermitAt]

@[simp] theorem clearBothPermits_frame :
    (clearBothPermits s).pending = s.pending ∧ (clearBothPermits s).lines = s.lines ∧
    (clearBothPermits s).tables = s.tables ∧ (clearBothPermits s).ring = s.ring ∧
    (clearBothPermits s).tracker = s.tracker ∧ (clearBothPermits s).cabins = s.cabins ∧
    (clearBothPermits s).service = s.service ∧ (clearBothPermits s).heads = s.heads ∧
    (clearBothPermits s).grader = s.grader ∧ (clearBothPermits s).holds = s.holds ∧
    (clearBothPermits s).rot = s.rot ∧ (clearBothPermits s).drives = s.drives := by
  simp [clearBothPermits]

@[simp] theorem gateModeChange_frame (m : ServiceMode) :
    (gateModeChange m s).pending = s.pending ∧ (gateModeChange m s).lines = s.lines ∧
    (gateModeChange m s).tables = s.tables ∧ (gateModeChange m s).ring = s.ring ∧
    (gateModeChange m s).tracker = s.tracker ∧ (gateModeChange m s).cabins = s.cabins ∧
    (gateModeChange m s).service = s.service ∧ (gateModeChange m s).heads = s.heads ∧
    (gateModeChange m s).grader = s.grader ∧ (gateModeChange m s).holds = s.holds ∧
    (gateModeChange m s).rot = s.rot ∧ (gateModeChange m s).drives = s.drives := by
  simp [gateModeChange]

@[simp] theorem spendPermit_frame (z : Zone) (k : Cabin) :
    (spendPermit z k s).pending = s.pending ∧ (spendPermit z k s).lines = s.lines ∧
    (spendPermit z k s).tables = s.tables ∧ (spendPermit z k s).ring = s.ring ∧
    (spendPermit z k s).tracker = s.tracker ∧ (spendPermit z k s).cabins = s.cabins ∧
    (spendPermit z k s).service = s.service ∧ (spendPermit z k s).heads = s.heads ∧
    (spendPermit z k s).grader = s.grader ∧ (spendPermit z k s).holds = s.holds ∧
    (spendPermit z k s).rot = s.rot ∧ (spendPermit z k s).drives = s.drives := by
  simp [spendPermit]

@[simp] theorem putPermit_frame (z : Zone) (p : Permit) :
    (putPermit z p s).pending = s.pending ∧ (putPermit z p s).lines = s.lines ∧
    (putPermit z p s).tables = s.tables ∧ (putPermit z p s).ring = s.ring ∧
    (putPermit z p s).tracker = s.tracker ∧ (putPermit z p s).cabins = s.cabins ∧
    (putPermit z p s).service = s.service ∧ (putPermit z p s).heads = s.heads ∧
    (putPermit z p s).grader = s.grader ∧ (putPermit z p s).holds = s.holds ∧
    (putPermit z p s).rot = s.rot ∧ (putPermit z p s).drives = s.drives := by
  simp [putPermit]

@[simp] theorem gateCompletion_frame (k : Cabin) :
    (gateCompletion k s).pending = s.pending ∧ (gateCompletion k s).lines = s.lines ∧
    (gateCompletion k s).tables = s.tables ∧ (gateCompletion k s).tracker = s.tracker ∧
    (gateCompletion k s).cabins = s.cabins ∧ (gateCompletion k s).service = s.service ∧
    (gateCompletion k s).heads = s.heads ∧ (gateCompletion k s).grader = s.grader ∧
    (gateCompletion k s).drives = s.drives := by
  simp [gateCompletion]

end Sys2Proof.Machine
end

