-- ==== Sys2Proof/Laws/FramesService.lean ====
section
/-! SUPPORT. Which blocks the operations of the service sequencer and the cabin records leave as they are. -/

namespace Sys2Proof.Machine

variable (s : State)

@[simp] theorem putList_frame (ks : List Cabin) :
    (putList ks s).pending = s.pending ∧ (putList ks s).lines = s.lines ∧
    (putList ks s).tables = s.tables ∧ (putList ks s).ring = s.ring ∧
    (putList ks s).tracker = s.tracker ∧ (putList ks s).cabins = s.cabins ∧
    (putList ks s).permits = s.permits ∧ (putList ks s).heads = s.heads ∧
    (putList ks s).grader = s.grader ∧ (putList ks s).holds = s.holds ∧
    (putList ks s).rot = s.rot ∧ (putList ks s).drives = s.drives := by
  simp [putList]

@[simp] theorem changeMode_frame (m : ServiceMode) (cause : ModeCause) :
    (changeMode m cause s).pending = s.pending ∧ (changeMode m cause s).lines = s.lines ∧
    (changeMode m cause s).tables = s.tables ∧ (changeMode m cause s).tracker = s.tracker ∧
    (changeMode m cause s).cabins = s.cabins ∧ (changeMode m cause s).heads = s.heads ∧
    (changeMode m cause s).grader = s.grader ∧ (changeMode m cause s).holds = s.holds ∧
    (changeMode m cause s).rot = s.rot ∧ (changeMode m cause s).drives = s.drives := by
  simp [changeMode]

@[simp] theorem completeClearDown_frame :
    (completeClearDown s).pending = s.pending ∧ (completeClearDown s).lines = s.lines ∧
    (completeClearDown s).tables = s.tables ∧ (completeClearDown s).tracker = s.tracker ∧
    (completeClearDown s).cabins = s.cabins ∧ (completeClearDown s).heads = s.heads ∧
    (completeClearDown s).grader = s.grader ∧ (completeClearDown s).holds = s.holds ∧
    (completeClearDown s).drives = s.drives := by
  simp [completeClearDown]

@[simp] theorem checkComplete_frame :
    (checkComplete s).pending = s.pending ∧ (checkComplete s).lines = s.lines ∧
    (checkComplete s).tables = s.tables ∧ (checkComplete s).tracker = s.tracker ∧
    (checkComplete s).cabins = s.cabins ∧ (checkComplete s).heads = s.heads ∧
    (checkComplete s).grader = s.grader ∧ (checkComplete s).holds = s.holds ∧
    (checkComplete s).drives = s.drives := by
  dsimp only [checkComplete]; split <;> simp

@[simp] theorem enterClearDown_frame (cause : ModeCause) :
    (enterClearDown cause s).pending = s.pending ∧ (enterClearDown cause s).lines = s.lines ∧
    (enterClearDown cause s).tables = s.tables ∧ (enterClearDown cause s).tracker = s.tracker ∧
    (enterClearDown cause s).cabins = s.cabins ∧ (enterClearDown cause s).heads = s.heads ∧
    (enterClearDown cause s).grader = s.grader ∧ (enterClearDown cause s).holds = s.holds ∧
    (enterClearDown cause s).drives = s.drives := by
  simp [enterClearDown]

@[simp] theorem sequencerGrade_frame (g : Grade) :
    (sequencerGrade g s).pending = s.pending ∧ (sequencerGrade g s).lines = s.lines ∧
    (sequencerGrade g s).tables = s.tables ∧ (sequencerGrade g s).tracker = s.tracker ∧
    (sequencerGrade g s).cabins = s.cabins ∧ (sequencerGrade g s).heads = s.heads ∧
    (sequencerGrade g s).grader = s.grader ∧ (sequencerGrade g s).holds = s.holds ∧
    (sequencerGrade g s).drives = s.drives := by
  dsimp only [sequencerGrade]; split <;> simp

@[simp] theorem passage_frame (k : Cabin) :
    (passage k s).pending = s.pending ∧ (passage k s).lines = s.lines ∧
    (passage k s).tables = s.tables ∧ (passage k s).tracker = s.tracker ∧
    (passage k s).cabins = s.cabins ∧ (passage k s).heads = s.heads ∧
    (passage k s).grader = s.grader ∧ (passage k s).holds = s.holds ∧
    (passage k s).drives = s.drives := by
  dsimp only [passage]; split <;> simp

@[simp] theorem sequencerExit_frame (moved : Bool) (k : Cabin) :
    (sequencerExit moved k s).pending = s.pending ∧ (sequencerExit moved k s).lines = s.lines ∧
    (sequencerExit moved k s).tables = s.tables ∧ (sequencerExit moved k s).tracker = s.tracker ∧
    (sequencerExit moved k s).cabins = s.cabins ∧ (sequencerExit moved k s).heads = s.heads ∧
    (sequencerExit moved k s).grader = s.grader ∧ (sequencerExit moved k s).holds = s.holds ∧
    (sequencerExit moved k s).drives = s.drives := by
  dsimp only [sequencerExit]; split <;> simp

@[simp] theorem sequencerReport_frame (k : Cabin) :
    (sequencerReport k s).pending = s.pending ∧ (sequencerReport k s).lines = s.lines ∧
    (sequencerReport k s).tables = s.tables ∧ (sequencerReport k s).ring = s.ring ∧
    (sequencerReport k s).tracker = s.tracker ∧ (sequencerReport k s).cabins = s.cabins ∧
    (sequencerReport k s).permits = s.permits ∧ (sequencerReport k s).heads = s.heads ∧
    (sequencerReport k s).grader = s.grader ∧ (sequencerReport k s).holds = s.holds ∧
    (sequencerReport k s).rot = s.rot ∧ (sequencerReport k s).drives = s.drives := by
  dsimp only [sequencerReport]; repeat' split
  all_goals simp

@[simp] theorem reorderList_frame :
    (reorderList s).pending = s.pending ∧ (reorderList s).lines = s.lines ∧
    (reorderList s).tables = s.tables ∧ (reorderList s).ring = s.ring ∧
    (reorderList s).tracker = s.tracker ∧ (reorderList s).cabins = s.cabins ∧
    (reorderList s).permits = s.permits ∧ (reorderList s).heads = s.heads ∧
    (reorderList s).grader = s.grader ∧ (reorderList s).holds = s.holds ∧
    (reorderList s).rot = s.rot ∧ (reorderList s).drives = s.drives := by
  dsimp only [reorderList]; split <;> simp

@[simp] theorem readFMode_frame :
    (readFMode s).pending = s.pending ∧ (readFMode s).lines = s.lines ∧
    (readFMode s).tables = s.tables ∧ (readFMode s).ring = s.ring ∧
    (readFMode s).tracker = s.tracker ∧ (readFMode s).cabins = s.cabins ∧
    (readFMode s).permits = s.permits ∧ (readFMode s).heads = s.heads ∧
    (readFMode s).grader = s.grader ∧ (readFMode s).holds = s.holds ∧ (readFMode s).rot = s.rot ∧
    (readFMode s).drives = s.drives := by
  simp [readFMode]

@[simp] theorem startCycle_frame (k : Cabin) :
    (startCycle k s).pending = s.pending ∧ (startCycle k s).lines = s.lines ∧
    (startCycle k s).tables = s.tables ∧ (startCycle k s).ring = s.ring ∧
    (startCycle k s).tracker = s.tracker ∧ (startCycle k s).permits = s.permits ∧
    (startCycle k s).service = s.service ∧ (startCycle k s).heads = s.heads ∧
    (startCycle k s).grader = s.grader ∧ (startCycle k s).holds = s.holds ∧
    (startCycle k s).rot = s.rot ∧ (startCycle k s).drives = s.drives := by
  simp [startCycle]

@[simp] theorem endCycle_frame (k : Cabin) :
    (endCycle k s).pending = s.pending ∧ (endCycle k s).lines = s.lines ∧
    (endCycle k s).tables = s.tables ∧ (endCycle k s).ring = s.ring ∧
    (endCycle k s).tracker = s.tracker ∧ (endCycle k s).permits = s.permits ∧
    (endCycle k s).service = s.service ∧ (endCycle k s).heads = s.heads ∧
    (endCycle k s).grader = s.grader ∧ (endCycle k s).holds = s.holds ∧
    (endCycle k s).rot = s.rot ∧ (endCycle k s).drives = s.drives := by
  simp [endCycle]

@[simp] theorem uncommandedOpening_frame (k : Cabin) :
    (uncommandedOpening k s).pending = s.pending ∧ (uncommandedOpening k s).lines = s.lines ∧
    (uncommandedOpening k s).tables = s.tables ∧ (uncommandedOpening k s).tracker = s.tracker ∧
    (uncommandedOpening k s).permits = s.permits ∧ (uncommandedOpening k s).service = s.service ∧
    (uncommandedOpening k s).heads = s.heads ∧ (uncommandedOpening k s).grader = s.grader ∧
    (uncommandedOpening k s).drives = s.drives := by
  simp [uncommandedOpening]

@[simp] theorem advanceCycle_frame (k : Cabin) :
    (advanceCycle k s).pending = s.pending ∧ (advanceCycle k s).lines = s.lines ∧
    (advanceCycle k s).tables = s.tables ∧ (advanceCycle k s).tracker = s.tracker ∧
    (advanceCycle k s).service = s.service ∧ (advanceCycle k s).heads = s.heads ∧
    (advanceCycle k s).grader = s.grader ∧ (advanceCycle k s).drives = s.drives := by
  dsimp only [advanceCycle]; repeat' split
  all_goals simp

@[simp] theorem judgeOverload_frame (k : Cabin) :
    (judgeOverload k s).pending = s.pending ∧ (judgeOverload k s).lines = s.lines ∧
    (judgeOverload k s).tables = s.tables ∧ (judgeOverload k s).tracker = s.tracker ∧
    (judgeOverload k s).permits = s.permits ∧ (judgeOverload k s).service = s.service ∧
    (judgeOverload k s).heads = s.heads ∧ (judgeOverload k s).grader = s.grader ∧
    (judgeOverload k s).drives = s.drives := by
  dsimp only [judgeOverload]; repeat' split
  all_goals simp

@[simp] theorem judgeBreach_frame (k : Cabin) :
    (judgeBreach k s).pending = s.pending ∧ (judgeBreach k s).lines = s.lines ∧
    (judgeBreach k s).tables = s.tables ∧ (judgeBreach k s).tracker = s.tracker ∧
    (judgeBreach k s).cabins = s.cabins ∧ (judgeBreach k s).permits = s.permits ∧
    (judgeBreach k s).service = s.service ∧ (judgeBreach k s).heads = s.heads ∧
    (judgeBreach k s).grader = s.grader ∧ (judgeBreach k s).drives = s.drives := by
  dsimp only [judgeBreach]; split <;> simp

@[simp] theorem judgeExitBreach_frame (k : Cabin) :
    (judgeExitBreach k s).pending = s.pending ∧ (judgeExitBreach k s).lines = s.lines ∧
    (judgeExitBreach k s).tables = s.tables ∧ (judgeExitBreach k s).tracker = s.tracker ∧
    (judgeExitBreach k s).cabins = s.cabins ∧ (judgeExitBreach k s).permits = s.permits ∧
    (judgeExitBreach k s).service = s.service ∧ (judgeExitBreach k s).heads = s.heads ∧
    (judgeExitBreach k s).grader = s.grader ∧ (judgeExitBreach k s).drives = s.drives := by
  dsimp only [judgeExitBreach]; repeat' split
  all_goals simp

@[simp] theorem sweepBreach_frame :
    (sweepBreach s).pending = s.pending ∧ (sweepBreach s).lines = s.lines ∧
    (sweepBreach s).tables = s.tables ∧ (sweepBreach s).tracker = s.tracker ∧
    (sweepBreach s).cabins = s.cabins ∧ (sweepBreach s).permits = s.permits ∧
    (sweepBreach s).service = s.service ∧ (sweepBreach s).heads = s.heads ∧
    (sweepBreach s).grader = s.grader ∧ (sweepBreach s).drives = s.drives := 
  ⟨State.forEach_keeps _ State.pending (by simp) _,
    State.forEach_keeps _ State.lines (by simp) _,
    State.forEach_keeps _ State.tables (by simp) _,
    State.forEach_keeps _ State.tracker (by simp) _,
    State.forEach_keeps _ State.cabins (by simp) _,
    State.forEach_keeps _ State.permits (by simp) _,
    State.forEach_keeps _ State.service (by simp) _,
    State.forEach_keeps _ State.heads (by simp) _,
    State.forEach_keeps _ State.grader (by simp) _,
    State.forEach_keeps _ State.drives (by simp) _⟩

@[simp] theorem recordReport_frame (k : Cabin) (d : Door) (n : Nat) :
    (recordReport k d n s).pending = s.pending ∧ (recordReport k d n s).lines = s.lines ∧
    (recordReport k d n s).tables = s.tables ∧ (recordReport k d n s).ring = s.ring ∧
    (recordReport k d n s).tracker = s.tracker ∧ (recordReport k d n s).permits = s.permits ∧
    (recordReport k d n s).service = s.service ∧ (recordReport k d n s).heads = s.heads ∧
    (recordReport k d n s).grader = s.grader ∧ (recordReport k d n s).holds = s.holds ∧
    (recordReport k d n s).rot = s.rot ∧ (recordReport k d n s).drives = s.drives := by
  simp [recordReport]

@[simp] theorem cabinReport_frame (k : Cabin) (d : Door) (n : Nat) :
    (cabinReport k d n s).pending = s.pending ∧ (cabinReport k d n s).lines = s.lines ∧
    (cabinReport k d n s).tables = s.tables ∧ (cabinReport k d n s).tracker = s.tracker ∧
    (cabinReport k d n s).heads = s.heads ∧ (cabinReport k d n s).grader = s.grader ∧
    (cabinReport k d n s).drives = s.drives := by
  simp [cabinReport]

@[simp] theorem doorStale_frame (k : Cabin) :
    (doorStale k s).pending = s.pending ∧ (doorStale k s).lines = s.lines ∧
    (doorStale k s).tables = s.tables ∧ (doorStale k s).tracker = s.tracker ∧
    (doorStale k s).permits = s.permits ∧ (doorStale k s).service = s.service ∧
    (doorStale k s).heads = s.heads ∧ (doorStale k s).grader = s.grader ∧
    (doorStale k s).drives = s.drives := by
  simp [doorStale]

@[simp] theorem staleEvent_frame (k : Cabin) :
    (staleEvent k s).pending = s.pending ∧ (staleEvent k s).lines = s.lines ∧
    (staleEvent k s).tables = s.tables ∧ (staleEvent k s).tracker = s.tracker ∧
    (staleEvent k s).permits = s.permits ∧ (staleEvent k s).service = s.service ∧
    (staleEvent k s).heads = s.heads ∧ (staleEvent k s).grader = s.grader ∧
    (staleEvent k s).drives = s.drives := by
  dsimp only [staleEvent]; split <;> simp

@[simp] theorem forgetDoor_frame (k : Cabin) :
    (forgetDoor k s).pending = s.pending ∧ (forgetDoor k s).lines = s.lines ∧
    (forgetDoor k s).tables = s.tables ∧ (forgetDoor k s).tracker = s.tracker ∧
    (forgetDoor k s).permits = s.permits ∧ (forgetDoor k s).service = s.service ∧
    (forgetDoor k s).heads = s.heads ∧ (forgetDoor k s).grader = s.grader ∧
    (forgetDoor k s).drives = s.drives := by
  dsimp only [forgetDoor]; split <;> simp

@[simp] theorem forgetDoors_frame :
    (forgetDoors s).pending = s.pending ∧ (forgetDoors s).lines = s.lines ∧
    (forgetDoors s).tables = s.tables ∧ (forgetDoors s).tracker = s.tracker ∧
    (forgetDoors s).permits = s.permits ∧ (forgetDoors s).service = s.service ∧
    (forgetDoors s).heads = s.heads ∧ (forgetDoors s).grader = s.grader ∧
    (forgetDoors s).drives = s.drives := 
  ⟨State.forEach_keeps _ State.pending (by simp) _,
    State.forEach_keeps _ State.lines (by simp) _,
    State.forEach_keeps _ State.tables (by simp) _,
    State.forEach_keeps _ State.tracker (by simp) _,
    State.forEach_keeps _ State.permits (by simp) _,
    State.forEach_keeps _ State.service (by simp) _,
    State.forEach_keeps _ State.heads (by simp) _,
    State.forEach_keeps _ State.grader (by simp) _,
    State.forEach_keeps _ State.drives (by simp) _⟩

@[simp] theorem stalenessLowered_frame :
    (stalenessLowered s).pending = s.pending ∧ (stalenessLowered s).lines = s.lines ∧
    (stalenessLowered s).tables = s.tables ∧ (stalenessLowered s).tracker = s.tracker ∧
    (stalenessLowered s).permits = s.permits ∧ (stalenessLowered s).service = s.service ∧
    (stalenessLowered s).heads = s.heads ∧ (stalenessLowered s).grader = s.grader ∧
    (stalenessLowered s).drives = s.drives := 
  ⟨State.forEach_keeps _ State.pending (by simp) _,
    State.forEach_keeps _ State.lines (by simp) _,
    State.forEach_keeps _ State.tables (by simp) _,
    State.forEach_keeps _ State.tracker (by simp) _,
    State.forEach_keeps _ State.permits (by simp) _,
    State.forEach_keeps _ State.service (by simp) _,
    State.forEach_keeps _ State.heads (by simp) _,
    State.forEach_keeps _ State.grader (by simp) _,
    State.forEach_keeps _ State.drives (by simp) _⟩

@[simp] theorem cabinExit_frame (k : Cabin) :
    (cabinExit k s).pending = s.pending ∧ (cabinExit k s).lines = s.lines ∧
    (cabinExit k s).tables = s.tables ∧ (cabinExit k s).tracker = s.tracker ∧
    (cabinExit k s).permits = s.permits ∧ (cabinExit k s).service = s.service ∧
    (cabinExit k s).heads = s.heads ∧ (cabinExit k s).grader = s.grader ∧
    (cabinExit k s).drives = s.drives := by
  dsimp only [cabinExit]; split <;> simp

@[simp] theorem zoneExit_frame (moved : Bool) (z : Zone) (k : Cabin) :
    (zoneExit moved z k s).pending = s.pending ∧ (zoneExit moved z k s).lines = s.lines ∧
    (zoneExit moved z k s).tables = s.tables ∧ (zoneExit moved z k s).tracker = s.tracker ∧
    (zoneExit moved z k s).heads = s.heads ∧ (zoneExit moved z k s).grader = s.grader ∧
    (zoneExit moved z k s).drives = s.drives := by
  dsimp only [zoneExit]; split <;> simp

@[simp] theorem zoneEntry_frame (z : Zone) (k : Cabin) :
    (zoneEntry z k s).pending = s.pending ∧ (zoneEntry z k s).lines = s.lines ∧
    (zoneEntry z k s).tables = s.tables ∧ (zoneEntry z k s).tracker = s.tracker ∧
    (zoneEntry z k s).permits = s.permits ∧ (zoneEntry z k s).service = s.service ∧
    (zoneEntry z k s).heads = s.heads ∧ (zoneEntry z k s).grader = s.grader ∧
    (zoneEntry z k s).drives = s.drives := by
  dsimp only [zoneEntry]; split <;> simp

end Sys2Proof.Machine
end

