-- ==== Sys2Proof/Laws/FramesTracker.lean ====
section
/-! SUPPORT. Which blocks the operations of the tracker, the drives, the wind heads, the grader and the rotation update leave as they are. -/

namespace Sys2Proof.Machine

variable (s : State)

@[simp] theorem compareHeads_frame :
    (compareHeads s).pending = s.pending ∧ (compareHeads s).lines = s.lines ∧
    (compareHeads s).tables = s.tables ∧ (compareHeads s).cabins = s.cabins ∧
    (compareHeads s).permits = s.permits ∧ (compareHeads s).service = s.service ∧
    (compareHeads s).heads = s.heads ∧ (compareHeads s).grader = s.grader ∧
    (compareHeads s).drives = s.drives := by
  dsimp only [compareHeads]; repeat' split
  all_goals simp

@[simp] theorem deliverExit_frame (moved : Bool) (old new : ByZone Occupancy) (z : Zone) :
    (deliverExit moved old new z s).pending = s.pending ∧
    (deliverExit moved old new z s).lines = s.lines ∧
    (deliverExit moved old new z s).tables = s.tables ∧
    (deliverExit moved old new z s).tracker = s.tracker ∧
    (deliverExit moved old new z s).heads = s.heads ∧
    (deliverExit moved old new z s).grader = s.grader ∧
    (deliverExit moved old new z s).drives = s.drives := by
  dsimp only [deliverExit]; repeat' split
  all_goals simp

@[simp] theorem deliverEntry_frame (old new : ByZone Occupancy) (z : Zone) :
    (deliverEntry old new z s).pending = s.pending ∧ (deliverEntry old new z s).lines = s.lines ∧
    (deliverEntry old new z s).tables = s.tables ∧ (deliverEntry old new z s).tracker = s.tracker ∧
    (deliverEntry old new z s).permits = s.permits ∧
    (deliverEntry old new z s).service = s.service ∧ (deliverEntry old new z s).heads = s.heads ∧
    (deliverEntry old new z s).grader = s.grader ∧ (deliverEntry old new z s).drives = s.drives := by
  dsimp only [deliverEntry]; repeat' split
  all_goals simp

@[simp] theorem deliverCrossing_frame (old new : ByZone Occupancy) (z : Zone) :
    (deliverCrossing old new z s).pending = s.pending ∧
    (deliverCrossing old new z s).lines = s.lines ∧
    (deliverCrossing old new z s).tables = s.tables ∧
    (deliverCrossing old new z s).tracker = s.tracker ∧
    (deliverCrossing old new z s).cabins = s.cabins ∧
    (deliverCrossing old new z s).permits = s.permits ∧
    (deliverCrossing old new z s).service = s.service ∧
    (deliverCrossing old new z s).heads = s.heads ∧
    (deliverCrossing old new z s).grader = s.grader ∧
    (deliverCrossing old new z s).drives = s.drives := by
  dsimp only [deliverCrossing]; split <;> simp

@[simp] theorem putOcc_frame (new : ByZone Occupancy) :
    (putOcc new s).pending = s.pending ∧ (putOcc new s).lines = s.lines ∧
    (putOcc new s).tables = s.tables ∧ (putOcc new s).ring = s.ring ∧
    (putOcc new s).cabins = s.cabins ∧ (putOcc new s).permits = s.permits ∧
    (putOcc new s).service = s.service ∧ (putOcc new s).heads = s.heads ∧
    (putOcc new s).grader = s.grader ∧ (putOcc new s).holds = s.holds ∧
    (putOcc new s).rot = s.rot ∧ (putOcc new s).drives = s.drives := by
  simp [putOcc]

@[simp] theorem putAccepted_frame (a : Accepted) :
    (putAccepted a s).pending = s.pending ∧ (putAccepted a s).lines = s.lines ∧
    (putAccepted a s).tables = s.tables ∧ (putAccepted a s).ring = s.ring ∧
    (putAccepted a s).cabins = s.cabins ∧ (putAccepted a s).permits = s.permits ∧
    (putAccepted a s).service = s.service ∧ (putAccepted a s).heads = s.heads ∧
    (putAccepted a s).grader = s.grader ∧ (putAccepted a s).holds = s.holds ∧
    (putAccepted a s).rot = s.rot ∧ (putAccepted a s).drives = s.drives := by
  simp [putAccepted]

@[simp] theorem deliverMoves_frame (moved : Bool) (old new : ByZone Occupancy) :
    (deliverMoves moved old new s).pending = s.pending ∧
    (deliverMoves moved old new s).lines = s.lines ∧
    (deliverMoves moved old new s).tables = s.tables ∧
    (deliverMoves moved old new s).tracker = s.tracker ∧
    (deliverMoves moved old new s).heads = s.heads ∧
    (deliverMoves moved old new s).grader = s.grader ∧
    (deliverMoves moved old new s).drives = s.drives := 
  ⟨(State.forEach_keeps _ State.pending (by simp) _).trans (State.forEach_keeps _ State.pending (by simp) _),
    (State.forEach_keeps _ State.lines (by simp) _).trans (State.forEach_keeps _ State.lines (by simp) _),
    (State.forEach_keeps _ State.tables (by simp) _).trans (State.forEach_keeps _ State.tables (by simp) _),
    (State.forEach_keeps _ State.tracker (by simp) _).trans (State.forEach_keeps _ State.tracker (by simp) _),
    (State.forEach_keeps _ State.heads (by simp) _).trans (State.forEach_keeps _ State.heads (by simp) _),
    (State.forEach_keeps _ State.grader (by simp) _).trans (State.forEach_keeps _ State.grader (by simp) _),
    (State.forEach_keeps _ State.drives (by simp) _).trans (State.forEach_keeps _ State.drives (by simp) _)⟩

@[simp] theorem deliverCrossings_frame (old new : ByZone Occupancy) :
    (deliverCrossings old new s).pending = s.pending ∧
    (deliverCrossings old new s).lines = s.lines ∧ (deliverCrossings old new s).tables = s.tables ∧
    (deliverCrossings old new s).tracker = s.tracker ∧
    (deliverCrossings old new s).cabins = s.cabins ∧
    (deliverCrossings old new s).permits = s.permits ∧
    (deliverCrossings old new s).service = s.service ∧
    (deliverCrossings old new s).heads = s.heads ∧ (deliverCrossings old new s).grader = s.grader ∧
    (deliverCrossings old new s).drives = s.drives := 
  ⟨State.forEach_keeps _ State.pending (by simp) _,
    State.forEach_keeps _ State.lines (by simp) _,
    State.forEach_keeps _ State.tables (by simp) _,
    State.forEach_keeps _ State.tracker (by simp) _,
    State.forEach_keeps _ State.cabins (by simp) _,
    State.forEach_keeps _ State.permits (by simp) _,
    State.forEach_keeps _ State.service (by simp) _,
    State.forEach_keeps _ State.heads (by simp) _,
    State.forEach_keeps _ State.grader (by simp) _,
    State.forEach_keeps _ State.drives (by simp) _⟩

@[simp] theorem recompute_frame (moved : Bool) :
    (recompute moved s).pending = s.pending ∧ (recompute moved s).lines = s.lines ∧
    (recompute moved s).tables = s.tables ∧ (recompute moved s).heads = s.heads ∧
    (recompute moved s).grader = s.grader ∧ (recompute moved s).drives = s.drives := by
  simp [recompute]

@[simp] theorem positionMoves_frame (old new : Accepted) :
    (positionMoves old new s).pending = s.pending ∧ (positionMoves old new s).lines = s.lines ∧
    (positionMoves old new s).tables = s.tables ∧ (positionMoves old new s).heads = s.heads ∧
    (positionMoves old new s).grader = s.grader ∧ (positionMoves old new s).drives = s.drives := by
  dsimp only [positionMoves]; split <;> simp

@[simp] theorem positionLost_frame :
    (positionLost s).pending = s.pending ∧ (positionLost s).lines = s.lines ∧
    (positionLost s).tables = s.tables ∧ (positionLost s).heads = s.heads ∧
    (positionLost s).grader = s.grader ∧ (positionLost s).drives = s.drives := by
  simp [positionLost]

@[simp] theorem positionReturns_frame (a : Accepted) :
    (positionReturns a s).pending = s.pending ∧ (positionReturns a s).lines = s.lines ∧
    (positionReturns a s).tables = s.tables ∧ (positionReturns a s).heads = s.heads ∧
    (positionReturns a s).grader = s.grader ∧ (positionReturns a s).drives = s.drives := by
  simp [positionReturns]

@[simp] theorem reform_frame :
    (reform s).pending = s.pending ∧ (reform s).lines = s.lines ∧ (reform s).tables = s.tables ∧
    (reform s).heads = s.heads ∧ (reform s).grader = s.grader ∧ (reform s).drives = s.drives := by
  dsimp only [reform]; split <;> simp

@[simp] theorem reformAfter_frame (was : Bool) :
    (reformAfter was s).pending = s.pending ∧ (reformAfter was s).lines = s.lines ∧
    (reformAfter was s).tables = s.tables ∧ (reformAfter was s).heads = s.heads ∧
    (reformAfter was s).grader = s.grader ∧ (reformAfter was s).drives = s.drives := by
  dsimp only [reformAfter]; split <;> simp

@[simp] theorem encoderReport_frame (e : EncoderId) (p : Nat) (h : Health) :
    (encoderReport e p h s).pending = s.pending ∧ (encoderReport e p h s).lines = s.lines ∧
    (encoderReport e p h s).tables = s.tables ∧ (encoderReport e p h s).heads = s.heads ∧
    (encoderReport e p h s).grader = s.grader ∧ (encoderReport e p h s).drives = s.drives := by
  dsimp only [encoderReport]; split <;> simp

@[simp] theorem dropHeads_frame (a b : Bool) :
    (dropHeads a b s).pending = s.pending ∧ (dropHeads a b s).lines = s.lines ∧
    (dropHeads a b s).tables = s.tables ∧ (dropHeads a b s).heads = s.heads ∧
    (dropHeads a b s).grader = s.grader ∧ (dropHeads a b s).drives = s.drives := by
  dsimp only [dropHeads]; split <;> simp

@[simp] theorem encoderLapse_frame (e : EncoderId) :
    (encoderLapse e s).pending = s.pending ∧ (encoderLapse e s).lines = s.lines ∧
    (encoderLapse e s).tables = s.tables ∧ (encoderLapse e s).heads = s.heads ∧
    (encoderLapse e s).grader = s.grader ∧ (encoderLapse e s).drives = s.drives := by
  dsimp only [encoderLapse]; split <;> simp

@[simp] theorem encodersLowered_frame :
    (encodersLowered s).pending = s.pending ∧ (encodersLowered s).lines = s.lines ∧
    (encodersLowered s).tables = s.tables ∧ (encodersLowered s).heads = s.heads ∧
    (encodersLowered s).grader = s.grader ∧ (encodersLowered s).drives = s.drives := by
  simp [encodersLowered]

@[simp] theorem zonesChanged_frame :
    (zonesChanged s).pending = s.pending ∧ (zonesChanged s).lines = s.lines ∧
    (zonesChanged s).tables = s.tables ∧ (zonesChanged s).heads = s.heads ∧
    (zonesChanged s).grader = s.grader ∧ (zonesChanged s).drives = s.drives := by
  dsimp only [zonesChanged]; split <;> simp

@[simp] theorem judgeDrivesLost_frame (before : Nat) :
    (judgeDrivesLost before s).pending = s.pending ∧ (judgeDrivesLost before s).lines = s.lines ∧
    (judgeDrivesLost before s).tables = s.tables ∧ (judgeDrivesLost before s).tracker = s.tracker ∧
    (judgeDrivesLost before s).cabins = s.cabins ∧ (judgeDrivesLost before s).permits = s.permits ∧
    (judgeDrivesLost before s).service = s.service ∧ (judgeDrivesLost before s).heads = s.heads ∧
    (judgeDrivesLost before s).grader = s.grader ∧ (judgeDrivesLost before s).drives = s.drives := by
  dsimp only [judgeDrivesLost]; repeat' split
  all_goals simp

@[simp] theorem deriveReady_frame (n : Fin 4) :
    (deriveReady n s).pending = s.pending ∧ (deriveReady n s).lines = s.lines ∧
    (deriveReady n s).tables = s.tables ∧ (deriveReady n s).tracker = s.tracker ∧
    (deriveReady n s).cabins = s.cabins ∧ (deriveReady n s).permits = s.permits ∧
    (deriveReady n s).service = s.service ∧ (deriveReady n s).heads = s.heads ∧
    (deriveReady n s).grader = s.grader := by
  dsimp only [deriveReady]; split <;> simp

@[simp] theorem dropDrive_frame (n : Fin 4) :
    (dropDrive n s).pending = s.pending ∧ (dropDrive n s).lines = s.lines ∧
    (dropDrive n s).tables = s.tables ∧ (dropDrive n s).tracker = s.tracker ∧
    (dropDrive n s).cabins = s.cabins ∧ (dropDrive n s).permits = s.permits ∧
    (dropDrive n s).service = s.service ∧ (dropDrive n s).heads = s.heads ∧
    (dropDrive n s).grader = s.grader := by
  dsimp only [dropDrive]; split <;> simp

@[simp] theorem driveLapse_frame (n : Fin 4) :
    (driveLapse n s).pending = s.pending ∧ (driveLapse n s).lines = s.lines ∧
    (driveLapse n s).tables = s.tables ∧ (driveLapse n s).tracker = s.tracker ∧
    (driveLapse n s).cabins = s.cabins ∧ (driveLapse n s).permits = s.permits ∧
    (driveLapse n s).service = s.service ∧ (driveLapse n s).heads = s.heads ∧
    (driveLapse n s).grader = s.grader := by
  dsimp only [driveLapse]; split <;> simp

@[simp] theorem forgetDrive_frame (n : Fin 4) :
    (forgetDrive n s).pending = s.pending ∧ (forgetDrive n s).lines = s.lines ∧
    (forgetDrive n s).tables = s.tables ∧ (forgetDrive n s).tracker = s.tracker ∧
    (forgetDrive n s).cabins = s.cabins ∧ (forgetDrive n s).permits = s.permits ∧
    (forgetDrive n s).service = s.service ∧ (forgetDrive n s).heads = s.heads ∧
    (forgetDrive n s).grader = s.grader := by
  simp [forgetDrive]

@[simp] theorem driveReport_frame (n : Fin 4) (ready : Bool) (fault : Byte) (speed : Nat) :
    (driveReport n ready fault speed s).pending = s.pending ∧
    (driveReport n ready fault speed s).lines = s.lines ∧
    (driveReport n ready fault speed s).tables = s.tables ∧
    (driveReport n ready fault speed s).tracker = s.tracker ∧
    (driveReport n ready fault speed s).cabins = s.cabins ∧
    (driveReport n ready fault speed s).permits = s.permits ∧
    (driveReport n ready fault speed s).service = s.service ∧
    (driveReport n ready fault speed s).heads = s.heads ∧
    (driveReport n ready fault speed s).grader = s.grader := by
  simp [driveReport]

@[simp] theorem drivesLowered_frame :
    (drivesLowered s).pending = s.pending ∧ (drivesLowered s).lines = s.lines ∧
    (drivesLowered s).tables = s.tables ∧ (drivesLowered s).tracker = s.tracker ∧
    (drivesLowered s).cabins = s.cabins ∧ (drivesLowered s).permits = s.permits ∧
    (drivesLowered s).service = s.service ∧ (drivesLowered s).heads = s.heads ∧
    (drivesLowered s).grader = s.grader := 
  ⟨State.forEach_keeps _ State.pending (by simp) _,
    State.forEach_keeps _ State.lines (by simp) _,
    State.forEach_keeps _ State.tables (by simp) _,
    State.forEach_keeps _ State.tracker (by simp) _,
    State.forEach_keeps _ State.cabins (by simp) _,
    State.forEach_keeps _ State.permits (by simp) _,
    State.forEach_keeps _ State.service (by simp) _,
    State.forEach_keeps _ State.heads (by simp) _,
    State.forEach_keeps _ State.grader (by simp) _⟩

@[simp] theorem windSample_frame (n : Fin 4) (speed direction : Nat) (h : Health) :
    (windSample n speed direction h s).pending = s.pending ∧
    (windSample n speed direction h s).lines = s.lines ∧
    (windSample n speed direction h s).tables = s.tables ∧
    (windSample n speed direction h s).ring = s.ring ∧
    (windSample n speed direction h s).tracker = s.tracker ∧
    (windSample n speed direction h s).cabins = s.cabins ∧
    (windSample n speed direction h s).permits = s.permits ∧
    (windSample n speed direction h s).service = s.service ∧
    (windSample n speed direction h s).grader = s.grader ∧
    (windSample n speed direction h s).holds = s.holds ∧
    (windSample n speed direction h s).rot = s.rot ∧
    (windSample n speed direction h s).drives = s.drives := by
  simp [windSample]

@[simp] theorem dropHead_frame (n : Fin 4) :
    (dropHead n s).pending = s.pending ∧ (dropHead n s).lines = s.lines ∧
    (dropHead n s).tables = s.tables ∧ (dropHead n s).ring = s.ring ∧
    (dropHead n s).tracker = s.tracker ∧ (dropHead n s).cabins = s.cabins ∧
    (dropHead n s).permits = s.permits ∧ (dropHead n s).service = s.service ∧
    (dropHead n s).grader = s.grader ∧ (dropHead n s).holds = s.holds ∧
    (dropHead n s).rot = s.rot ∧ (dropHead n s).drives = s.drives := by
  dsimp only [dropHead]; split <;> simp

@[simp] theorem headLapse_frame (n : Fin 4) :
    (headLapse n s).pending = s.pending ∧ (headLapse n s).lines = s.lines ∧
    (headLapse n s).tables = s.tables ∧ (headLapse n s).ring = s.ring ∧
    (headLapse n s).tracker = s.tracker ∧ (headLapse n s).cabins = s.cabins ∧
    (headLapse n s).permits = s.permits ∧ (headLapse n s).service = s.service ∧
    (headLapse n s).grader = s.grader ∧ (headLapse n s).holds = s.holds ∧
    (headLapse n s).rot = s.rot ∧ (headLapse n s).drives = s.drives := by
  dsimp only [headLapse]; split <;> simp

@[simp] theorem headsLowered_frame :
    (headsLowered s).pending = s.pending ∧ (headsLowered s).lines = s.lines ∧
    (headsLowered s).tables = s.tables ∧ (headsLowered s).ring = s.ring ∧
    (headsLowered s).tracker = s.tracker ∧ (headsLowered s).cabins = s.cabins ∧
    (headsLowered s).permits = s.permits ∧ (headsLowered s).service = s.service ∧
    (headsLowered s).grader = s.grader ∧ (headsLowered s).holds = s.holds ∧
    (headsLowered s).rot = s.rot ∧ (headsLowered s).drives = s.drives := 
  ⟨State.forEach_keeps _ State.pending (by simp) _,
    State.forEach_keeps _ State.lines (by simp) _,
    State.forEach_keeps _ State.tables (by simp) _,
    State.forEach_keeps _ State.ring (by simp) _,
    State.forEach_keeps _ State.tracker (by simp) _,
    State.forEach_keeps _ State.cabins (by simp) _,
    State.forEach_keeps _ State.permits (by simp) _,
    State.forEach_keeps _ State.service (by simp) _,
    State.forEach_keeps _ State.grader (by simp) _,
    State.forEach_keeps _ State.holds (by simp) _,
    State.forEach_keeps _ State.rot (by simp) _,
    State.forEach_keeps _ State.drives (by simp) _⟩

@[simp] theorem restartHead_frame (n : Fin 4) :
    (restartHead n s).pending = s.pending ∧ (restartHead n s).lines = s.lines ∧
    (restartHead n s).tables = s.tables ∧ (restartHead n s).ring = s.ring ∧
    (restartHead n s).tracker = s.tracker ∧ (restartHead n s).cabins = s.cabins ∧
    (restartHead n s).permits = s.permits ∧ (restartHead n s).service = s.service ∧
    (restartHead n s).grader = s.grader ∧ (restartHead n s).holds = s.holds ∧
    (restartHead n s).rot = s.rot ∧ (restartHead n s).drives = s.drives := by
  simp [restartHead]

@[simp] theorem changeGrade_frame (g : Grade) :
    (changeGrade g s).pending = s.pending ∧ (changeGrade g s).lines = s.lines ∧
    (changeGrade g s).tables = s.tables ∧ (changeGrade g s).tracker = s.tracker ∧
    (changeGrade g s).cabins = s.cabins ∧ (changeGrade g s).heads = s.heads ∧
    (changeGrade g s).drives = s.drives := by
  dsimp only [changeGrade]; repeat' split
  all_goals simp

@[simp] theorem putDwell_frame (d : Option Dwell) :
    (putDwell d s).pending = s.pending ∧ (putDwell d s).lines = s.lines ∧
    (putDwell d s).tables = s.tables ∧ (putDwell d s).ring = s.ring ∧
    (putDwell d s).tracker = s.tracker ∧ (putDwell d s).cabins = s.cabins ∧
    (putDwell d s).permits = s.permits ∧ (putDwell d s).service = s.service ∧
    (putDwell d s).heads = s.heads ∧ (putDwell d s).holds = s.holds ∧ (putDwell d s).rot = s.rot ∧
    (putDwell d s).drives = s.drives := by
  simp [putDwell]

@[simp] theorem gradeStep_frame (c : Grade) :
    (gradeStep c s).pending = s.pending ∧ (gradeStep c s).lines = s.lines ∧
    (gradeStep c s).tables = s.tables ∧ (gradeStep c s).tracker = s.tracker ∧
    (gradeStep c s).cabins = s.cabins ∧ (gradeStep c s).heads = s.heads ∧
    (gradeStep c s).drives = s.drives := by
  dsimp only [gradeStep]; repeat' split
  all_goals simp

@[simp] theorem putHeadsShort_frame (short : Bool) (n : Nat) :
    (putHeadsShort short n s).pending = s.pending ∧ (putHeadsShort short n s).lines = s.lines ∧
    (putHeadsShort short n s).tables = s.tables ∧ (putHeadsShort short n s).tracker = s.tracker ∧
    (putHeadsShort short n s).cabins = s.cabins ∧ (putHeadsShort short n s).permits = s.permits ∧
    (putHeadsShort short n s).service = s.service ∧ (putHeadsShort short n s).heads = s.heads ∧
    (putHeadsShort short n s).holds = s.holds ∧ (putHeadsShort short n s).rot = s.rot ∧
    (putHeadsShort short n s).drives = s.drives := by
  dsimp only [putHeadsShort]; split <;> simp

@[simp] theorem evaluate_frame :
    (evaluate s).pending = s.pending ∧ (evaluate s).lines = s.lines ∧
    (evaluate s).tables = s.tables ∧ (evaluate s).tracker = s.tracker ∧
    (evaluate s).cabins = s.cabins ∧ (evaluate s).heads = s.heads ∧ (evaluate s).drives = s.drives := by
  simp [evaluate]

@[simp] theorem expireDwell_frame :
    (expireDwell s).pending = s.pending ∧ (expireDwell s).lines = s.lines ∧
    (expireDwell s).tables = s.tables ∧ (expireDwell s).tracker = s.tracker ∧
    (expireDwell s).cabins = s.cabins ∧ (expireDwell s).heads = s.heads ∧
    (expireDwell s).drives = s.drives := by
  dsimp only [expireDwell]; repeat' split
  all_goals simp

@[simp] theorem startSettling_frame :
    (startSettling s).pending = s.pending ∧ (startSettling s).lines = s.lines ∧
    (startSettling s).tables = s.tables ∧ (startSettling s).ring = s.ring ∧
    (startSettling s).tracker = s.tracker ∧ (startSettling s).cabins = s.cabins ∧
    (startSettling s).permits = s.permits ∧ (startSettling s).service = s.service ∧
    (startSettling s).heads = s.heads ∧ (startSettling s).holds = s.holds ∧
    (startSettling s).rot = s.rot ∧ (startSettling s).drives = s.drives := by
  simp [startSettling]

@[simp] theorem endSettling_frame :
    (endSettling s).pending = s.pending ∧ (endSettling s).lines = s.lines ∧
    (endSettling s).tables = s.tables ∧ (endSettling s).ring = s.ring ∧
    (endSettling s).tracker = s.tracker ∧ (endSettling s).cabins = s.cabins ∧
    (endSettling s).permits = s.permits ∧ (endSettling s).service = s.service ∧
    (endSettling s).heads = s.heads ∧ (endSettling s).holds = s.holds ∧
    (endSettling s).rot = s.rot ∧ (endSettling s).drives = s.drives := by
  dsimp only [endSettling]; repeat' split
  all_goals simp

@[simp] theorem setLimit_frame :
    (setLimit s).pending = s.pending ∧ (setLimit s).lines = s.lines ∧
    (setLimit s).tables = s.tables ∧ (setLimit s).ring = s.ring ∧
    (setLimit s).tracker = s.tracker ∧ (setLimit s).cabins = s.cabins ∧
    (setLimit s).permits = s.permits ∧ (setLimit s).heads = s.heads ∧
    (setLimit s).grader = s.grader ∧ (setLimit s).holds = s.holds ∧ (setLimit s).drives = s.drives := by
  simp [setLimit]

@[simp] theorem rampStage_frame :
    (rampStage s).pending = s.pending ∧ (rampStage s).lines = s.lines ∧
    (rampStage s).tables = s.tables ∧ (rampStage s).tracker = s.tracker ∧
    (rampStage s).cabins = s.cabins ∧ (rampStage s).permits = s.permits ∧
    (rampStage s).service = s.service ∧ (rampStage s).heads = s.heads ∧
    (rampStage s).grader = s.grader ∧ (rampStage s).holds = s.holds ∧
    (rampStage s).drives = s.drives := by
  simp [rampStage]

@[simp] theorem rotationUpdate_frame :
    (rotationUpdate s).pending = s.pending ∧ (rotationUpdate s).lines = s.lines ∧
    (rotationUpdate s).tables = s.tables ∧ (rotationUpdate s).tracker = s.tracker ∧
    (rotationUpdate s).cabins = s.cabins ∧ (rotationUpdate s).permits = s.permits ∧
    (rotationUpdate s).heads = s.heads ∧ (rotationUpdate s).grader = s.grader ∧
    (rotationUpdate s).holds = s.holds ∧ (rotationUpdate s).drives = s.drives := by
  dsimp only [rotationUpdate]; split <;> simp

end Sys2Proof.Machine
end

