-- ==== Sys2Proof/Laws/Operations.lean ====
section
/-! SUPPORT. What the shared operations do, said once: records, queues, hold list, wheel and lists. -/

namespace Sys2Proof.Machine

variable (s : State)

/-! ### The step -/

/-- A step while the reset line is low changes nothing; any other moves the time base on, has its effect, and
lets an idle ring-out start a waiting frame (R2, R23). -/
theorem inStep_cases (t : Nat) (effect : State → State) :
    (s.lines.inReset = true ∧ inStep t effect s = s) ∨
      (s.lines.inReset = false ∧
        inStep t effect s =
          (effect (s.advance t)).setRing (startIfIdle (effect (s.advance t)).ring)) := by
  unfold inStep
  split
  · next h => exact .inl ⟨h, rfl⟩
  · next h => exact .inr ⟨by simpa using h, rfl⟩

/-- A frame that was under way at the release has no effect but that reception begins; any other has its own
(R2). -/
theorem onFrame_cases (effect : State → State) :
    (s.lines.underWay = true ∧ onFrame effect s = s.setLines { s.lines with underWay := false }) ∨
      (s.lines.underWay = false ∧ onFrame effect s = effect s) := by
  unfold onFrame
  split
  · next h => exact .inl ⟨h, rfl⟩
  · next h => exact .inr ⟨by simpa using h, rfl⟩

/-- While the part receives, a frame's step is the step of its effect. -/
theorem frameStep_receiving (t : Nat) (effect : State → State) (h : s.lines.underWay = false) :
    frameStep t effect s = inStep t effect s := by
  simp [frameStep, inStep, onFrame, State.advance, h]

/-! ### Records -/

@[simp] theorem State.setCabin_cabin (k j : Cabin) (c : CabinRecord) :
    (s.setCabin k c).cabin j = if k = j then c else s.cabin j := by
  unfold State.setCabin State.cabin State.setCabins
  simp only [Fin.getElem_fin]
  by_cases h : k = j
  · subst h; simp
  · rw [Vector.getElem_set_ne]
    · simp [h]
    · simpa [Fin.ext_iff] using h

@[simp] theorem State.setHead_head (n m : Fin 4) (h : Head) :
    (s.setHead n h).head m = if n = m then h else s.head m := by
  unfold State.setHead State.head State.setHeads
  simp only [Fin.getElem_fin]
  by_cases e : n = m
  · subst e; simp
  · rw [Vector.getElem_set_ne]
    · simp [e]
    · simpa [Fin.ext_iff] using e

@[simp] theorem State.setDrive_drive (n m : Fin 4) (d : Drive) :
    (s.setDrive n d).drive m = if n = m then d else s.drive m := by
  unfold State.setDrive State.drive State.setDrives
  simp only [Fin.getElem_fin]
  by_cases e : n = m
  · subst e; simp
  · rw [Vector.getElem_set_ne]
    · simp [e]
    · simpa [Fin.ext_iff] using e

@[simp] theorem ByZone.get_set {α : Type} (b : ByZone α) (z y : Zone) (a : α) :
    (b.set z a).get y = if z = y then a else b.get y := by
  cases z <;> cases y <;> rfl

/-- Cabin records are the same where the blocks are. -/
theorem State.cabin_congr {s u : State} (h : u.cabins = s.cabins) (k : Cabin) : u.cabin k = s.cabin k := by
  simp [State.cabin, h]

/-- Occupancy records are the same where the trackers are. -/
theorem State.occ_congr {s u : State} (h : u.tracker = s.tracker) (z : Zone) : u.occ z = s.occ z := by
  simp [State.occ, h]

/-- Whether a key's record stands depends on the hold list alone. -/
theorem State.holdsKey_congr {s u : State} (h : u.holds = s.holds) (key : HoldKey) :
    u.holdsKey key = s.holdsKey key := by
  simp [State.holdsKey, State.holdRecord, h]

/-- A record of a key stands just where some record has that key. -/
theorem State.holdsKey_iff (key : HoldKey) :
    s.holdsKey key = true ↔ ∃ r ∈ s.holds.records, r.what.key = key := by
  simp [State.holdsKey, State.holdRecord, List.find?_isSome]

/-! ### Queues -/

/-- A notice joins the notice queue, is lost with the overflow flag set, or is not queued (R177). -/
theorem notify_ring (n : Notice) :
    (notify n s).ring = s.ring ∨ (notify n s).ring = { s.ring with noticeOverflow := true } ∨
      (s.ring.notices.length < 16 ∧
        (notify n s).ring =
          { s.ring with
            notices := s.ring.notices ++ [s.ownFrame (s.role roleConsole) kindNotice n.payload] }) := by
  unfold notify
  split
  · exact .inl rfl
  split
  · exact .inl rfl
  split
  · next h => exact .inr (.inr ⟨h, rfl⟩)
  · exact .inr (.inl rfl)

@[simp] theorem notify_queues (n : Notice) :
    (notify n s).ring.forward = s.ring.forward ∧ (notify n s).ring.driveSet = s.ring.driveSet ∧
      (notify n s).ring.doorQueue = s.ring.doorQueue ∧ (notify n s).ring.responses = s.ring.responses ∧
      (notify n s).ring.ringOut = s.ring.ringOut ∧ (notify n s).ring.ownDue = s.ring.ownDue := by
  rcases notify_ring s n with h | h | ⟨-, h⟩ <;> simp [h]

/-- The notice queue keeps to its capacity (R22). -/
theorem notify_notices_length (n : Notice) (h : s.ring.notices.length ≤ 16) :
    (notify n s).ring.notices.length ≤ 16 := by
  rcases notify_ring s n with e | e | ⟨hl, e⟩ <;> simp [e] <;> omega

@[simp] theorem queueDriveSet_queues (v : Nat) (b e : Bool) :
    (queueDriveSet v b e s).ring.forward = s.ring.forward ∧
      (queueDriveSet v b e s).ring.doorQueue = s.ring.doorQueue ∧
      (queueDriveSet v b e s).ring.responses = s.ring.responses ∧
      (queueDriveSet v b e s).ring.notices = s.ring.notices ∧
      (queueDriveSet v b e s).ring.ringOut = s.ring.ringOut ∧
      (queueDriveSet v b e s).ring.ownDue = s.ring.ownDue := by
  simp [queueDriveSet]

/-- The door queue keeps to its capacity (R20). -/
theorem arriveDoor_length (q : List DoorItem) (i : DoorItem) (h : q.length ≤ 8) :
    (arriveDoor q i).length ≤ 8 := by
  unfold arriveDoor Config.doorRoom
  split
  · simp; omega
  split
  · next hi =>
      obtain ⟨x, hx, hd⟩ := List.any_eq_true.1 hi.2
      simp [List.length_eraseP_of_mem hx hd]; omega
  · exact h

/-! ### The hold list -/

/-- The hold list after a raise: a new record at its end, or as it was (R125). -/
theorem raiseHold_holds (h : Hold) :
    (raiseHold h s).holds = if s.holdsKey h.key then s.holds else (appendHold h s).holds := by
  unfold raiseHold
  split <;> simp

/-- The hold list after a clear: without the records of the key (R128). -/
theorem clearHold_holds (key : HoldKey) :
    (clearHold key s).holds =
      { s.holds with records := s.holds.records.filter (fun r => r.what.key != key) } := by
  unfold clearHold
  split
  · next h =>
      have : s.holds.records.filter (fun r => r.what.key != key) = s.holds.records := by
        apply List.filter_eq_self.2
        intro r hr
        have := List.find?_eq_none.1 h r hr
        simpa using this
      simp [this]
  · simp [removeHold]

/-- Which keys have a record after a raise. -/
theorem raiseHold_holdsKey (h : Hold) (key : HoldKey) :
    (raiseHold h s).holdsKey key = (s.holdsKey key || key == h.key) := by
  by_cases hk : s.holdsKey h.key = true
  · have e : (raiseHold h s).holds = s.holds := by rw [raiseHold_holds, if_pos hk]
    rw [State.holdsKey_congr e]
    by_cases hkk : key = h.key
    · subst hkk; simp [hk]
    · simp [hkk]
  · have e : (raiseHold h s).holds = (appendHold h s).holds := by rw [raiseHold_holds, if_neg hk]
    rw [State.holdsKey_congr e, Bool.eq_iff_iff]
    simp only [Bool.or_eq_true, State.holdsKey_iff, beq_iff_eq, appendHold, State.setHolds_holds,
      List.mem_append, List.mem_singleton]
    constructor
    · rintro ⟨r, hr | rfl, e⟩
      · exact .inl ⟨r, hr, e⟩
      · exact .inr e.symm
    · rintro (⟨r, hr, e⟩ | e)
      · exact ⟨r, .inl hr, e⟩
      · exact ⟨_, .inr rfl, e.symm⟩

/-- Which keys have a record after a clear. -/
theorem clearHold_holdsKey (key key' : HoldKey) :
    (clearHold key s).holdsKey key' = (s.holdsKey key' && key' != key) := by
  rw [Bool.eq_iff_iff]
  simp only [Bool.and_eq_true, State.holdsKey_iff, clearHold_holds, List.mem_filter, bne_iff_ne]
  constructor
  · rintro ⟨r, ⟨hr, hne⟩, rfl⟩; exact ⟨⟨r, hr, rfl⟩, hne⟩
  · rintro ⟨⟨r, hr, rfl⟩, hne⟩; exact ⟨r, ⟨hr, hne⟩, rfl⟩

/-- Marking a record acknowledged changes no key. -/
@[simp] theorem markAcked_holdsKey (key key' : HoldKey) :
    (markAcked key s).holdsKey key' = s.holdsKey key' := by
  rw [Bool.eq_iff_iff]
  simp only [State.holdsKey_iff, markAcked, State.setHolds_holds, List.mem_map]
  constructor
  · rintro ⟨_, ⟨r, hr, rfl⟩, e⟩
    refine ⟨r, hr, ?_⟩
    split at e <;> exact e
  · rintro ⟨r, hr, e⟩
    refine ⟨_, ⟨r, hr, rfl⟩, ?_⟩
    split <;> exact e

/-! ### The wheel -/

@[simp] theorem changeWheel_rot (w : Wheel) :
    (changeWheel w s).rot = { s.rot with wheel := w, stopPending := w.pendsStop } := by
  simp [changeWheel, putWheel]

@[simp] theorem enterBraked_rot (cause : BrakeCause) :
    (enterBraked cause s).rot = { s.rot with wheel := .braked, stopPending := false, vCmd := 0 } := by
  simp [enterBraked, putWheel, Wheel.pendsStop]

/-- Judging the end of stopping: the destination is entered at rest, and nothing else changes (R149). -/
theorem judgeEnd_cases :
    (∃ d, s.rot.wheel = .stopping d ∧ s.atRest = true ∧ judgeEnd s = changeWheel d.rest s) ∨
      judgeEnd s = s := by
  unfold judgeEnd
  split
  · next d hd =>
      split
      · next hr => exact .inl ⟨d, hd, hr, rfl⟩
      · exact .inr rfl
  · exact .inr rfl

/-! ### The clear-down list -/

/-- Insertion keeps the cabins and adds one (R86). -/
theorem insertByKey_perm (key : Cabin → Nat) (k : Cabin) (xs : List Cabin) :
    (insertByKey key k xs).Perm (k :: xs) := by
  induction xs with
  | nil => exact .refl _
  | cons x xs ih =>
    unfold insertByKey
    split
    · exact .refl _
    · exact (ih.cons x).trans (.swap k x xs)

/-- Sorting changes the order of a list and never its content (R89). -/
theorem sortByKey_perm (key : Cabin → Nat) (xs : List Cabin) : (sortByKey key xs).Perm xs := by
  induction xs with
  | nil => exact .refl _
  | cons x xs ih => exact (insertByKey_perm key x _).trans (ih.cons x)

/-- Bringing the list into key order keeps its content (R84, R89). -/
theorem State.ordered_perm (xs : List Cabin) : (s.ordered xs).Perm xs := by
  unfold State.ordered
  split
  · exact sortByKey_perm _ xs
  · exact .refl _

end Sys2Proof.Machine
end

