-- ==== Sys2Proof/WellFormed.lean ====
section
/-! DEFINITION. Which commands the table's rows can be: the ranges of a frame's address octets and payload
(R3, section 1.2), the arguments of a request (section 1.9) and the moments of the two timers (R113,
R151). A command outside them still has its meaning: the part discards the frame (R3). -/

namespace Sys2Proof

/-- A source octet that R3 takes. -/
def sourceOk (o : Byte) : Bool := decide (o.toNat ≤ 61)

/-- A destination octet that R3 takes: 0 to 61, or 63. -/
def destOk (o : Byte) : Bool := decide (o.toNat ≤ 63) && decide (o.toNat ≠ 62)

/-- A payload of at most 64 octets (section 1.2). -/
def payloadOk (p : List Byte) : Bool := decide (p.length ≤ 64)

/-- A request's source, and arguments that leave room for tag and kind (section 1.9). -/
def requestOk (src : Byte) (args : List Byte) : Bool := sourceOk src && decide (args.length ≤ 62)

/-- A load's source, and octets that leave room for tag, kind and table code (section 1.9). -/
def loadOk (src : Byte) (args : List Byte) : Bool := sourceOk src && decide (args.length ≤ 61)

/-- A moment at which a timer of a period expires: a whole multiple of it after the release of the reset
line, the first one period after it (R113, R151). -/
def expiryOk (period t : Nat) : Bool := decide (0 < t) && decide (t % period = 0)

/-- A command that a row of the table stands for. -/
def Instr.wellFormed : Instr → Bool
  | .resetAssert => true
  | .powerOnReset _ => true
  | .position _ dst src _ _ => destOk dst && sourceOk src
  | .wind _ dst src _ _ _ => destOk dst && sourceOk src
  | .doorReport _ dst src _ _ _ => destOk dst && sourceOk src
  | .driveStatus _ dst src _ _ _ => destOk dst && sourceOk src
  | .unlock _ dst src _ => destOk dst && sourceOk src
  | .lock _ dst src _ => destOk dst && sourceOk src
  | .allStop _ dst src payload => destOk dst && sourceOk src && payloadOk payload
  | .strip _ dst _ payload => destOk dst && payloadOk payload
  | .foreignDriveFrame _ dst src _ payload => destOk dst && sourceOk src && payloadOk payload
  | .otherFrame _ _ => true
  | .frameSendEnd _ => true
  | .readStatus _ src _ args => requestOk src args
  | .readTable _ src _ args => requestOk src args
  | .loadRoster _ src _ args => loadOk src args
  | .loadPass _ src _ args => loadOk src args
  | .loadCabins _ src _ args => loadOk src args
  | .loadZones _ src _ args => loadOk src args
  | .loadParameters _ src _ args => loadOk src args
  | .loadHeads _ src _ args => loadOk src args
  | .loadRules _ src _ args => loadOk src args
  | .setLocks _ src _ args => requestOk src args
  | .restart _ src _ args => requestOk src args
  | .readHolds _ src _ args => requestOk src args
  | .hold _ src _ args => requestOk src args
  | .ackHold _ src _ args => requestOk src args
  | .readCabins _ src _ args => requestOk src args
  | .readWind _ src _ args => requestOk src args
  | .unstow _ src _ args => requestOk src args
  | .stow _ src _ args => requestOk src args
  | .start _ src _ args => requestOk src args
  | .stop _ src _ args => requestOk src args
  | .resume _ src _ args => requestOk src args
  | .resetBrake _ src _ args => requestOk src args
  | .setTrim _ src _ args => requestOk src args
  | .openService _ src _ args => requestOk src args
  | .beginClearDown _ src _ args => requestOk src args
  | .closeService _ src _ args => requestOk src args
  | .armZone _ src _ args => requestOk src args
  | .unknownRequest _ src _ _ args => requestOk src args
  | .rotationUpdate t => expiryOk 100 t
  | .windEvaluation t => expiryOk 500 t
  | .dwellExpiry _ => true
  | .settlingEnd _ => true
  | .encoderLapse _ _ => true
  | .staleEvent _ _ => true
  | .headLapse _ _ => true
  | .driveLapse _ _ => true
  | .serviceKeyChange _ => true

end Sys2Proof
end

