-- ==== Sys2Proof/Laws/PerInstr.lean ====
section
/-! SUPPORT. Statements made command by command: one lemma for each constructor. -/

/-- A well-formed command that is a REQUEST carries a source address 0 to 61 (R3, section 1.2). -/
def Sys2Proof.Laws.RequestSource.Statement (i : Sys2Proof.Instr) : Prop :=
  i.wellFormed = true →
    ∀ src tag kind, Sys2Proof.Machine.requestOf i = some (src, tag, kind) → src.toNat ≤ 61

namespace Sys2Proof.Laws.RequestSource

theorem resetAssert :
    Statement .resetAssert := by
  intro _ s g k e
  cases e

theorem powerOnReset (release : ResetRelease) :
    Statement (.powerOnReset release) := by
  intro _ s g k e
  cases e

theorem position (t : Nat) (dst : Byte) (src : Byte) (pos : BitVec 24) (health : Byte) :
    Statement (.position t dst src pos health) := by
  intro _ s g k e
  cases e

theorem wind (t : Nat) (dst : Byte) (src : Byte) (speed : BitVec 16) (direction : BitVec 16) (health : Byte) :
    Statement (.wind t dst src speed direction health) := by
  intro _ s g k e
  cases e

theorem doorReport (t : Nat) (dst : Byte) (src : Byte) (cabin : Byte) (door : Byte) (occupancy : Byte) :
    Statement (.doorReport t dst src cabin door occupancy) := by
  intro _ s g k e
  cases e

theorem driveStatus (t : Nat) (dst : Byte) (src : Byte) (ready : Byte) (fault : Byte) (speed : BitVec 16) :
    Statement (.driveStatus t dst src ready fault speed) := by
  intro _ s g k e
  cases e

theorem unlock (t : Nat) (dst : Byte) (src : Byte) (cabin : Byte) :
    Statement (.unlock t dst src cabin) := by
  intro _ s g k e
  cases e

theorem lock (t : Nat) (dst : Byte) (src : Byte) (cabin : Byte) :
    Statement (.lock t dst src cabin) := by
  intro _ s g k e
  cases e

theorem allStop (t : Nat) (dst : Byte) (src : Byte) (payload : List Byte) :
    Statement (.allStop t dst src payload) := by
  intro _ s g k e
  cases e

theorem strip (t : Nat) (dst : Byte) (kind : Byte) (payload : List Byte) :
    Statement (.strip t dst kind payload) := by
  intro _ s g k e
  cases e

theorem foreignDriveFrame (t : Nat) (dst : Byte) (src : Byte) (kind : DriveFrameKind) (payload : List Byte) :
    Statement (.foreignDriveFrame t dst src kind payload) := by
  intro _ s g k e
  cases e

theorem otherFrame (t : Nat) (octets : List Byte) :
    Statement (.otherFrame t octets) := by
  intro _ s g k e
  cases e

theorem frameSendEnd (t : Nat) :
    Statement (.frameSendEnd t) := by
  intro _ s g k e
  cases e

theorem readStatus (t : Nat) (src : Byte) (tag : Byte) (args : List Byte) :
    Statement (.readStatus t src tag args) := by
  intro h s g k e
  simp_all [Instr.wellFormed, requestOk, sourceOk, Sys2Proof.Machine.requestOf]

theorem readTable (t : Nat) (src : Byte) (tag : Byte) (args : List Byte) :
    Statement (.readTable t src tag args) := by
  intro h s g k e
  simp_all [Instr.wellFormed, requestOk, sourceOk, Sys2Proof.Machine.requestOf]

theorem loadRoster (t : Nat) (src : Byte) (tag : Byte) (args : List Byte) :
    Statement (.loadRoster t src tag args) := by
  intro h s g k e
  simp_all [Instr.wellFormed, loadOk, sourceOk, Sys2Proof.Machine.requestOf]

theorem loadPass (t : Nat) (src : Byte) (tag : Byte) (args : List Byte) :
    Statement (.loadPass t src tag args) := by
  intro h s g k e
  simp_all [Instr.wellFormed, loadOk, sourceOk, Sys2Proof.Machine.requestOf]

theorem loadCabins (t : Nat) (src : Byte) (tag : Byte) (args : List Byte) :
    Statement (.loadCabins t src tag args) := by
  intro h s g k e
  simp_all [Instr.wellFormed, loadOk, sourceOk, Sys2Proof.Machine.requestOf]

theorem loadZones (t : Nat) (src : Byte) (tag : Byte) (args : List Byte) :
    Statement (.loadZones t src tag args) := by
  intro h s g k e
  simp_all [Instr.wellFormed, loadOk, sourceOk, Sys2Proof.Machine.requestOf]

theorem loadParameters (t : Nat) (src : Byte) (tag : Byte) (args : List Byte) :
    Statement (.loadParameters t src tag args) := by
  intro h s g k e
  simp_all [Instr.wellFormed, loadOk, sourceOk, Sys2Proof.Machine.requestOf]

theorem loadHeads (t : Nat) (src : Byte) (tag : Byte) (args : List Byte) :
    Statement (.loadHeads t src tag args) := by
  intro h s g k e
  simp_all [Instr.wellFormed, loadOk, sourceOk, Sys2Proof.Machine.requestOf]

theorem loadRules (t : Nat) (src : Byte) (tag : Byte) (args : List Byte) :
    Statement (.loadRules t src tag args) := by
  intro h s g k e
  simp_all [Instr.wellFormed, loadOk, sourceOk, Sys2Proof.Machine.requestOf]

theorem setLocks (t : Nat) (src : Byte) (tag : Byte) (args : List Byte) :
    Statement (.setLocks t src tag args) := by
  intro h s g k e
  simp_all [Instr.wellFormed, requestOk, sourceOk, Sys2Proof.Machine.requestOf]

theorem restart (t : Nat) (src : Byte) (tag : Byte) (args : List Byte) :
    Statement (.restart t src tag args) := by
  intro h s g k e
  simp_all [Instr.wellFormed, requestOk, sourceOk, Sys2Proof.Machine.requestOf]

theorem readHolds (t : Nat) (src : Byte) (tag : Byte) (args : List Byte) :
    Statement (.readHolds t src tag args) := by
  intro h s g k e
  simp_all [Instr.wellFormed, requestOk, sourceOk, Sys2Proof.Machine.requestOf]

theorem hold (t : Nat) (src : Byte) (tag : Byte) (args : List Byte) :
    Statement (.hold t src tag args) := by
  intro h s g k e
  simp_all [Instr.wellFormed, requestOk, sourceOk, Sys2Proof.Machine.requestOf]

theorem ackHold (t : Nat) (src : Byte) (tag : Byte) (args : List Byte) :
    Statement (.ackHold t src tag args) := by
  intro h s g k e
  simp_all [Instr.wellFormed, requestOk, sourceOk, Sys2Proof.Machine.requestOf]

theorem readCabins (t : Nat) (src : Byte) (tag : Byte) (args : List Byte) :
    Statement (.readCabins t src tag args) := by
  intro h s g k e
  simp_all [Instr.wellFormed, requestOk, sourceOk, Sys2Proof.Machine.requestOf]

theorem readWind (t : Nat) (src : Byte) (tag : Byte) (args : List Byte) :
    Statement (.readWind t src tag args) := by
  intro h s g k e
  simp_all [Instr.wellFormed, requestOk, sourceOk, Sys2Proof.Machine.requestOf]

theorem unstow (t : Nat) (src : Byte) (tag : Byte) (args : List Byte) :
    Statement (.unstow t src tag args) := by
  intro h s g k e
  simp_all [Instr.wellFormed, requestOk, sourceOk, Sys2Proof.Machine.requestOf]

theorem stow (t : Nat) (src : Byte) (tag : Byte) (args : List Byte) :
    Statement (.stow t src tag args) := by
  intro h s g k e
  simp_all [Instr.wellFormed, requestOk, sourceOk, Sys2Proof.Machine.requestOf]

theorem start (t : Nat) (src : Byte) (tag : Byte) (args : List Byte) :
    Statement (.start t src tag args) := by
  intro h s g k e
  simp_all [Instr.wellFormed, requestOk, sourceOk, Sys2Proof.Machine.requestOf]

theorem stop (t : Nat) (src : Byte) (tag : Byte) (args : List Byte) :
    Statement (.stop t src tag args) := by
  intro h s g k e
  simp_all [Instr.wellFormed, requestOk, sourceOk, Sys2Proof.Machine.requestOf]

theorem resume (t : Nat) (src : Byte) (tag : Byte) (args : List Byte) :
    Statement (.resume t src tag args) := by
  intro h s g k e
  simp_all [Instr.wellFormed, requestOk, sourceOk, Sys2Proof.Machine.requestOf]

theorem resetBrake (t : Nat) (src : Byte) (tag : Byte) (args : List Byte) :
    Statement (.resetBrake t src tag args) := by
  intro h s g k e
  simp_all [Instr.wellFormed, requestOk, sourceOk, Sys2Proof.Machine.requestOf]

theorem setTrim (t : Nat) (src : Byte) (tag : Byte) (args : List Byte) :
    Statement (.setTrim t src tag args) := by
  intro h s g k e
  simp_all [Instr.wellFormed, requestOk, sourceOk, Sys2Proof.Machine.requestOf]

theorem openService (t : Nat) (src : Byte) (tag : Byte) (args : List Byte) :
    Statement (.openService t src tag args) := by
  intro h s g k e
  simp_all [Instr.wellFormed, requestOk, sourceOk, Sys2Proof.Machine.requestOf]

theorem beginClearDown (t : Nat) (src : Byte) (tag : Byte) (args : List Byte) :
    Statement (.beginClearDown t src tag args) := by
  intro h s g k e
  simp_all [Instr.wellFormed, requestOk, sourceOk, Sys2Proof.Machine.requestOf]

theorem closeService (t : Nat) (src : Byte) (tag : Byte) (args : List Byte) :
    Statement (.closeService t src tag args) := by
  intro h s g k e
  simp_all [Instr.wellFormed, requestOk, sourceOk, Sys2Proof.Machine.requestOf]

theorem armZone (t : Nat) (src : Byte) (tag : Byte) (args : List Byte) :
    Statement (.armZone t src tag args) := by
  intro h s g k e
  simp_all [Instr.wellFormed, requestOk, sourceOk, Sys2Proof.Machine.requestOf]

theorem unknownRequest (t : Nat) (src : Byte) (tag : Byte) (kind : Byte) (args : List Byte) :
    Statement (.unknownRequest t src tag kind args) := by
  intro h s g k e
  simp_all [Instr.wellFormed, requestOk, sourceOk, Sys2Proof.Machine.requestOf]

theorem rotationUpdate (t : Nat) :
    Statement (.rotationUpdate t) := by
  intro _ s g k e
  cases e

theorem windEvaluation (t : Nat) :
    Statement (.windEvaluation t) := by
  intro _ s g k e
  cases e

theorem dwellExpiry (t : Nat) :
    Statement (.dwellExpiry t) := by
  intro _ s g k e
  cases e

theorem settlingEnd (t : Nat) :
    Statement (.settlingEnd t) := by
  intro _ s g k e
  cases e

theorem encoderLapse (t : Nat) (head : EncoderId) :
    Statement (.encoderLapse t head) := by
  intro _ s g k e
  cases e

theorem staleEvent (t : Nat) (cabin : Cabin) :
    Statement (.staleEvent t cabin) := by
  intro _ s g k e
  cases e

theorem headLapse (t : Nat) (head : Fin 4) :
    Statement (.headLapse t head) := by
  intro _ s g k e
  cases e

theorem driveLapse (t : Nat) (drive : Fin 4) :
    Statement (.driveLapse t drive) := by
  intro _ s g k e
  cases e

theorem serviceKeyChange (level : KeyLevel) :
    Statement (.serviceKeyChange level) := by
  intro _ s g k e
  cases e

end Sys2Proof.Laws.RequestSource
end

