-- ==== Sys2Proof/Tests/Slice0.lean ====
section
/-! SUPPORT. Small tests: ill-formed commands are refused, single commands do what the spec's tables and
worked cases say, and every statement's hypotheses are met somewhere. -/

namespace Sys2Proof.Tests

open Sys2Proof Sys2Proof.Machine

/-! ### States that the tests start from -/

/-- The octet of a number below 256. -/
def byte (n : Nat) : Byte := BitVec.ofNat 8 n

/-- A cabin that stands in a zone with its door locked. -/
def cabinIn (z : Zone) : CabinRecord :=
  { resetCabin with door := .locked, occupancy := 4, lastReport := some 0, location := some z }

/-- A wheel in service: running, open, cabin 1 in UNLOAD at 3,808 mm and cabin 0 in LOAD at 12,000 mm. -/
def serving : State :=
  let at12 : EncoderHead := { latest := some 12000, taken := some 0, health := .ok, fresh := true }
  { State.reset with
    tracker := { headA := at12, headB := at12, disagreements := 0, latch := false, accepted := .dual 12000
                 occ := { unload := { occupant := some 1, past := false }
                          load := { occupant := some 0, past := false } } }
    cabins := ((Vector.replicate 48 resetCabin).set 0 (cabinIn .load)).set 1 (cabinIn .unload)
    service := { mode := .opened, list := [], fMode := 100 }
    grader := { computed := 0, headsShort := false, inForce := 0, dwell := none, settling := none }
    holds := { records := [], resumeRequired := false }
    rot := { wheel := .running, stopPending := false, vCmd := 100, vLim := 4161 }
    drives := Vector.replicate 4
      { reportedReady := true, fault := 0, speed := 90, lastReport := some 0, fresh := true, ready := true }
    heads := Vector.replicate 4
      { health := .ok, lastSample := some 0, fresh := true, ring := List.replicate 12 120, entered := 12
        acc := 28160, initialized := true, sector := some 2, gust := 120, sustained := 110 } }

/-- The same with another wheel state. -/
def wheelAt (w : Wheel) (v : Nat) (s : State) : State :=
  s.setRot { s.rot with wheel := w, stopPending := w.pendsStop, vCmd := v }

/-- The same with another service mode. -/
def modeAt (m : ServiceMode) (s : State) : State := s.setService { s.service with mode := m }

/-- The same with another grade in force. -/
def gradeAt (g : Grade) (s : State) : State := s.setGrader { s.grader with computed := g, inForce := g }

/-- The same with some hold records. -/
def holding (hs : List Hold) (s : State) : State :=
  s.setHolds { s.holds with records := hs.map (fun h => { what := h, raised := 0, acked := false }) }

/-- What a command leaves has a property. -/
def after (c : Instr) (s : State) (p : State → Bool) : Bool :=
  match exec c s with
  | .next u => p u
  | _ => false

/-- The RESPONSE that ring-out starts with, on an idle ring: result and data. -/
def reply (u : State) : List Byte :=
  match u.ring.ringOut with
  | .sending f _ => f.payload.drop 2
  | .idle => []

/-- A standing wheel, closed, ready to start. -/
def standing : State := wheelAt .standby 0 (modeAt .closed serving)

/-- A wheel in service with ring-out in the middle of a forwarded frame, and one frame of each sort waiting. -/
def midFrame : State :=
  serving.setRing
    { resetRing with
      forward := [{ dest := 40, source := 20, kind := 0x77, payload := [] }]
      responses := [{ dest := 0, source := 32, kind := 0x62, payload := [] }]
      ringOut := .sending { dest := 41, source := 20, kind := 0x77, payload := [] } true }

/-- A wheel in service whose grade 2 would fall to 0 at 300,500 ms. -/
def dwelling : State :=
  serving.setGrader
    { serving.grader with
      computed := 0
      inForce := 2
      dwell := some { start := 500, grade := 2, length := 300000, highest := 0 } }

/-- A wheel in service with CENTI heads of height factor 900. -/
def centiHeads : State :=
  serving.setTables
    { serving.tables with
      heads := Vector.replicate 4 { enabled := true, unit := .centi, factor := 900, shift := 8 } }

/-- A wheel in service with cabin 1 past the cutoff of UNLOAD. -/
def pastCutoff : State :=
  serving.setTracker
    { serving.tracker with
      occ := { unload := { occupant := some 1, past := true }, load := { occupant := none, past := false } } }

/-- A wheel in service with 8 responses waiting. -/
def fullResponses : State :=
  serving.setRing
    { resetRing with
      responses := List.replicate 8 { dest := 0, source := 32, kind := 0x62, payload := [] }
      ringOut := .sending { dest := 41, source := 20, kind := 0x77, payload := [] } true }

/-- A wheel in service with every notice class masked. -/
def loneParams : State :=
  serving.setTables { serving.tables with params := serving.tables.params.set 26 0 }

/-- A wheel in service with no console. -/
def noConsole : State := serving.setTables { serving.tables with roster := serving.tables.roster.set 0 62 }

/-- A wheel in service with 16 notices waiting. -/
def fullNotices : State :=
  serving.setRing
    { resetRing with
      notices := List.replicate 16 { dest := 0, source := 32, kind := 0x68, payload := [1] }
      ringOut := .sending { dest := 41, source := 20, kind := 0x77, payload := [] } true }

/-- A wheel in service with cabin 1 released at 50 ms. -/
def released : State :=
  serving.setCabin 1 { cabinIn .unload with cycle := .releaseSent, releaseTime := some 50 }

/-- A part in service whose ring-in still carries the frame that was under way at the release. -/
def underWay : State := serving.setLines { serving.lines with underWay := true }

/-- A wheel in service whose clear-down list holds the cabin in UNLOAD alone, now empty. -/
def clearing : State :=
  let s := serving.setCabin 1 { cabinIn .unload with occupancy := 0 }
  s.setService { mode := .clearDown, list := [1], fMode := 100 }

/-- A wheel held for an ATTENDED overrun of UNLOAD by cabin 5, with cabin 1 past the cutoff there. -/
def attended : State :=
  let s := holding [.zoneOverrun .unload 5] (wheelAt .held 0 pastCutoff)
  let s := s.setCabin 5 { resetCabin with door := .locked }
  s.setTables
    { s.tables with zones := { s.tables.zones with unload := { s.tables.zones.unload with release := .attended } } }

/-- A wheel at reference 0 whose four drives report a speed. -/
def turning (speed : Nat) (w : Wheel) (s : State) : State :=
  wheelAt w 0 (s.setDrives
    (Vector.replicate 4
      { resetDrive with lastReport := some 0, fresh := true, reportedReady := true, ready := true, speed := speed }))

/-- A wheel held for cabin 1 at one above its capacity. -/
def heavy : State :=
  let s := serving.setCabin 1 { cabinIn .unload with occupancy := 26, overloaded := true }
  holding [.cabinOverload 1] (wheelAt .held 0 s)

/-- A wheel in service with cabin 0 boarding in LOAD. -/
def boarding : State := serving.setCabin 0 { cabinIn .load with door := .opened, cycle := .cycling }

/-- A wheel in service with the key line at MAINTAIN. -/
def maintained : State := serving.setLines { serving.lines with svcKey := .maintain }

/-! ### Ill-formed commands are refused (R3, sections 1.2 and 1.9; R113, R151) -/

theorem test_wellFormed_source :
    (Instr.unlock 0 63 62 0).wellFormed = false ∧ (Instr.unlock 0 63 61 0).wellFormed = true := by decide

theorem test_wellFormed_dest :
    (Instr.lock 0 62 0 0).wellFormed = false ∧ (Instr.lock 0 64 0 0).wellFormed = false ∧ (Instr.lock 0 63 0
    0).wellFormed = true := by decide

theorem test_wellFormed_payload :
    (Instr.allStop 0 63 0 (List.replicate 65 0)).wellFormed = false ∧ (Instr.allStop 0 63 0 (List.replicate
    64 0)).wellFormed = true := by
  set_option maxRecDepth 4000 in decide

theorem test_wellFormed_request :
    (Instr.hold 0 62 0 []).wellFormed = false ∧ (Instr.hold 0 0 0 (List.replicate 63 0)).wellFormed = false
    ∧ (Instr.hold 0 0 0 (List.replicate 62 0)).wellFormed = true := by
  set_option maxRecDepth 4000 in decide

theorem test_wellFormed_load :
    (Instr.loadRules 0 62 0 []).wellFormed = false ∧ (Instr.loadRules 0 0 0 (List.replicate 62
    0)).wellFormed = false ∧ (Instr.loadRules 0 0 0 (List.replicate 61 0)).wellFormed = true := by
  set_option maxRecDepth 4000 in decide

theorem test_wellFormed_expiry :
    (Instr.rotationUpdate 0).wellFormed = false ∧ (Instr.rotationUpdate 150).wellFormed = false ∧
    (Instr.rotationUpdate 200).wellFormed = true ∧ (Instr.windEvaluation 700).wellFormed = false ∧
    (Instr.windEvaluation 1000).wellFormed = true := by decide

theorem test_no_word_spells_a_command :
    decodeTableWord 0 0 = none ∧ decodeTableWord 32 7 = none := by decide

/-! ### The spec's test value and worked numbers -/

/-- The test value of R4. -/
theorem test_check_value :
    check [0x31, 0x32, 0x33, 0x34, 0x35, 0x36, 0x37, 0x38, 0x39] = 0x29B1 := by
  set_option maxRecDepth 4000 in decide

/-- The example of R31. -/
theorem test_coordinates :
    coordinate 154754 17 = 15490 ∧ coordinate 154754 18 = 7298 ∧ coordinate 154754 19 = 392322 := by decide

/-- The example of R28. -/
theorem test_circular_difference : circularDifference 393200 20 = 36 := by decide

/-- The example of R99. -/
theorem test_corrected_speed :
    correctedSpeed { enabled := true, unit := .centi, factor := 1280, shift := 8 } 1236 = 155 := by decide

/-- The worked case of R101. -/
theorem test_accumulator :
    accumulate true 28160 126 8 = 28176 ∧ accumulate true 28176 100 8 = 28165 ∧ accumulate false 28160 126 8
    = 32256 := by decide

/-- V_svc for P0 = 1,512 (the table of R152). -/
theorem test_default_speed_limit : serving.speedLimit = 4161 := by decide

/-! ### Commands do what their tables say -/

theorem test_reset_assert_cuts_ring_out :
    after (.resetAssert) midFrame (fun u => u.lines.inReset && u.ring.ringOut == .idle && u.tables.locks ==
    0x7F) = true := by decide

theorem test_power_on_reset :
    after (.powerOnReset ⟨5, false⟩) serving (fun u => u.ownAddress == 37 && u.rot.wheel == .stowed &&
    !u.lines.inReset && u.holds.records.length == 3) = true := by decide

/-- A frame already under way at the release is discarded (R2). -/
theorem test_frame_under_way_is_discarded :
    after (.lock 50 3 20 47) underWay (fun u => u.ring.ringOut == .idle && u.ring.doorQueue == [] &&
    !u.lines.underWay && u.lines.now == 50) = true := by decide

theorem test_position_report_dual :
    after (.position 50 63 8 12500 0) serving (fun u => u.tracker.accepted == .dual 12500 &&
    u.tracker.headA.taken == some 50) = true := by decide

theorem test_position_crosses_out :
    after (.position 50 63 8 17700 1) serving (fun u => u.tracker.accepted == .single 12000 &&
    !u.tracker.headA.fresh) = true := by decide

/-- The worked sample of section 6.4: raw speed 1,437, direction 96. -/
theorem test_wind_worked_case :
    after (.wind 50 63 12 1437 96 0) centiHeads (fun u => (u.head 2).acc == 28176 && (u.head 2).sector ==
    some 2 && (u.head 2).sustained == 110 && (u.head 2).ring.getLast? == some 126) = true := by decide

theorem test_door_report_opens_cycle :
    after (.doorReport 50 63 3 1 2 4) serving (fun u => (u.cabin 1).door == .opened && (u.cabin 1).cycle ==
    .cycling) = true := by decide

theorem test_door_report_breach :
    after (.doorReport 50 63 3 2 2 4) serving (fun u => u.breachCabins == [2] && u.rot.wheel == .stopping
    .held) = true := by decide

/-- The row at 30,000 of chapter 10: drive 2 reports ready with fault 0x1C. -/
theorem test_drive_status_fault :
    after (.driveStatus 50 63 6 1 0x1C 0) serving (fun u => u.readyCount == 3 && !(u.drive 2).ready &&
    (u.drive 2).fault == 0x1C) = true := by decide

theorem test_unlock_forwarded :
    after (.unlock 50 3 1 1) serving (fun u => (u.cabin 1).cycle == .releaseSent && u.ring.ringOut ==
    .sending ⟨3, 32, 0x32, [1, 1]⟩ false) = true := by decide

theorem test_unlock_without_permit :
    after (.unlock 50 3 2 0) serving (fun u => (u.cabin 0).cycle == .idle && u.ring.ringOut == .sending ⟨2,
    32, 0x68, [8, 1, 0, 0x0B]⟩ false) = true := by decide

theorem test_lock_forwarded :
    after (.lock 50 3 20 47) serving (fun u => u.ring.ringOut == .sending ⟨3, 32, 0x32, [47, 2]⟩ false) =
    true := by decide

theorem test_lock_denied :
    after (.lock 50 3 20 48) serving (fun u => u.ring.ringOut == .sending ⟨20, 32, 0x68, [8, 2, 48, 1]⟩
    false) = true := by decide

theorem test_all_stop_brakes :
    after (.allStop 50 32 20 [5, 6]) serving (fun u => u.rot.wheel == .braked && u.rot.vCmd == 0 &&
    u.ring.ringOut == .sending ⟨32, 20, 0x5A, [5, 6]⟩ true && u.holds.resumeRequired) = true := by decide

theorem test_strip_own_all_stop :
    after (.strip 50 63 0x5A []) serving (fun u => u.rot.wheel == .running && u.ring.forward == []) = true := by decide

theorem test_foreign_drive_frame :
    after (.foreignDriveFrame 50 4 20 .driveRef [1, 2, 0, 0]) serving (fun u => u.ring.forward == [] &&
    u.ring.ringOut == .idle) = true := by decide

theorem test_other_frame_forwarded :
    after (.otherFrame 50 (Frame.octets ⟨40, 20, 0x77, [1]⟩)) serving (fun u => u.ring.ringOut == .sending
    ⟨40, 20, 0x77, [1]⟩ true) = true := by
  set_option maxRecDepth 4000 in decide

theorem test_other_frame_bad_check :
    after (.otherFrame 50 [40, 20, 0x77, 1, 1, 0, 0]) serving (fun u => u.ring.ringOut == .idle) = true := by
  set_option maxRecDepth 4000 in decide

theorem test_frame_send_end_sends_own_next :
    after (.frameSendEnd 50) midFrame (fun u => u.ring.ringOut == .sending ⟨0, 32, 0x62, []⟩ false &&
    u.ring.forward.length == 1) = true := by decide

theorem test_read_status :
    after (.readStatus 50 0 9 []) serving (fun u => (reply u).length == 24 && (reply u).take 6 == [0, 2,
    0xFF, 0, 1, 0]) = true := by decide

/-- ZONES from index 1 with count 2: entry 1, then entry 0 (R171, R173). -/
theorem test_read_table_wraps :
    after (.readTable 50 0 9 [4, 1, 2]) serving (fun u => (reply u).take 6 == [0, 4, 1, 2, 0x27, 0x10] &&
    (reply u).drop 12 == [0x03, 0xE8, 0x23, 0x28, 0x09, 0xC4, 0, 0]) = true := by decide

theorem test_load_roster_moves_drive :
    after (.loadRoster 50 0 9 [4, 20]) (wheelAt .stowed 0 serving) (fun u => u.role 4 == 20 && !(u.drive
    0).fresh && reply u == [0]) = true := by decide

theorem test_load_pass_drops :
    after (.loadPass 50 0 9 [0, 3, 64, 255, 0x77]) (wheelAt .stowed 0 serving) (fun u => reply u == [1, 2]
    && u.tables.pass[0] == ⟨.drop, some 63, none, some 0x77⟩) = true := by decide

theorem test_load_cabins_clamps :
    after (.loadCabins 50 0 9 [47, 1, 41, 0, 0]) (wheelAt .stowed 0 serving) (fun u => reply u == [1, 2] &&
    u.cabinEntry 47 == ⟨true, 40⟩ && u.cabinEntry 32 == ⟨false, 1⟩) = true := by decide

theorem test_load_zones_refused :
    after (.loadZones 50 0 9 [1, 0, 100, 8, 0, 3, 0, 0, 0]) (wheelAt .stowed 0 serving) (fun u => reply u ==
    [0x21] && u.tables == serving.tables) = true := by decide

theorem test_load_parameters_clamps :
    after (.loadParameters 50 0 9 [26, 0xFF, 0xFF, 0, 9]) (wheelAt .stowed 0 serving) (fun u => u.p 26 ==
    0xFE && u.p 27 == 1 && reply u == [1, 1]) = true := by decide

theorem test_load_heads_restarts :
    after (.loadHeads 50 0 9 [2, 1, 0, 4, 0, 8, 0]) (wheelAt .stowed 0 serving) (fun u => (u.head 2).entered
    == 0 && (u.head 2).fresh && (u.head 1).entered == 12 && u.grader.settling == some 10050) = true := by decide

theorem test_load_rules_locked :
    after (.loadRules 50 0 9 (0 :: List.replicate 12 0)) serving (fun u => reply u == [0x13] &&
    u.grader.settling == none) = true := by decide

theorem test_set_locks_by_key :
    after (.setLocks 50 0 9 [0x80]) maintained (fun u => u.tables.locks == 0 && reply u == [0]) = true := by decide

theorem test_set_locks_refused :
    after (.setLocks 50 0 9 [0]) serving (fun u => u.tables.locks == 0x7F && reply u == [0x14]) = true := by decide

theorem test_restart :
    after (.restart 50 0 9 []) standing (fun u => u.rot.wheel == .standby && u.grader.inForce == 4 &&
    u.holds.records.length == 3 && reply u == [0]) = true := by decide

theorem test_read_holds :
    after (.readHolds 7000 0 9 [0]) (holding [.zoneOverrun .load 5] serving) (fun u => reply u == [0, 1, 8,
    1, 5, 0, 0, 7]) = true := by decide

theorem test_hold_stops :
    after (.hold 50 0 9 []) serving (fun u => u.rot.wheel == .stopping .held && u.holds.resumeRequired &&
    reply u == [0]) = true := by decide

theorem test_ack_hold_clears_and_runs :
    after (.ackHold 50 0 9 [2, 0]) (holding [.consoleHold] (wheelAt .held 0 serving)) (fun u => u.rot.wheel
    == .running && u.holds.records == [] && reply u == [0]) = true := by decide

theorem test_ack_hold_marks :
    after (.ackHold 50 0 9 [3, 0]) (holding [.windStop] (wheelAt .held 0 serving)) (fun u => u.holds.records
    == [⟨.windStop, 0, true⟩] && reply u == [0]) = true := by decide

theorem test_read_cabins :
    after (.readCabins 50 0 9 [0, 2]) serving (fun u => reply u == [0, 0, 1, 0, 4, 2, 0, 0, 1, 1, 0, 4, 1,
    0, 0]) = true := by decide

theorem test_read_wind :
    after (.readWind 50 0 9 []) serving (fun u => (reply u).length == 39 && (reply u).take 11 == [0, 0, 0,
    4, 0, 120, 0, 110, 0, 0, 2]) = true := by decide

theorem test_unstow :
    after (.unstow 50 0 9 []) State.reset (fun u => u.rot.wheel == .standby && reply u == [0]) = true := by decide

theorem test_stow_closes :
    after (.stow 50 0 9 []) (modeAt .cleared standing) (fun u => u.rot.wheel == .stowed && u.service.mode ==
    .closed && reply u == [0]) = true := by decide

theorem test_start_runs :
    after (.start 50 0 9 []) standing (fun u => u.rot.wheel == .running && !u.holds.resumeRequired && reply
    u == [0]) = true := by decide

theorem test_start_refused :
    after (.start 50 0 9 []) (holding [.windStop] standing) (fun u => u.rot.wheel == .standby && reply u ==
    [0x12]) = true := by decide

theorem test_stop :
    after (.stop 50 0 9 []) serving (fun u => u.rot.wheel == .stopping .standby && u.rot.stopPending &&
    reply u == [0]) = true := by decide

theorem test_resume :
    after (.resume 50 0 9 []) (wheelAt .held 0 serving) (fun u => u.rot.wheel == .running && reply u == [0])
    = true := by decide

theorem test_reset_brake :
    after (.resetBrake 50 0 9 []) (wheelAt .braked 0 serving) (fun u => u.rot.wheel == .held &&
    u.holds.resumeRequired && reply u == [0]) = true := by decide

theorem test_set_trim_clamps :
    after (.setTrim 50 0 9 [49]) serving (fun u => u.p 4 == 50 && reply u == [1, 1]) = true := by decide

theorem test_open_service :
    after (.openService 50 0 9 []) standing (fun u => u.service.mode == .opened && reply u == [0]) = true := by decide

theorem test_begin_clear_down :
    after (.beginClearDown 50 0 9 []) serving (fun u => u.service.mode == .clearDown && u.service.list ==
    [1, 0] && reply u == [0]) = true := by decide

theorem test_close_service :
    after (.closeService 50 0 9 []) (modeAt .cleared serving) (fun u => u.service.mode == .closed && reply u
    == [0]) = true := by decide

theorem test_arm_zone :
    after (.armZone 50 2 9 [1]) serving (fun u => u.permits.load == .armed 0 && reply u == [0]) = true := by decide

theorem test_unknown_request :
    after (.unknownRequest 50 0 9 0x77 []) serving (fun u => reply u == [0x22]) = true := by decide

/-- Δ_up is 16 at P1 = 10 (R153); the first DRIVE_REF starts. -/
theorem test_rotation_update_ramps :
    after (.rotationUpdate 100) serving (fun u => u.rot.vCmd == 116 && u.rot.vLim == 4161 && u.ring.ringOut
    == .sending ⟨4, 32, 0x41, [0, 116, 0, 1]⟩ false && u.ring.driveSet.length == 4) = true := by decide

/-- P21 is 300 s by default (R117). -/
theorem test_wind_evaluation_falls :
    after (.windEvaluation 500) (gradeAt 2 serving) (fun u => u.grader.inForce == 2 && u.grader.dwell ==
    some ⟨500, 2, 300000, 0⟩) = true := by decide

theorem test_dwell_expiry_falls :
    after (.dwellExpiry 300500) dwelling (fun u => u.grader.inForce == 0 && u.grader.dwell == none) = true := by decide

theorem test_settling_end :
    after (.settlingEnd 10000) State.reset (fun u => u.grader.settling == none && u.grader.inForce == 4) =
    true := by decide

theorem test_encoder_lapse :
    after (.encoderLapse 201 .a) serving (fun u => !u.tracker.headA.fresh && u.tracker.accepted == .single
    12000) = true := by decide

/-- An age of exactly P15 does not exceed it (R27). -/
theorem test_encoder_lapse_not_due :
    after (.encoderLapse 200 .a) serving (fun u => u.tracker.headA.fresh && u.tracker.accepted == .dual
    12000) = true := by decide

theorem test_stale_event :
    after (.staleEvent 4001 1) serving (fun u => (u.cabin 1).door == .unknown && (u.cabin 1).occupancy == 4)
    = true := by decide

theorem test_head_lapse :
    after (.headLapse 2001 0) serving (fun u => !(u.head 0).fresh && (u.head 0).entered == 0) = true := by decide

theorem test_drive_lapse :
    after (.driveLapse 501 3) serving (fun u => u.readyCount == 3 && !(u.drive 3).fresh) = true := by decide

theorem test_service_key_change :
    after (.serviceKeyChange .maintain) serving (fun u => u.lines.svcKey == .maintain && u.tables.locks ==
    0x7F) = true := by decide

/-! ### Every statement's hypotheses are met (one witness each, at the boundaries of its clauses) -/

theorem witness_StepTakesTheFrontCommand : State.reset.pending = [] := by decide

theorem witness_ResetAndKeyLines :
    (serving.setLines { serving.lines with inReset := true }).lines.inReset = true ∧ timed (.hold 50 0 9 [])
    = true ∧ after (.hold 50 0 9 []) serving (fun _ => true) = true := by decide

/-- A frame that ends is the one under way, whatever it holds; a rotation update is none. -/
theorem witness_ResetAndKeyLines_frame_under_way :
    underWay.lines.inReset = false ∧ underWay.lines.underWay = true ∧ (underWay.frameOf (.lock 50 3 20
    47)).isSome = true ∧ underWay.frameOf (.otherFrame 50 []) = none ∧ after (.otherFrame 50 []) underWay
    (fun u => !u.lines.underWay) = true ∧ after (.rotationUpdate 100) underWay (fun u => u.lines.underWay) =
    true := by decide

/-- The shortest payload and the longest; the greatest addresses. -/
theorem witness_FrameOctetsReadBack :
    (Frame.wellFormed ⟨63, 61, 0, []⟩) = true ∧ (Frame.wellFormed ⟨0, 0, 255, List.replicate 64 7⟩) = true ∧
    readFrame (Frame.octets ⟨63, 61, 0x5A, []⟩) = some ⟨63, 61, 0x5A, []⟩ := by
  set_option maxRecDepth 4000 in decide

theorem witness_MalformedFramesAreDiscarded :
    serving.receiving ∧ (List.length ([63, 61, 0, 0, 0] : List Byte)) < 6 ∧ Frame.wellFormed ⟨62, 0, 0x21,
    []⟩ = false ∧ serving.frameOf (.lock 5 62 0 0) = some (5, doorCommandFrame 62 0 0 2) ∧ (doorCommandFrame
    62 0 0 2).wellFormed = false := by decide

/-- A wrong check, destinations 62 and 64, source 62, length 65, and a length that differs from the octets. -/
theorem witness_MalformedFrames_clauses :
    readFrame [63, 61, 0x5A, 0, 0, 0] = none ∧ readFrame [62, 0, 1, 0, 0, 0] = none ∧ readFrame [64, 0, 1,
    0, 0, 0] = none ∧ readFrame [0, 62, 1, 0, 0, 0] = none ∧ readFrame [0, 0, 1, 65, 0, 0] = none ∧
    readFrame [0, 0, 1, 1, 0, 0] = none := by
  set_option maxRecDepth 4000 in decide

theorem witness_FrameRowsAgreeWithReception :
    serving.frameOf (.lock 5 63 61 0) = some (5, doorCommandFrame 63 61 0 2) ∧ (doorCommandFrame 63 61 0
    2).wellFormed = true := by decide

theorem witness_OwnAndForeignDriveFrames :
    serving.receiving ∧ serving.frameOf (.allStop 5 63 32 []) = some (5, allStopFrame 63 32 []) ∧
    serving.ownAddress = 32 ∧ readFrame (Frame.octets ⟨4, 20, 0x41, []⟩) = some ⟨4, 20, 0x41, []⟩ ∧
    readFrame (Frame.octets ⟨63, 20, 0x42, []⟩) = some ⟨63, 20, 0x42, []⟩ := by
  set_option maxRecDepth 4000 in decide

theorem witness_OtherFramesPassOn :
    let f : Frame := ⟨40, 20, 0x77, []⟩; serving.receiving ∧ readFrame f.octets = some f ∧ f.source ≠
    serving.ownAddress ∧ f.kind ≠ 0x41 ∧ f.kind ≠ 0x42 ∧ f.kind ≠ 0x32 ∧ f.kind ≠ 0x5A ∧ f.dest ≠
    serving.ownAddress ∧ f.dest ≠ 63 := by
  set_option maxRecDepth 4000 in decide

/-- A REQUEST to the part that is too short, and a broadcast POSITION that R14 observes. -/
theorem witness_OtherFramesPassOn_to_the_part :
    let f : Frame := ⟨32, 20, 0x61, [9]⟩; let g : Frame := ⟨63, 8, 0x21, [0, 0, 0, 0]⟩; readFrame f.octets =
    some f ∧ f.payload.length < 2 ∧ readFrame g.octets = some g ∧ (g.kind = 0x21 ∧ g.payload.length = 4 ∧
    g.source = serving.role roleEncoderA) := by
  set_option maxRecDepth 4000 in decide

theorem witness_ArbiterChooses :
    midFrame.lines.inReset = false ∧ midFrame.ring.ownFrames ≠ [] ∧ midFrame.ring.forward ≠ [] ∧
    serving.ring.ownFrames = [] ∧ serving.ring.forward = [] := by decide

theorem witness_DoorItemsAndNotices :
    let u : DoorItem := ⟨.unlock, ⟨3, 32, 0x32, [1, 1]⟩⟩; let l : DoorItem := ⟨.lock, ⟨3, 32, 0x32, [1,
    2]⟩⟩; (List.replicate 7 u).length < 8 ∧ (List.replicate 8 u).length = 8 ∧ l.what = .lock ∧ u.what ≠
    .lock ∧ (List.replicate 8 l).length = 8 ∧ (∀ x ∈ List.replicate 8 l, x.what = .lock) ∧ arriveDoor ([l]
    ++ u :: List.replicate 6 u) l = [l] ++ List.replicate 6 u ++ [l] := by decide

theorem witness_Notices_clauses :
    (Notice.stateChanged .held).cls ≤ 7 ∧ (serving.p 26).testBit (Notice.stateChanged .held).cls = true ∧
    serving.role roleConsole = 0 ∧ serving.ring.notices.length < 16 := by decide

theorem witness_PositionReportsReachTheTracker :
    serving.hears 8 ∧ serving.hears 9 ∧ destTaken 63 ∧ destTaken 0 ∧ (8 : Byte) = serving.role (encoderRole
    .a) ∧ (9 : Byte) = serving.role (encoderRole .b) ∧ (9 : Byte) ≠ serving.role roleEncoderA ∧ (393215 :
    BitVec 24).toNat < 393216 ∧ serving.tracker.headA.latest ≠ none ∧ serving.tracker.headB.latest ≠ none := by decide

/-- The third disagreement latches; a difference of exactly P14 agrees, one more disagrees (R28). -/
theorem witness_PositionReports_latch :
    after (.position 50 63 8 12101 0) (serving.setTracker { serving.tracker with disagreements := 2 }) (fun
    u => u.tracker.latch && u.holdsKey .encoderDisagree && u.tracker.accepted == .invalid) = true ∧ after
    (.position 50 63 8 12060 0) serving (fun u => u.tracker.disagreements == 0) = true ∧ after (.position 50
    63 8 12061 0) serving (fun u => u.tracker.disagreements == 1) = true := by decide

/-- Cabin 1 stands at the end of UNLOAD, 9,000 mm, at a position of 17,192 mm: empty it leaves the list, occupied it goes to the tail (R87, R91). -/
theorem witness_PositionReports_passage :
    after (.position 50 63 8 17191 0) clearing (fun u => u.service == clearing.service) = true ∧ after
    (.position 50 63 8 17192 0) clearing (fun u => u.service.mode == .cleared && u.service.list == [] &&
    (u.occ .unload).occupant == none) = true ∧ after (.position 50 63 8 17192 0) (clearing.setCabin 1
    (cabinIn .unload)) (fun u => u.service.list == [1]) = true := by decide

/-- The cutoff of LOAD stands at 15,500 mm, its end at 18,000 mm (R34, R49, R70). -/
theorem witness_PositionReports_crossing :
    let moving := boarding; after (.position 50 63 8 15499 0) moving (fun u => !u.holdsKey (.zoneOverrun
    .load)) = true ∧ after (.position 50 63 8 15500 0) moving (fun u => u.holdsKey (.zoneOverrun .load)) =
    true ∧ after (.position 50 63 8 15500 0) serving (fun u => !u.holdsKey (.zoneOverrun .load)) = true ∧
    after (.position 50 63 8 18000 0) moving (fun u => u.breachCabins == [0] && (u.cabin 0).cycle == .idle)
    = true := by decide

theorem witness_ReportsOutOfRange :
    serving.hears 8 ∧ destTaken 63 ∧ 393216 ≤ (393216 : BitVec 24).toNat ∧ 48 ≤ (48 : Byte).toNat := by decide

/-- The zone holds its start and not its end; past the cutoff from end − cutoff on; a distance of 0 is a revolution. -/
theorem witness_OccupantsAndOrderKeys :
    defaultZones.load.start ≤ 32767 ∧ defaultZones.load.start + 1000 ≤ defaultZones.load.finish ∧
    defaultZones.load.finish ≤ defaultZones.load.start + 8191 ∧ 500 ≤ defaultZones.load.cutoff ∧
    defaultZones.load.cutoff + 500 ≤ defaultZones.load.finish - defaultZones.load.start ∧ coordinate 10000 0
    = 10000 ∧ (occupancyAt 17999 defaultZones.load).occupant = some 0 ∧ (occupancyAt 18000
    defaultZones.load).occupant = none ∧ (occupancyAt 15500 defaultZones.load).past = true ∧ (occupancyAt
    15499 defaultZones.load).past = false ∧ (0 : Cabin) ≠ 1 ∧ (0 : Nat) < 393216 ∧ orderKey 9000 9000 0 =
    393216 := by decide

theorem witness_WindSamplesReachTheirHead :
    serving.hears 12 ∧ destTaken 63 ∧ (12 : Byte) = serving.role (headRole 2) ∧ (∀ m, (12 : Byte) =
    serving.role (headRole m) → m = 2) := by decide

theorem witness_DoorReportsReachTheCabinRecord :
    serving.hears 3 ∧ destTaken 63 ∧ (3 : Byte) = serving.role roleConcentrator ∧ (47 : Byte).toNat = (47 :
    Cabin).val ∧ (serving.cabin 2).location = none ∧ serving.tracker.accepted ≠ .invalid ∧ (serving.cabin
    1).location = some .unload ∧ (serving.cabin 1).overloaded = false := by decide

/-- A capacity of 25 is met at 25 and not at 26 (R52, R148). -/
theorem witness_DoorReports_overload_clears :
    let s := heavy; s.holds.resumeRequired = false ∧ s.holds.records.find? (fun r => r.what.key ==
    .cabinOverload) = some ⟨.cabinOverload 1, 0, false⟩ ∧ after (.doorReport 50 63 3 1 0 25) s (fun u =>
    u.rot.wheel == .running && u.holds.records == []) = true ∧ after (.doorReport 50 63 3 1 0 26) s (fun u
    => u.rot.wheel == .held && u.holds == s.holds) = true := by decide

theorem witness_DriveReportsReachTheirDrive :
    serving.hears 7 ∧ destTaken 63 ∧ (7 : Byte) = serving.role (driveRole 3) ∧ (∀ m, (7 : Byte) =
    serving.role (driveRole m) → m = 3) ∧ 2 ≤ serving.readyCount ∧ State.reset.readyCount < 2 := by decide

theorem witness_UnlocksThatPass :
    serving.hears 1 ∧ destTaken 3 ∧ (1 : Byte).toNat = (1 : Cabin).val ∧ (1 : Byte) = serving.role
    roleUnloadGate ∧ serving.tracker.accepted ≠ .invalid ∧ (serving.occ .unload).occupant = some 1 ∧
    (serving.occ .load).occupant ≠ some 1 ∧ serving.unlockVerdict 1 .unload 1 = none := by decide

/-- The console override releases past the cutoff (R65). -/
theorem witness_UnlocksThatPass_past_the_cutoff :
    let s := wheelAt .held 0 pastCutoff; (s.occ .unload).past = true ∧ s.unlockVerdict 0 .unload 1 = none ∧
    after (.unlock 50 3 0 1) s (fun u => u.holdsKey (.zoneOverrun .unload)) = true := by decide

theorem witness_UnlocksThatFail :
    serving.hears 1 ∧ serving.hears 20 ∧ destTaken 3 ∧ 48 ≤ (48 : Byte).toNat ∧ (2 : Byte).toNat = (2 :
    Cabin).val ∧ (20 : Byte) ≠ serving.role roleConsole ∧ State.reset.tracker.accepted = .invalid ∧
    (serving.occ .unload).occupant ≠ some 2 ∧ (serving.occ .load).occupant ≠ some 2 ∧ serving.unlockVerdict
    3 .unload 1 = some .wrongSource ∧ serving.unlockVerdict 2 .load 0 = some .noPermit ∧ (gradeAt 4
    serving).unlockVerdict 1 .unload 1 = some .wind := by decide

theorem witness_LocksAreForwarded : serving.hears 61 ∧ destTaken 63 := by decide

theorem witness_AllStopBrakes :
    serving.hears 61 ∧ destTaken 63 ∧ (List.length ([] : List Byte)) ≤ 64 ∧ serving.holdsKey .allStop =
    false ∧ serving.rot.wheel.moving = true ∧ (holding [.allStop 5 2] serving).holdsKey .allStop = true ∧
    standing.rot.wheel.moving = false := by decide

theorem witness_EveryRequestTakenIsAnsweredOnce :
    let c := Instr.armZone 5 1 9 []; requestOf c = some (1, 9, 0x48) ∧ serving.frameOf c = some (5,
    requestFrame 32 1 9 0x48 []) ∧ (requestFrame 32 1 9 0x48 []).wellFormed = true ∧ serving.hears 1 ∧
    serving.ring.responses.length < 8 ∧ fullResponses.hears 1 ∧ 8 ≤ fullResponses.ring.responses.length := by decide

theorem witness_EveryRequest_turned_away :
    requestOf (.unknownRequest 5 0 9 0x77 []) = some (0, 9, 0x77) ∧ (0 : Byte) = serving.role roleConsole ∧
    requestOf (.start 5 1 9 []) = some (1, 9, 0x32) ∧ (1 : Byte) = serving.role roleUnloadGate := by decide

theorem witness_ReadStatusReportsTheRecord :
    serving.takes 2 ∧ (2 : Byte) = serving.role roleLoadGate ∧ serving.takes 0 := by decide

/-- Start 15 of 16 and count 4 are read; start 16 and count 5 are not. -/
theorem witness_ReadTableReturnsStoredEntries :
    serving.takesConsole 0 ∧ Table.rules.code = 7 ∧ (15 : Byte).toNat < Table.rules.entries ∧
    Table.rules.entries ≤ (16 : Byte).toNat ∧ (4 : Byte).toNat ≤ Table.rules.readLimit ∧
    Table.rules.readLimit < (5 : Byte).toNat ∧ (∀ table ∈ [Table.roster, .pass, .cabins, .zones,
    .parameters, .heads, .rules], table.code ≠ 8) := by decide

theorem witness_LoadsStayWithinTheirPage :
    31 < Table.pass.entries ∧ (List.replicate 8 (0 : Byte)).length = 2 * Table.pass.size ∧
    Table.pass.pageIndex 31 1 = 16 ∧ Table.parameters.pageIndex 27 1 = 16 ∧ Table.zones.pageIndex 1 1 = 0 := by decide

theorem witness_HoldCabinAndWindReads :
    serving.takesConsole 0 ∧ 1 < (2 : Byte).toNat ∧ (40 : Byte).toNat + (8 : Byte).toNat ≤ 48 ∧ 48 < (41 :
    Byte).toNat + (8 : Byte).toNat ∧ 8 < (9 : Byte).toNat := by decide

theorem witness_LoadsAreJudgedInOrder :
    serving.takesConsole 0 ∧ (List.replicate 12 (0 : Byte)).length % Table.rules.size = 0 ∧ (15 :
    Byte).toNat < Table.rules.entries ∧ Table.rules.entries ≤ (16 : Byte).toNat ∧
    serving.tables.locks.getLsbD (Table.rules.code.toNat - 1) = true ∧ serving.rot.wheel ≠ .stowed := by decide

/-- A good entry, a 63, and a shared address. -/
theorem witness_RosterLoads :
    (wheelAt .stowed 0 serving).takesConsole 0 ∧ (wheelAt .stowed 0 serving).loadable .roster 13 [62] ∧
    (wheelAt .stowed 0 serving).loadable .roster 0 [63] ∧ (wheelAt .stowed 0 serving).loadable .roster 4 [5] := by decide

theorem witness_PassCabinAndRulesLoads :
    (wheelAt .stowed 0 serving).takesConsole 0 ∧ (wheelAt .stowed 0 serving).loadable .pass 31 [1, 255, 255,
    255] ∧ (wheelAt .stowed 0 serving).loadable .cabins 47 [0, 25] ∧ (wheelAt .stowed 0 serving).loadable
    .rules 15 (List.replicate 12 0) := by decide

theorem witness_ZoneLoads :
    (wheelAt .stowed 0 serving).takesConsole 0 ∧ (wheelAt .stowed 0 serving).loadable .zones 1 [0x27, 0x10,
    0x46, 0x50, 9, 0xC4, 1, 0] ∧ (wheelAt .stowed 0 serving).loadable .zones 1 [0, 100, 8, 0, 3, 0, 0, 0] := by decide

theorem witness_ParameterLoads :
    (wheelAt .stowed 0 serving).takesConsole 0 ∧ (wheelAt .stowed 0 serving).loadable .parameters 27 [0, 1]
    ∧ (wheelAt .stowed 0 serving).loadable .parameters 15 [0, 100] := by decide

theorem witness_HeadLoads :
    (wheelAt .stowed 0 serving).takesConsole 0 ∧ (wheelAt .stowed 0 serving).loadable .heads 3 [1, 0, 4, 0,
    8, 0] := by decide

theorem witness_SetLocksAndSetTrim :
    serving.takesConsole 0 ∧ maintained.takesConsole 0 ∧ serving.lines.svcKey = .operate ∧
    maintained.lines.svcKey = .maintain ∧ 50 ≤ (50 : Byte).toNat ∧ (100 : Byte).toNat ≤ 100 ∧ (49 :
    Byte).toNat < 50 ∧ 100 < (101 : Byte).toNat := by decide

theorem witness_Restart :
    standing.takesConsole 0 ∧ standing.rot.wheel = .standby ∧ standing.service.mode = .closed ∧
    serving.rot.wheel ≠ .stowed ∧ serving.rot.wheel ≠ .standby := by decide

/-- With V_cmd 0 and no fresh drive the wheel is at rest at once. -/
theorem witness_HoldStopsTheWheel :
    serving.takesConsole 0 ∧ serving.holdsKey .consoleHold = false ∧ serving.rot.wheel = .running ∧ (holding
    [.consoleHold] standing).holdsKey .consoleHold = true ∧ standing.rot.wheel ≠ .running ∧ after (.hold 5 0
    9 []) (wheelAt .running 0 (serving.setDrives (Vector.replicate 4 resetDrive))) (fun u => u.rot.wheel ==
    .held) = true := by decide

theorem witness_AckHold :
    let s := holding [.zoneOverrun .load 0] (wheelAt .held 0 serving); s.takesConsole 0 ∧ HoldKey.code
    (.zoneOverrun .load) = 8 ∧ Zone.code .load = 1 ∧ 9 < (10 : Byte).toNat ∧ s.holdsKey (.zoneOverrun
    .unload) = false ∧ s.holds.records.find? (fun x => x.what.key == .zoneOverrun .load) = some
    ⟨.zoneOverrun .load 0, 0, false⟩ ∧ (s.zone .load).release = .auto := by decide

theorem witness_AckHold_accepted :
    let s := holding [.cabinOverload 0] (wheelAt .held 0 serving); s.takesConsole 0 ∧ HoldKey.code
    .cabinOverload = 9 ∧ s.holds.records.find? (fun x => x.what.key == .cabinOverload) = some
    ⟨.cabinOverload 0, 0, false⟩ ∧ s.holds.resumeRequired = false ∧ s.rot.wheel = .held := by decide

theorem witness_AckHold_attended :
    attended.takesConsole 0 ∧ (attended.zone .unload).release = .attended ∧ (attended.cabin 5).location =
    none ∧ attended.occ .unload = { occupant := some 1, past := true } ∧ after (.ackHold 50 0 9 [8, 0])
    attended (fun u => u.rot.wheel == .running && u.holds.records == []) = true := by decide

theorem witness_UnstowStowAndResetBrake :
    State.reset.takesConsole 0 ∧ State.reset.rot.wheel = .stowed ∧ standing.rot.wheel = .standby ∧
    standing.service.mode = .closed ∧ (modeAt .cleared standing).service.mode = .cleared ∧ (modeAt .opened
    standing).service.mode = .opened ∧ (wheelAt .braked 0 serving).rot.wheel = .braked ∧ (∀ r ∈ (wheelAt
    .braked 0 serving).holds.records, r.what.key ≠ .allStop) ∧ (∃ r ∈ (holding [.allStop 5 2] (wheelAt
    .braked 0 serving)).holds.records, r.what.key = .allStop) := by decide

theorem witness_StartAndResume :
    standing.takesConsole 0 ∧ standing.rot.wheel = .standby ∧ standing.holds.records = [] ∧
    standing.tracker.accepted ≠ .invalid ∧ (holding [.windStop] standing).holds.records ≠ [] ∧ (wheelAt
    .held 0 serving).rot.wheel = .held ∧ (wheelAt .held 0 serving).holds.records = [] := by decide

/-- A fresh drive at 16 speed units is at rest (R149). -/
theorem witness_Stop :
    serving.takesConsole 0 ∧ serving.rot.wheel = .running ∧ (wheelAt (.stopping .held) 0 serving).rot.wheel
    = .stopping .held ∧ (wheelAt (.stopping .standby) 0 serving).rot.wheel = .stopping .standby ∧ (wheelAt
    .held 0 serving).rot.wheel = .held ∧ standing.rot.wheel = .standby ∧ after (.stop 5 0 9 []) (wheelAt
    .running 0 (serving.setDrives (Vector.replicate 4 { resetDrive with fresh := true, speed := 16 }))) (fun
    u => u.rot.wheel == .standby) = true := by decide

theorem witness_OpenAndCloseService :
    standing.takesConsole 0 ∧ standing.service.mode = .closed ∧ standing.grader.inForce.val < 3 ∧ 3 ≤
    (gradeAt 3 standing).grader.inForce.val ∧ serving.service.mode = .opened ∧ (modeAt .cleared
    serving).service.mode = .cleared ∧ (modeAt .clearDown serving).service.mode = .clearDown ∧ (wheelAt
    .braked 0 standing).rot.wheel = .braked := by decide

theorem witness_BeginClearDown :
    let empty := serving.setCabins (Vector.replicate 48 resetCabin); serving.takesConsole 0 ∧
    empty.takesConsole 0 ∧ serving.service.mode = .opened ∧ (List.finRange 48).filter (fun k => decide (0 <
    (serving.cabin k).occupancy)) = [0, 1] ∧ (List.finRange 48).filter (fun k => decide (0 < (empty.cabin
    k).occupancy)) = [] ∧ serving.tracker.accepted.value = some 12000 := by decide

theorem witness_ArmZone :
    serving.takes 2 ∧ (2 : Byte) = serving.role (gateRole .load) ∧ serving.service.mode = .opened ∧
    serving.grader.inForce ≠ 4 ∧ (serving.occ .load).occupant = some 0 ∧ serving.permits.get .load = .clear
    ∧ 1 < (2 : Byte).toNat ∧ (State.reset.occ .load).occupant = none ∧ (1 : Byte) ≠ serving.role (gateRole
    .load) := by decide

theorem witness_SignedDistance_ends :
    signedDistance 0 196607 = 196607 ∧ signedDistance 0 196608 = -196608 ∧ signedDistance 196608 0 = -196608
    ∧ signedDistance 196609 0 = 196607 ∧ signedDistance 0 (-500) = -500 := by decide

/-- 512 × 20 × 1 = 10,240 lies from 101² to 102²; 16 × P3 + Δ_dn is 6,432 at the defaults. -/
theorem witness_StoppingSpeedAndEmergency :
    let s := holding [.zoneOverrun .load 0] serving; stoppingSpeed 20 0 = 0 ∧ stoppingSpeed 20 1 = 101 ∧
    s.rot.wheel.moving = true ∧ s.tracker.accepted.value = some 12000 ∧ s.emergencyCause = none ∧
    standing.rot.wheel.moving = false ∧ (wheelAt .running 6433 serving).emergencyCause = some .ceiling ∧
    (wheelAt .running 6432 serving).emergencyCause = none := by decide

/-- The cabin stands at its emergency line. -/
theorem witness_EmergencyTest_trips :
    let s := holding [.cabinOverload 0] (serving.setTracker { serving.tracker with accepted := .dual 18000
    }); s.holds.records = [] ++ ⟨.cabinOverload 0, 0, false⟩ :: [] ∧ s.tracker.accepted.value = some 18000 ∧
    signedDistance (coordinate 18000 0) (s.zone .load).finish ≤ 0 ∧ 0 < s.rot.vCmd ∧ s.emergencyCause ≠ none := by decide

theorem witness_RotationUpdates :
    serving.lines.inReset = false ∧ serving.emergencyCause = none ∧ (modeAt .clearDown serving).service.mode
    = .clearDown ∧ serving.tracker.accepted.value = some 12000 := by decide

theorem witness_ReferenceKeepsItsLaws :
    (serving.rot.stopPending = true ↔ serving.rot.wheel = .stopping .standby) ∧ (serving.rot.wheel =
    .running → serving.holds.records = []) ∧ (serving.rot.wheel.moving = false → serving.rot.vCmd = 0) ∧
    (serving.rot.wheel = .stowed → serving.service.mode = .closed) ∧ after (.rotationUpdate 100) serving
    (fun u => decide (serving.rot.vCmd < u.rot.vCmd)) = true := by decide

theorem witness_TestsCompareAndCombine :
    combine 8 true true = true ∧ combine 7 true true = false ∧ combine 0 false false = false ∧ combine 15
    false false = true ∧ Comparison.inSet.holds 8 0xFFFF = false ∧ State.reset.siteFigures.sector = none := by decide

/-- Too few valid heads raise the grade to 4 at once. -/
theorem witness_Evaluations :
    serving.lines.inReset = false ∧ (∀ i : Fin 16, (serving.tables.rules[i]).enabled = false) ∧ serving.p 19
    ≤ serving.siteFigures.valid ∧ State.reset.siteFigures.valid < State.reset.p 19 ∧ after (.windEvaluation
    500) (serving.setHeads (Vector.replicate 4 resetHead)) (fun u => u.grader.inForce == 4 && u.holdsKey
    .windStop && u.service.mode == .clearDown) = true := by decide

theorem witness_SiteFigures :
    (serving.headEntry 0).enabled = true ∧ (serving.head 0).fresh = true ∧ 12 ≤ (serving.head 0).entered ∧
    (State.reset.head 0).fresh = false := by decide

theorem witness_ExpiriesAndLapses :
    let d : Dwell := ⟨500, 2, 300000, 0⟩; dwelling.lines.inReset = false ∧ dwelling.grader.dwell = some d ∧
    d.start + d.length ≤ 300500 ∧ 300499 < d.start + d.length ∧ d.highest < dwelling.grader.inForce ∧
    State.reset.grader.settling = some 10000 ∧ serving.p 15 < 201 - 0 ∧ ¬ serving.p 15 < 200 - 0 ∧
    (serving.tracker.head .a).taken = some 0 ∧ (serving.cabin 1).lastReport = some 0 ∧ (serving.head
    0).lastSample = some 0 ∧ (serving.drive 0).lastReport = some 0 := by decide

theorem witness_Notices_masked_or_undelivered :
    (loneParams.p 26).testBit (Notice.stateChanged .held).cls = false ∧ noConsole.role roleConsole = 62 ∧
    fullNotices.ring.notices.length = 16 ∧ (notify (.stateChanged .held) loneParams).ring.notices = [] ∧
    (notify (.stateChanged .held) noConsole).ring.notices = [] ∧ (notify (.stateChanged .held)
    fullNotices).ring.noticeOverflow = true := by decide

theorem witness_Arbiter_cases :
    after (.frameSendEnd 5) serving (fun u => u.ring.ringOut == .idle) = true ∧ after (.frameSendEnd 5)
    fullResponses (fun u => u.ring.responses.length == 7 && !u.ring.ownDue) = true ∧ after (.frameSendEnd 5)
    (fullResponses.setRing midFrame.ring) (fun u => u.ring.forward.length == 1) = true := by decide

/-- A release is used up at an age of 1,000 ms, and not a millisecond before (R45). -/
theorem witness_DoorReports_cycles :
    after (.doorReport 1050 63 3 1 0 4) released (fun u => (u.cabin 1).cycle == .idle) = true ∧ after
    (.doorReport 1049 63 3 1 0 4) released (fun u => (u.cabin 1).cycle == .releaseSent) = true ∧
    (released.cabin 1).cycle = .releaseSent := by decide

/-- The last value that stands in every field of a rule, and the first that is clamped (R108). -/
theorem witness_PassAndRules_clamps :
    after (.loadPass 50 0 9 [0, 2, 63, 255, 1]) (wheelAt .stowed 0 serving) (fun u => reply u == [0]) = true
    ∧ after (.loadRules 50 0 9 [0, 1, 11, 3, 0, 0, 11, 3, 0, 0, 15, 4, 0x24]) (wheelAt .stowed 0 serving)
    (fun u => reply u == [0]) = true ∧ after (.loadRules 50 0 9 [0, 2, 12, 4, 0, 0, 12, 4, 0, 0, 16, 5,
    0x25]) (wheelAt .stowed 0 serving) (fun u => reply u == [1, 8]) = true := by decide

/-- The stale door of a cabin past the cutoff raises the overrun; a drive at 17 still turns. -/
theorem witness_Expiries_overrun_and_rest :
    after (.staleEvent 4001 1) (turning 16 .running pastCutoff) (fun u => u.holdsKey (.zoneOverrun .unload)
    && u.rot.wheel == .held) = true ∧ after (.driveLapse 501 3) (turning 17 (.stopping .held) serving) (fun
    u => u.rot.wheel == .stopping .held) = true ∧ after (.driveLapse 501 3) (turning 16 (.stopping .held)
    serving) (fun u => u.rot.wheel == .held) = true := by decide

/-- The laws that every step keeps hold at a state that runs on. -/
theorem witness_StepsKeepTheQueueLaw : QueueLaw serving ∧ step serving = .next serving := by
  exact ⟨by unfold QueueLaw; decide, rfl⟩

theorem witness_StepsKeepTheHoldLaw : HoldLaw serving := by
  refine ⟨by decide, by decide, fun r h => ?_⟩
  cases h

theorem witness_StepsKeepTheWheelLaw : WheelLaw serving ∧ WheelLaw standing := by
  unfold WheelLaw; decide

theorem witness_StepsKeepTheGradeLaw : GradeLaw serving := by
  refine ⟨by decide, by decide, by decide, fun d h => ?_⟩
  cases h

theorem witness_StepsKeepTheDriveAndHeadLaws : DriveLaw serving ∧ HeadLaw State.reset := by
  refine ⟨by unfold DriveLaw; decide, fun n => ⟨?_, ?_, ?_, ?_, ?_, ?_, ?_, ?_, ?_⟩⟩ <;> revert n <;>
    decide

theorem witness_StepsKeepTheTablesInRange : RosterLaw serving ∧ ZonesLaw serving ∧
    (∀ i : Fin 28, paramLow i ≤ serving.p i ∧ serving.p i ≤ paramHigh i) := by
  refine ⟨by unfold RosterLaw; decide, by unfold ZonesLaw ZoneEntry.inRange; decide, by decide⟩

theorem witness_StepsKeepTheTrackLaw : TrackLaw serving := by
  refine ⟨fun e => ?_, by decide, by decide, by decide, fun z => ?_⟩
  · cases e <;> exact fun _ => ⟨12000, rfl, by decide⟩
  · cases z <;> decide

theorem witness_StepsKeepThePermitAndCycleLaws :
    ZonesLaw serving ∧ TrackLaw serving ∧ PermitLaw serving ∧ CycleLaw serving := by
  refine ⟨by unfold ZonesLaw ZoneEntry.inRange; decide, witness_StepsKeepTheTrackLaw, fun z k h => ?_, ?_⟩
  · cases z <;> cases h
  · unfold CycleLaw; decide

theorem witness_StepsKeepTheBreachLaw : HoldLaw serving ∧ BreachLaw serving := by
  refine ⟨witness_StepsKeepTheHoldLaw, fun _ k hk hd => ?_⟩
  have h : ∀ k : Cabin, (serving.cabin k).location = none → (serving.cabin k).door.notLocked = false := by
    decide
  simp [h k hk] at hd

theorem witness_StepsKeepTheClearDownLaw : ClearDownLaw serving := by
  refine ⟨by decide, by decide, fun h => ?_⟩
  cases h

end Sys2Proof.Tests
end

