-- ==== Sys2Proof/Proofs/QuietOperations.lean ====
section
/-! What the work of the blocks leaves of the ring interface: it only queues notices. -/

namespace Sys2Proof.Machine

/-- `u` comes from `s` by work of the blocks: the waiting commands, the lines, the tables and the ring interface
are as they were, but for notices queued within the capacity and the overflow flag (R22). -/
structure Quiet (s u : State) : Prop where
  pending : u.pending = s.pending
  lines : u.lines = s.lines
  tables : u.tables = s.tables
  ring : u.ring = { s.ring with notices := u.ring.notices, noticeOverflow := u.ring.noticeOverflow }
  room : s.ring.notices.length ≤ 16 → u.ring.notices.length ≤ 16

theorem Quiet.refl (s : State) : Quiet s s := ⟨rfl, rfl, rfl, rfl, id⟩

variable {s₀ s : State}

/-! ### What a quiet change keeps -/

theorem Quiet.ownAddress (q : Quiet s₀ s) : s.ownAddress = s₀.ownAddress := by
  simp [State.ownAddress, q.lines]

/-- All of the ring interface but the notices and their overflow flag. -/
theorem Quiet.queues (q : Quiet s₀ s) :
    s.ring.forward = s₀.ring.forward ∧ s.ring.driveSet = s₀.ring.driveSet ∧
      s.ring.doorQueue = s₀.ring.doorQueue ∧ s.ring.responses = s₀.ring.responses ∧
      s.ring.ringOut = s₀.ring.ringOut ∧ s.ring.ownDue = s₀.ring.ownDue := by
  rw [q.ring]; simp

/-! ### Changes that leave the ring interface, and notices -/

theorem Quiet.aside {u : State} (q : Quiet s₀ s)
    (h : u.pending = s.pending ∧ u.lines = s.lines ∧ u.tables = s.tables ∧ u.ring = s.ring) :
    Quiet s₀ u := by
  obtain ⟨hp, hl, ht, hr⟩ := h
  exact ⟨hp.trans q.pending, hl.trans q.lines, ht.trans q.tables, by rw [hr]; exact q.ring,
    by rw [hr]; exact q.room⟩

theorem Quiet.then_notify (q : Quiet s₀ s) (n : Notice) : Quiet s₀ (notify n s) where
  pending := by simp [q.pending]
  lines := by simp [q.lines]
  tables := by simp [q.tables]
  ring := by
    rcases notify_ring s n with h | h | ⟨-, h⟩ <;> rw [h, q.ring]
  room h := notify_notices_length s n (q.room h)

theorem Quiet.then_forEach {α : Type} {f : α → State → State} (q : Quiet s₀ s)
    (h : ∀ x s, Quiet s₀ s → Quiet s₀ (f x s)) (xs : List α) : Quiet s₀ (s.forEach xs f) := by
  unfold State.forEach
  induction xs generalizing s with
  | nil => exact q
  | cons x xs ih => exact ih (h x s q)

theorem Quiet.then_setGrader (q : Quiet s₀ s) (x : Grader) : Quiet s₀ (s.setGrader x) := q.aside (by simp)

theorem Quiet.then_setService (q : Quiet s₀ s) (x : Service) : Quiet s₀ (s.setService x) :=
  q.aside (by simp)

theorem Quiet.then_ite {c : Prop} [Decidable c] {u v : State} (hu : c → Quiet s₀ u) (hv : ¬c → Quiet s₀ v) :
    Quiet s₀ (if c then u else v) := by
  split
  · next h => exact hu h
  · next h => exact hv h

theorem Quiet.then_guarded {c : Prop} [Decidable c] {f : State → State} (q : Quiet s₀ s)
    (h : ∀ {u}, Quiet s₀ u → Quiet s₀ (f u)) : Quiet s₀ (if c then f s else s) :=
  .then_ite (fun _ => h q) (fun _ => q)

/-! ### The wheel and the hold list -/

theorem Quiet.then_changeWheel (q : Quiet s₀ s) (w : Wheel) : Quiet s₀ (changeWheel w s) :=
  (q.aside (u := putWheel w s) (by simp)).then_notify _

theorem Quiet.then_judgeEnd (q : Quiet s₀ s) : Quiet s₀ (judgeEnd s) := by
  rcases judgeEnd_cases s with ⟨d, -, -, h⟩ | h <;> rw [h]
  · exact q.then_changeWheel _
  · exact q

theorem Quiet.then_enterStopping (q : Quiet s₀ s) (d : StopDest) : Quiet s₀ (enterStopping d s) :=
  (q.then_changeWheel _).then_judgeEnd

/-- A raise of any kind but ALL_STOP queues no drive set (R147). -/
theorem Quiet.then_onRaise (q : Quiet s₀ s) {key : HoldKey} (hk : key ≠ .allStop) :
    Quiet s₀ (onRaise key s) := by
  unfold onRaise
  split
  · rw [if_neg hk]; exact q.then_enterStopping _
  · rw [if_neg hk]; exact q
  · exact q

theorem Quiet.then_onClear (q : Quiet s₀ s) : Quiet s₀ (onClear s) := by
  unfold onClear
  split
  · split
    · exact q.then_changeWheel _
    · exact q.then_changeWheel _
    · exact q
  · exact q

theorem Quiet.then_stopToStandby (q : Quiet s₀ s) : Quiet s₀ (stopToStandby s) := by
  unfold stopToStandby
  split
  · exact q.then_enterStopping _
  · exact q.then_changeWheel _
  · exact q.then_changeWheel _
  · exact q

theorem Quiet.then_raiseHold (q : Quiet s₀ s) {h : Hold} (hk : h.key ≠ .allStop) :
    Quiet s₀ (raiseHold h s) := by
  unfold raiseHold
  split
  · exact q
  · exact ((q.aside (u := appendHold h s) (by simp)).then_notify _).then_onRaise hk

theorem Quiet.then_raiseBreach (q : Quiet s₀ s) (k : Cabin) : Quiet s₀ (raiseBreach k s) := by
  unfold raiseBreach
  split
  · split
    · exact q
    · exact (q.aside (by simp)).then_notify _
  · exact q.then_raiseHold nofun

theorem Quiet.then_clearHold (q : Quiet s₀ s) (key : HoldKey) : Quiet s₀ (clearHold key s) := by
  unfold clearHold
  split
  · exact q
  · exact ((q.aside (u := removeHold key s) (by simp)).then_notify _).then_onClear

theorem Quiet.then_clearOverload (q : Quiet s₀ s) (k : Cabin) : Quiet s₀ (clearOverload k s) := by
  unfold clearOverload
  split
  · split
    · exact q.then_clearHold _
    · exact q
  · exact q

/-! ### The release gate -/

theorem Quiet.then_testOverrun (q : Quiet s₀ s) (z : Zone) : Quiet s₀ (testOverrun z s) := by
  unfold testOverrun
  split
  · exact q.then_raiseHold nofun
  · exact q

theorem Quiet.then_testCabin (q : Quiet s₀ s) (k : Cabin) : Quiet s₀ (testCabin k s) := by
  unfold testCabin
  split
  · split
    · exact q.then_testOverrun _
    · exact q
  · exact q

theorem Quiet.then_clearOverrun (q : Quiet s₀ s) (z : Zone) : Quiet s₀ (clearOverrun z s) :=
  (q.then_clearHold _).then_testOverrun z

theorem Quiet.then_autoClear (q : Quiet s₀ s) (z : Zone) (k : Cabin) : Quiet s₀ (autoClear z k s) := by
  unfold autoClear
  split
  · exact q.then_clearOverrun z
  · exact q

theorem Quiet.then_gateReport (q : Quiet s₀ s) (k : Cabin) : Quiet s₀ (gateReport k s) :=
  ((q.then_autoClear _ k).then_autoClear _ k).then_testCabin k

theorem Quiet.then_gateCompletion (q : Quiet s₀ s) (k : Cabin) : Quiet s₀ (gateCompletion k s) :=
  (q.then_testCabin k).aside (by simp [gateCompletion])

/-! ### The service sequencer -/

theorem Quiet.then_gateModeChange (q : Quiet s₀ s) (m : ServiceMode) : Quiet s₀ (gateModeChange m s) :=
  q.aside (by simp)

theorem Quiet.then_changeMode (q : Quiet s₀ s) (m : ServiceMode) (cause : ModeCause) :
    Quiet s₀ (changeMode m cause s) :=
  ((q.then_setService _).then_notify _).then_gateModeChange m

theorem Quiet.then_completeClearDown (q : Quiet s₀ s) : Quiet s₀ (completeClearDown s) :=
  ((((q.then_setService _).then_notify _).then_notify _).then_gateModeChange _).then_stopToStandby

theorem Quiet.then_checkComplete (q : Quiet s₀ s) : Quiet s₀ (checkComplete s) := by
  unfold checkComplete
  split
  · exact q.then_completeClearDown
  · exact q

theorem Quiet.then_enterClearDown (q : Quiet s₀ s) (cause : ModeCause) :
    Quiet s₀ (enterClearDown cause s) :=
  (((q.then_setService _).then_notify _).then_gateModeChange _).then_checkComplete

theorem Quiet.then_sequencerGrade (q : Quiet s₀ s) (g : Grade) : Quiet s₀ (sequencerGrade g s) := by
  unfold sequencerGrade
  split
  · exact q.then_enterClearDown _
  · exact q

theorem Quiet.then_sequencerExit (q : Quiet s₀ s) (moved : Bool) (k : Cabin) :
    Quiet s₀ (sequencerExit moved k s) := by
  unfold sequencerExit
  split
  · unfold passage
    split
    · exact (q.aside (by simp)).then_checkComplete
    · exact q.aside (by simp)
  · exact q

/-! ### The cabin records -/

theorem Quiet.then_uncommandedOpening (q : Quiet s₀ s) (k : Cabin) :
    Quiet s₀ (uncommandedOpening k s) :=
  ((q.aside (u := s.setCabin k _) (by simp)).then_notify _).then_testCabin k

theorem Quiet.then_advanceCycle (q : Quiet s₀ s) (k : Cabin) : Quiet s₀ (advanceCycle k s) := by
  dsimp only [advanceCycle]
  split
  · split
    · exact q.then_uncommandedOpening k
    · exact q
  · split
    · exact (q.aside (by simp)).then_testCabin k
    · split
      · exact (q.aside (by simp)).then_gateCompletion k
      · exact q
  · split
    · exact q
    · exact (q.aside (by simp)).then_gateCompletion k

theorem Quiet.then_judgeOverload (q : Quiet s₀ s) (k : Cabin) : Quiet s₀ (judgeOverload k s) := by
  dsimp only [judgeOverload]
  split
  · split
    · exact (q.aside (by simp)).then_clearOverload k
    · exact q
  · split
    · exact (q.aside (by simp)).then_raiseHold nofun
    · exact q

theorem Quiet.then_judgeBreach (q : Quiet s₀ s) (k : Cabin) : Quiet s₀ (judgeBreach k s) := by
  unfold judgeBreach
  split
  · exact q.then_raiseBreach k
  · exact q

theorem Quiet.then_judgeExitBreach (q : Quiet s₀ s) (k : Cabin) : Quiet s₀ (judgeExitBreach k s) := by
  unfold judgeExitBreach
  split
  · split
    · exact q
    · exact q.then_notify _
    · exact q.then_raiseBreach k
  · exact q

theorem Quiet.then_cabinReport (q : Quiet s₀ s) (k : Cabin) (d : Door) (n : Nat) :
    Quiet s₀ (cabinReport k d n s) :=
  (((((q.aside (u := recordReport k d n s) (by simp)).then_judgeOverload k).then_advanceCycle
    k).then_judgeBreach k).then_gateReport k).aside (by simp [cabinReport])

theorem Quiet.then_doorStale (q : Quiet s₀ s) (k : Cabin) : Quiet s₀ (doorStale k s) :=
  ((q.aside (u := s.setCabin k _) (by simp)).then_notify _).then_testCabin k

theorem Quiet.then_staleEvent (q : Quiet s₀ s) (k : Cabin) : Quiet s₀ (staleEvent k s) := by
  unfold staleEvent
  split
  · exact q.then_doorStale k
  · exact q

theorem Quiet.then_forgetDoor (q : Quiet s₀ s) (k : Cabin) : Quiet s₀ (forgetDoor k s) := by
  dsimp only [forgetDoor]
  split
  · exact q.aside (by simp)
  · exact (q.aside (by simp)).then_doorStale k

theorem Quiet.then_cabinExit (q : Quiet s₀ s) (k : Cabin) : Quiet s₀ (cabinExit k s) := by
  dsimp only [cabinExit]
  split
  · exact (q.aside (by simp)).then_judgeExitBreach k
  · exact (Quiet.then_testCabin (q.aside (by simp)) k).then_judgeExitBreach k

theorem Quiet.then_zoneExit (q : Quiet s₀ s) (moved : Bool) (z : Zone) (k : Cabin) :
    Quiet s₀ (zoneExit moved z k s) := by
  have h : Quiet s₀ (clearPermitAt z k (cabinExit k s)) := (q.then_cabinExit k).aside (by simp)
  dsimp only [zoneExit]
  split
  · exact h.then_sequencerExit moved k
  · exact h

theorem Quiet.then_zoneEntry (q : Quiet s₀ s) (z : Zone) (k : Cabin) : Quiet s₀ (zoneEntry z k s) := by
  dsimp only [zoneEntry]
  split
  · exact (q.aside (by simp)).then_uncommandedOpening k
  · exact q.aside (by simp)

/-! ### The position tracker -/

theorem Quiet.then_compareHeads (q : Quiet s₀ s) : Quiet s₀ (compareHeads s) := by
  dsimp only [compareHeads]
  split
  · split
    · exact (q.aside (by simp)).then_raiseHold nofun
    · exact q.aside (by simp)
  · exact q

theorem Quiet.then_deliverExit (q : Quiet s₀ s) (moved : Bool) (old new : ByZone Occupancy) (z : Zone) :
    Quiet s₀ (deliverExit moved old new z s) := by
  unfold deliverExit
  split
  · split
    · exact q
    · exact q.then_zoneExit moved z _
  · exact q

theorem Quiet.then_deliverEntry (q : Quiet s₀ s) (old new : ByZone Occupancy) (z : Zone) :
    Quiet s₀ (deliverEntry old new z s) := by
  unfold deliverEntry
  split
  · split
    · exact q
    · exact q.then_zoneEntry z _
  · exact q

theorem Quiet.then_deliverCrossing (q : Quiet s₀ s) (old new : ByZone Occupancy) (z : Zone) :
    Quiet s₀ (deliverCrossing old new z s) := by
  unfold deliverCrossing
  split
  · exact q.then_testOverrun z
  · exact q

theorem Quiet.then_deliverMoves (q : Quiet s₀ s) (moved : Bool) (old new : ByZone Occupancy) :
    Quiet s₀ (deliverMoves moved old new s) :=
  (q.then_forEach (fun z _ h => h.then_deliverExit moved old new z) _).then_forEach
    (fun z _ h => h.then_deliverEntry old new z) _

theorem Quiet.then_deliverCrossings (q : Quiet s₀ s) (old new : ByZone Occupancy) :
    Quiet s₀ (deliverCrossings old new s) :=
  q.then_forEach (fun z _ h => h.then_deliverCrossing old new z) _

theorem Quiet.then_recompute (q : Quiet s₀ s) (moved : Bool) : Quiet s₀ (recompute moved s) :=
  ((q.aside (u := putOcc _ s) (by simp)).then_deliverMoves _ _ _).then_deliverCrossings _ _

theorem Quiet.then_positionReturns (q : Quiet s₀ s) (a : Accepted) : Quiet s₀ (positionReturns a s) :=
  (((((q.aside (u := putOcc _ s) (by simp)).then_deliverMoves _ _ _).then_forEach
    (fun k _ h => h.then_judgeBreach k) _).then_deliverCrossings _ _).then_notify _).then_clearHold _

theorem Quiet.then_reform (q : Quiet s₀ s) : Quiet s₀ (reform s) := by
  have h : Quiet s₀ (putAccepted s.tracker.formed s) := q.aside (by simp)
  dsimp only [reform]
  split
  · unfold positionMoves
    split
    · exact h.then_recompute _
    · exact (h.then_notify _).then_recompute _
  · exact ((h.aside (by simp)).then_deliverMoves _ _ _).then_notify _
  · exact h.then_positionReturns _
  · exact h

theorem Quiet.then_reformAfter (q : Quiet s₀ s) (was : Bool) : Quiet s₀ (reformAfter was s) := by
  dsimp only [reformAfter]
  split
  · exact q.then_reform.then_raiseHold nofun
  · exact q.then_reform

theorem Quiet.then_encoderReport (q : Quiet s₀ s) (e : EncoderId) (p : Nat) (h : Health) :
    Quiet s₀ (encoderReport e p h s) := by
  dsimp only [encoderReport]
  split
  · exact (Quiet.then_compareHeads (q.aside (by simp))).then_reformAfter _
  · exact q

theorem Quiet.then_dropHeads (q : Quiet s₀ s) (a b : Bool) : Quiet s₀ (dropHeads a b s) := by
  dsimp only [dropHeads]
  split
  · exact (q.aside (by simp)).then_reformAfter _
  · exact q

theorem Quiet.then_encoderLapse (q : Quiet s₀ s) (e : EncoderId) : Quiet s₀ (encoderLapse e s) := by
  unfold encoderLapse
  split
  · exact q.then_dropHeads _ _
  · exact q

theorem Quiet.then_zonesChanged (q : Quiet s₀ s) : Quiet s₀ (zonesChanged s) := by
  unfold zonesChanged
  split
  · exact q.then_recompute _
  · exact q

/-! ### The drive stations -/

theorem Quiet.then_deriveReady (q : Quiet s₀ s) (n : Fin 4) : Quiet s₀ (deriveReady n s) := by
  have judged {u : State} (h : Quiet s₀ u) (before : Nat) : Quiet s₀ (judgeDrivesLost before u) := by
    unfold judgeDrivesLost
    split
    · exact h.then_raiseHold nofun
    · split
      · exact h.then_clearHold _
      · exact h
  dsimp only [deriveReady]
  split
  · exact q
  · exact judged (Quiet.then_notify (q.aside (by simp)) _) _

theorem Quiet.then_driveReport (q : Quiet s₀ s) (n : Fin 4) (ready : Bool) (fault : Byte) (speed : Nat) :
    Quiet s₀ (driveReport n ready fault speed s) :=
  (Quiet.then_deriveReady (q.aside (u := s.setDrive n _) (by simp)) n).then_judgeEnd

theorem Quiet.then_dropDrive (q : Quiet s₀ s) (n : Fin 4) : Quiet s₀ (dropDrive n s) := by
  unfold dropDrive
  split
  · exact (Quiet.then_deriveReady (q.aside (by simp)) n).then_judgeEnd
  · exact q

theorem Quiet.then_driveLapse (q : Quiet s₀ s) (n : Fin 4) : Quiet s₀ (driveLapse n s) := by
  unfold driveLapse
  split
  · exact q.then_dropDrive n
  · exact q

theorem Quiet.then_forgetDrive (q : Quiet s₀ s) (n : Fin 4) : Quiet s₀ (forgetDrive n s) :=
  Quiet.then_dropDrive (q.aside (by simp)) n

/-! ### The wind grader -/

theorem Quiet.then_changeGrade (q : Quiet s₀ s) (g : Grade) : Quiet s₀ (changeGrade g s) := by
  have told := (q.then_setGrader { s.grader with inForce := g }).then_notify
    (.gradeChanged g s.grader.computed)
  have held := Quiet.then_ite (c := s.grader.inForce ≠ 4 ∧ g = 4)
    (fun _ => told.then_raiseHold (h := .windStop) nofun)
    (fun _ => Quiet.then_ite (c := s.grader.inForce = 4 ∧ g ≠ 4)
      (fun _ => told.then_clearHold .windStop) (fun _ => told))
  exact (Quiet.then_ite (fun _ => held.aside (u := clearBothPermits _) (by simp))
    (fun _ => held)).then_sequencerGrade g

theorem Quiet.then_putHeadsShort (q : Quiet s₀ s) (short : Bool) (n : Nat) :
    Quiet s₀ (putHeadsShort short n s) := by
  unfold putHeadsShort
  split
  · exact q
  · exact (q.then_setGrader _).then_notify _

theorem Quiet.then_gradeStep (q : Quiet s₀ s) (c : Grade) : Quiet s₀ (gradeStep c s) := by
  unfold gradeStep
  split
  · exact (q.aside (by simp)).then_changeGrade _
  · split
    · exact q.aside (by simp)
    · exact q.aside (by simp)

theorem Quiet.then_evaluate (q : Quiet s₀ s) : Quiet s₀ (evaluate s) :=
  ((q.then_putHeadsShort _ _).then_setGrader _).then_gradeStep _

theorem Quiet.then_expireDwell (q : Quiet s₀ s) : Quiet s₀ (expireDwell s) := by
  unfold expireDwell
  split
  · split
    · exact (q.aside (by simp)).then_changeGrade _
    · exact q
  · exact q

/-! ### The answers to requests -/

theorem Quiet.then_plainRequest {decide : State → Reply × State} (q : Quiet s₀ s)
    (h : Quiet s₀ (decide s).2) (src : Byte) (args : List Byte) :
    Quiet s₀ (plainRequest decide src args s).2 := by
  unfold plainRequest
  split
  · exact h
  · exact q

theorem Quiet.then_restart (q : Quiet s₀ s) (src : Byte) (args : List Byte) :
    Quiet s₀ (restart src args s).2 := by
  refine q.then_plainRequest ?_ src args
  split
  · exact (q.aside (u := s.restarted) ⟨rfl, rfl, rfl, rfl⟩).then_notify .restarted
  · exact q

theorem Quiet.then_readStatus (q : Quiet s₀ s) (src : Byte) (args : List Byte) :
    Quiet s₀ (readStatus src args s).2 := by
  unfold readStatus
  split
  · dsimp only
    split
    · exact ⟨q.pending, q.lines, q.tables, by simp [clearOverflow, q.queues],
        by simpa [clearOverflow] using q.room⟩
    · exact q
  · exact q

theorem readHolds_state (src : Byte) (args : List Byte) (s : State) : (readHolds src args s).2 = s := by
  unfold readHolds
  split
  · split
    · rfl
    · split <;> rfl
  · rfl

theorem readCabins_state (src : Byte) (args : List Byte) (s : State) : (readCabins src args s).2 = s := by
  unfold readCabins
  split
  · split <;> rfl
  · rfl

theorem readWind_state (src : Byte) (args : List Byte) (s : State) : (readWind src args s).2 = s := by
  unfold readWind
  split <;> rfl

theorem readTable_state (args : List Byte) (s : State) : (readTable args s).2 = s := by
  unfold readTable
  split
  · split
    · rfl
    · split <;> rfl
  · rfl

theorem Quiet.then_holdRequest (q : Quiet s₀ s) (src : Byte) (args : List Byte) :
    Quiet s₀ (holdRequest src args s).2 := by
  refine q.then_plainRequest ?_ src args
  exact q.then_raiseHold nofun

theorem Quiet.then_ackHold (q : Quiet s₀ s) (src : Byte) (args : List Byte) :
    Quiet s₀ (ackHold src args s).2 := by
  have cleared (key : HoldKey) : Quiet s₀ (ackClear key s) := by
    unfold ackClear
    split
    · exact q.then_clearOverrun _
    · exact q.then_clearHold _
  unfold ackHold
  split
  · split
    · unfold ackRecord
      split
      · exact q
      · split
        · exact cleared _
        · exact q.aside (by simp [answer])
        · exact q
    · exact q
  · exact q

theorem Quiet.then_unstow (q : Quiet s₀ s) (src : Byte) (args : List Byte) :
    Quiet s₀ (unstow src args s).2 := by
  refine q.then_plainRequest ?_ src args
  split
  · exact q.then_changeWheel _
  · exact q

theorem Quiet.then_stow (q : Quiet s₀ s) (src : Byte) (args : List Byte) :
    Quiet s₀ (stow src args s).2 := by
  have sequenced : Quiet s₀ (sequencerStow (changeWheel .stowed s)) := by
    unfold sequencerStow
    split
    · exact (q.then_changeWheel _).then_changeMode _ _
    · exact q.then_changeWheel _
  refine q.then_plainRequest ?_ src args
  split
  · split
    · exact sequenced
    · exact sequenced
    · exact q
    · exact q
  · exact q

theorem Quiet.then_setTurning (q : Quiet s₀ s) : Quiet s₀ (setTurning s) :=
  (q.then_changeWheel .running).aside (by simp [setTurning])

theorem Quiet.then_start (q : Quiet s₀ s) (src : Byte) (args : List Byte) :
    Quiet s₀ (start src args s).2 := by
  refine q.then_plainRequest ?_ src args
  split
  · split
    · exact q
    · exact q.then_setTurning
  · exact q

theorem Quiet.then_stop (q : Quiet s₀ s) (src : Byte) (args : List Byte) :
    Quiet s₀ (stop src args s).2 := by
  refine q.then_plainRequest ?_ src args
  split
  · exact q.then_stopToStandby
  · exact q.then_stopToStandby
  · exact q.then_stopToStandby
  · exact q

theorem Quiet.then_resume (q : Quiet s₀ s) (src : Byte) (args : List Byte) :
    Quiet s₀ (resume src args s).2 := by
  refine q.then_plainRequest ?_ src args
  split
  · split
    · exact q.then_setTurning
    · exact q
  · exact q

theorem Quiet.then_resetBrake (q : Quiet s₀ s) (src : Byte) (args : List Byte) :
    Quiet s₀ (resetBrake src args s).2 := by
  refine q.then_plainRequest ?_ src args
  split
  · split
    · exact q
    · exact (q.then_changeWheel .held).aside (by simp [answer])
  · exact q

theorem Quiet.then_openService (q : Quiet s₀ s) (src : Byte) (args : List Byte) :
    Quiet s₀ (openService src args s).2 := by
  have opened : Quiet s₀ (openMode s) := by
    dsimp only [openMode]
    split
    · exact Quiet.then_changeMode (q.aside (by simp)) _ _
    · exact q.then_changeMode _ _
  refine q.then_plainRequest ?_ src args
  split
  · exact q
  · split
    · exact q
    · split
      · exact q
      · exact opened

theorem Quiet.then_beginClearDown (q : Quiet s₀ s) (src : Byte) (args : List Byte) :
    Quiet s₀ (beginClearDown src args s).2 := by
  refine q.then_plainRequest ?_ src args
  split
  · exact q.then_enterClearDown _
  · exact q
  · exact q

theorem Quiet.then_closeService (q : Quiet s₀ s) (src : Byte) (args : List Byte) :
    Quiet s₀ (closeService src args s).2 := by
  refine q.then_plainRequest ?_ src args
  split
  · exact q.then_changeMode _ _
  · exact q
  · exact q

theorem Quiet.then_armZone (q : Quiet s₀ s) (src : Byte) (args : List Byte) :
    Quiet s₀ (armZone src args s).2 := by
  have armed (z : Zone) (k : Cabin) : Quiet s₀ (armFor z k s).2 := by
    unfold armFor
    split
    · exact q.aside (by simp [answer])
    · exact q
    · exact q
  have named (z : Zone) : Quiet s₀ (armNamed z src s).2 := by
    unfold armNamed
    split
    · exact q
    · split
      · exact q
      · split
        · exact q
        · split
          · exact q
          · exact armed z _
  unfold armZone
  split
  · split
    · exact named _
    · exact q
  · exact q

/-! ### Requests that write the tables -/

/-- What a request of some kind may make of the tables: one of them takes the entries of a load, the lock set or
P4 is written, or nothing changes (R172, R175, R146). -/
inductive TableWrite (s : State) : Byte → Tables → Prop where
  | locks (l : BitVec 7) : TableWrite s reqSetLocks { s.tables with locks := l }
  | trim (v : Nat) (low : 50 ≤ v) (high : v ≤ 100) :
    TableWrite s reqSetTrim { s.tables with params := s.tables.params.set 4 v }
  | roster (ps : Entries) (whole : holdsBroadcast ps = false)
    (distinct : rosterClashes s.ownAddress (loadedTable clampRoster s.tables.roster ps) = false) :
    TableWrite s reqLoadTable { s.tables with roster := loadedTable clampRoster s.tables.roster ps }
  | pass (ps : Entries) :
    TableWrite s reqLoadTable { s.tables with pass := loadedTable clampPass s.tables.pass ps }
  | cabins (ps : Entries) :
    TableWrite s reqLoadTable { s.tables with cabins := loadedTable clampCabin s.tables.cabins ps }
  | zones (ps : Entries)
    (apart : (loadedZone ps s.tables.zones .unload).1.finish ≤ (loadedZone ps s.tables.zones .load).1.start) :
    TableWrite s reqLoadTable
      { s.tables with
        zones :=
          { unload := (loadedZone ps s.tables.zones .unload).1
            load := (loadedZone ps s.tables.zones .load).1 } }
  | parameters (ps : Entries) :
    TableWrite s reqLoadTable { s.tables with params := loadedTable clampParam s.tables.params ps }
  | heads (ps : Entries) :
    TableWrite s reqLoadTable { s.tables with heads := loadedTable clampHead s.tables.heads ps }
  | rules (ps : Entries) :
    TableWrite s reqLoadTable { s.tables with rules := loadedTable clampRule s.tables.rules ps }
  | unchanged (kind : Byte) : TableWrite s kind s.tables

/-- `u` comes from `s` by a request of some kind: a write to the tables, and then work of the blocks. -/
def Writes (kind : Byte) (s u : State) : Prop := ∃ x, TableWrite s kind x ∧ Quiet (s.setTables x) u

theorem Quiet.writes {u : State} (q : Quiet s u) (kind : Byte) : Writes kind s u := ⟨_, .unchanged kind, q⟩

theorem setLocks_writes (src : Byte) (args : List Byte) (s : State) :
    Writes reqSetLocks s (setLocks src args s).2 := by
  unfold setLocks
  split
  · split
    · exact (Quiet.refl s).writes _
    · exact ⟨_, .locks _, .refl _⟩
  · exact (Quiet.refl s).writes _

theorem setTrim_writes (src : Byte) (args : List Byte) (s : State) :
    Writes reqSetTrim s (setTrim src args s).2 := by
  unfold setTrim
  split
  · exact ⟨_, .trim _ (by simp [clampNum]) (by simp [clampNum]), .refl _⟩
  · exact (Quiet.refl s).writes _

theorem Quiet.then_rosterConsequences (q : Quiet s₀ s) (changed : Fin 14 → Bool) :
    Quiet s₀ (rosterConsequences changed s) := by
  dsimp only [rosterConsequences]
  have doors := (q.then_dropHeads (changed roleEncoderA) (changed roleEncoderB)).then_guarded
    (c := changed roleConcentrator = true) (f := forgetDoors)
    (fun h => h.then_forEach (fun k _ h => h.then_forgetDoor k) _)
  have heads := doors.then_forEach (f := fun n s => if changed (headRole n) then dropHead n s else s)
    (fun _ _ h => h.then_guarded (fun h => h.aside (by simp))) allFour
  exact heads.then_forEach (fun n _ h => h.then_guarded (fun h => h.then_forgetDrive n)) _

theorem applyRoster_writes (ps : Entries) (s : State) : Writes reqLoadTable s (applyRoster ps s).2 := by
  dsimp only [applyRoster]
  split
  · exact (Quiet.refl s).writes _
  · next h =>
      obtain ⟨whole, distinct⟩ : _ ∧ _ := by simpa using h
      refine ⟨_, .roster ps whole distinct, ?_⟩
      dsimp only
      exact (Quiet.refl _).then_rosterConsequences _

theorem applyCabins_writes (ps : Entries) (s : State) : Writes reqLoadTable s (applyCabins ps s).2 :=
  ⟨_, .cabins ps, (Quiet.refl _).then_forEach (fun _ _ h => h.then_guarded (fun h => h.aside (by simp))) _⟩

theorem applyZones_writes (ps : Entries) (s : State) : Writes reqLoadTable s (applyZones ps s).2 := by
  dsimp only [applyZones]
  split
  · exact (Quiet.refl s).writes _
  · next h => exact ⟨_, .zones ps (Nat.le_of_not_lt h), (Quiet.refl _).then_zonesChanged⟩

theorem applyParameters_writes (ps : Entries) (s : State) :
    Writes reqLoadTable s (applyParameters ps s).2 := by
  refine ⟨_, .parameters ps, ?_⟩
  dsimp only [applyParameters]
  have encoders {u v : State} (h : Quiet v u) : Quiet v (encodersLowered u) := h.then_dropHeads _ _
  have doors {u v : State} (h : Quiet v u) : Quiet v (stalenessLowered u) :=
    h.then_forEach (fun k _ h => h.then_staleEvent k) _
  have drives {u v : State} (h : Quiet v u) : Quiet v (drivesLowered u) :=
    h.then_forEach (fun n _ h => h.then_driveLapse n) _
  have heads {u v : State} (h : Quiet v u) : Quiet v (headsLowered u) := h.aside (by simp)
  exact ((((Quiet.refl _).then_guarded encoders).then_guarded doors).then_guarded
    drives).then_guarded heads

theorem applyHeads_writes (ps : Entries) (s : State) : Writes reqLoadTable s (applyHeads ps s).2 := by
  refine ⟨_, .heads ps, ?_⟩
  have restarted := (Quiet.refl (s.setTables
      { s.tables with heads := loadedTable clampHead s.tables.heads ps })).then_forEach
    (f := fun n s => if (written ps n.val).isSome then restartHead n s else s)
    (fun _ _ h => h.then_guarded (fun h => h.aside (by simp))) allFour
  exact restarted.aside (u := startSettling _) (by simp)

theorem apply_writes (t : Table) (ps : Entries) (s : State) : Writes reqLoadTable s (t.apply ps s).2 := by
  cases t
  case roster => exact applyRoster_writes ps s
  case pass => exact ⟨_, .pass ps, .refl _⟩
  case cabins => exact applyCabins_writes ps s
  case zones => exact applyZones_writes ps s
  case parameters => exact applyParameters_writes ps s
  case heads => exact applyHeads_writes ps s
  case rules =>
    exact ⟨_, .rules ps, (Quiet.refl (s.setTables _)).aside (u := startSettling _) (by simp)⟩

theorem loadTable_writes (args : List Byte) (s : State) : Writes reqLoadTable s (loadTable args s).2 := by
  have unchanged : Writes reqLoadTable s s := (Quiet.refl s).writes _
  have loaded (t : Table) (args : List Byte) : Writes reqLoadTable s (loadOn t args s).2 := by
    unfold loadOn
    split
    · exact unchanged
    · split
      · exact unchanged
      · split
        · exact unchanged
        · split
          · exact unchanged
          · exact apply_writes t _ s
  unfold loadTable
  split
  · split
    · exact loaded _ _
    · exact unchanged
  · exact unchanged

/-! ### The owners of the request table -/

/-- The owner of a kind stands in the request table (section 1.9). -/
theorem ownerOf_mem {kind : Byte} {o : Owner} (h : ownerOf kind = some o) : (kind, o) ∈ requestTable := by
  obtain ⟨e, he, rfl⟩ := Option.map_eq_some_iff.1 h
  obtain rfl : e.1 = kind := by simpa using List.find?_some he
  exact List.mem_of_find?_eq_some he

/-- What any request of the table may do: a write to the tables, and work of the blocks. -/
theorem owner_writes {kind : Byte} {o : Owner} (h : ownerOf kind = some o) (src : Byte) (args : List Byte)
    (s : State) : Writes kind s (o src args s).2 := by
  have q := Quiet.refl s
  have mem := ownerOf_mem h
  simp only [requestTable, List.mem_cons, Prod.mk.injEq, List.not_mem_nil, or_false] at mem
  rcases mem with ⟨rfl, rfl⟩ | ⟨rfl, rfl⟩ | ⟨rfl, rfl⟩ | ⟨rfl, rfl⟩ | ⟨rfl, rfl⟩ | ⟨rfl, rfl⟩ | ⟨rfl, rfl⟩ |
    ⟨rfl, rfl⟩ | ⟨rfl, rfl⟩ | ⟨rfl, rfl⟩ | ⟨rfl, rfl⟩ | ⟨rfl, rfl⟩ | ⟨rfl, rfl⟩ | ⟨rfl, rfl⟩ | ⟨rfl, rfl⟩ |
    ⟨rfl, rfl⟩ | ⟨rfl, rfl⟩ | ⟨rfl, rfl⟩ | ⟨rfl, rfl⟩ | ⟨rfl, rfl⟩ | ⟨rfl, rfl⟩
  · exact (q.then_readStatus src args).writes _
  · rw [readTableRequest, readTable_state]; exact q.writes _
  · exact loadTable_writes args s
  · exact setLocks_writes src args s
  · exact (q.then_restart src args).writes _
  · rw [readHolds_state]; exact q.writes _
  · exact (q.then_holdRequest src args).writes _
  · exact (q.then_ackHold src args).writes _
  · rw [readCabins_state]; exact q.writes _
  · rw [readWind_state]; exact q.writes _
  · exact (q.then_unstow src args).writes _
  · exact (q.then_stow src args).writes _
  · exact (q.then_start src args).writes _
  · exact (q.then_stop src args).writes _
  · exact (q.then_resume src args).writes _
  · exact (q.then_resetBrake src args).writes _
  · exact setTrim_writes src args s
  · exact (q.then_openService src args).writes _
  · exact (q.then_beginClearDown src args).writes _
  · exact (q.then_closeService src args).writes _
  · exact (q.then_armZone src args).writes _

/-- A judged request answers its source, with a write to the tables and work of the blocks (R169). -/
theorem judgeRequest_writes (src kind : Byte) (args : List Byte) (s : State) :
    Writes kind s (judgeRequest (ownerOf kind) src kind args s).2 := by
  have asked : Writes kind s (match ownerOf kind with
      | some o => o src args s
      | none => answer .badKind s).2 := by
    cases h : ownerOf kind with
    | none => exact (Quiet.refl s).writes _
    | some o => exact owner_writes h src args s
  unfold judgeRequest
  split
  · exact asked
  · split
    · exact asked
    · exact (Quiet.refl s).writes _

end Sys2Proof.Machine
end

