-- ==== Sys2Proof/Proofs/Commands.lean ====
section
/-! The commands by their shape: the three of the lines, the rows that stand for a frame, raw octets, and the
events of the time base; and the step as one invariant rule over them. -/

namespace Sys2Proof.Machine

/-! ### Octets read back -/

theorem octet_toNat (n : Nat) : (octet n).toNat = n % 256 := by
  simp [octet]

theorem num2_octets (n : Nat) (h : n < 65536) : num2 (octet (n / 256)) (octet n) = n := by
  simp only [num2, octet_toNat]; omega

theorem octets3_value (n : Nat) (h : n < 16777216) :
    65536 * (octet (n / 65536)).toNat + num2 (octet (n / 256)) (octet n) = n := by
  simp only [num2, octet_toNat]; omega

/-- A frame that R3 takes reads back from its octets (R3, R4). -/
theorem readFrame_octets (f : Frame) (h : f.wellFormed = true) : readFrame f.octets = some f := by
  have hlen : f.payload.length ≤ 64 := by
    simp only [Frame.wellFormed, Bool.and_eq_true, decide_eq_true_eq] at h; omega
  have hl : (octet f.payload.length).toNat = f.payload.length := by rw [octet_toNat]; omega
  have htake : (f.payload ++ halfOctets (check f.body)).take f.payload.length = f.payload :=
    List.take_left' rfl
  have hlength : (f.payload ++ halfOctets (check f.body)).length = f.payload.length + 2 := by
    simp [halfOctets, octets2]
  have hbody : f.octets = f.dest :: f.source :: f.kind :: octet f.payload.length ::
      (f.payload ++ halfOctets (check f.body)) := rfl
  rw [hbody, readFrame, hl, htake]
  exact if_pos ⟨hlength, hbody, h⟩

/-- Octets that read as a frame are that frame's, and R3 takes it. -/
theorem octets_of_readFrame {os : List Byte} {f : Frame} (h : readFrame os = some f) :
    f.octets = os ∧ f.wellFormed = true := by
  unfold readFrame at h
  split at h
  · dsimp only at h
    split at h
    · next hc => cases h; exact hc.2
    · cases h
  · cases h

/-- The part's own address is 32 plus the straps (R1). -/
theorem State.ownAddress_toNat (s : State) : s.ownAddress.toNat = 32 + s.lines.strap.toNat := by
  have := s.lines.strap.isLt
  rw [State.ownAddress, octet_toNat]
  omega

/-! ### Reception -/

theorem heard_of_not_wellFormed {f : Frame} (h : f.wellFormed = false) (handle : State → State) (s : State) :
    heard f handle s = s := by
  simp [heard, h]

theorem heard_of_own {f : Frame} {s : State} (h : f.source = s.ownAddress) (handle : State → State) :
    heard f handle s = s := by
  simp [heard, h]

theorem heard_of_taken {f : Frame} {s : State} (hw : f.wellFormed = true) (h : f.source ≠ s.ownAddress)
    (handle : State → State) : heard f handle s = handle s := by
  simp [heard, hw, h]

@[simp] theorem State.advance_ownAddress (s : State) (t : Nat) : (s.advance t).ownAddress = s.ownAddress := rfl

/-- Where two effects agree on states with the part's own address, so do their frame steps. -/
theorem frameStep_congr {s : State} {e e' : State → State} (t : Nat)
    (h : ∀ x : State, x.ownAddress = s.ownAddress → e x = e' x) : frameStep t e s = frameStep t e' s := by
  have : onFrame e (s.advance t) = onFrame e' (s.advance t) := by
    unfold onFrame
    rw [h _ (by simp)]
  unfold frameStep inStep
  rw [this]

/-! ### Rows that stand for a frame -/

theorem decideFrame_of_role_frame {f : Frame} (h : f.kind = kindPosition ∨ f.kind = kindWind ∨
    f.kind = kindDoorReport ∨ f.kind = kindDriveStatus) (s : State) :
    decideFrame f s = passOn f (observe f s) := by
  rcases h with h | h | h | h <;>
    simp [decideFrame, isDriveKind, h, kindPosition, kindWind, kindDoorReport, kindDriveStatus,
      kindDriveRef, kindDriveApply, kindDoorCommand, kindAllStop, kindRequest]

theorem decideFrame_positionFrame (dst src : Byte) (pos : BitVec 24) (health : Byte) (s : State) :
    decideFrame (positionFrame dst src pos health) s =
      passOn (positionFrame dst src pos health)
        (observePosition src pos.toNat (decodeHealth health) s) := by
  rw [decideFrame_of_role_frame (.inl rfl)]
  simp [observe, positionFrame, octets3, octets3_value pos.toNat pos.isLt]

theorem decideFrame_windFrame (dst src : Byte) (speed direction : BitVec 16) (health : Byte) (s : State) :
    decideFrame (windFrame dst src speed direction health) s =
      passOn (windFrame dst src speed direction health)
        (observeWind src speed.toNat direction.toNat (decodeHealth health) s) := by
  rw [decideFrame_of_role_frame (.inr (.inl rfl))]
  simp [observe, windFrame, halfOctets, octets2, num2_octets _ speed.isLt, num2_octets _ direction.isLt]

theorem decideFrame_doorReportFrame (dst src cabin door occupancy : Byte) (s : State) :
    decideFrame (doorReportFrame dst src cabin door occupancy) s =
      passOn (doorReportFrame dst src cabin door occupancy)
        (observeDoor src cabin (decodeDoor door) occupancy.toNat s) := by
  rw [decideFrame_of_role_frame (.inr (.inr (.inl rfl)))]
  simp [observe, doorReportFrame]

theorem decideFrame_driveStatusFrame (dst src ready fault : Byte) (speed : BitVec 16) (s : State) :
    decideFrame (driveStatusFrame dst src ready fault speed) s =
      passOn (driveStatusFrame dst src ready fault speed)
        (observeDrive src (decodeReady ready) fault speed.toNat s) := by
  have hk : kindDriveStatus ≠ kindPosition := by decide
  rw [decideFrame_of_role_frame (.inr (.inr (.inr rfl)))]
  simp [observe, driveStatusFrame, halfOctets, octets2, num2_octets _ speed.isLt, hk]

theorem decideFrame_unlock (dst src cabin : Byte) (s : State) :
    decideFrame (doorCommandFrame dst src cabin actionUnlock) s = decideUnlock dst src cabin s := by
  have hd : isDriveKind kindDoorCommand = false := by decide
  simp [decideFrame, doorCommandFrame, doorCommand, hd]

theorem decideFrame_lock (dst src cabin : Byte) (s : State) :
    decideFrame (doorCommandFrame dst src cabin actionLock) s = decideLock dst src cabin s := by
  have hd : isDriveKind kindDoorCommand = false := by decide
  have ha : actionLock ≠ actionUnlock := by decide
  simp [decideFrame, doorCommandFrame, doorCommand, hd, ha]

theorem decideFrame_allStop (dst src : Byte) (payload : List Byte) (s : State) :
    decideFrame (allStopFrame dst src payload) s = takeAllStop (allStopFrame dst src payload) s := by
  have hd : isDriveKind kindAllStop = false := by decide
  have hk : kindAllStop ≠ kindDoorCommand := by decide
  simp [decideFrame, allStopFrame, hd, hk]

theorem decideFrame_drive {f : Frame} (h : f.kind = kindDriveRef ∨ f.kind = kindDriveApply) (s : State) :
    decideFrame f s = s := by
  rcases h with h | h <;> simp [decideFrame, isDriveKind, h]

/-- A REQUEST addressed to the part goes to the owner of its kind (R13, R168). -/
theorem decideFrame_request {s : State} {own : Byte} (h : s.ownAddress = own) (src tag kind : Byte)
    (args : List Byte) :
    decideFrame (requestFrame own src tag kind args) s = takeRequest (ownerOf kind) src tag kind args s := by
  have hd : isDriveKind kindRequest = false := by decide
  have hc : kindRequest ≠ kindDoorCommand := by decide
  have hs : kindRequest ≠ kindAllStop := by decide
  simp [decideFrame, requestFrame, requestArrives, hd, hc, hs, h]

/-- A request row with the owner of its kind does what reception of its frame does. -/
theorem request_row (s : State) (t : Nat) {owner : Option Owner} (src tag kind : Byte) (args : List Byte)
    (ho : ownerOf kind = owner) :
    frameStep t (takeRequestFrame owner src tag kind args) s =
      frameStep t (heard (requestFrame s.ownAddress src tag kind args)
        (decideFrame (requestFrame s.ownAddress src tag kind args))) s := by
  apply frameStep_congr
  intro x hx
  have decided := decideFrame_request hx src tag kind args
  simp only [takeRequestFrame, heard, hx, decided, ho]

/-- A row that stands for a frame is the reception of that frame (R8 to R16; log 5). -/
theorem exec_row {c : Instr} {s : State} {t : Nat} {f : Frame} (h : s.frameOf c = some (t, f)) :
    exec c s = .next (frameStep t (heard f (decideFrame f)) s) := by
  have same {e e' : State → State} {t : Nat} (h : ∀ x : State, x.ownAddress = s.ownAddress → e x = e' x) :
      (Host.Outcome.next (frameStep t e s) : Host.Outcome State Fault Refusal) =
        .next (frameStep t e' s) := congrArg _ (frameStep_congr t h)
  cases c
  case resetAssert | powerOnReset | otherFrame | frameSendEnd | rotationUpdate | windEvaluation |
      dwellExpiry | settlingEnd | encoderLapse | staleEvent | headLapse | driveLapse |
      serviceKeyChange => cases h
  case position => cases h; exact same fun x _ => by simp only [takePosition, heard, decideFrame_positionFrame]
  case wind => cases h; exact same fun x _ => by simp only [takeWind, heard, decideFrame_windFrame]
  case doorReport =>
    cases h; exact same fun x _ => by simp only [takeDoorReport, heard, decideFrame_doorReportFrame]
  case driveStatus =>
    cases h; exact same fun x _ => by simp only [takeDriveStatus, heard, decideFrame_driveStatusFrame]
  case unlock => cases h; exact same fun x _ => by unfold heard; rw [← decideFrame_unlock]; rfl
  case lock => cases h; exact same fun x _ => by unfold heard; rw [← decideFrame_lock]; rfl
  case allStop => cases h; exact same fun x _ => by unfold heard; rw [decideFrame_allStop]
  case strip => cases h; exact same fun x hx => (heard_of_own hx.symm _).symm
  case foreignDriveFrame t dst src kind payload =>
    cases h
    have hd : driveFrameCode kind = kindDriveRef ∨ driveFrameCode kind = kindDriveApply := by
      cases kind
      · exact .inl rfl
      · exact .inr rfl
    exact same fun x _ => by unfold heard; rw [decideFrame_drive hd, ite_self]; rfl
  case readStatus | readTable | setLocks | restart | readHolds | hold | ackHold | readCabins | readWind |
      unstow | stow | start | stop | resume | resetBrake | setTrim | openService | beginClearDown |
      closeService | armZone | unknownRequest | loadRoster | loadPass | loadCabins | loadZones |
      loadParameters | loadHeads | loadRules =>
    cases h
    exact congrArg _ (request_row s _ _ _ _ _ rfl)

theorem exec_otherFrame_of_readFrame {os : List Byte} {f : Frame} (h : readFrame os = some f) (t : Nat)
    (s : State) : exec (.otherFrame t os) s = .next (frameStep t (heard f (decideFrame f)) s) := by
  have : receive os = heard f (decideFrame f) := by funext x; simp [receive, h]
  show Host.Outcome.next (frameStep t (receive os) s) = _
  rw [this]

theorem exec_otherFrame_discarded {os : List Byte} (h : readFrame os = none) (t : Nat) (s : State) :
    exec (.otherFrame t os) s = .next (frameStep t id s) := by
  have : receive os = id := by funext x; simp [receive, h]
  show Host.Outcome.next (frameStep t (receive os) s) = _
  rw [this]

/-! ### Events -/

/-- The moment and the effect of a command that is an event of the time base: the end of a frame on ring-out,
a timer, a lapse or an expiry. -/
def Instr.event : Instr → Option (Nat × (State → State))
  | .frameSendEnd t => some (t, fun s => s.setRing (endSending s.ring))
  | .rotationUpdate t => some (t, rotationUpdate)
  | .windEvaluation t => some (t, evaluate)
  | .dwellExpiry t => some (t, expireDwell)
  | .settlingEnd t => some (t, endSettling)
  | .encoderLapse t head => some (t, encoderLapse head)
  | .staleEvent t cabin => some (t, staleEvent cabin)
  | .headLapse t head => some (t, headLapse head)
  | .driveLapse t drive => some (t, driveLapse drive)
  | _ => none

theorem exec_event {c : Instr} {t : Nat} {e : State → State} (h : Instr.event c = some (t, e)) (s : State) :
    exec c s = .next (inStep t e s) := by
  cases c
  case frameSendEnd | rotationUpdate | windEvaluation | dwellExpiry | settlingEnd | encoderLapse |
      staleEvent | headLapse | driveLapse => cases h; rfl
  all_goals cases h

/-- The effects of events: the end of a frame on ring-out, the rotation update, and work of the blocks that
leaves the ring interface but for notices. -/
theorem event_cases {c : Instr} {t : Nat} {e : State → State} (h : Instr.event c = some (t, e)) :
    (e = fun s => s.setRing (endSending s.ring)) ∨ e = rotationUpdate ∨
      ∀ s, Quiet s (e s) := by
  cases c
  case frameSendEnd => cases h; exact .inl rfl
  case rotationUpdate => cases h; exact .inr (.inl rfl)
  case windEvaluation => cases h; exact .inr (.inr fun s => (Quiet.refl s).then_evaluate)
  case dwellExpiry => cases h; exact .inr (.inr fun s => (Quiet.refl s).then_expireDwell)
  case settlingEnd => cases h; exact .inr (.inr fun s => (Quiet.refl s).aside (by simp))
  case encoderLapse => cases h; exact .inr (.inr fun s => (Quiet.refl s).then_encoderLapse _)
  case staleEvent => cases h; exact .inr (.inr fun s => (Quiet.refl s).then_staleEvent _)
  case headLapse => cases h; exact .inr (.inr fun s => (Quiet.refl s).aside (by simp))
  case driveLapse => cases h; exact .inr (.inr fun s => (Quiet.refl s).then_driveLapse _)
  all_goals cases h

/-! ### Every command -/

/-- A command is one of the three of the lines, the row of a frame, raw octets, or an event. -/
theorem command_cases (c : Instr) (s : State) :
    (c = .resetAssert ∨ (∃ r, c = .powerOnReset r) ∨ ∃ l, c = .serviceKeyChange l) ∨
      (∃ t f, s.frameOf c = some (t, f)) ∨ (∃ t os, c = .otherFrame t os) ∨
      ∃ t e, Instr.event c = some (t, e) := by
  cases c
  case resetAssert => exact .inl (.inl rfl)
  case powerOnReset r => exact .inl (.inr (.inl ⟨r, rfl⟩))
  case serviceKeyChange l => exact .inl (.inr (.inr ⟨l, rfl⟩))
  case otherFrame t os => exact .inr (.inr (.inl ⟨t, os, rfl⟩))
  case frameSendEnd | rotationUpdate | windEvaluation | dwellExpiry | settlingEnd | encoderLapse |
      staleEvent | headLapse | driveLapse => exact .inr (.inr (.inr ⟨_, _, rfl⟩))
  all_goals exact .inr (.inl ⟨_, _, rfl⟩)

/-- What a command does: the effect of a line command, the reception of a frame, a discarded frame, or an
event. -/
theorem exec_cases (c : Instr) (s : State) :
    exec c s = .next (assertReset s) ∨ (∃ r, exec c s = .next (releaseReset r s)) ∨
      (∃ l, exec c s = .next (s.setLines { s.lines with svcKey := l })) ∨
      (∃ t f, exec c s = .next (frameStep t (heard f (decideFrame f)) s)) ∨
      (∃ t, exec c s = .next (frameStep t id s)) ∨
      ∃ t e, Instr.event c = some (t, e) ∧ exec c s = .next (inStep t e s) := by
  rcases command_cases c s with (rfl | ⟨r, rfl⟩ | ⟨l, rfl⟩) | ⟨t, f, h⟩ | ⟨t, os, rfl⟩ | ⟨t, e, h⟩
  · exact .inl rfl
  · exact .inr (.inl ⟨r, rfl⟩)
  · exact .inr (.inr (.inl ⟨l, rfl⟩))
  · exact .inr (.inr (.inr (.inl ⟨t, f, exec_row h⟩)))
  · cases h : readFrame os with
    | none => exact .inr (.inr (.inr (.inr (.inl ⟨t, exec_otherFrame_discarded h t s⟩))))
    | some f => exact .inr (.inr (.inr (.inl ⟨t, f, exec_otherFrame_of_readFrame h t s⟩)))
  · exact .inr (.inr (.inr (.inr (.inr ⟨t, e, h, exec_event h s⟩))))

/-- A law of the part with the law that holds within a step, before the arbiter's choice: what is to be shown of
each sort of effect for every command to keep the law. -/
structure StepInvariant (law within : State → Prop) : Prop where
  /-- The reset line falls (R2). -/
  resetLow : ∀ s, law s → law (assertReset s)
  /-- The reset line is released (R2). -/
  release : ∀ r s, law s → law (releaseReset r s)
  /-- The service key line takes a level (R1). -/
  key : ∀ l s, law s → law (s.setLines { s.lines with svcKey := l })
  /-- The time base moves on, outside reset (R1). -/
  time : ∀ t s, s.lines.inReset = false → law s → within (s.advance t)
  /-- A frame under way at the release ends (R2). -/
  reception : ∀ s, within s → within (s.setLines { s.lines with underWay := false })
  /-- A taken frame is decided (R8 to R16). -/
  frame : ∀ f s, within s → within (decideFrame f s)
  /-- An event of the time base. -/
  event : ∀ c t e s, Instr.event c = some (t, e) → within s → within (e s)
  /-- The arbiter's choice at the end of the step (R23). -/
  arbiter : ∀ s, within s → law (s.setRing (startIfIdle s.ring))

variable {law within : State → Prop}

theorem StepInvariant.inStep_keeps (i : StepInvariant law within) {t : Nat} {e : State → State} {s : State}
    (he : ∀ x, within x → within (e x)) (h : law s) : law (inStep t e s) := by
  rcases inStep_cases s t e with ⟨-, h'⟩ | ⟨hr, h'⟩ <;> rw [h']
  · exact h
  · exact i.arbiter _ (he _ (i.time t s hr h))

theorem StepInvariant.frameStep_keeps (i : StepInvariant law within) {t : Nat} {e : State → State} {s : State}
    (he : ∀ x, within x → within (e x)) (h : law s) : law (frameStep t e s) := by
  refine i.inStep_keeps (fun x hx => ?_) h
  rcases onFrame_cases x e with ⟨-, h'⟩ | ⟨-, h'⟩ <;> rw [h']
  · exact i.reception x hx
  · exact he x hx

/-- Every command answers next, with the law kept. -/
theorem StepInvariant.exec_keeps (i : StepInvariant law within) (c : Instr) {s : State} (h : law s) :
    ∃ u, exec c s = .next u ∧ law u := by
  rcases exec_cases c s with e | ⟨r, e⟩ | ⟨l, e⟩ | ⟨t, f, e⟩ | ⟨t, e⟩ | ⟨t, effect, he, e⟩
  · exact ⟨_, e, i.resetLow s h⟩
  · exact ⟨_, e, i.release r s h⟩
  · exact ⟨_, e, i.key l s h⟩
  · refine ⟨_, e, i.frameStep_keeps (fun x hx => ?_) h⟩
    unfold heard
    split
    · exact i.frame f x hx
    · exact hx
  · exact ⟨_, e, i.frameStep_keeps (fun x hx => hx) h⟩
  · exact ⟨_, e, i.inStep_keeps (fun x hx => i.event c t effect x he hx) h⟩

/-- A law that every command keeps, and that the waiting commands do not touch, every step keeps. -/
theorem StepInvariant.kept (i : StepInvariant law within)
    (waiting : ∀ p s, law s → law (s.setPending p)) : Kept law := by
  intro s s' h hs
  unfold step at hs
  split at hs
  · cases hs; exact h
  · next c rest _ =>
      obtain ⟨u, hu, hlaw⟩ := i.exec_keeps c (waiting rest s h)
      rw [hu] at hs
      cases hs
      exact hlaw

end Sys2Proof.Machine
end

