-- ==== Sys2Proof/Proofs/RingInterface.lean ====
section
/-! What deciding a frame may do, and the capacities of the buffer and the queues through a step (R8 to R23). -/

namespace Sys2Proof.Machine

variable {s₀ s : State}

/-! ### Deciding a frame -/

theorem Quiet.then_observePosition (q : Quiet s₀ s) (src : Byte) (p : Nat) (h : Health) :
    Quiet s₀ (observePosition src p h s) := by
  unfold observePosition
  split
  · exact q.then_encoderReport _ p h
  · split
    · exact q.then_encoderReport _ p h
    · exact q

theorem Quiet.then_observeWind (q : Quiet s₀ s) (src : Byte) (speed direction : Nat) (h : Health) :
    Quiet s₀ (observeWind src speed direction h s) := by
  unfold observeWind
  split
  · exact q.aside (by simp)
  · exact q

theorem Quiet.then_observeDoor (q : Quiet s₀ s) (src cabin : Byte) (d : Door) (n : Nat) :
    Quiet s₀ (observeDoor src cabin d n s) := by
  unfold observeDoor
  split
  · split
    · exact q.then_cabinReport _ d n
    · exact q
  · exact q

theorem Quiet.then_observeDrive (q : Quiet s₀ s) (src : Byte) (ready : Bool) (fault : Byte) (speed : Nat) :
    Quiet s₀ (observeDrive src ready fault speed s) := by
  unfold observeDrive
  split
  · exact q.then_driveReport _ ready fault speed
  · exact q

/-- Observation is work of the blocks alone (R14). -/
theorem Quiet.then_observe (q : Quiet s₀ s) (f : Frame) : Quiet s₀ (observe f s) := by
  unfold observe
  split
  · split
    · exact q.then_observePosition _ _ _
    · split
      · exact q.then_observeDrive _ _ _ _
      · exact q
  · split
    · exact q.then_observeWind _ _ _ _
    · exact q
  · split
    · exact q.then_observeDoor _ _ _ _
    · exact q
  · exact q

/-- A frame that goes on joins the forward buffer or leaves everything as it is (R13, R16, R17). -/
theorem passOn_cases (f : Frame) (s : State) : passOn f s = s ∨ passOn f s = pushForward f s := by
  unfold passOn
  split
  · exact .inl rfl
  · split
    · exact .inr rfl
    · split
      · exact .inr rfl
      · exact .inl rfl

/-- A door command queues at most one item, between work of the blocks (R11, R63 to R67). -/
theorem doorCommand_cases (f : Frame) (s : State) :
    doorCommand f s = s ∨ ∃ i v, Quiet s v ∧ Quiet (pushDoor i v) (doorCommand f s) := by
  have unlocked (dst src cabin : Byte) :
      ∃ i v, Quiet s v ∧ Quiet (pushDoor i v) (decideUnlock dst src cabin s) := by
    unfold decideUnlock
    split
    · next k z _ =>
        have started : Quiet s (startCycle k (spendPermit z k s)) := (Quiet.refl s).aside (by simp)
        exact ⟨_, _, started, (Quiet.refl (forwardDoor .unlock dst cabin actionUnlock _)).then_guarded
          fun h => h.then_testOverrun z⟩
    · exact ⟨_, _, .refl s, .refl _⟩
  have locked (dst src cabin : Byte) :
      ∃ i v, Quiet s v ∧ Quiet (pushDoor i v) (decideLock dst src cabin s) := by
    unfold decideLock
    split
    · exact ⟨_, _, .refl s, .refl _⟩
    · exact ⟨_, _, .refl s, .refl _⟩
  unfold doorCommand
  split
  · split
    · exact .inr (unlocked _ _ _)
    · split
      · exact .inr (locked _ _ _)
      · exact .inl rfl
  · exact .inl rfl

/-- A REQUEST is not taken, or is answered by its kind's owner and one RESPONSE (R21, R168). -/
theorem takeRequest_cases (src tag kind : Byte) (args : List Byte) (s : State) :
    takeRequest (ownerOf kind) src tag kind args s = s ∨
      s.ring.responses.length < 8 ∧ ∃ r v, Writes kind s v ∧
        takeRequest (ownerOf kind) src tag kind args s = pushResponse src tag kind r v := by
  unfold takeRequest
  split
  · next h => exact .inr ⟨h, _, _, judgeRequest_writes src kind args s, rfl⟩
  · exact .inl rfl

/-- What deciding a frame may do, by R10 to R16 in their order. -/
inductive Decided (f : Frame) (s : State) : State → Prop where
  /-- It is dropped, stripped of effect or malformed for its kind. -/
  | dropped : Decided f s s
  /-- A door command queues an item. -/
  | door (i : DoorItem) (v u : State) (before : Quiet s v) (after : Quiet (pushDoor i v) u) : Decided f s u
  /-- An ALL_STOP raises its record and goes on. -/
  | allStop (reason : Byte) : Decided f s (pushForward f (raiseHold (.allStop f.source reason) s))
  /-- A REQUEST to the part is answered. -/
  | request (tag kind : Byte) (args : List Byte) (r : Reply) (v : State) (dest : f.dest = s.ownAddress)
    (request : f.kind = kindRequest) (payload : f.payload = tag :: kind :: args)
    (room : s.ring.responses.length < 8) (writes : Writes kind s v) :
    Decided f s (pushResponse f.source tag kind r v)
  /-- Any other is observed and goes no further. -/
  | observed (v : State) (work : Quiet s v) : Decided f s v
  /-- Any other is observed and goes on. -/
  | forwarded (v : State) (work : Quiet s v) : Decided f s (pushForward f v)

theorem decideFrame_decided (f : Frame) (s : State) : Decided f s (decideFrame f s) := by
  unfold decideFrame
  split
  · exact .dropped
  split
  · rcases doorCommand_cases f s with h | ⟨i, v, hv, hu⟩
    · rw [h]; exact .dropped
    · exact .door i v _ hv hu
  split
  · exact .allStop _
  split
  · next h =>
      unfold requestArrives
      split
      · next tag kind args hp =>
          rcases takeRequest_cases f.source tag kind args s with e | ⟨room, r, v, hv, e⟩
          · rw [e]; exact .dropped
          · rw [e]; exact .request tag kind args r v h.1 h.2 hp room hv
      · exact .dropped
  · have work := (Quiet.refl s).then_observe f
    rcases passOn_cases f (observe f s) with h | h <;> rw [h]
    · exact .observed _ work
    · exact .forwarded _ work

/-- Deciding a frame leaves the waiting commands and the lines. -/
theorem Decided.lines {f : Frame} {u : State} (d : Decided f s u) :
    u.pending = s.pending ∧ u.lines = s.lines := by
  cases d with
  | dropped => exact ⟨rfl, rfl⟩
  | door i v u before after => simp [after.pending, after.lines, before.pending, before.lines]
  | allStop reason => simp
  | request _ _ _ _ v _ _ _ _ writes =>
      obtain ⟨x, -, q⟩ := writes
      simp [q.pending, q.lines]
  | observed v work => exact ⟨work.pending, work.lines⟩
  | forwarded v work => simp [work.pending, work.lines]

/-- Deciding a frame writes the tables only for a REQUEST addressed to the part (R172, R175, R146). -/
theorem Decided.tables {f : Frame} {u : State} (d : Decided f s u) :
    u.tables = s.tables ∨
      ∃ tag kind args, f.dest = s.ownAddress ∧ f.kind = kindRequest ∧ f.payload = tag :: kind :: args ∧
        TableWrite s kind u.tables := by
  cases d with
  | dropped => exact .inl rfl
  | door i v u before after => exact .inl (by simp [after.tables, before.tables])
  | allStop reason => exact .inl (by simp)
  | request tag kind args r v dest request payload _ writes =>
      obtain ⟨x, hx, q⟩ := writes
      refine .inr ⟨tag, kind, args, dest, request, payload, ?_⟩
      have : (pushResponse f.source tag kind r v).tables = x := by simp [q.tables]
      rwa [this]
  | observed v work => exact .inl work.tables
  | forwarded v work => exact .inl (by simp [work.tables])

/-! ### The arbiter -/

/-- `g` is the head of the own frames of `r`, and `r'` is `r` without it (R23). -/
structure OwnTaken (r : Ring) (g : Frame) (r' : Ring) : Prop where
  frames : r.ownFrames = g :: r'.ownFrames
  forward : r'.forward = r.forward
  overflow : r'.noticeOverflow = r.noticeOverflow
  driveSet : r'.driveSet <:+ r.driveSet
  doorQueue : r'.doorQueue <:+ r.doorQueue
  responses : r'.responses <:+ r.responses
  notices : r'.notices <:+ r.notices

/-- The own frames are taken in the queues' priority, until none waits (R23). -/
theorem takeOwn_cases (r : Ring) :
    (takeOwn r = none ∧ r.ownFrames = []) ∨ ∃ g r', takeOwn r = some (g, r') ∧ OwnTaken r g r' := by
  unfold takeOwn
  split
  · next f fs h => exact .inr ⟨_, _, rfl, by constructor <;> simp [Ring.ownFrames, h]⟩
  next h₁ =>
  split
  · next i is h => exact .inr ⟨_, _, rfl, by constructor <;> simp [Ring.ownFrames, h₁, h]⟩
  next h₂ =>
  split
  · next f fs h => exact .inr ⟨_, _, rfl, by constructor <;> simp [Ring.ownFrames, h₁, h₂, h]⟩
  next h₃ =>
  split
  · next f fs h => exact .inr ⟨_, _, rfl, by constructor <;> simp [Ring.ownFrames, h₁, h₂, h₃, h]⟩
  · next h => exact .inl ⟨rfl, by simp [Ring.ownFrames, h₁, h₂, h₃, h]⟩

/-- No own frame waits just where all four queues are empty. -/
theorem ownFrames_eq_nil {r : Ring} (h : r.ownFrames = []) :
    r.driveSet = [] ∧ r.doorQueue = [] ∧ r.responses = [] ∧ r.notices = [] := by
  simpa [Ring.ownFrames, and_assoc] using h

/-- Cases 1 to 4 of R23: what the arbiter's choice leaves of an idle ring-out. -/
inductive Chosen (r : Ring) : Ring → Prop where
  /-- An own frame starts: one is owed, or no forwarded frame waits. -/
  | own (g : Frame) (r' : Ring) (taken : OwnTaken r g r') (first : r.ownDue = true ∨ r.forward = []) :
    Chosen r { r' with ringOut := .sending g false, ownDue := false }
  /-- The oldest forwarded frame starts: no own frame is owed, or none waits. -/
  | forwarded (f : Frame) (fs : List Frame) (oldest : r.forward = f :: fs)
    (first : r.ownDue = false ∨ r.ownFrames = []) :
    Chosen r { r with forward := fs, ringOut := .sending f true }
  /-- Nothing waits. -/
  | nothing (own : r.ownFrames = []) (forward : r.forward = []) : Chosen r r

theorem chooseFrame_chosen (r : Ring) : Chosen r (chooseFrame r) := by
  have started (first : r.ownDue = true ∨ r.forward = [])
      (waits : r.ownFrames = [] → r.forward = []) : Chosen r (startOwn r) := by
    unfold startOwn
    rcases takeOwn_cases r with ⟨h, own⟩ | ⟨g, r', h, taken⟩ <;> rw [h]
    · exact .nothing own (waits own)
    · exact .own g r' taken first
  unfold chooseFrame
  split
  · next h =>
      obtain ⟨due, waiting⟩ : r.ownDue = true ∧ (takeOwn r).isSome = true := by
        simpa [ownWaiting] using h
      refine started (.inl due) fun own => ?_
      rcases takeOwn_cases r with ⟨e, -⟩ | ⟨g, r', -, taken⟩
      · simp [e] at waiting
      · have := taken.frames
        rw [own] at this
        cases this
  · next h =>
      split
      · next f fs oldest =>
          refine .forwarded f fs oldest ?_
          rcases takeOwn_cases r with ⟨-, own⟩ | ⟨g, r', e, -⟩
          · exact .inr own
          · exact .inl (by simpa [ownWaiting, e] using h)
      · next empty => exact started (.inr empty) fun _ => empty

/-! ### Capacities -/

/-- The buffer and the queues within their capacities, and at most one ALL_STOP in the drive set (R17, R19 to
R22). -/
structure Ring.Roomy (r : Ring) : Prop where
  forward : r.forward.length ≤ 8
  driveSet : r.driveSet.length ≤ 6
  doorQueue : r.doorQueue.length ≤ 8
  responses : r.responses.length ≤ 8
  notices : r.notices.length ≤ 16
  allStops : r.driveSet.countP isAllStop ≤ 1

/-- The law of the queues: the capacities, and nothing waiting behind an idle ring-out outside reset. -/
theorem queueLaw_iff (s : State) :
    QueueLaw s ↔ s.ring.Roomy ∧
      (s.lines.inReset = false → s.ring.ringOut = .idle → s.ring.forward = [] ∧ s.ring.ownFrames = []) := by
  constructor
  · rintro ⟨forward, driveSet, doorQueue, responses, notices, allStops, idle⟩
    refine ⟨⟨forward, driveSet, doorQueue, responses, notices, allStops⟩, fun h hi => ?_⟩
    obtain ⟨hf, hd, hq, hr, hn⟩ := idle h hi
    exact ⟨hf, by simp [Ring.ownFrames, hd, hq, hr, hn]⟩
  · rintro ⟨r, idle⟩
    exact ⟨r.forward, r.driveSet, r.doorQueue, r.responses, r.notices, r.allStops, fun h hi =>
      ⟨(idle h hi).1, ownFrames_eq_nil (idle h hi).2⟩⟩

theorem Ring.Roomy.quiet {u : State} (r : s.ring.Roomy) (q : Quiet s u) : u.ring.Roomy := by
  obtain ⟨hf, hd, hq, hr, -, -⟩ := q.queues
  exact ⟨hf ▸ r.forward, hd ▸ r.driveSet, hq ▸ r.doorQueue, hr ▸ r.responses, q.room r.notices,
    hd ▸ r.allStops⟩

theorem Ring.Roomy.then_pushForward (r : s.ring.Roomy) (f : Frame) : (pushForward f s).ring.Roomy := by
  unfold pushForward Config.forwardRoom
  split
  · next h => exact { r with forward := by simp; omega }
  · exact r

theorem Ring.Roomy.then_pushDoor (r : s.ring.Roomy) (i : DoorItem) : (pushDoor i s).ring.Roomy :=
  { r with doorQueue := arriveDoor_length _ i r.doorQueue }

theorem Ring.Roomy.then_pushResponse (r : s.ring.Roomy) (h : s.ring.responses.length < 8) (dest tag kind : Byte)
    (a : Reply) : (pushResponse dest tag kind a s).ring.Roomy :=
  { r with responses := by simp [pushResponse]; omega }

/-- A drive set holds at most four references, one apply frame and one ALL_STOP (R19, R165). -/
theorem Ring.Roomy.then_queueDriveSet (r : s.ring.Roomy) (v : Nat) (brake emergency : Bool) :
    (queueDriveSet v brake emergency s).ring.Roomy := by
  have refs_length : (allFour.filterMap (driveRef s v brake)).length ≤ 4 :=
    List.length_filterMap_le _ allFour
  have refs_stops : (allFour.filterMap (driveRef s v brake)).countP isAllStop = 0 := by
    rw [List.countP_eq_zero]
    intro f hf
    obtain ⟨n, -, hn⟩ := List.mem_filterMap.1 hf
    unfold driveRef at hn
    split at hn
    · cases hn
    · cases hn; simp [isAllStop, State.ownFrame, kindDriveRef, kindAllStop]
  have apply_length : (driveApply s).length ≤ 1 := by unfold driveApply; split <;> simp
  have apply_stops : (driveApply s).countP isAllStop = 0 := by
    unfold driveApply
    split <;> simp [isAllStop, State.ownFrame, kindDriveApply, kindAllStop]
  have kept_length : (keptAllStop emergency s).length ≤ 1 := by
    have := r.allStops
    rw [List.countP_eq_length_filter] at this
    dsimp only [keptAllStop]
    split
    · simp
    · exact this
  have kept_stops := (keptAllStop emergency s).countP_le_length (p := isAllStop)
  refine { r with driveSet := ?_, allStops := ?_ }
  · simp only [queueDriveSet, State.setRing_ring, List.length_append]; omega
  · simp only [queueDriveSet, State.setRing_ring, List.countP_append]; omega

theorem Ring.Roomy.then_enterBraked (r : s.ring.Roomy) (cause : BrakeCause) :
    (enterBraked cause s).ring.Roomy := by
  dsimp only [enterBraked]
  have stopped : (queueDriveSet 0 true cause.emergency
      ((putWheel .braked s).setRot { (putWheel .braked s).rot with vCmd := 0 })).ring.Roomy :=
    Ring.Roomy.then_queueDriveSet (by simpa using r) _ _ _
  exact stopped.quiet (((Quiet.refl _).then_notify _).then_notify _)

theorem Ring.Roomy.then_raiseAllStop (r : s.ring.Roomy) (source reason : Byte) :
    (raiseHold (.allStop source reason) s).ring.Roomy := by
  have noticed : (notify (.holdRaised (.allStop source reason))
      (appendHold (.allStop source reason) s)).ring.Roomy :=
    r.quiet (((Quiet.refl s).aside (by simp)).then_notify _)
  unfold raiseHold
  split
  · exact r
  · unfold onRaise
    split
    · exact noticed.then_enterBraked _
    · exact noticed.then_enterBraked _
    · exact noticed

theorem Ring.Roomy.decided {f : Frame} {u : State} (r : s.ring.Roomy) (d : Decided f s u) :
    u.ring.Roomy := by
  cases d with
  | dropped => exact r
  | door i v u before after => exact ((r.quiet before).then_pushDoor i).quiet after
  | allStop reason => exact (r.then_raiseAllStop _ reason).then_pushForward f
  | request tag kind args a v _ _ _ room writes =>
      obtain ⟨x, -, q⟩ := writes
      have same : v.ring.responses = s.ring.responses := q.queues.2.2.2.1
      exact Ring.Roomy.then_pushResponse (Ring.Roomy.quiet (s := s.setTables x) r q)
        (by rw [same]; exact room) _ _ _ a
  | observed v work => exact r.quiet work
  | forwarded v work => exact (r.quiet work).then_pushForward f

theorem Ring.Roomy.then_rotationUpdate (r : s.ring.Roomy) : (rotationUpdate s).ring.Roomy := by
  have limited : (setLimit s).ring.Roomy := by simpa using r
  dsimp only [rotationUpdate]
  split
  · exact limited.then_enterBraked _
  · exact (limited.quiet (Quiet.then_judgeEnd ((Quiet.refl _).aside (u := (setLimit s).setRot _)
      (by simp)))).then_queueDriveSet _ _ _

theorem Ring.Roomy.then_endSending (r : s.ring.Roomy) : (endSending s.ring).Roomy := by
  unfold endSending
  split
  · exact r
  · exact { r with }

theorem Ring.Roomy.event (r : s.ring.Roomy) {c : Instr} {t : Nat} {e : State → State}
    (h : Instr.event c = some (t, e)) : (e s).ring.Roomy := by
  rcases event_cases h with rfl | rfl | quiet
  · exact r.then_endSending
  · exact r.then_rotationUpdate
  · exact r.quiet (quiet s)

theorem Ring.Roomy.chosen {r r' : Ring} (h : r.Roomy) (c : Chosen r r') : r'.Roomy := by
  cases c with
  | own g r' taken =>
      exact ⟨taken.forward ▸ h.forward, taken.driveSet.length_le.trans h.driveSet,
        taken.doorQueue.length_le.trans h.doorQueue, taken.responses.length_le.trans h.responses,
        taken.notices.length_le.trans h.notices, (taken.driveSet.sublist.countP_le).trans h.allStops⟩
  | forwarded f fs oldest =>
      have := h.forward
      exact { h with forward := by simp only [oldest, List.length_cons] at this ⊢; omega }
  | nothing => exact h

/-- After the arbiter's choice an idle ring-out leaves nothing waiting (R23). -/
theorem Chosen.idle {r r' : Ring} (c : Chosen r r') (h : r'.ringOut = .idle) :
    r'.forward = [] ∧ r'.ownFrames = [] := by
  cases c with
  | own => cases h
  | forwarded => cases h
  | nothing own forward => exact ⟨forward, own⟩

/-- A step ends with ring-out sending, or with the arbiter's choice. -/
theorem startIfIdle_cases (r : Ring) :
    (∃ f b, r.ringOut = .sending f b ∧ startIfIdle r = r) ∨
      (r.ringOut = .idle ∧ Chosen r (startIfIdle r)) := by
  unfold startIfIdle
  cases h : r.ringOut with
  | idle => exact .inr ⟨rfl, chooseFrame_chosen r⟩
  | sending f b => exact .inl ⟨f, b, rfl, rfl⟩

theorem Ring.Roomy.then_startIfIdle {r : Ring} (h : r.Roomy) : (startIfIdle r).Roomy := by
  rcases startIfIdle_cases r with ⟨_, _, -, e⟩ | ⟨-, c⟩
  · rwa [e]
  · exact h.chosen c

theorem startIfIdle_idle {r : Ring} (h : (startIfIdle r).ringOut = .idle) :
    (startIfIdle r).forward = [] ∧ (startIfIdle r).ownFrames = [] := by
  rcases startIfIdle_cases r with ⟨_, _, busy, e⟩ | ⟨-, c⟩
  · rw [e, busy] at h; cases h
  · exact c.idle h

/-- Every sort of effect keeps the capacities, and every step ends with the arbiter's choice. -/
theorem queueLaw_invariant : StepInvariant QueueLaw (fun s => s.ring.Roomy) where
  resetLow s h := (queueLaw_iff _).2 ⟨{ ((queueLaw_iff s).1 h).1 with }, nofun⟩
  release r s _ := by
    refine (queueLaw_iff _).2 ⟨⟨?_, ?_, ?_, ?_, ?_, ?_⟩, fun _ _ => ⟨rfl, rfl⟩⟩ <;>
      simp [releaseReset, State.powerOn, resetRing]
  key l s h := h
  time t s _ h := ((queueLaw_iff s).1 h).1
  reception s h := h
  frame f s h := h.decided (decideFrame_decided f s)
  event c t e s he h := h.event he
  arbiter s h := (queueLaw_iff _).2 ⟨h.then_startIfIdle, fun _ => startIfIdle_idle⟩

/-- Settles O50: every sort of effect keeps the capacities, and the arbiter's choice ends each step. -/
theorem stepsKeepTheQueueLaw : Obligations.StepsKeepTheQueueLaw :=
  queueLaw_invariant.kept fun _ _ h => h

end Sys2Proof.Machine
end

