-- ==== Sys2Proof/Proofs/TableRanges.lean ====
section
/-! The tables through loads, clamping entry by entry, and their ranges through every step (R5, R7, R39, R55, R56,
R93, R107, R176). -/

namespace Sys2Proof.Machine

/-! ### Loaded tables -/

theorem loadedTable_getElem {α : Type} {n : Nat} (clamp : Fin n → List Byte → α × Nat) (old : Vector α n)
    (ps : Entries) (j : Fin n) :
    (loadedTable clamp old ps)[j] =
      match written ps j.val with
      | some e => (clamp j e).1
      | none => old[j] := by
  show (Vector.ofFn _)[j.val] = _
  exact Vector.getElem_ofFn _

/-- What holds of every stored entry and of every clamped one holds of every entry after a load. -/
theorem loadedTable_forall {α : Type} {n : Nat} {clamp : Fin n → List Byte → α × Nat} {old : Vector α n}
    {P : Fin n → α → Prop} (stored : ∀ j : Fin n, P j old[j]) (clamped : ∀ j e, P j (clamp j e).1)
    (ps : Entries) (j : Fin n) : P j (loadedTable clamp old ps)[j] := by
  rw [loadedTable_getElem]
  split
  · exact clamped j _
  · exact stored j

/-! ### Clamped entries in their ranges -/

theorem clampNum_range {lo hi : Nat} (h : lo ≤ hi) (v : Nat) :
    lo ≤ (clampNum lo hi v).1 ∧ (clampNum lo hi v).1 ≤ hi := by
  dsimp only [clampNum]; omega

/-- The limits that clamp a parameter are those of R176. -/
theorem paramRanges_eq (i : Fin 28) :
    paramRanges[i].1 = paramLow i ∧ paramRanges[i].2 = paramHigh i ∧ paramLow i ≤ paramHigh i := by
  revert i; decide

theorem clampParam_range (i : Fin 28) (e : List Byte) :
    paramLow i ≤ (clampParam i e).1 ∧ (clampParam i e).1 ≤ paramHigh i := by
  obtain ⟨low, high, le⟩ := paramRanges_eq i
  dsimp only [clampParam]
  split
  · next h => subst h; exact ⟨Nat.zero_le _, Nat.and_le_right⟩
  · rw [low, high]; exact clampNum_range le _

theorem clampPassAddress_range {o a : Byte} (h : (clampPassAddress o).1 = some a) : a.toNat ≤ 63 := by
  unfold clampPassAddress at h
  split at h
  · cases h
  · split at h
    · cases h; decide
    · next low => cases h; omega

theorem clampZone_inRange (e : List Byte) : (clampZone e).1.inRange := by
  dsimp only [clampZone, ZoneEntry.inRange]
  omega

theorem loadedZone_inRange {old : ByZone ZoneEntry} (ps : Entries) {z : Zone} (h : (old.get z).inRange) :
    (loadedZone ps old z).1.inRange := by
  unfold loadedZone
  split
  · exact clampZone_inRange _
  · exact h

/-! ### The roster's checks -/

/-- The check of R6 on single entries: some role's entry holds 63. -/
theorem holdsBroadcast_iff (ps : Entries) :
    holdsBroadcast ps = true ↔
      ∃ (i : Fin 14) (e : List Byte), written ps i.val = some e ∧ entryOctet e 0 = Config.broadcast := by
  simp only [holdsBroadcast, List.any_eq_true, List.mem_finRange, true_and]
  refine exists_congr fun i => ?_
  cases written ps i.val <;> simp

/-- The check of R6 on the roster as it would stand: some role holds the part's own address, or two share one
of 0 to 61. -/
theorem rosterClashes_iff (own : Byte) (r : Vector Byte 14) :
    rosterClashes own r = true ↔
      (∃ i : Fin 14, r[i] = own) ∨ ∃ i j : Fin 14, i ≠ j ∧ r[i] = r[j] ∧ r[i].toNat ≤ 61 := by
  simp only [rosterClashes, List.any_eq_true, List.mem_finRange, true_and, Bool.or_eq_true,
    Bool.and_eq_true, beq_iff_eq, decide_eq_true_eq, exists_or]
  refine or_congr_right ⟨fun ⟨i, j, ⟨lt, eq⟩, le⟩ => ⟨i, j, ne_of_lt lt, eq, le⟩, ?_⟩
  rintro ⟨i, j, ne, eq, le⟩
  rcases lt_or_gt_of_ne ne with lt | lt
  · exact ⟨i, j, ⟨lt, eq⟩, le⟩
  · exact ⟨j, i, ⟨lt, eq.symm⟩, eq ▸ le⟩

/-- A roster load that passes its checks leaves the roster's law (R5, R6). -/
theorem rosterLaw_load {s : State} (h : RosterLaw s) {ps : Entries} (whole : holdsBroadcast ps = false)
    (distinct : rosterClashes s.ownAddress (loadedTable clampRoster s.tables.roster ps) = false) :
    RosterLaw (s.setTables { s.tables with roster := loadedTable clampRoster s.tables.roster ps }) := by
  have role_eq (i : Fin 14) : (s.setTables { s.tables with
      roster := loadedTable clampRoster s.tables.roster ps }).role i =
      (loadedTable clampRoster s.tables.roster ps)[i] := rfl
  obtain ⟨own, shared⟩ : (∀ i : Fin 14, (loadedTable clampRoster s.tables.roster ps)[i] ≠ s.ownAddress) ∧
      ∀ i j : Fin 14, i ≠ j → (loadedTable clampRoster s.tables.roster ps)[i] =
        (loadedTable clampRoster s.tables.roster ps)[j] →
        61 < ((loadedTable clampRoster s.tables.roster ps)[i]).toNat := by
    rw [← Bool.not_eq_true, rosterClashes_iff] at distinct
    push Not at distinct
    exact distinct
  have low (i : Fin 14) : ((loadedTable clampRoster s.tables.roster ps)[i]).toNat ≤ 62 := by
    rw [loadedTable_getElem]
    split
    · next e he =>
        have h63 : entryOctet e 0 ≠ Config.broadcast := fun h63 => by
          rw [← Bool.not_eq_true, holdsBroadcast_iff] at whole
          exact whole ⟨i, e, he, h63⟩
        have : (entryOctet e 0).toNat ≠ 63 := fun h => h63 (BitVec.eq_of_toNat_eq h)
        dsimp only [clampRoster]
        split
        · decide
        · dsimp only; omega
    · exact (h i).1
  refine fun i => ⟨low i, own i, fun j eq ne => BitVec.eq_of_toNat_eq ?_⟩
  have := shared i j ne eq
  have := low i
  rw [role_eq]
  show _ = 62
  omega

/-! ### The law of the tables -/

theorem TableLaw.congr {s u : State} (h : TableLaw s) (tables : u.tables = s.tables)
    (own : u.ownAddress = s.ownAddress) : TableLaw u := by
  unfold TableLaw RosterLaw ZonesLaw State.role State.cabinEntry State.p State.headEntry at h ⊢
  rw [tables, own]
  exact h

/-- Every write of a request leaves the tables in their ranges. -/
theorem TableLaw.write {s : State} (h : TableLaw s) {kind : Byte} {x : Tables} (w : TableWrite s kind x) :
    TableLaw (s.setTables x) := by
  obtain ⟨roster, ⟨unload, load, apart⟩, cabins, pass, params, heads, rules⟩ := h
  have zones : ZonesLaw s := ⟨unload, load, apart⟩
  cases w with
  | locks l => exact ⟨roster, zones, cabins, pass, params, heads, rules⟩
  | trim v low high =>
      refine ⟨roster, zones, cabins, pass, fun i => ?_, heads, rules⟩
      have set_eq : (s.setTables { s.tables with params := s.tables.params.set 4 v }).p i =
          if (4 : Nat) = i.val then v else s.p i := by
        simp [State.p, Vector.getElem_set]
      rw [set_eq]
      split
      · next e =>
          obtain rfl : i = 4 := Fin.ext e.symm
          exact ⟨low, high⟩
      · exact params i
  | roster ps whole distinct =>
      exact ⟨rosterLaw_load roster whole distinct, zones, cabins, pass, params, heads, rules⟩
  | pass ps =>
      have loaded := loadedTable_forall (clamp := clampPass) (old := s.tables.pass)
        (P := fun _ x => ∀ a : Byte, x.source = some a ∨ x.dest = some a → a.toNat ≤ 63)
        pass (fun j e a ha => ha.elim clampPassAddress_range clampPassAddress_range) ps
      generalize loadedTable clampPass s.tables.pass ps = new at loaded ⊢
      exact ⟨roster, zones, cabins, loaded, params, heads, rules⟩
  | cabins ps =>
      have loaded := loadedTable_forall (clamp := clampCabin) (old := s.tables.cabins)
        (P := fun _ x => 1 ≤ x.capacity ∧ x.capacity ≤ 40)
        cabins (fun _ _ => clampNum_range (by decide) _) ps
      generalize loadedTable clampCabin s.tables.cabins ps = new at loaded ⊢
      exact ⟨roster, zones, loaded, pass, params, heads, rules⟩
  | zones ps apart =>
      exact ⟨roster, ⟨loadedZone_inRange ps unload, loadedZone_inRange ps load, apart⟩, cabins, pass, params,
        heads, rules⟩
  | parameters ps =>
      have loaded := loadedTable_forall (clamp := clampParam) (old := s.tables.params)
        (P := fun i v => paramLow i ≤ v ∧ v ≤ paramHigh i) params clampParam_range ps
      generalize loadedTable clampParam s.tables.params ps = new at loaded ⊢
      exact ⟨roster, zones, cabins, pass, loaded, heads, rules⟩
  | heads ps =>
      have clamped (j : Fin 4) (e : List Byte) : 512 ≤ (clampHead j e).1.factor ∧
          (clampHead j e).1.factor ≤ 2048 ∧ 4 ≤ (clampHead j e).1.shift ∧ (clampHead j e).1.shift ≤ 10 := by
        obtain ⟨low, high⟩ := clampNum_range (lo := 512) (hi := 2048) (by decide) (entryNum e 2)
        exact ⟨low, high, clampNum_range (by decide) _⟩
      have loaded := loadedTable_forall (clamp := clampHead) (old := s.tables.heads)
        (P := fun _ x => 512 ≤ x.factor ∧ x.factor ≤ 2048 ∧ 4 ≤ x.shift ∧ x.shift ≤ 10) heads clamped ps
      generalize loadedTable clampHead s.tables.heads ps = new at loaded ⊢
      exact ⟨roster, zones, cabins, pass, params, loaded, rules⟩
  | rules ps =>
      have loaded := loadedTable_forall (clamp := clampRule) (old := s.tables.rules)
        (P := fun _ x => x.combination ≤ 15) rules (fun _ _ => (clampNum_range (by decide) _).2) ps
      generalize loadedTable clampRule s.tables.rules ps = new at loaded ⊢
      exact ⟨roster, zones, cabins, pass, params, heads, loaded⟩
  | unchanged => exact ⟨roster, zones, cabins, pass, params, heads, rules⟩

theorem defaultRoster_toNat (i : Fin 14) : (defaultRoster[i]).toNat = i.val := by
  revert i; decide

theorem defaultParams_range (i : Fin 28) : paramLow i ≤ defaultParams[i] ∧ defaultParams[i] ≤ paramHigh i := by
  revert i; decide

/-- The default tables are in their ranges, whatever the straps (R5, R7, R39, R55, R93, R107, R176). -/
theorem tableLaw_powerOn (strap : BitVec 4) (underWay : Bool) (key : KeyLevel) (pending : List Instr) :
    TableLaw (State.powerOn strap underWay key pending) := by
  have own : (State.powerOn strap underWay key pending).ownAddress.toNat = 32 + strap.toNat :=
    State.ownAddress_toNat _
  have zones : defaultZones.unload.inRange ∧ defaultZones.load.inRange ∧
      defaultZones.unload.finish ≤ defaultZones.load.start := by unfold ZoneEntry.inRange; decide
  have role (i : Fin 14) : ((State.powerOn strap underWay key pending).role i).toNat = i.val :=
    defaultRoster_toNat i
  refine ⟨fun i => ⟨?_, fun e => ?_, fun j e ne => absurd (Fin.ext ?_) ne⟩, zones, ?_, ?_,
    defaultParams_range, ?_, ?_⟩
  · rw [role]; omega
  · have := congrArg BitVec.toNat e
    rw [role, own] at this; omega
  · have := congrArg BitVec.toNat e
    rwa [role, role] at this
  · intro k; simp [State.cabinEntry, State.powerOn, defaultTables, defaultCabinEntry]
  · intro i a ha; simp [State.powerOn, defaultTables, defaultPassEntry] at ha
  · intro n; simp [State.headEntry, State.powerOn, defaultTables, defaultHeadEntry]
  · intro i; simp [State.powerOn, defaultTables, defaultRule]

theorem tableLaw_invariant : StepInvariant TableLaw TableLaw where
  resetLow s h := h.congr rfl rfl
  release r s _ := tableLaw_powerOn _ _ _ _
  key l s h := h.congr rfl rfl
  time t s _ h := h.congr rfl rfl
  reception s h := h.congr rfl rfl
  frame f s h := by
    have d := decideFrame_decided f s
    have own : (decideFrame f s).ownAddress = s.ownAddress := by simp [State.ownAddress, d.lines.2]
    rcases d.tables with e | ⟨_, kind, _, -, -, -, w⟩
    · exact h.congr e own
    · exact (h.write w).congr rfl own
  event c t e s he h := by
    rcases event_cases he with rfl | rfl | quiet
    · exact h.congr rfl rfl
    · exact h.congr (by simp) (by simp [State.ownAddress])
    · exact h.congr (quiet s).tables (quiet s).ownAddress
  arbiter s h := h.congr rfl rfl

/-- Settles O55: only a request writes the tables, and each of its writes is checked or clamped into range. -/
theorem stepsKeepTheTablesInRange : Obligations.StepsKeepTheTablesInRange :=
  tableLaw_invariant.kept fun _ _ h => h.congr rfl rfl

end Sys2Proof.Machine
end

