-- ==== Sys2Proof/Proofs/LinesAndFrames.lean ====
section
/-! The commands of the lines, the octets of frames, and what reception lets through (R1 to R16). -/

namespace Sys2Proof.Machine

variable {s u : State}

/-! ### Blocks as they were -/

theorem sameBlocks_of_eq (h : u = { s with lines := u.lines, ring := u.ring }) : SameBlocks s u := by
  rw [h]
  exact ⟨rfl, fun b _ => by cases b <;> rfl⟩

/-- Blocks that are as they were after the time base moved on are as they were before. -/
theorem Untouched.of_advance {changed : List Block} {t : Nat} (h : Untouched changed (s.advance t) u) :
    Untouched changed s u :=
  ⟨h.1, fun b hb => by have := h.2 b hb; cases b <;> exact this⟩

/-! ### Completion -/

theorem completes_of_inStep {c : Instr} {t : Nat} {e : State → State} (reset : s.lines.inReset = false)
    (h : exec c s = .next (inStep t e s)) : Completes c s (e (s.advance t)) := by
  rw [Completes, h]
  simp [inStep, reset]

/-- A frame of a part that receives completes with its effect at its moment. -/
theorem completes_of_frameStep {c : Instr} {t : Nat} {e : State → State} (r : s.receiving)
    (h : exec c s = .next (frameStep t e s)) : Completes c s (e (s.advance t)) :=
  completes_of_inStep r.1 (by rw [h, frameStep_receiving s t e r.2])

theorem onlyTime_of_frameStep {c : Instr} {t : Nat} {e : State → State} (r : s.receiving)
    (h : exec c s = .next (frameStep t e s)) (idle : e (s.advance t) = s.advance t) : OnlyTime c t s :=
  ⟨_, completes_of_frameStep r h, by rw [idle]; rfl, by rw [idle]; rfl, by
    rw [idle]; exact sameBlocks_of_eq rfl⟩

/-! ### Every command is answered -/

/-- Every command keeps the waiting commands. -/
theorem pending_invariant (p : List Instr) :
    StepInvariant (fun s => s.pending = p) (fun s => s.pending = p) where
  resetLow s h := h
  release r s h := h
  key l s h := h
  time t s _ h := h
  reception s h := h
  frame f s h := (decideFrame_decided f s).lines.1.trans h
  event c t e s he h := by
    rcases event_cases he with rfl | rfl | quiet
    · exact h
    · simpa using h
    · exact (quiet s).pending.trans h
  arbiter s h := h

/-- Settles O2: every sort of effect answers next and leaves the waiting commands. -/
theorem everyCommandAnswersANextState : Obligations.EveryCommandAnswersANextState := fun c s =>
  (pending_invariant s.pending).exec_keeps c rfl

/-! ### The lines -/

theorem inStep_inReset (h : s.lines.inReset = true) (t : Nat) (e : State → State) : inStep t e s = s := by
  simp [inStep, h]

theorem frameStep_inReset (h : s.lines.inReset = true) (t : Nat) (e : State → State) :
    frameStep t e s = s := inStep_inReset h t _

/-- A command of the time base in reset changes nothing (R2; log 17). -/
theorem exec_inReset {c : Instr} (h : s.lines.inReset = true) (timed : timed c = true) :
    exec c s = .next s := by
  rcases command_cases c s with (rfl | ⟨r, rfl⟩ | ⟨l, rfl⟩) | ⟨t, f, hf⟩ | ⟨t, os, rfl⟩ | ⟨t, e, he⟩
  · cases timed
  · cases timed
  · cases timed
  · rw [exec_row hf, frameStep_inReset h]
  · exact congrArg _ (frameStep_inReset h t _)
  · rw [exec_event he, inStep_inReset h]

/-- The end of a frame, whatever it holds, is a frame step. -/
theorem exec_endsFrame {c : Instr} {t : Nat} (h : s.endsFrameAt c t) :
    ∃ e, exec c s = .next (frameStep t e s) := by
  rcases h with ⟨f, hf⟩ | ⟨os, rfl⟩
  · exact ⟨_, exec_row hf⟩
  · exact ⟨_, rfl⟩

/-- The lines after a step whose effect leaves them: the time base has moved on, outside reset. -/
theorem inStep_lines {e : State → State} (he : ∀ x, (e x).lines = x.lines) (t : Nat) (s : State) :
    (inStep t e s).lines = if s.lines.inReset then s.lines else s.linesAt t := by
  unfold inStep
  split
  · rfl
  · simp [he, State.advance, State.linesAt]

theorem frameStep_lines {e : State → State} (he : ∀ x, (e x).lines = x.lines) (t : Nat) (s : State) :
    (frameStep t e s).lines =
      if s.lines.inReset then s.lines else { s.linesAt t with underWay := false } := by
  unfold frameStep inStep
  split
  · rfl
  · rcases onFrame_cases (s.advance t) e with ⟨-, h⟩ | ⟨hu, h⟩
    · rw [h]; rfl
    · have standing : s.linesAt t = { s.linesAt t with underWay := false } := by
        rw [← show (s.linesAt t).underWay = false from hu]
      rw [h, ← standing]
      exact he _

theorem heard_decideFrame_lines (f : Frame) (x : State) : (heard f (decideFrame f) x).lines = x.lines := by
  unfold heard
  split
  · exact (decideFrame_decided f x).lines.2
  · rfl

theorem receive_lines (os : List Byte) (x : State) : (receive os x).lines = x.lines := by
  unfold receive
  split
  · exact heard_decideFrame_lines _ x
  · rfl

theorem event_lines {c : Instr} {t : Nat} {e : State → State} (h : Instr.event c = some (t, e)) (x : State) :
    (e x).lines = x.lines := by
  rcases event_cases h with rfl | rfl | quiet
  · rfl
  · simp
  · exact (quiet x).lines

/-- The lines after a command of the time base: outside reset the time base has moved on, and the end of a frame
has ended the one under way. -/
theorem exec_timed_lines {c : Instr} (timed : timed c = true) (h : exec c s = .next u) :
    u.lines = s.lines ∨
      (∃ t, u.lines = s.linesAt t) ∨
        ∃ t, s.endsFrameAt c t ∧ u.lines = { s.linesAt t with underWay := false } := by
  rcases command_cases c s with (rfl | ⟨r, rfl⟩ | ⟨l, rfl⟩) | ⟨t, f, hf⟩ | ⟨t, os, rfl⟩ | ⟨t, e, he⟩
  · cases timed
  · cases timed
  · cases timed
  · rw [exec_row hf] at h
    cases h
    rw [frameStep_lines (heard_decideFrame_lines f)]
    split
    · exact .inl rfl
    · exact .inr (.inr ⟨t, .inl ⟨f, hf⟩, rfl⟩)
  · cases h
    rw [frameStep_lines (receive_lines os)]
    split
    · exact .inl rfl
    · exact .inr (.inr ⟨t, .inr ⟨os, rfl⟩, rfl⟩)
  · rw [exec_event he] at h
    cases h
    rw [inStep_lines (event_lines he)]
    split
    · exact .inl rfl
    · exact .inr (.inl ⟨t, rfl⟩)

/-! ### The lock set (R174, R175) -/

theorem TableWrite.locks_eq {kind : Byte} {x : Tables} (w : TableWrite s kind x) (h : kind ≠ reqSetLocks) :
    x.locks = s.tables.locks := by
  cases w with
  | locks => exact absurd rfl h
  | trim | roster | pass | cabins | zones | parameters | heads | rules | unchanged => rfl

/-- Of the rows, only SET_LOCKS and UNKNOWN_REQUEST can be a SET_LOCKS request that the part hears. -/
theorem row_not_setLocks {c : Instr} {t : Nat} {f : Frame} (h : s.frameOf c = some (t, f))
    (locks : ∀ t src tag args, c ≠ .setLocks t src tag args)
    (unknown : ∀ t src tag kind args, c ≠ .unknownRequest t src tag kind args) :
    f.source = s.ownAddress ∨ f.kind ≠ kindRequest ∨ ∀ tag args, f.payload ≠ tag :: reqSetLocks :: args := by
  cases c
  case resetAssert | powerOnReset | otherFrame | frameSendEnd | rotationUpdate | windEvaluation |
      dwellExpiry | settlingEnd | encoderLapse | staleEvent | headLapse | driveLapse |
      serviceKeyChange => cases h
  case setLocks => exact absurd rfl (locks _ _ _ _)
  case unknownRequest => exact absurd rfl (unknown _ _ _ _ _)
  case strip => cases h; exact .inl rfl
  case position | wind | doorReport | driveStatus | unlock | lock | allStop =>
    cases h; exact .inr (.inl (of_decide_eq_true rfl))
  case foreignDriveFrame t dst src kind payload =>
    cases h
    refine .inr (.inl ?_)
    cases kind <;> exact of_decide_eq_true rfl
  case readStatus | readTable | restart | readHolds | hold | ackHold | readCabins | readWind | unstow | stow |
      start | stop | resume | resetBrake | setTrim | openService | beginClearDown | closeService |
      armZone | loadRoster | loadPass | loadCabins | loadZones | loadParameters | loadHeads | loadRules =>
    cases h
    exact .inr (.inr fun tag args e => by simp [requestFrame, reqSetLocks] at e)

/-- The commands off the time base are the three of the lines. -/
theorem line_command {c : Instr} (h : timed c = false) :
    c = .resetAssert ∨ (∃ r, c = .powerOnReset r) ∨ ∃ l, c = .serviceKeyChange l := by
  cases c
  case resetAssert => exact .inl rfl
  case powerOnReset r => exact .inr (.inl ⟨r, rfl⟩)
  case serviceKeyChange l => exact .inr (.inr ⟨l, rfl⟩)
  all_goals cases h

/-- Tables after a step whose effect, or whose frame's discard, leaves something of them. -/
theorem inStep_view {α : Type} (view : Tables → α) {t : Nat} {e : State → State} {s : State}
    (he : view (e (s.advance t)).tables = view s.tables) : view (inStep t e s).tables = view s.tables := by
  unfold inStep
  split
  · rfl
  · exact he

theorem exec_locks {c : Instr} (h : exec c s = .next u) (reset : ∀ r, c ≠ .powerOnReset r)
    (locks : ∀ t src tag args, c ≠ .setLocks t src tag args)
    (unknown : ∀ t src tag kind args, c ≠ .unknownRequest t src tag kind args)
    (raw : ∀ t os, c ≠ .otherFrame t os) : u.tables.locks = s.tables.locks := by
  rcases command_cases c s with (rfl | ⟨r, rfl⟩ | ⟨l, rfl⟩) | ⟨t, f, hf⟩ | ⟨t, os, rfl⟩ | ⟨t, e, he⟩
  · cases h; rfl
  · exact absurd rfl (reset r)
  · cases h; rfl
  · rw [exec_row hf] at h
    cases h
    refine inStep_view Tables.locks ?_
    rcases onFrame_cases (s.advance t) (heard f (decideFrame f)) with ⟨-, e⟩ | ⟨-, e⟩ <;> rw [e]
    · rfl
    · unfold heard
      split
      · next admitted =>
          rcases (decideFrame_decided f (s.advance t)).tables with e | ⟨tag, kind, args, -, request, payload, w⟩
          · rw [e]; rfl
          · refine w.locks_eq fun hk => ?_
            subst hk
            rcases row_not_setLocks hf locks unknown with own | other | other
            · exact admitted.2 own
            · exact other request
            · exact other tag args payload
      · rfl
  · exact absurd rfl (raw t os)
  · rw [exec_event he] at h
    cases h
    refine inStep_view Tables.locks ?_
    rcases event_cases he with rfl | rfl | quiet
    · rfl
    · simp
    · rw [(quiet _).tables]; rfl

/-- Settles O4: the lines by their own commands, a frame under way by the shape of a frame step, and the lock set
by the requests that write it. -/
theorem resetAndKeyLinesActAloneAndRegistersKeepTheirWriters :
    Obligations.ResetAndKeyLinesActAloneAndRegistersKeepTheirWriters := by
  refine ⟨⟨fun s => ⟨_, rfl, rfl, rfl, sameBlocks_of_eq rfl⟩, fun c s => exec_inReset,
    fun level s => ⟨_, rfl, rfl, rfl, sameBlocks_of_eq rfl⟩⟩, fun c t s ends reset under => ?_,
    fun c s u h => ?_⟩
  · obtain ⟨e, he⟩ := exec_endsFrame ends
    have discarded : onFrame e (s.advance t) =
        (s.advance t).setLines { (s.advance t).lines with underWay := false } := by
      have : (s.advance t).lines.underWay = true := under
      simp [onFrame, this]
    have completed := completes_of_inStep reset he
    rw [discarded] at completed
    exact ⟨_, completed, rfl, rfl, sameBlocks_of_eq rfl⟩
  · by_cases ht : timed c = true
    · have lines := exec_timed_lines ht h
      refine ⟨fun _ ends => ?_, fun _ => ?_, fun _ => ?_, fun _ => ?_, exec_locks h⟩
      · rcases lines with e | ⟨t, e⟩ | ⟨t, he, -⟩
        · rw [e]
        · rw [e]; rfl
        · exact absurd he (ends t)
      · unfold State.ownAddress
        rcases lines with e | ⟨t, e⟩ | ⟨t, -, e⟩ <;> rw [e] <;> simp [State.linesAt]
      · rcases lines with e | ⟨t, e⟩ | ⟨t, -, e⟩ <;> rw [e] <;> rfl
      · rcases lines with e | ⟨t, e⟩ | ⟨t, -, e⟩ <;> rw [e] <;> rfl
    · rcases line_command (by simpa using ht) with rfl | ⟨r, rfl⟩ | ⟨l, rfl⟩
      · cases h
        exact ⟨fun _ _ => rfl, fun _ => ⟨rfl, le_rfl⟩, fun _ => rfl, nofun, fun _ _ _ _ => rfl⟩
      · cases h
        exact ⟨fun other => absurd rfl (other r), fun other => absurd rfl (other r), fun _ => rfl, nofun,
          fun other => absurd rfl (other r)⟩
      · cases h
        exact ⟨fun _ _ => rfl, fun _ => ⟨rfl, le_rfl⟩, fun other => absurd rfl (other l), nofun,
          fun _ _ _ _ => rfl⟩

end Sys2Proof.Machine
end

