-- ==== Sys2Proof/Proofs/Reception.lean ====
section
/-! Octets as frames, and frames that go no further than reception or only pass on (R3 to R16). -/

namespace Sys2Proof.Machine

variable {s : State}

/-! ### The octets of a frame (R3, R4) -/

/-- Settles O5, by the octets read back in both directions. -/
theorem frameOctetsReadBack : Obligations.FrameOctetsReadBack :=
  ⟨readFrame_octets, fun _ _ => octets_of_readFrame⟩

/-- Settles O7: a row and the octets of its frame are received alike. -/
theorem frameRowsAgreeWithReception : Obligations.FrameRowsAgreeWithReception := by
  intro c s t f hf hw
  rw [exec_row hf, exec_otherFrame_of_readFrame (readFrame_octets f hw)]

/-- The conditions of R3 on the octets between a start mark and an end mark. -/
def Malformed (os : List Byte) : Prop :=
  let len := (os.getD 3 0).toNat
  os.length < 6 ∨ 70 < os.length ∨ 64 < len ∨ len + 6 ≠ os.length ∨
    (os.getD 0 0).toNat = 62 ∨ 63 < (os.getD 0 0).toNat ∨ 61 < (os.getD 1 0).toNat ∨
    256 * (os.getD (os.length - 2) 0).toNat + (os.getD (os.length - 1) 0).toNat ≠
      (check (os.take (os.length - 2))).toNat

theorem wellFormed_iff (f : Frame) :
    f.wellFormed = true ↔
      f.payload.length ≤ 64 ∧ f.dest.toNat ≤ 63 ∧ f.dest.toNat ≠ 62 ∧ f.source.toNat ≤ 61 := by
  simp [Frame.wellFormed, and_assoc]

/-- Octets with four leading ones, a payload and two check octets, in the places that R3 looks at. -/
theorem octets_parts (d s k l hi lo : Byte) (p : List Byte) :
    let os := d :: s :: k :: l :: (p ++ [hi, lo])
    os.length = p.length + 6 ∧ os.getD (os.length - 2) 0 = hi ∧ os.getD (os.length - 1) 0 = lo ∧
      os.take (os.length - 2) = d :: s :: k :: l :: p := by
  simp [List.getD]

theorem checkOctets_value (w : BitVec 16) :
    256 * (octet (w.toNat / 256)).toNat + (octet w.toNat).toNat = w.toNat :=
  num2_octets _ w.isLt

/-- No frame reads from octets that meet a condition of R3. -/
theorem readFrame_of_malformed {os : List Byte} (h : Malformed os) : readFrame os = none := by
  refine Option.eq_none_iff_forall_ne_some.2 fun f hf => ?_
  obtain ⟨rfl, hw⟩ := octets_of_readFrame hf
  obtain ⟨payload, dest, dest', source⟩ := (wellFormed_iff f).1 hw
  have len : (octet f.payload.length).toNat = f.payload.length := by rw [octet_toNat]; omega
  obtain ⟨length, hi, lo, body⟩ := octets_parts f.dest f.source f.kind (octet f.payload.length)
    (octet ((check f.body).toNat / 256)) (octet (check f.body).toNat) f.payload
  have whole : f.octets = f.dest :: f.source :: f.kind :: octet f.payload.length ::
      (f.payload ++ [octet ((check f.body).toNat / 256), octet (check f.body).toNat]) := rfl
  unfold Malformed at h
  rw [whole] at h
  rw [hi, lo, body, checkOctets_value, length] at h
  have getD_len : (f.dest :: f.source :: f.kind :: octet f.payload.length ::
      (f.payload ++ [octet ((check f.body).toNat / 256), octet (check f.body).toNat])).getD 3 0 =
      octet f.payload.length := rfl
  simp only [getD_len, len] at h
  rcases h with h | h | h | h | h | h | h | h
  · omega
  · omega
  · omega
  · omega
  · exact dest' h
  · exact absurd dest (Nat.not_le_of_lt h)
  · exact absurd source (Nat.not_le_of_lt h)
  · exact h rfl

/-- Octets that meet no condition of R3 are those of a frame. -/
theorem readFrame_of_not_malformed {os : List Byte} (h : ¬ Malformed os) : ∃ f, readFrame os = some f := by
  dsimp only [Malformed] at h
  push Not at h
  obtain ⟨atLeast, -, payload, length, dest', dest, source, checked⟩ := h
  obtain ⟨d, s, k, l, rest, rfl⟩ : ∃ d s k l rest, os = d :: s :: k :: l :: rest := by
    match os, atLeast with
    | d :: s :: k :: l :: rest, _ => exact ⟨d, s, k, l, rest, rfl⟩
  have hl : l.toNat + 2 = rest.length := by simpa using length
  obtain ⟨hi, lo, ends⟩ := List.length_eq_two.1 (show (rest.drop l.toNat).length = 2 by simp; omega)
  obtain ⟨p, hp, rfl⟩ : ∃ p : List Byte, p.length = l.toNat ∧ rest = p ++ [hi, lo] :=
    ⟨rest.take l.toNat, by simp; omega, by rw [← ends, List.take_append_drop]⟩
  obtain ⟨-, ehi, elo, ebody⟩ := octets_parts d s k l hi lo p
  rw [ehi, elo, ebody] at checked
  let f : Frame := { dest := d, source := s, kind := k, payload := p }
  have len : octet p.length = l := BitVec.eq_of_toNat_eq (by rw [octet_toNat, hp]; have := l.isLt; omega)
  have body : f.body = d :: s :: k :: l :: p := by simp [f, Frame.body, len]
  have octets : f.octets = d :: s :: k :: l :: (p ++ [hi, lo]) := by
    have ends : halfOctets (check f.body) = [hi, lo] := by
      have high : octet ((check f.body).toNat / 256) = hi := BitVec.eq_of_toNat_eq (by
        rw [octet_toNat, body, ← checked]; have := hi.isLt; have := lo.isLt; omega)
      have low : octet (check f.body).toNat = lo := BitVec.eq_of_toNat_eq (by
        rw [octet_toNat, body, ← checked]; have := hi.isLt; have := lo.isLt; omega)
      rw [halfOctets, octets2, high, low]
    rw [Frame.octets, ends, body]; rfl
  refine ⟨f, octets ▸ readFrame_octets f ((wellFormed_iff f).2 ⟨?_, dest, dest', source⟩)⟩
  show p.length ≤ 64
  rw [hp]; exact payload

/-- Settles O6: octets read as a frame just where no condition of R3 holds, and nothing else is heard. -/
theorem malformedFramesAreDiscarded : Obligations.MalformedFramesAreDiscarded := by
  refine ⟨fun t os s r => ⟨fun bad => ?_, readFrame_of_not_malformed⟩, fun c s t f r hf ill => ?_⟩
  · exact onlyTime_of_frameStep r (exec_otherFrame_discarded (readFrame_of_malformed bad) t s) rfl
  · exact onlyTime_of_frameStep r (exec_row hf) (heard_of_not_wellFormed ill _ _)

/-! ### Frames that go no further (R9, R10) -/

/-- Settles O8: an own source is not heard, and a drive kind is dropped once heard. -/
theorem ownAndForeignDriveFramesGoNoFurther : Obligations.OwnAndForeignDriveFramesGoNoFurther := by
  refine ⟨fun s r => ⟨fun t dst kind payload => ?_, fun c t f hf own => ?_⟩,
    fun s r => ⟨fun t dst src kind payload => ?_, fun t os f hf drive => ?_⟩⟩
  · exact onlyTime_of_frameStep r (e := id) rfl rfl
  · exact onlyTime_of_frameStep r (exec_row hf) (heard_of_own (s := s.advance t) own _)
  · exact onlyTime_of_frameStep r (e := id) rfl rfl
  · refine onlyTime_of_frameStep r (exec_otherFrame_of_readFrame hf t s) ?_
    unfold heard
    rw [decideFrame_drive drive, ite_self]

/-! ### Passing on (R7, R13, R16) -/

/-- The pass table forwards a frame by the first entry that hits it, or because none does (R7). -/
theorem passes_iff (s : State) (f : Frame) : s.passes f = true ↔ s.passTableForwards f := by
  have toList (i : Fin 32) : s.tables.pass.toList[i.val]'(by simp) = s.tables.pass[i] := by simp
  unfold State.passes State.passTableForwards
  split
  · next e he =>
      obtain ⟨hits, i, hi, rfl, first⟩ := List.find?_eq_some_iff_getElem.1 he
      have hi' : i < 32 := by simpa using hi
      have hits : (s.tables.pass[(⟨i, hi'⟩ : Fin 32)]).hits f = true := by rw [← toList]; exact hits
      rw [toList ⟨i, hi'⟩, beq_iff_eq]
      have first (j : Fin 32) (lt : j.val < i) : (s.tables.pass[j]).hits f = false := by
        have := first j.val lt
        rw [toList j] at this
        simpa using this
      constructor
      · exact fun action => .inr ⟨⟨i, hi'⟩, hits, action, first⟩
      · rintro (none | ⟨k, hk, action, firstK⟩)
        · rw [none] at hits; cases hits
        · obtain rfl : k = ⟨i, hi'⟩ := by
            rcases lt_trichotomy k.val i with lt | eq | gt
            · rw [first k lt] at hk; cases hk
            · exact Fin.ext eq
            · rw [firstK ⟨i, hi'⟩ gt] at hits; cases hits
          exact action
  · next none =>
      refine iff_of_true rfl (.inl fun i => ?_)
      have := List.find?_eq_none.1 none _ (List.getElem_mem (n := i.val) (by simp))
      rw [toList i] at this
      simpa using this

theorem pushForward_eq (f : Frame) (s : State) :
    pushForward f s = s.setRing { s.ring with forward := s.forwarded f } := by
  unfold pushForward State.forwarded Config.forwardRoom
  split <;> rfl

theorem State.ownAddress_ne_broadcast (s : State) : s.ownAddress ≠ 63 := fun e => by
  have := congrArg BitVec.toNat e
  have := s.lines.strap.isLt
  rw [State.ownAddress_toNat] at *
  simp at *
  omega

/-- A frame that passes on after work of the blocks: its way on the ring, and all else as the work left it
(R13, R16, R17). -/
theorem passOn_after {v : State} (q : Quiet s v) (f : Frame) :
    PassesOn s (passOn f v) f ∧ (passOn f v).ring = { v.ring with forward := (passOn f v).ring.forward } ∧
      (passOn f v).lines = v.lines := by
  have forwarded : (pushForward f v).ring.forward = s.forwarded f := by
    rw [pushForward_eq]
    simp [State.forwarded, q.queues]
  have stays : v.ring.forward = s.ring.forward := q.queues.1
  have passes : v.passes f = true ↔ s.passTableForwards f := by
    rw [passes_iff]
    unfold State.passTableForwards
    rw [q.tables]
  refine ⟨⟨fun own => ?_, fun broadcast => ?_, fun own broadcast => ⟨fun pass => ?_, fun pass => ?_⟩⟩, ?_, ?_⟩
  · rw [passOn, if_pos (by rw [q.ownAddress]; exact own), stays]
  · have own : f.dest ≠ v.ownAddress := by
      rw [broadcast]; exact fun e => v.ownAddress_ne_broadcast e.symm
    rw [passOn, if_neg own, if_pos (show f.dest = Config.broadcast from broadcast), forwarded]
  · rw [passOn, if_neg (by rw [q.ownAddress]; exact own),
      if_neg (show ¬ f.dest = Config.broadcast from broadcast), if_pos (passes.2 pass), forwarded]
  · rw [passOn, if_neg (by rw [q.ownAddress]; exact own),
      if_neg (show ¬ f.dest = Config.broadcast from broadcast), if_neg (mt passes.1 pass), stays]
  · rcases passOn_cases f v with h | h
    · rw [h]
    · rw [h, pushForward_eq]
      rfl
  · rcases passOn_cases f v with h | h <;> simp [h]

end Sys2Proof.Machine
end

