-- ==== Sys2Proof/Proofs/ArbiterAndQueues.lean ====
section
/-! Frames that pass on, the arbiter's choice, and what arrives at the door and notice queues (R13 to R23). -/

namespace Sys2Proof.Machine

variable {s : State}

/-! ### Frames that pass on -/

/-- A frame that passes on after work of the blocks leaves the rest of the ring interface, and moves as R13 and R16
say. -/
theorem roleFrameOnRing_after {v : State} (q : Quiet s v) (f : Frame) : RoleFrameOnRing s (passOn f v) f := by
  obtain ⟨passes, ring, -⟩ := passOn_after q f
  obtain ⟨-, hd, hq, hr, ho, hw⟩ := q.queues
  refine ⟨?_, ?_, ?_, ?_, ?_, passes⟩ <;> rw [ring] <;> assumption

theorem roleAmong_eq_none {role : Fin 4 → Fin 14} {src : Byte} (h : ∀ n, src ≠ s.role (role n)) :
    s.roleAmong role src = none :=
  List.find?_eq_none.2 fun n _ => by simpa using (h n).symm

/-- A frame outside the cases of R14 is not observed. -/
theorem observe_of_not_observes {f : Frame} (h : ¬ s.observes f) : observe f s = s := by
  simp only [State.observes, not_or, not_and, not_exists] at h
  obtain ⟨position, wind, door, drive⟩ := h
  unfold observe
  split
  · next payload =>
      have length : f.payload.length = 4 := by rw [payload]; rfl
      split
      · next kind =>
          obtain ⟨notA, notB⟩ := position kind length
          rw [observePosition, if_neg notA, if_neg notB]
      · split
        · next kind => rw [observeDrive, roleAmong_eq_none (drive kind length)]
        · rfl
  · next payload =>
      have length : f.payload.length = 5 := by rw [payload]; rfl
      split
      · next kind => rw [observeWind, roleAmong_eq_none (wind kind length)]
      · rfl
  · next payload =>
      have length : f.payload.length = 3 := by rw [payload]; rfl
      split
      · next kind => rw [observeDoor, if_neg (door kind length)]
      · rfl
  · rfl

/-- Past R9 to R12, a frame that is no REQUEST with a kind is observed and passes on (R13 to R16). -/
theorem decideFrame_passes {f : Frame} (notRef : f.kind ≠ kindDriveRef) (notApply : f.kind ≠ kindDriveApply)
    (notDoor : f.kind ≠ kindDoorCommand) (notStop : f.kind ≠ kindAllStop)
    (short : f.dest = s.ownAddress → f.kind = kindRequest → f.payload.length < 2) :
    decideFrame f s =
      if f.dest = s.ownAddress ∧ f.kind = kindRequest then s else passOn f (observe f s) := by
  have ignored (h : f.dest = s.ownAddress ∧ f.kind = kindRequest) : requestArrives f s = s := by
    have length := short h.1 h.2
    unfold requestArrives
    split
    · next payload => rw [payload] at length; simp at length
    · rfl
  have notDrive : isDriveKind f.kind = false := by simp [isDriveKind, notRef, notApply]
  unfold decideFrame
  rw [if_neg (by simp [notDrive]), if_neg notDoor, if_neg notStop]
  split
  · next h => exact ignored h
  · rfl

/-- Settles O9: past R9 to R12 and the taken requests, a frame is observed and passes on. -/
theorem otherFramesPassOn : Obligations.OtherFramesPassOn := by
  intro t os f s r hf foreign notRef notApply notDoor notStop short
  have done := completes_of_frameStep r (exec_otherFrame_of_readFrame hf t s)
  rw [heard_of_taken (s := s.advance t) (octets_of_readFrame hf).2 foreign,
    decideFrame_passes (s := s.advance t) notRef notApply notDoor notStop short] at done
  split at done
  · next request =>
      refine ⟨_, done, rfl, ⟨rfl, rfl, rfl, rfl, rfl, fun _ => rfl, fun broadcast => ?_, fun other => ?_⟩,
        fun _ => ⟨sameBlocks_of_eq rfl, rfl⟩⟩
      · exact absurd (request.1.symm.trans broadcast) s.ownAddress_ne_broadcast
      · exact absurd request.1 other
  · have work := (Quiet.refl (s.advance t)).then_observe f
    obtain ⟨-, ring, lines⟩ := passOn_after work f
    refine ⟨_, done, lines.trans work.lines, roleFrameOnRing_after work f, fun unobserved => ?_⟩
    rw [observe_of_not_observes (s := s.advance t) unobserved] at ring ⊢
    refine ⟨?_, ring⟩
    rcases passOn_cases f (s.advance t) with h | h <;> rw [h]
    · exact sameBlocks_of_eq rfl
    · rw [pushForward_eq]
      exact sameBlocks_of_eq rfl

/-! ### The arbiter -/

/-- Own-due once ring-out has finished its frame (R23). -/
def Ring.dueAfter (r : Ring) : Bool :=
  r.ownDue || match r.ringOut with
    | .sending _ forwarded => forwarded
    | .idle => false

theorem endSending_eq (r : Ring) : endSending r = { r with ringOut := .idle, ownDue := r.dueAfter } := by
  unfold endSending Ring.dueAfter
  split
  · next h => cases r; simp_all
  · next h => rw [h]

/-- Settles O10: ring-out is idle once its frame has ended, and the arbiter chooses by the four cases of R23. -/
theorem arbiterChoosesAtTheEndOfAFrame : Obligations.ArbiterChoosesAtTheEndOfAFrame := by
  intro t s reset
  have step : exec (.frameSendEnd t) s =
      .next ((s.advance t).setRing (startIfIdle (endSending s.ring))) := by
    show Host.Outcome.next (inStep t _ s) = _
    simp [inStep, reset]
    rfl
  have due : (s.ring.ownDue || match s.ring.ringOut with
      | .sending _ forwarded => forwarded
      | .idle => false) = s.ring.dueAfter := rfl
  have chosen : Chosen { s.ring with ringOut := .idle, ownDue := s.ring.dueAfter }
      (startIfIdle (endSending s.ring)) := by
    rw [endSending_eq]
    exact chooseFrame_chosen _
  refine ⟨_, step, rfl, sameBlocks_of_eq rfl, ?_⟩
  dsimp only [State.setRing_ring]
  generalize startIfIdle (endSending s.ring) = r at chosen ⊢
  generalize s.ring.dueAfter = d at chosen due
  have own_eq : s.ring.ownFrames =
      ({ s.ring with ringOut := .idle, ownDue := d } : Ring).ownFrames := rfl
  cases chosen with
  | own g r' taken first =>
      refine ⟨taken.overflow, taken.driveSet, taken.doorQueue, taken.responses, taken.notices, ?_⟩
      rw [own_eq, taken.frames]
      have forward : r'.forward = s.ring.forward := taken.forward
      cases h : s.ring.forward with
      | nil => exact ⟨rfl, rfl, forward.trans h, rfl⟩
      | cons f fs =>
          have owed : d = true := first.resolve_right (by simp [h])
          exact (if_pos (due.trans owed)).mpr ⟨rfl, rfl, forward.trans h, rfl⟩
  | forwarded f fs oldest first =>
      refine ⟨rfl, List.suffix_rfl, List.suffix_rfl, List.suffix_rfl, List.suffix_rfl, ?_⟩
      have oldest : s.ring.forward = f :: fs := oldest
      rw [oldest]
      cases h : s.ring.ownFrames with
      | nil => exact ⟨rfl, due.symm, rfl, h⟩
      | cons g gs =>
          have free : d = false := first.resolve_right (by rw [← own_eq, h]; simp)
          exact (if_neg (ne_true_of_eq_false (due.trans free))).mpr ⟨rfl, free, rfl, h⟩
  | nothing own forward =>
      refine ⟨rfl, List.suffix_rfl, List.suffix_rfl, List.suffix_rfl, List.suffix_rfl, ?_⟩
      have forward : s.ring.forward = [] := forward
      have own : s.ring.ownFrames = [] := own
      rw [own, forward]
      exact ⟨rfl, due.symm, rfl, own⟩

end Sys2Proof.Machine
end

