-- ==== Sys2Proof/Proofs/QueuesAndNotices.lean ====
section

/-!
# The door queue and the notices

The layouts of section 1.9 are those of `Notice.payload`; the arrival of a door item and the queueing of a
notice then follow from the definitions' own branches.
-/

namespace Sys2Proof.Machine

theorem arriveDoor_of_room {q : List DoorItem} {i : DoorItem} (room : q.length < 8) :
    arriveDoor q i = q ++ [i] :=
  if_pos room

theorem arriveDoor_of_full {q : List DoorItem} {i : DoorItem} (full : q.length = 8)
    (loses : i.what = .lock → ∀ x ∈ q, x.what = .lock) : arriveDoor q i = q := by
  have noRoom : ¬ q.length < Config.doorRoom := by simp [full, Config.doorRoom]
  have noPlace : ¬ (i.what = .lock ∧ q.any DoorItem.displaceable) := fun ⟨lock, place⟩ => by
    obtain ⟨x, mem, displaceable⟩ := List.any_eq_true.1 place
    simp [DoorItem.displaceable, loses lock x mem] at displaceable
  rw [arriveDoor, if_neg noRoom, if_neg noPlace]

/-- A LOCK takes the place of the oldest item that is no LOCK (R20). -/
theorem arriveDoor_displaces {pre post : List DoorItem} {x i : DoorItem} (full : (pre ++ x :: post).length = 8)
    (lock : i.what = .lock) (older : ∀ y ∈ pre, y.what = .lock) (place : x.what ≠ .lock) :
    arriveDoor (pre ++ x :: post) i = pre ++ post ++ [i] := by
  have noRoom : ¬ (pre ++ x :: post).length < Config.doorRoom := by rw [full]; decide
  have displaceable : x.displaceable = true := by simpa [DoorItem.displaceable] using place
  have stay : ∀ y ∈ pre, ¬ y.displaceable = true := fun y mem => by simp [DoorItem.displaceable, older y mem]
  rw [arriveDoor, if_neg noRoom, if_pos ⟨lock, by simp [displaceable]⟩, List.eraseP_append_right _ stay,
    List.eraseP_cons_of_pos displaceable]

theorem masks_iff (s : State) (n : Notice) : s.masks n ↔ n.cls ≤ 7 ∧ s.p 26 / 2 ^ n.cls % 2 = 0 := by
  have classed : 1 ≤ n.cls := by cases n <;> simp [Notice.cls]
  simp [State.masks, classed, Nat.testBit_eq_decide_div_mod_eq]

/-- A notice's class stands first in its payload (section 1.9). -/
theorem payload_cls (n : Notice) : (n.payload.getD 0 0).toNat = n.cls := by cases n <;> rfl

theorem notify_of_masked {n : Notice} {s : State} (masked : s.masks n = true) : notify n s = s := if_pos masked

theorem notify_of_absent {n : Notice} {s : State} (absent : s.role roleConsole = Config.noStation) :
    notify n s = s := by
  rw [notify, if_pos absent]
  split <;> rfl

/-- A notice to a console joins the queue where there is room, and else is lost with the overflow flag set
(R22, R18). -/
theorem notify_of_console {n : Notice} {s : State} (heard : ¬ s.masks n = true)
    (console : s.role roleConsole ≠ Config.noStation) :
    notify n s = s.setRing
      (if s.ring.notices.length < 16 then
        { s.ring with
          notices := s.ring.notices ++ [s.ownFrame (s.role roleConsole) kindNotice n.payload] }
      else { s.ring with noticeOverflow := true }) := by
  rw [notify, if_neg heard, if_neg console]
  split
  · rw [if_pos (by assumption)]
  · rw [if_neg (by assumption)]

/-- Settles O11, from the branches of `arriveDoor` and of `notify` and the layout of each notice. -/
theorem doorItemsAndNoticesQueueByTheirRules : Obligations.DoorItemsAndNoticesQueueByTheirRules := by
  refine ⟨fun q i => ⟨arriveDoor_of_room, fun full other => arriveDoor_of_full full (absurd · other),
    fun full _ locks => arriveDoor_of_full full fun _ => locks, ?_⟩, ?_⟩
  · rintro pre x post rfl full lock older place
    exact arriveDoor_displaces full lock older place
  intro n s u cabin zone wheel hold door mode cause position denial payload cls
  have zone_code : ∀ z, zone z = z.code := by rintro (_ | _) <;> rfl
  have wheel_code : ∀ w, wheel w = [w.code, w.destCode] := by
    rintro (_ | _ | _ | (_ | _) | _ | _) <;> rfl
  have hold_fields : ∀ h, hold h = holdFields h := by
    rintro (_ | _ | _ | _ | _ | _ | (_ | _) | (_ | _) | _) <;> rfl
  have door_code : ∀ d, door d = d.code := by rintro (_ | _ | _ | _ | _) <;> rfl
  have layout : payload = n.payload := by
    cases n with
    | stateChanged w => exact congrArg ([0x01, 0x01] ++ ·) (wheel_code w)
    | modeChanged m c => cases m <;> cases c <;> rfl
    | gradeChanged g c => rfl
    | holdRaised h => exact congrArg ([0x04, 0x01] ++ ·) (hold_fields h)
    | holdCleared h => exact congrArg ([0x04, 0x02] ++ ·) (hold_fields h)
    | breachCabinAdded k => rfl
    | doorStale k => rfl
    | uncommandedOpening k d => exact congrArg (fun x => [0x05, 0x02, cabin k, x]) (door_code d)
    | unknownOutside k => rfl
    | positionMode a => cases a <;> rfl
    | headsShort v => rfl
    | driveReady d ready fault => cases ready <;> rfl
    | clearDownComplete => rfl
    | denied what k reason => cases what <;> cases reason <;> rfl
    | emergencyBrake c =>
      cases c with
      | overrun z k => exact congrArg (fun x => [0x09, 0x01, 0x01, x, cabin k]) (zone_code z)
      | _ => rfl
    | restarted => rfl
  have class_eq : cls = n.cls := by rw [← payload_cls, ← layout]
  clear_value payload cls
  subst layout class_eq
  have masked : s.masks n = true ↔ n.cls ≤ 7 ∧ s.p 26 / 2 ^ n.cls % 2 = 0 := masks_iff s n
  by_cases quiet : s.masks n = true
  · rw [show u = s from notify_of_masked quiet, if_pos (masked.1 quiet)]
    exact ⟨rfl, rfl⟩
  rw [if_neg (mt masked.2 quiet)]
  by_cases absent : s.role roleConsole = 62
  · rw [show u = s from notify_of_absent absent, if_pos absent]
    exact ⟨rfl, rfl⟩
  rw [show u = _ from notify_of_console quiet absent, if_neg absent]
  refine ⟨rfl, ?_⟩
  by_cases room : s.ring.notices.length < 16
  · rw [if_pos room, if_pos room]; rfl
  · rw [if_neg room, if_neg room]; rfl

end Sys2Proof.Machine
end

