-- ==== Sys2Proof/Proofs/ResetState.lean ====
section

/-!
# The state after a power-on reset

The registers are `State.powerOn`'s own; the laws are checked at the one state without operands, block by block.
-/

namespace Sys2Proof.Machine

/-- The blocks of `State.powerOn` are at their reset values, with settling for the default of P24. -/
theorem blocksReset_powerOn (strap : BitVec 4) (underWay : Bool) (key : KeyLevel) (pending : List Instr) :
    BlocksReset (State.powerOn strap underWay key pending) 10 := by
  have cabin (k : Cabin) : (State.powerOn strap underWay key pending).cabin k = resetCabin :=
    Vector.getElem_replicate _
  have head (n : Fin 4) : (State.powerOn strap underWay key pending).head n = resetHead :=
    Vector.getElem_replicate _
  have drive (n : Fin 4) : (State.powerOn strap underWay key pending).drive n = resetDrive :=
    Vector.getElem_replicate _
  refine ⟨?_, rfl, rfl, rfl, ?_, cabin, ?_, rfl, head, rfl, rfl, ?_, rfl, rfl, rfl, drive⟩
  · rintro (_ | _) <;> rfl
  · rintro (_ | _) <;> rfl
  · rintro (_ | _) <;> rfl
  · intro r mem
    simp only [State.powerOn, resetHolds, List.mem_cons, List.not_mem_nil, or_false] at mem
    rcases mem with rfl | rfl | rfl <;> exact ⟨rfl, rfl⟩

/-- Settles O3: the release of the reset builds `State.powerOn`, whose fields are the values asked for. -/
theorem powerOnResetLeavesTheResetValues : Obligations.PowerOnResetLeavesTheResetValues := by
  intro straps underWay s
  refine ⟨State.powerOn straps underWay s.lines.svcKey s.pending, rfl, rfl, rfl, State.ownAddress_toNat _, rfl,
    defaultRoster_toNat, fun i => ?_, fun k => ?_, rfl, rfl, rfl, fun n => ?_, fun i => ?_, rfl, rfl, rfl, rfl,
    blocksReset_powerOn _ _ _ _⟩
  all_goals exact Vector.getElem_replicate _

theorem queueLaw_reset : QueueLaw .reset := by unfold QueueLaw; decide

theorem holdLaw_reset : HoldLaw .reset := by
  refine ⟨by decide, by decide, fun r mem => ?_⟩
  simp only [State.reset, State.powerOn, resetHolds, List.mem_cons, List.not_mem_nil, or_false] at mem
  rcases mem with rfl | rfl | rfl <;> exact ⟨le_refl 0, nofun⟩

theorem wheelLaw_reset : WheelLaw .reset := by unfold WheelLaw; decide

/-- No dwell runs after reset (R122). -/
theorem gradeLaw_reset : GradeLaw .reset := ⟨by decide, by decide, by decide, nofun⟩

theorem driveLaw_reset : DriveLaw .reset := by unfold DriveLaw; decide

theorem headLaw_reset : HeadLaw .reset := fun n => by
  rw [show State.reset.head n = resetHead from Vector.getElem_replicate _]
  simp [Head.inRange, resetHead]

theorem zonesLaw_reset : ZonesLaw .reset := (tableLaw_powerOn 0 false .operate []).2.1

theorem trackLaw_reset : TrackLaw .reset := by
  refine ⟨?_, by decide, by decide, by decide, ?_⟩
  · rintro (_ | _) fresh <;> cases fresh
  · intro z k
    rw [show State.reset.cabin k = resetCabin from Vector.getElem_replicate _]
    have empty : State.reset.occ z = emptyOccupancy := by cases z <;> rfl
    simp [empty, emptyOccupancy, resetCabin]

theorem permitLaw_reset : PermitLaw .reset := by
  rintro (_ | _) k bound <;> cases bound

theorem cycleLaw_reset : CycleLaw .reset := fun k => by
  rw [show State.reset.cabin k = resetCabin from Vector.getElem_replicate _]
  simp [resetCabin]

/-- The accepted position is invalid after reset (R38). -/
theorem breachLaw_reset : BreachLaw .reset := nofun

theorem clearDownLaw_reset : ClearDownLaw .reset := ⟨by decide, by decide, nofun⟩

/-- Settles O60, law by law. -/
theorem resetMeetsEveryLaw : Obligations.ResetMeetsEveryLaw :=
  ⟨queueLaw_reset, holdLaw_reset, wheelLaw_reset, gradeLaw_reset, driveLaw_reset,
    tableLaw_powerOn 0 false .operate [], headLaw_reset, zonesLaw_reset, trackLaw_reset, permitLaw_reset,
    cycleLaw_reset, breachLaw_reset, clearDownLaw_reset⟩

end Sys2Proof.Machine
end

