-- ==== Sys2Proof/Proofs/ForwardedUnlocks.lean ====
section

/-!
# UNLOCK commands that pass their checks

The verdict of checks 5 to 12 as a chain of conditions is the model's list of checks, so a command with no
reason against it reaches `forwardUnlock`, whose effects are then read off. A cabin past the cutoff passes under
the console override only, hence with the wheel HELD, so its ZONE_OVERRUN leaves the wheel.
-/

namespace Sys2Proof.Machine

variable {s : State}

/-- A frame that a command stands for, heard by a part that receives, has the effect its kind decides. -/
theorem completes_of_row {c : Instr} {t : Nat} {f : Frame} (h : s.frameOf c = some (t, f))
    (wellFormed : f.wellFormed = true) (r : s.receiving) (foreign : f.source ≠ s.ownAddress) :
    Completes c s (decideFrame f (s.advance t)) := by
  have done := completes_of_frameStep r (exec_row h)
  rwa [heard_of_taken (s := s.advance t) wellFormed foreign] at done

/-! ### Blocks that stay -/

theorem Block.same_trans {v u : State} (b : Block) (first : b.same s v) (second : b.same v u) : b.same s u := by
  cases b <;> exact second.trans first

theorem Untouched.refl (s : State) : Untouched [] s s := ⟨rfl, fun b _ => by cases b <;> rfl⟩

theorem Untouched.trans {v u : State} {changed changed' : List Block} (first : Untouched changed s v)
    (second : Untouched changed' v u) : Untouched (changed ++ changed') s u := by
  refine ⟨second.1.trans first.1, fun b other => ?_⟩
  rw [List.mem_append, not_or] at other
  exact b.same_trans (first.2 b other.1) (second.2 b other.2)

theorem Untouched.mono {u : State} {changed changed' : List Block} (h : Untouched changed s u)
    (more : changed ⊆ changed') : Untouched changed' s u :=
  ⟨h.1, fun b other => h.2 b fun mem => other (more mem)⟩

theorem notify_untouched (n : Notice) (s : State) : Untouched [] s (notify n s) :=
  ⟨(notify_frame s n).1, fun b _ => by cases b <;> simp [Block.same]⟩

theorem appendHold_untouched (h : Hold) (s : State) : Untouched [.holds] s (appendHold h s) :=
  ⟨rfl, fun b other => by
    cases b with
    | holds => simp at other
    | _ => rfl⟩

/-! ### The decision -/

theorem firstFailure_cons (holds : Bool) (reason : DenialReason) (checks : List (Bool × DenialReason)) :
    firstFailure ((holds, reason) :: checks) = if holds = true then firstFailure checks else some reason := by
  cases holds <;> rfl

/-- Checks 5 to 12 in their order, 8 to 12 left out under the console override (R64, R65). -/
theorem zoneChecks_eq_unlockVerdict (s : State) (src : Byte) (z : Zone) (k : Cabin) :
    s.zoneChecks src z k = s.unlockVerdict src z k := by
  have override : s.overrides src = true ↔ src = s.role roleConsole ∧ s.rot.wheel = .held := by
    simp [State.overrides]
  unfold State.zoneChecks State.unlockVerdict State.checks5to7
  simp only [List.cons_append, List.nil_append, firstFailure_cons, bne_iff_ne, ite_not, ← override]
  refine if_congr .rfl rfl (if_congr .rfl rfl (if_congr .rfl rfl ?_))
  rw [apply_ite firstFailure]
  refine if_congr .rfl rfl ?_
  have station : (src == s.role roleConsole || src == s.role (gateRole z)) = true ↔
      ¬ (src ≠ s.role roleConsole ∧ src ≠ s.role (gateRole z)) := by simp [or_iff_not_and_not]
  have permit : (!(s.zone z).permitRequired || s.permits.get z == .armed k) = true ↔
      ¬ ((s.zone z).permitRequired = true ∧ s.permits.get z ≠ .armed k) := by
    simp [or_iff_not_imp_left]
  unfold State.checks8to12
  simp only [firstFailure_cons, station, permit, ite_not]
  cases (s.occ z).past with
  | true => rfl
  | false =>
    cases (s.cabinEntry k).inService with
    | false => rfl
    | true => cases s.service.mode.admits z <;> rfl

theorem zoneOf_eq {k : Cabin} {z : Zone} (here : (s.occ z).occupant = some k)
    (only : ∀ y, (s.occ y).occupant = some k → y = z) : s.zoneOf k = some z := by
  have found : (s.zoneOf k).isSome = true := by
    simp only [State.zoneOf, List.find?_isSome]
    exact ⟨z, by cases z <;> simp [bothZones], by simpa using here⟩
  obtain ⟨y, hy⟩ := Option.isSome_iff_exists.1 found
  rw [hy, only y (by simpa using List.find?_some hy)]

theorem decodeCabin_eq {cabin : Byte} {k : Cabin} (h : cabin.toNat = k.val) : decodeCabin cabin = some k := by
  unfold decodeCabin
  rw [dif_pos (h ▸ k.isLt)]
  exact congrArg some (Fin.ext h)

theorem positionValid_of_ne_invalid (h : s.tracker.accepted ≠ .invalid) : s.positionValid = true := by
  unfold State.positionValid
  cases e : s.tracker.accepted with
  | invalid => exact absurd e h
  | _ => rfl

/-- A source that may command doors, a valid position and the cabin in one zone: checks 2 to 4 pass, and the
verdict decides (R64). -/
theorem judgeUnlock_ok {src cabin : Byte} {k : Cabin} {z : Zone} (number : cabin.toNat = k.val)
    (known : src = s.role roleConsole ∨ src = s.role roleUnloadGate ∨ src = s.role roleLoadGate ∨
      src = s.role roleConcentrator)
    (position : s.tracker.accepted ≠ .invalid) (here : (s.occ z).occupant = some k)
    (only : ∀ y, (s.occ y).occupant = some k → y = z) (passes : s.unlockVerdict src z k = none) :
    s.judgeUnlock src cabin = .ok (k, z) := by
  have may : s.mayCommandDoors src = true := by
    simpa [State.mayCommandDoors, State.isGate, or_assoc] using known
  unfold State.judgeUnlock
  simp only [decodeCabin_eq number, may, positionValid_of_ne_invalid position, zoneOf_eq here only,
    zoneChecks_eq_unlockVerdict, passes]
  rfl

/-- Past the cutoff a command passes under the console override only (R64, R65). -/
theorem held_of_past {src : Byte} {z : Zone} {k : Cabin} (passes : s.unlockVerdict src z k = none)
    (past : (s.occ z).past = true) : s.rot.wheel = .held := by
  unfold State.unlockVerdict at passes
  by_contra moved
  simp only [moved, and_false, past, if_true, if_false] at passes
  split at passes
  · cases passes
  split at passes
  · cases passes
  split at passes <;> cases passes

/-! ### The release -/

/-- The gate's and the record's part of a release, and the copy at the door queue (R59, R45, R66). -/
def released (dst cabin : Byte) (k : Cabin) (z : Zone) (s : State) : State :=
  forwardDoor .unlock dst cabin actionUnlock (startCycle k (spendPermit z k s))

theorem released_occ (dst cabin : Byte) (k : Cabin) (z y : Zone) (s : State) :
    (released dst cabin k z s).occ y = s.occ y :=
  rfl

theorem released_cabin (dst cabin : Byte) (k j : Cabin) (z : Zone) (s : State) :
    (released dst cabin k z s).cabin j =
      if k = j then { s.cabin k with cycle := .releaseSent, releaseTime := some s.lines.now } else s.cabin j :=
  State.setCabin_cabin _ _ _ _

theorem released_permit (dst cabin : Byte) (k : Cabin) (z y : Zone) (s : State) :
    (released dst cabin k z s).permits.get y =
      if z = y then (if s.permits.get z = .armed k then .spent k else s.permits.get z) else s.permits.get y :=
  ByZone.get_set _ _ _ _

theorem released_ring (dst cabin : Byte) (k : Cabin) (z : Zone) (s : State) :
    (released dst cabin k z s).ring =
      { s.ring with doorQueue := arriveDoor s.ring.doorQueue (s.commandItem .unlock dst cabin 0x01) } :=
  rfl

/-- A released cabin is not both LOCKED and IDLE, so past the cutoff it overruns (R66, R70). -/
theorem forwardUnlock_eq (dst cabin : Byte) {k : Cabin} {z : Zone} (here : (s.occ z).occupant = some k) :
    forwardUnlock dst cabin k z s =
      if (s.occ z).past then raiseHold (.zoneOverrun z k) (released dst cabin k z s)
      else released dst cabin k z s := by
  show (if (s.occ z).past then testOverrun z (released dst cabin k z s) else released dst cabin k z s) = _
  cases past : (s.occ z).past with
  | false => rfl
  | true =>
    have occupied : s.occ z = { occupant := some k, past := true } := by rw [← here, ← past]
    have free : ((released dst cabin k z s).cabin k).secured = false := by
      simp [released_cabin, CabinRecord.secured]
    have overruns : (released dst cabin k z s).overrunCabin z = some k := by
      simp [State.overrunCabin, released_occ, occupied, free]
    simp [testOverrun, overruns]

/-- A wheel at rest does nothing at a raise (R147). -/
theorem onRaise_of_rest (key : HoldKey) (rest : s.rot.wheel.moving = false) : onRaise key s = s := by
  unfold onRaise
  cases wheel : s.rot.wheel with
  | running | stopping => rw [wheel] at rest; cases rest
  | _ => rfl

/-- A raise with the wheel at rest leaves all but the hold list and the notices (R125, R147). -/
theorem raiseHold_of_rest (h : Hold) (rest : s.rot.wheel.moving = false) :
    raiseHold h s = s ∨ raiseHold h s = notify (.holdRaised h) (appendHold h s) := by
  unfold raiseHold
  split
  · exact .inl rfl
  · exact .inr (onRaise_of_rest _ (by simpa using rest))

/-- What a forwarded UNLOCK makes of the release: nothing more, or a raise of its overrun with the wheel at
rest. -/
theorem forwardUnlock_cases {src : Byte} {k : Cabin} {z : Zone} (dst cabin : Byte)
    (here : (s.occ z).occupant = some k) (passes : s.unlockVerdict src z k = none) :
    forwardUnlock dst cabin k z s = released dst cabin k z s ∨
      (s.occ z).past = true ∧
      forwardUnlock dst cabin k z s = notify (.holdRaised (.zoneOverrun z k))
        (appendHold (.zoneOverrun z k) (released dst cabin k z s)) := by
  rw [forwardUnlock_eq dst cabin here]
  split
  · next past =>
    have rest : (released dst cabin k z s).rot.wheel.moving = false := by
      show s.rot.wheel.moving = false
      rw [held_of_past passes past]; rfl
    exact (raiseHold_of_rest _ rest).imp id fun raised => ⟨past, raised⟩
  · exact .inl rfl

/-- Settles O18: the command is judged at its moment, passes, and is released; the raise past the cutoff touches
the hold list and the notices only. -/
theorem unlocksThatPassAreForwarded : Obligations.UnlocksThatPassAreForwarded := by
  intro t dst src cabin k z s ⟨r, source, foreign⟩ ⟨dest, dest'⟩ number known position here only passes
  have wellFormed : (doorCommandFrame dst src cabin 0x01).wellFormed = true :=
    (wellFormed_iff _).2 ⟨by simp [doorCommandFrame], dest, dest', source⟩
  have done := completes_of_row (c := .unlock t dst src cabin) rfl wellFormed r foreign
  have judged : (s.advance t).judgeUnlock src cabin = .ok (k, z) :=
    judgeUnlock_ok number known position here only passes
  have decided : decideFrame (doorCommandFrame dst src cabin 0x01) (s.advance t) =
      forwardUnlock dst cabin k z (s.advance t) := by
    rw [show (0x01 : Byte) = actionUnlock from rfl, decideFrame_unlock, decideUnlock, judged]
  rw [decided] at done
  have stands : (s.occ z).past = true →
      (forwardUnlock dst cabin k z (s.advance t)).holdsKey (.zoneOverrun z) = true := fun past => by
    rw [forwardUnlock_eq dst cabin (show ((s.advance t).occ z).occupant = some k from here),
      if_pos (show ((s.advance t).occ z).past = true from past), raiseHold_holdsKey]
    simp [Hold.key]
  have cases := forwardUnlock_cases (s := s.advance t) dst cabin here passes
  generalize forwardUnlock dst cabin k z (s.advance t) = u at done stands cases
  generalize hw : released dst cabin k z (s.advance t) = w at cases
  have cabins (j : Cabin) := hw ▸ released_cabin dst cabin k j z (s.advance t)
  have permits (y : Zone) := hw ▸ released_permit dst cabin k z y (s.advance t)
  have ring := hw ▸ released_ring dst cabin k z (s.advance t)
  have release : Untouched [.cabins, .permits] s w ∧ w.lines = s.linesAt t ∧ w.holds = s.holds := by
    subst hw
    refine ⟨Untouched.of_advance (t := t) ⟨rfl, fun b other => ?_⟩, rfl, rfl⟩
    cases b with
    | cabins | permits => simp at other
    | _ => rfl
  obtain ⟨blocks, quiet⟩ : Untouched [.holds] w u ∧ Quiet w u := by
    rcases cases with rfl | ⟨-, rfl⟩
    · exact ⟨(Untouched.refl u).mono (by simp), .refl u⟩
    · exact ⟨(appendHold_untouched _ w).trans (notify_untouched _ _),
        (Quiet.aside (.refl w) (by simp)).then_notify _⟩
  obtain ⟨forward, driveSet, doorQueue, responses, -, -⟩ := quiet.queues
  have blocks_all := (release.1.trans blocks).mono (changed' := [.cabins, .permits, .holds, .rot]) (by simp)
  have same_cabins : u.cabins = w.cabins := blocks.2 .cabins (by simp)
  have same_permits : u.permits = w.permits := blocks.2 .permits (by simp)
  have same_rot : u.rot = s.rot := (release.1.trans blocks).2 .rot (by simp)
  refine ⟨u, done, quiet.lines.trans release.2.1, ?_, ?_, ?_, ?_, same_rot, ?_, fun j other => ?_, ?_,
    fun y other => ?_, blocks_all, fun before => ?_, stands⟩
  · rw [doorQueue, ring]; rfl
  · rw [forward, ring]; rfl
  · rw [responses, ring]; rfl
  · rw [driveSet, ring]; rfl
  · rw [State.cabin_congr same_cabins, cabins, if_pos rfl]; rfl
  · rw [State.cabin_congr same_cabins, cabins, if_neg (Ne.symm other)]; rfl
  · rw [same_permits, permits, if_pos rfl]; rfl
  · rw [same_permits, permits, if_neg (Ne.symm other)]; rfl
  · rcases cases with rfl | ⟨past, -⟩
    · exact ⟨release.2.2, by rw [ring]; rfl⟩
    · exact absurd (before.symm.trans past) (by simp)

end Sys2Proof.Machine
end

