-- ==== Sys2Proof/Proofs/AllStop.lean ====
section

/-!
# ALL_STOP

The frame is forwarded after the raise of its record. At a moving wheel the raise enters BRAKED, whose drive set
is that of `State.driveSetOf`, with an unsent ALL_STOP kept (R12, R127, R147, R150, R166).
-/

namespace Sys2Proof.Machine

variable {s : State}

/-! ### The drive set -/

theorem driveRef_eq (s : State) (v : Nat) (brake : Bool) (n : Fin 4) :
    driveRef s v brake n =
      if (s.role (driveRole n) != 62) = true then
        some { dest := s.role (driveRole n), source := s.ownAddress, kind := 0x41
               payload := [octet (v / 256), octet v, yesNo brake, yesNo (decide (s.p 27 = 0))] }
      else none := by
  by_cases absent : s.role (driveRole n) = 62
  · rw [driveRef, if_pos (show s.role (driveRole n) = Config.noStation from absent),
      if_neg (by simpa using absent)]
  · rw [driveRef, if_neg (show ¬ s.role (driveRole n) = Config.noStation from absent),
      if_pos (by simpa using absent)]
    rfl

/-- The references and the apply frame of the model are those of R165. -/
theorem driveSet_eq (s : State) (v : Nat) (brake : Bool) :
    allFour.filterMap (driveRef s v brake) ++ driveApply s = s.driveSetOf v brake := by
  have references : allFour.filterMap (driveRef s v brake) =
      ([(0 : Fin 4), 1, 2, 3].filter (fun n => s.role (driveRole n) != 62)).map fun n =>
        { dest := s.role (driveRole n), source := s.ownAddress, kind := 0x41
          payload := [octet (v / 256), octet v, yesNo brake, yesNo (decide (s.p 27 = 0))] } := by
    rw [← List.filterMap_eq_map, List.filterMap_filter]
    exact congrArg (List.filterMap · _) (funext (driveRef_eq s v brake))
  have apply : driveApply s = if decide (s.p 27 = 0) = true then
      [{ dest := 63, source := s.ownAddress, kind := 0x42, payload := [] }] else [] := rfl
  rw [references, apply]
  rfl

theorem State.driveSetOf_congr {u : State} (tables : u.tables = s.tables) (own : u.ownAddress = s.ownAddress)
    (v : Nat) (brake : Bool) : u.driveSetOf v brake = s.driveSetOf v brake := by
  have role : u.role = s.role := funext fun i => by simp [State.role, tables]
  have param : u.p = s.p := funext fun i => by simp [State.p, tables]
  simp only [State.driveSetOf, role, param, own]

/-! ### Notices -/

/-- Two states that queue the same notices: the tables, the own address and the notice queue are the same. -/
structure SameDesk (s u : State) : Prop where
  tables : u.tables = s.tables
  ownAddress : u.ownAddress = s.ownAddress
  notices : u.ring.notices = s.ring.notices
  overflow : u.ring.noticeOverflow = s.ring.noticeOverflow

theorem SameDesk.notify {u : State} (h : SameDesk s u) (n : Notice) :
    SameDesk (notify n s) (Machine.notify n u) := by
  have masks : u.masks n = s.masks n := by simp [State.masks, State.p, h.tables]
  have console : u.role roleConsole = s.role roleConsole := by simp [State.role, h.tables]
  by_cases masked : s.masks n = true
  · rwa [notify_of_masked masked, notify_of_masked (masks.trans masked)]
  by_cases absent : s.role roleConsole = Config.noStation
  · rwa [notify_of_absent absent, notify_of_absent (console.trans absent)]
  rw [notify_of_console masked absent, notify_of_console (masks ▸ masked) (console ▸ absent), h.notices,
    console]
  refine ⟨h.tables, h.ownAddress, ?_, ?_⟩
  · split
    · simp [State.ownFrame, h.ownAddress]
    · exact h.notices
  · split
    · exact h.overflow
    · rfl

theorem SameDesk.trans {v u : State} (first : SameDesk s v) (second : SameDesk v u) : SameDesk s u :=
  ⟨second.tables.trans first.tables, second.ownAddress.trans first.ownAddress,
    second.notices.trans first.notices, second.overflow.trans first.overflow⟩

theorem SameDesk.then_forward {u : State} (h : SameDesk s u) (fs : List Frame) :
    SameDesk s (u.setRing { u.ring with forward := fs }) :=
  ⟨h.tables, h.ownAddress, h.notices, h.overflow⟩

theorem SameDesk.noticesQueued {u : State} {ns : List Notice} (h : SameDesk (s.afterNotices ns) u) :
    NoticesQueued s u ns :=
  ⟨h.notices, h.overflow⟩

/-! ### The entry to BRAKED -/

/-- The entry to BRAKED before its two notices (R150). -/
def braked (s : State) : State :=
  queueDriveSet 0 true false ((putWheel .braked s).setRot { (putWheel .braked s).rot with vCmd := 0 })

theorem enterBraked_eq (s : State) :
    enterBraked .allStopRecord s =
      notify (.emergencyBrake .allStopRecord) (notify (.stateChanged .braked) (braked s)) := rfl

theorem braked_driveSet (s : State) :
    (braked s).ring.driveSet = s.driveSetOf 0 true ++ s.ring.driveSet.filter (fun f => f.kind == 0x5A) := by
  rw [← driveSet_eq]
  rfl

/-- At a moving wheel the raise of ALL_STOP enters BRAKED, and at another it changes nothing (R147). -/
theorem onRaise_allStop (s : State) :
    onRaise .allStop s = if s.rot.wheel.moving = true then enterBraked .allStopRecord s else s := by
  split
  · next moving =>
    unfold onRaise
    cases wheel : s.rot.wheel with
    | running | stopping => rfl
    | _ => rw [wheel] at moving; cases moving
  · next rest => exact onRaise_of_rest _ (by simpa using rest)

/-- The record of an ALL_STOP with its notice, before the rotation controller takes it (R125, R127). -/
def stopRaised (what : Hold) (s : State) : State := notify (.holdRaised what) (appendHold what s)

theorem stopRaised_quiet (what : Hold) (s : State) : Quiet s (stopRaised what s) :=
  ((Quiet.refl s).aside (u := appendHold what s) (by simp)).then_notify _

theorem stopRaised_rot (what : Hold) (s : State) : (stopRaised what s).rot = s.rot := by simp [stopRaised]

theorem stopRaised_desk (what : Hold) (s : State) :
    SameDesk (notify (.holdRaised what) s) (stopRaised what s) :=
  SameDesk.notify (s := s) (u := appendHold what s) ⟨rfl, rfl, rfl, rfl⟩ _

theorem stopRaised_untouched (what : Hold) (s : State) : Untouched [.holds] s (stopRaised what s) :=
  (appendHold_untouched what s).trans (notify_untouched _ _)

theorem stopRaised_holds (src reason : Byte) (s : State) :
    (stopRaised (.allStop src reason) s).holds =
      { records := s.holds.records ++ [{ what := .allStop src reason, raised := s.lines.now, acked := false }]
        resumeRequired := true } := by
  simp [stopRaised, appendHold, Hold.key, HoldKey.console]

theorem braked_queues (s : State) :
    (braked s).ring.forward = s.ring.forward ∧ (braked s).ring.doorQueue = s.ring.doorQueue ∧
      (braked s).ring.responses = s.ring.responses ∧ (braked s).ring.ringOut = s.ring.ringOut :=
  ⟨rfl, rfl, rfl, rfl⟩

theorem enterBraked_driveSet (s : State) :
    (enterBraked .allStopRecord s).ring.driveSet =
      s.driveSetOf 0 true ++ s.ring.driveSet.filter (fun f => f.kind == 0x5A) := by
  simp [enterBraked_eq, braked_driveSet]

theorem enterBraked_queues (s : State) :
    let u := enterBraked .allStopRecord s
    u.ring.forward = s.ring.forward ∧ u.ring.doorQueue = s.ring.doorQueue ∧
      u.ring.responses = s.ring.responses ∧ u.ring.ringOut = s.ring.ringOut := by
  simp [enterBraked_eq, braked_queues]

theorem enterBraked_desk {u : State} (h : SameDesk s u) :
    SameDesk (notify (.emergencyBrake .allStopRecord) (notify (.stateChanged .braked) s))
      (enterBraked .allStopRecord u) :=
  (SameDesk.notify (s := s) (u := braked u) ⟨h.tables, h.ownAddress, h.notices, h.overflow⟩ _).notify _

theorem enterBraked_untouched (s : State) : Untouched [.rot] s (enterBraked .allStopRecord s) :=
  ⟨(enterBraked_frame s _).1, fun b other => by
    cases b with
    | rot => simp at other
    | _ => simp [Block.same]⟩

/-- The raise of an ALL_STOP record by the record that stands and the wheel (R125, R127, R147). -/
theorem raiseHold_allStop {what : Hold} (key : what.key = .allStop) (s : State) :
    raiseHold what s = if s.holdsKey .allStop = true then s
      else if s.rot.wheel.moving = true then enterBraked .allStopRecord (stopRaised what s)
      else stopRaised what s := by
  rw [raiseHold, key]
  show (if s.holdsKey .allStop = true then s else onRaise .allStop (stopRaised what s)) = _
  rw [onRaise_allStop, stopRaised_rot]

/-- The raise of an ALL_STOP record leaves the lines and the queues but the drive set and the notices. -/
theorem raiseHold_allStop_queues {what : Hold} (key : what.key = .allStop) (s : State) :
    let u := raiseHold what s
    u.lines = s.lines ∧ u.ring.forward = s.ring.forward ∧ u.ring.doorQueue = s.ring.doorQueue ∧
      u.ring.responses = s.ring.responses ∧ u.ring.ringOut = s.ring.ringOut := by
  have quiet := stopRaised_quiet what s
  obtain ⟨forward, -, doorQueue, responses, ringOut, -⟩ := quiet.queues
  rw [raiseHold_allStop key]
  dsimp only
  split
  · simp
  split
  · simp only [enterBraked_queues, (enterBraked_frame _ _).2.1, quiet.lines, forward, doorQueue, responses,
      ringOut, and_self]
  · exact ⟨quiet.lines, forward, doorQueue, responses, ringOut⟩

/-- Settles O21: the record stands already, or is made with the wheel moving, or is made with the wheel at rest. -/
theorem allStopBrakesTheWheelAndPassesOn : Obligations.AllStopBrakesTheWheelAndPassesOn := by
  intro t dst src payload s ⟨r, source, foreign⟩ ⟨dest, dest'⟩ length
  have wellFormed : (allStopFrame dst src payload).wellFormed = true :=
    (wellFormed_iff _).2 ⟨length, dest, dest', source⟩
  have done := completes_of_row (c := .allStop t dst src payload) rfl wellFormed r foreign
  have taken : takeAllStop (allStopFrame dst src payload) (s.advance t) =
      pushForward (allStopFrame dst src payload)
        (raiseHold (.allStop src (payload.headD 0x00)) (s.advance t)) := rfl
  rw [decideFrame_allStop, taken, pushForward_eq] at done
  have key : (Hold.allStop src (payload.headD 0x00)).key = .allStop := rfl
  obtain ⟨lines, forward, doorQueue, responses, ringOut⟩ := raiseHold_allStop_queues key (s.advance t)
  have raised := raiseHold_allStop key (s.advance t)
  have holds := stopRaised_holds src (payload.headD 0x00) (s.advance t)
  generalize Hold.allStop src (payload.headD 0x00) = what at *
  generalize raiseHold what (s.advance t) = x at *
  have forwarded : x.forwarded (allStopFrame dst src payload) = s.forwarded (allStopFrame dst src payload) := by
    rw [State.forwarded, forward]; rfl
  have blocks : Untouched [.holds] s (stopRaised what (s.advance t)) :=
    .of_advance (t := t) (stopRaised_untouched what (s.advance t))
  have desk : SameDesk (notify (.holdRaised what) s) (stopRaised what (s.advance t)) :=
    (SameDesk.notify (s := s) (u := s.advance t) ⟨rfl, rfl, rfl, rfl⟩ _).trans
      (stopRaised_desk what (s.advance t))
  have rot : (stopRaised what (s.advance t)).rot = s.rot := stopRaised_rot what (s.advance t)
  have driveSet : (stopRaised what (s.advance t)).ring.driveSet = s.ring.driveSet :=
    (stopRaised_quiet what (s.advance t)).queues.2.1
  generalize stopRaised what (s.advance t) = y at *
  refine ⟨_, done, lines, forwarded, doorQueue, responses, ringOut, ?_⟩
  dsimp only [State.setRing_ring, State.setRing_lines, State.setRing_holds, State.setRing_rot]
  by_cases stands : s.holdsKey .allStop = true
  · rw [if_pos (show (s.advance t).holdsKey .allStop = true from stands)] at raised
    subst raised
    exact (if_pos stands).mpr ⟨sameBlocks_of_eq rfl, ⟨rfl, rfl⟩, rfl⟩
  rw [if_neg (show ¬ (s.advance t).holdsKey .allStop = true from stands)] at raised
  rw [if_neg stands]
  by_cases moving : s.rot.wheel.moving = true
  · rw [if_pos (show (s.advance t).rot.wheel.moving = true from moving)] at raised
    rw [if_pos moving]
    subst raised
    have entered := enterBraked_desk desk
    have same_holds : (enterBraked .allStopRecord y).holds = y.holds :=
      (enterBraked_untouched y).2 .holds (by simp)
    have set : y.driveSetOf 0 true = s.driveSetOf 0 true :=
      State.driveSetOf_congr (blocks.2 .tables (by simp))
        (desk.ownAddress.trans (by simp [State.ownAddress])) _ _
    exact ⟨((blocks.trans (enterBraked_untouched y)).trans (sameBlocks_of_eq rfl)).mono (by simp),
      same_holds.trans holds, by rw [enterBraked_rot, rot], by rw [enterBraked_driveSet, set, driveSet],
      SameDesk.noticesQueued (entered.then_forward _)⟩
  · rw [if_neg (show ¬ (s.advance t).rot.wheel.moving = true from moving)] at raised
    rw [if_neg moving]
    subst raised
    exact ⟨(blocks.trans (sameBlocks_of_eq rfl)).mono (by simp), holds, rot, driveSet,
      SameDesk.noticesQueued (desk.then_forward _)⟩

end Sys2Proof.Machine
end

