-- ==== Sys2Proof/Proofs/Requests.lean ====
section

/-!
# Requests and their answers

A row of a request is a REQUEST frame to the part; taken, it is judged by its source and kind, and one RESPONSE
joins the queue behind what the owner does, which leaves the responses alone.
-/

namespace Sys2Proof.Machine

variable {s : State}

/-! ### Answers without data -/

/-- An answer that is neither DONE nor DONE_CLAMPED has no data (R168). -/
def Reply.Bare (r : Reply) : Prop := r.result ≠ .done → r.result ≠ .doneClamped → r.data = []

theorem bare_plain (r : Result) : (Reply.plain r).Bare := fun _ _ => rfl

theorem bare_done (data : List Byte) : (Reply.done data).Bare := fun h => absurd rfl h

theorem bare_clamped (count : Nat) : (Reply.clamped count).Bare := by
  unfold Reply.clamped
  split
  · exact bare_plain _
  · exact fun _ h => absurd rfl h

theorem plainRequest_bare {decide : State → Reply × State} (h : (decide s).1.Bare) (src : Byte)
    (args : List Byte) : (plainRequest decide src args s).1.Bare := by
  unfold plainRequest
  split
  · exact h
  · exact bare_plain _

theorem apply_bare (t : Table) (ps : Entries) (s : State) : (t.apply ps s).1.Bare := by
  cases t with
  | roster | zones =>
    dsimp only [Table.apply, applyRoster, applyZones]
    split
    · exact bare_plain _
    · dsimp only
      exact bare_clamped _
  | pass | cabins | parameters | heads | rules =>
    dsimp only [Table.apply, applyPass, applyCabins, applyParameters, applyHeads, applyRules]
    exact bare_clamped _

theorem loadTable_bare (args : List Byte) (s : State) : (loadTable args s).1.Bare := by
  unfold loadTable
  split
  · split
    · unfold loadOn
      dsimp only
      split
      · exact bare_plain _
      split
      · exact bare_plain _
      split
      · exact bare_plain _
      · exact apply_bare _ _ _
    · exact bare_plain _
  · exact bare_plain _

theorem restart_bare (src : Byte) (args : List Byte) (s : State) : (restart src args s).1.Bare := by
  refine plainRequest_bare ?_ src args
  repeat' split
  all_goals exact bare_plain _

theorem unstow_bare (src : Byte) (args : List Byte) (s : State) : (unstow src args s).1.Bare := by
  refine plainRequest_bare ?_ src args
  repeat' split
  all_goals exact bare_plain _

theorem stow_bare (src : Byte) (args : List Byte) (s : State) : (stow src args s).1.Bare := by
  refine plainRequest_bare ?_ src args
  repeat' split
  all_goals exact bare_plain _

theorem start_bare (src : Byte) (args : List Byte) (s : State) : (start src args s).1.Bare := by
  refine plainRequest_bare ?_ src args
  repeat' split
  all_goals exact bare_plain _

theorem stop_bare (src : Byte) (args : List Byte) (s : State) : (stop src args s).1.Bare := by
  refine plainRequest_bare ?_ src args
  repeat' split
  all_goals exact bare_plain _

theorem resume_bare (src : Byte) (args : List Byte) (s : State) : (resume src args s).1.Bare := by
  refine plainRequest_bare ?_ src args
  repeat' split
  all_goals exact bare_plain _

theorem resetBrake_bare (src : Byte) (args : List Byte) (s : State) : (resetBrake src args s).1.Bare := by
  refine plainRequest_bare ?_ src args
  repeat' split
  all_goals exact bare_plain _

theorem openService_bare (src : Byte) (args : List Byte) (s : State) : (openService src args s).1.Bare := by
  refine plainRequest_bare ?_ src args
  repeat' split
  all_goals exact bare_plain _

theorem beginClearDown_bare (src : Byte) (args : List Byte) (s : State) :
    (beginClearDown src args s).1.Bare := by
  refine plainRequest_bare ?_ src args
  repeat' split
  all_goals exact bare_plain _

theorem closeService_bare (src : Byte) (args : List Byte) (s : State) : (closeService src args s).1.Bare := by
  refine plainRequest_bare ?_ src args
  repeat' split
  all_goals exact bare_plain _

theorem setLocks_bare (src : Byte) (args : List Byte) (s : State) : (setLocks src args s).1.Bare := by
  unfold setLocks
  repeat' split
  all_goals exact bare_plain _

theorem ackHold_bare (src : Byte) (args : List Byte) (s : State) : (ackHold src args s).1.Bare := by
  have record (key : HoldKey) : (ackRecord key s).1.Bare := by
    unfold ackRecord
    repeat' split
    all_goals exact bare_plain _
  unfold ackHold
  split
  · split
    · exact record _
    · exact bare_plain _
  · exact bare_plain _

theorem armZone_bare (src : Byte) (args : List Byte) (s : State) : (armZone src args s).1.Bare := by
  have named (z : Zone) : (armNamed z src s).1.Bare := by
    unfold armNamed armFor
    repeat' split
    all_goals exact bare_plain _
  unfold armZone
  split
  · split
    · exact named _
    · exact bare_plain _
  · exact bare_plain _

theorem setTrim_bare (src : Byte) (args : List Byte) (s : State) : (setTrim src args s).1.Bare := by
  unfold setTrim
  split
  · exact bare_clamped _
  · exact bare_plain _

theorem readStatus_bare (src : Byte) (args : List Byte) (s : State) : (readStatus src args s).1.Bare := by
  unfold readStatus
  split
  · exact bare_done _
  · exact bare_plain _

theorem readTable_bare (args : List Byte) (s : State) : (readTable args s).1.Bare := by
  unfold readTable
  split
  · split
    · exact bare_plain _
    · split
      · exact bare_plain _
      · exact bare_done _
  · exact bare_plain _

theorem readHolds_bare (src : Byte) (args : List Byte) (s : State) : (readHolds src args s).1.Bare := by
  unfold readHolds
  split
  · split
    · exact bare_done _
    · split
      · exact bare_done _
      · exact bare_plain _
  · exact bare_plain _

theorem readCabins_bare (src : Byte) (args : List Byte) (s : State) : (readCabins src args s).1.Bare := by
  unfold readCabins
  split
  · split
    · exact bare_plain _
    · exact bare_done _
  · exact bare_plain _

theorem readWind_bare (src : Byte) (args : List Byte) (s : State) : (readWind src args s).1.Bare := by
  unfold readWind
  split
  · exact bare_done _
  · exact bare_plain _

theorem owner_bare {kind : Byte} {o : Owner} (h : ownerOf kind = some o) (src : Byte) (args : List Byte)
    (s : State) : (o src args s).1.Bare := by
  have mem := ownerOf_mem h
  simp only [requestTable, List.mem_cons, Prod.mk.injEq, List.not_mem_nil, or_false] at mem
  rcases mem with ⟨-, rfl⟩ | ⟨-, rfl⟩ | ⟨-, rfl⟩ | ⟨-, rfl⟩ | ⟨-, rfl⟩ | ⟨-, rfl⟩ | ⟨-, rfl⟩ | ⟨-, rfl⟩ |
    ⟨-, rfl⟩ | ⟨-, rfl⟩ | ⟨-, rfl⟩ | ⟨-, rfl⟩ | ⟨-, rfl⟩ | ⟨-, rfl⟩ | ⟨-, rfl⟩ | ⟨-, rfl⟩ | ⟨-, rfl⟩ |
    ⟨-, rfl⟩ | ⟨-, rfl⟩ | ⟨-, rfl⟩ | ⟨-, rfl⟩
  · exact readStatus_bare src args s
  · exact readTable_bare args s
  · exact loadTable_bare args s
  · exact setLocks_bare src args s
  · exact restart_bare src args s
  · exact readHolds_bare src args s
  · exact plainRequest_bare (bare_plain _) src args
  · exact ackHold_bare src args s
  · exact readCabins_bare src args s
  · exact readWind_bare src args s
  · exact unstow_bare src args s
  · exact stow_bare src args s
  · exact start_bare src args s
  · exact stop_bare src args s
  · exact resume_bare src args s
  · exact resetBrake_bare src args s
  · exact setTrim_bare src args s
  · exact openService_bare src args s
  · exact beginClearDown_bare src args s
  · exact closeService_bare src args s
  · exact armZone_bare src args s

theorem judgeRequest_bare (src kind : Byte) (args : List Byte) (s : State) :
    (judgeRequest (ownerOf kind) src kind args s).1.Bare := by
  have asked : (match ownerOf kind with
      | some o => o src args s
      | none => answer .badKind s).1.Bare := by
    cases h : ownerOf kind with
    | none => exact bare_plain _
    | some o => exact owner_bare h src args s
  unfold judgeRequest
  split
  · exact asked
  split
  · exact asked
  · exact bare_plain _

/-! ### Rows of requests -/

/-- A row of a request stands for a REQUEST frame to the part (section 1.9). -/
theorem frameOf_request {c : Instr} {src tag kind : Byte} {t : Nat} {f : Frame}
    (request : requestOf c = some (src, tag, kind)) (frame : s.frameOf c = some (t, f)) :
    ∃ args, f = requestFrame s.ownAddress src tag kind args := by
  cases c <;> cases request <;> cases frame <;> exact ⟨_, rfl⟩

/-- A request row of a part that hears its source is taken by the owner of its kind (R13, R168). -/
theorem completes_of_request {c : Instr} {src tag kind : Byte} {args : List Byte} {t : Nat}
    (frame : s.frameOf c = some (t, requestFrame s.ownAddress src tag kind args))
    (wellFormed : (requestFrame s.ownAddress src tag kind args).wellFormed = true) (hears : s.hears src) :
    Completes c s (takeRequest (ownerOf kind) src tag kind args (s.advance t)) := by
  have done := completes_of_row frame wellFormed hears.1 hears.2.2
  rwa [decideFrame_request (s := s.advance t) (own := s.ownAddress) rfl] at done

theorem takeRequest_of_room (owner : Option Owner) {src tag kind : Byte} {args : List Byte}
    (room : s.ring.responses.length < 8) :
    takeRequest owner src tag kind args s =
      pushResponse src tag kind (judgeRequest owner src kind args s).1 (judgeRequest owner src kind args s).2 :=
  if_pos room

theorem takeRequest_of_full (owner : Option Owner) {src tag kind : Byte} {args : List Byte}
    (full : 8 ≤ s.ring.responses.length) : takeRequest owner src tag kind args s = s :=
  if_neg (Nat.not_lt.2 full)

theorem ownerOf_eq_none {kind : Byte} (unknown : kind ∉ requestTable.map (·.1)) : ownerOf kind = none := by
  rw [ownerOf, Option.map_eq_none_iff, List.find?_eq_none]
  intro e mem found
  exact unknown (List.mem_map.2 ⟨e, mem, by simpa using found⟩)

/-- The RESPONSE joins the queue after work of the blocks (R168, R18). -/
theorem pushResponse_responses {t : Nat} {x : Tables} {v : State} (quiet : Quiet ((s.advance t).setTables x) v)
    (src tag kind : Byte) (r : Reply) :
    (pushResponse src tag kind r v).ring.responses = s.answered src tag kind r.result r.data := by
  have responses : v.ring.responses = s.ring.responses := quiet.queues.2.2.2.1
  have own : v.ownAddress = s.ownAddress := quiet.ownAddress
  simp [pushResponse, State.ownFrame, State.answered, State.responseFrame, responses, own, kindResponse]

/-- An answer that leaves the state turns the request away (R168). -/
theorem turnsAway_of_answer {c : Instr} {src tag kind : Byte} {args : List Byte} {t : Nat} {result : Result}
    (done : Completes c s (takeRequest (ownerOf kind) src tag kind args (s.advance t)))
    (room : s.ring.responses.length < 8)
    (answered : judgeRequest (ownerOf kind) src kind args (s.advance t) = answer result (s.advance t)) :
    TurnsAway c t s src tag kind result := by
  rw [takeRequest_of_room (s := s.advance t) _ room, answered] at done
  exact ⟨_, ⟨done, rfl, rfl, rfl, rfl, rfl, rfl⟩, sameBlocks_of_eq rfl, rfl, rfl, rfl⟩

/-- Settles O22: a request is discarded at 8 responses, and else judged and answered; the two judgements of R169
that reach no owner leave the state. -/
theorem everyRequestTakenIsAnsweredOnce : Obligations.EveryRequestTakenIsAnsweredOnce := by
  intro c s src tag kind t f request frame wellFormed hears
  obtain ⟨args, rfl⟩ := frameOf_request request frame
  have done := completes_of_request frame wellFormed hears
  refine ⟨fun full => ?_, fun room => ?_, fun room => ?_⟩
  · rw [takeRequest_of_full (s := s.advance t) _ full] at done
    exact ⟨_, done, rfl, rfl, sameBlocks_of_eq rfl⟩
  · rw [takeRequest_of_room (s := s.advance t) _ room] at done
    obtain ⟨x, -, quiet⟩ := judgeRequest_writes src kind args (s.advance t)
    exact ⟨_, _, _, done, quiet.lines, pushResponse_responses quiet _ _ _ _, judgeRequest_bare _ _ _ _⟩
  · intro gate known
    refine ⟨fun console unknown => turnsAway_of_answer done room ?_,
      fun other barred => turnsAway_of_answer done room ?_⟩
    · rw [ownerOf_eq_none unknown]
      exact if_pos console
    · have gateOnly : ¬ (s.isGate src && gateKind kind) = true := by
        simpa [State.isGate, gateKind, gate, reqArmZone, reqReadStatus] using barred
      exact (if_neg other).trans (if_neg gateOnly)

end Sys2Proof.Machine
end

