-- ==== Sys2Proof/Proofs/TableLoads.lean ====
section

/-!
# LOAD_TABLE

A load whose octets are in order reaches its table's owner (R172), which answers with the clamped count. Each
owner's clamping is then that of the rules, entry by entry, and the count is the number of their conditions met.
-/

namespace Sys2Proof.Machine

variable {s : State}

/-! ### A load reaches its table -/

theorem frameOf_loadOf (table : Table) (t : Nat) (src tag : Byte) (args : List Byte) (s : State) :
    s.frameOf (loadOf table t src tag args) =
      some (t, requestFrame s.ownAddress src tag 0x03 (table.code :: args)) := by
  cases table <;> rfl

theorem tableOf_code (table : Table) : tableOf table.code = some table := by
  cases table <;> rfl

theorem loadOn_of_loadable {table : Table} {start : Byte} {body : List Byte} (h : s.loadable table start body) :
    loadOn table (start :: body) s = table.apply (table.paged start.toNat body) s := by
  obtain ⟨range, present, whole, -, free⟩ := h
  have short : ¬ (body = [] ∨ body.length % table.size ≠ 0) := by simp [present, whole]
  have unlocked : ¬ (s.locked table ∧ s.rot.wheel ≠ .stowed) := by
    rintro ⟨locked, moving⟩
    exact free.elim (fun unset => by simp [State.locked, unset] at locked) moving
  dsimp only [loadOn]
  rw [if_neg short, if_neg (Nat.not_le.2 range), if_neg unlocked]

/-- A load of the console in order is answered by its table's owner at its moment (R168, R169, R172). -/
theorem completes_of_load {table : Table} {t : Nat} {src tag start : Byte} {body : List Byte}
    (takes : s.takesConsole src) (h : s.loadable table start body) :
    let r := table.apply (table.paged start.toNat body) (s.advance t)
    Completes (loadOf table t src tag (start :: body)) s (pushResponse src tag 0x03 r.1 r.2) := by
  obtain ⟨⟨hears, room⟩, console⟩ := takes
  have own : s.ownAddress.toNat ≤ 61 := by
    rw [State.ownAddress_toNat]
    have := s.lines.strap.isLt
    omega
  have wellFormed :
      (requestFrame s.ownAddress src tag 0x03 (table.code :: start :: body)).wellFormed = true := by
    refine (wellFormed_iff _).2 ⟨?_, ?_, ?_, hears.2.1⟩
    · have := h.2.2.2.1
      simp [requestFrame]
      omega
    · show s.ownAddress.toNat ≤ 63
      omega
    · show s.ownAddress.toNat ≠ 62
      omega
  have done := completes_of_request (frameOf_loadOf table t src tag (start :: body) s) wellFormed hears
  have judged : judgeRequest (ownerOf 0x03) src 0x03 (table.code :: start :: body) (s.advance t) =
      table.apply (table.paged start.toNat body) (s.advance t) := by
    have asked : judgeRequest (ownerOf 0x03) src 0x03 (table.code :: start :: body) (s.advance t) =
        loadTable (table.code :: start :: body) (s.advance t) := if_pos console
    rw [asked, loadTable, tableOf_code]
    exact loadOn_of_loadable (s := s.advance t) h
  rwa [takeRequest_of_room (s := s.advance t) _ room, judged] at done

theorem pushResponse_untouched (dest tag kind : Byte) (r : Reply) (s : State) :
    Untouched [] s (pushResponse dest tag kind r s) := sameBlocks_of_eq rfl

/-- A request answered after a write to the tables and work of the blocks (R168). -/
theorem answers_of_quiet {c : Instr} {t : Nat} {src tag kind : Byte} {r : Reply} {x : Tables} {v : State}
    (done : Completes c s (pushResponse src tag kind r v)) (quiet : Quiet ((s.advance t).setTables x) v) :
    Answers c t s (pushResponse src tag kind r v) src tag kind r.result r.data := by
  obtain ⟨forward, -, doorQueue, -, ringOut, ownDue⟩ := quiet.queues
  exact ⟨done, quiet.lines, pushResponse_responses quiet src tag kind r, forward, doorQueue, ringOut, ownDue⟩

theorem clamped_result (count : Nat) : (Reply.clamped count).result = clampedResult count := by
  unfold Reply.clamped clampedResult
  split <;> rfl

theorem clamped_data (count : Nat) : (Reply.clamped count).data = clampedData count := by
  unfold Reply.clamped clampedData
  split <;> rfl

/-- A load with a clamped count is answered DONE or DONE_CLAMPED (R172, R24). -/
theorem answers_of_load {table : Table} {t : Nat} {src tag start : Byte} {body : List Byte} {count : Nat}
    {x : Tables} {v : State} (takes : s.takesConsole src) (h : s.loadable table start body)
    (applied : table.apply (table.paged start.toNat body) (s.advance t) = (.clamped count, v))
    (quiet : Quiet ((s.advance t).setTables x) v) :
    Answers (loadOf table t src tag (start :: body)) t s (pushResponse src tag 0x03 (.clamped count) v) src tag
      0x03 (clampedResult count) (clampedData count) := by
  have done := completes_of_load (t := t) (tag := tag) takes h
  rw [applied] at done
  rw [← clamped_result, ← clamped_data]
  exact answers_of_quiet done quiet

/-! ### Entries and counts -/

theorem loaded_of_written {α : Type} {n : Nat} {clamp : Fin n → List Byte → α × Nat} {old : Vector α n}
    {ps : Entries} {j : Fin n} {e : List Byte} (h : written ps j.val = some e) :
    (loadedTable clamp old ps)[j] = (clamp j e).1 := by
  rw [loadedTable_getElem, h]

theorem loaded_of_unwritten {α : Type} {n : Nat} {clamp : Fin n → List Byte → α × Nat} {old : Vector α n}
    {ps : Entries} {j : Fin n} (h : written ps j.val = none) : (loadedTable clamp old ps)[j] = old[j] := by
  rw [loadedTable_getElem, h]

/-- The clamped count is the number of conditions that the written entries meet (R172). -/
theorem loadedClamps_eq {α : Type} {n : Nat} {clamp : Fin n → List Byte → α × Nat}
    {conditions : List Byte → List Bool} (h : ∀ j e, (clamp j e).2 = (conditions e).count true) (ps : Entries) :
    loadedClamps clamp ps = countWritten n ps conditions := by
  unfold loadedClamps countWritten
  rw [← List.map_coe_finRange_eq_range, List.map_map]
  refine congrArg List.sum (List.map_congr_left fun j _ => ?_)
  show _ = match written ps j.val with
    | some e => (conditions e).count true
    | none => 0
  cases written ps j.val with
  | none => rfl
  | some e => exact h j e

end Sys2Proof.Machine
end

