-- ==== Sys2Proof/Proofs/PassCabinAndRules.lean ====
section

/-!
# Loads of PASS, RULES and CABINS

Each field's clamping, as a value and a condition, and what the three loads leave unchanged.
-/

namespace Sys2Proof.Machine

variable {s : State}

/-! ### Conditions that count -/

theorem count_true_cons (b : Bool) (bs : List Bool) : (b :: bs).count true = clampCount b + bs.count true := by
  cases b <;> simp [clampCount, Nat.add_comm]

theorem clampNum_zero (hi v : Nat) : clampNum 0 hi v = (min v hi, clampCount (decide (hi < v))) := by
  simp [clampNum, Nat.min_comm]

/-! ### PASS -/

theorem clampPassControl_eq (o : Byte) :
    clampPassControl o =
      (if o = 0x00 then .disabled else if o = 0x01 then .forward else .drop,
        clampCount (decide (2 < o.toNat))) := by
  unfold clampPassControl
  split
  · next h => subst h; rfl
  split
  · next h => subst h; rfl
  · next zero one =>
    have above : (o != 0x02) = decide (2 < o.toNat) := by
      rw [BitVec.toNat_eq] at zero one
      rw [bne, Bool.eq_iff_iff]
      simp [BitVec.toNat_eq] at zero one ⊢
      omega
    rw [above]

theorem clampPassAddress_eq (o : Byte) :
    clampPassAddress o = (if o = 0xFF then none else if 64 ≤ o.toNat then some 63 else some o,
      clampCount (decide (64 ≤ o.toNat ∧ o.toNat ≤ 254))) := by
  unfold clampPassAddress
  split
  · next h => subst h; rfl
  · next h =>
    have bound : o.toNat ≤ 254 := by
      have := o.isLt
      simp [BitVec.toNat_eq] at h
      omega
    split
    · next high => simp [high, bound, clampCount]
    · next low => simp [low, clampCount]

/-! ### RULES -/

theorem clampQuantity_eq (o : Byte) :
    clampQuantity o =
      (([.siteGust, .siteSustained, .gustSpread, .validHeads, .headGust 0, .headGust 1, .headGust 2,
        .headGust 3, .sector, .marker1, .marker2] : List Quantity).getD o.toNat .gradeInForce,
        clampCount (decide (11 < o.toNat))) := by
  unfold clampQuantity
  generalize o.toNat = n
  split
  case h_13 =>
    have above : 11 < n := by grind
    have beyond : ([.siteGust, .siteSustained, .gustSpread, .validHeads, .headGust 0, .headGust 1, .headGust 2,
        .headGust 3, .sector, .marker1, .marker2] : List Quantity)[n]? = none := by
      simp; omega
    simp [List.getD, beyond, above, clampCount]
  all_goals rfl

theorem clampComparison_eq (o : Byte) :
    clampComparison o =
      (([.atLeast, .below, .inSet] : List Comparison).getD o.toNat .isSet,
        clampCount (decide (3 < o.toNat))) := by
  unfold clampComparison
  generalize o.toNat = n
  split
  case h_5 =>
    have above : 3 < n := by grind
    have beyond : ([.atLeast, .below, .inSet] : List Comparison)[n]? = none := by simp; omega
    simp [List.getD, beyond, above, clampCount]
  all_goals rfl

theorem clampGrade_eq (o : Byte) :
    clampGrade o = (if o = 0xFF then none else some ⟨min o.toNat 4, by omega⟩,
      clampCount (decide (5 ≤ o.toNat ∧ o.toNat ≤ 254))) := by
  unfold clampGrade
  split
  · next h => subst h; rfl
  · next h =>
    have bound : o.toNat ≤ 254 := by
      have := o.isLt
      simp [BitVec.toNat_eq] at h
      omega
    split
    · next low =>
      have same : min o.toNat 4 = o.toNat := by omega
      simp [same, clampCount, Nat.not_le.2 low]
    · next high =>
      have top : min o.toNat 4 = 4 := by omega
      simp [top, clampCount, Nat.not_lt.1 high, bound]

theorem clampEffect_count (o : Byte) :
    (clampEffect o).2 = clampCount (decide (o ∉
      ([0x00, 0x11, 0x12, 0x13, 0x14, 0x21, 0x22, 0x23, 0x24] : List Byte))) := by
  simp only [List.mem_cons, List.not_mem_nil, or_false, BitVec.toNat_eq, clampEffect]
  generalize o.toNat = n
  split
  case h_10 => simp_all [clampCount]
  all_goals rfl

theorem clampPass_count (j : Fin 32) (e : List Byte) :
    (clampPass j e).2 = [decide (2 < (e.getD 0 0).toNat),
      decide (64 ≤ (e.getD 1 0).toNat ∧ (e.getD 1 0).toNat ≤ 254),
      decide (64 ≤ (e.getD 2 0).toNat ∧ (e.getD 2 0).toNat ≤ 254)].count true := by
  simp only [clampPass, clampPassControl_eq, clampPassAddress_eq, count_true_cons, entryOctet, List.count_nil]
  omega

theorem clampCabin_count (k : Fin 48) (e : List Byte) :
    (clampCabin k e).2 = [decide (1 < (e.getD 0 0).toNat),
      decide ((e.getD 1 0).toNat < 1 ∨ 40 < (e.getD 1 0).toNat)].count true := by
  simp only [clampCabin, clampYes, clampNum, count_true_cons, entryOctet, List.count_nil, Bool.decide_or]
  rfl

theorem clampRule_count (j : Fin 16) (e : List Byte) :
    (clampRule j e).2 = [decide (1 < (e.getD 0 0).toNat), decide (11 < (e.getD 1 0).toNat),
      decide (3 < (e.getD 2 0).toNat), decide (11 < (e.getD 5 0).toNat), decide (3 < (e.getD 6 0).toNat),
      decide (15 < (e.getD 9 0).toNat), decide (5 ≤ (e.getD 10 0).toNat ∧ (e.getD 10 0).toNat ≤ 254),
      decide (e.getD 11 0 ∉
        ([0x00, 0x11, 0x12, 0x13, 0x14, 0x21, 0x22, 0x23, 0x24] : List Byte))].count true := by
  simp only [clampRule, clampTest, clampYes, clampNum_zero, clampQuantity_eq, clampComparison_eq, clampGrade_eq,
    clampEffect_count, count_true_cons, entryOctet, List.count_nil, Nat.add_assoc]
  rfl

/-! ### Permits of cabins taken out of service (R61) -/

/-- The permits of the cabins taken out of service are released. -/
def retire (taken : Cabin → Bool) (k : Cabin) (s : State) : State :=
  if taken k then clearPermitsOf k s else s

theorem retire_permit (taken : Cabin → Bool) (k : Cabin) (z : Zone) (s : State) :
    (retire taken k s).permits.get z =
      if taken k = true then (s.permits.get z).releaseCabin k else s.permits.get z := by
  unfold retire
  split
  · cases z <;> rfl
  · rfl

/-- A permit becomes CLEAR where its cabin is among those released, and stands otherwise. -/
theorem forEach_retire_permit (taken : Cabin → Bool) (z : Zone) (xs : List Cabin) (s : State) :
    ((s.permits.get z).cabin = none → (s.forEach xs (retire taken)).permits.get z = s.permits.get z) ∧
      ∀ k, (s.permits.get z).cabin = some k →
        (s.forEach xs (retire taken)).permits.get z =
          if taken k = true ∧ k ∈ xs then .clear else s.permits.get z := by
  induction xs generalizing s with
  | nil => exact ⟨fun _ => rfl, fun k _ => by simp [State.forEach]⟩
  | cons x xs ih =>
    obtain ⟨unbound, bound⟩ := ih (retire taken x s)
    have tail : s.forEach (x :: xs) (retire taken) = (retire taken x s).forEach xs (retire taken) := rfl
    rw [tail]
    rw [retire_permit] at unbound bound
    refine ⟨fun free => ?_, fun k holder => ?_⟩
    · have stays : (s.permits.get z).releaseCabin x = s.permits.get z := if_neg (by simp [free])
      rw [stays, ite_self] at unbound
      exact unbound free
    · by_cases hit : taken x = true ∧ x = k
      · obtain ⟨out, rfl⟩ := hit
        have cleared : (s.permits.get z).releaseCabin x = .clear := if_pos holder
        rw [if_pos out, cleared] at unbound
        rw [unbound rfl, if_pos ⟨out, List.mem_cons_self⟩]
      · have stays : (if taken x = true then (s.permits.get z).releaseCabin x else s.permits.get z) =
            s.permits.get z := by
          split
          · next out => exact if_neg (by rw [holder]; simpa using fun e => hit ⟨out, e.symm⟩)
          · rfl
        rw [stays] at bound
        rw [bound k holder]
        have mem : (taken k = true ∧ k ∈ x :: xs) ↔ (taken k = true ∧ k ∈ xs) := by
          refine and_congr_right fun out => ?_
          have other : k ≠ x := by
            rintro rfl
            exact hit ⟨out, rfl⟩
          simp [other]
        simp only [mem]

theorem retire_ring (taken : Cabin → Bool) (k : Cabin) (s : State) : (retire taken k s).ring = s.ring := by
  unfold retire
  split <;> rfl

theorem Quiet.then_retire {s₀ : State} (q : Quiet s₀ s) (taken : Cabin → Bool) (k : Cabin) :
    Quiet s₀ (retire taken k s) :=
  q.then_guarded fun h => h.aside (by simp)

theorem retire_untouched (taken : Cabin → Bool) (k : Cabin) (s : State) :
    Untouched [.permits] s (retire taken k s) := by
  unfold retire
  split
  · exact ⟨rfl, fun b other => by
      cases b with
      | permits => simp at other
      | _ => rfl⟩
  · exact (Untouched.refl s).mono (by simp)

theorem Untouched.forEach {α : Type} {changed : List Block} {f : α → State → State}
    (h : ∀ x s, Untouched changed s (f x s)) (xs : List α) (s : State) :
    Untouched changed s (s.forEach xs f) := by
  unfold State.forEach
  induction xs generalizing s with
  | nil => exact (Untouched.refl s).mono (by simp)
  | cons x xs ih => exact ((h x s).trans (ih (f x s))).mono (by simp)

/-! ### The loads -/

theorem setTables_untouched (t : Nat) (x : Tables) (s : State) :
    Untouched [.tables] s ((s.advance t).setTables x) :=
  .of_advance (t := t) ⟨rfl, fun b other => by
    cases b with
    | tables => simp at other
    | _ => rfl⟩

theorem startSettling_quiet (s : State) : Quiet s (startSettling s) := (Quiet.refl s).aside (by simp)

theorem startSettling_untouched (s : State) : Untouched [.grader] s (startSettling s) :=
  ⟨rfl, fun b other => by
    cases b with
    | grader => simp at other
    | _ => rfl⟩

/-- Settles O29, table by table: the load is answered, its entries are the clamped ones, and its blocks are all
that changes. -/
theorem passCabinAndRulesLoadsTakeTheirEntries : Obligations.PassCabinAndRulesLoadsTakeTheirEntries := by
  refine ⟨fun t src tag start body s takes => ⟨fun load => ?_, fun load => ?_⟩,
    fun t src tag start body s takes load => ?_⟩
  · intro ps address
    refine ⟨_, _, answers_of_load (table := .pass) takes load rfl (.refl _),
      ((setTables_untouched t _ s).trans (pushResponse_untouched _ _ _ _ _)).mono (by simp), rfl, rfl, rfl,
      loadedClamps_eq clampPass_count _, fun j => ?_⟩
    cases h : written ps j.val with
    | none => exact loaded_of_unwritten h
    | some e =>
      refine (loaded_of_written h).trans ?_
      simp only [clampPass, clampPassControl_eq, clampPassAddress_eq]
      rfl
  · intro ps test effect
    generalize hnew : loadedTable clampRule s.tables.rules ps = new
    have applied : Table.rules.apply ps (s.advance t) = (.clamped (loadedClamps clampRule ps),
        startSettling ((s.advance t).setTables { s.tables with rules := new })) := by
      subst hnew
      rfl
    refine ⟨_, _, answers_of_load takes load applied (startSettling_quiet _),
      (((setTables_untouched t _ s).trans (startSettling_untouched _)).trans
        (pushResponse_untouched _ _ _ _ _)).mono (by simp), rfl, rfl, rfl, rfl,
      loadedClamps_eq clampRule_count _, fun j => ?_⟩
    show new[j] = _
    rw [← hnew]
    cases h : written ps j.val with
    | none => exact loaded_of_unwritten h
    | some e =>
      refine (loaded_of_written h).trans ?_
      have effects (o : Byte) : (clampEffect o).1 = effect o := by
        dsimp only [effect, clampEffect]
        generalize o.toNat = n
        split
        case h_10 => split <;> simp_all
        all_goals rfl
      simp only [clampRule, clampTest, clampYes, clampNum_zero, clampQuantity_eq, clampComparison_eq,
        clampGrade_eq, effects]
      rfl
  · intro ps
    generalize hnew : loadedTable clampCabin s.tables.cabins ps = new
    generalize htaken : (fun k : Cabin => s.tables.cabins[k].inService && !new[k].inService) = taken
    have applied : Table.cabins.apply ps (s.advance t) = (.clamped (loadedClamps clampCabin ps),
        ((s.advance t).setTables { s.tables with cabins := new }).forEach allCabins (retire taken)) := by
      subst hnew htaken
      rfl
    have quiet : Quiet ((s.advance t).setTables { s.tables with cabins := new })
        (((s.advance t).setTables { s.tables with cabins := new }).forEach allCabins (retire taken)) :=
      (Quiet.refl _).then_forEach (fun k _ h => h.then_retire taken k) _
    have answers := answers_of_load (tag := tag) takes load applied quiet
    have blocks := ((setTables_untouched t { s.tables with cabins := new } s).trans
      (Untouched.forEach (retire_untouched taken) allCabins _)).trans
      (pushResponse_untouched src tag 0x03 (.clamped (loadedClamps clampCabin ps)) _)
    have ring := State.forEach_keeps ((s.advance t).setTables { s.tables with cabins := new }) State.ring
      (f := retire taken) (fun k v => retire_ring taken k v) allCabins
    have permits (z : Zone) := forEach_retire_permit taken z allCabins
      ((s.advance t).setTables { s.tables with cabins := new })
    have tables := quiet.tables
    generalize
      ((s.advance t).setTables { s.tables with cabins := new }).forEach allCabins (retire taken) = v at *
    have entry (k : Cabin) :
        (pushResponse src tag 0x03 (.clamped (loadedClamps clampCabin ps)) v).cabinEntry k = new[k] := congrArg (fun x : Tables => x.cabins[k]) tables
    refine ⟨_, _, answers, blocks.mono (by simp), ?_, ?_, ?_, loadedClamps_eq clampCabin_count _, fun k => ?_,
      fun z => ?_⟩
    · show v.tables = { s.tables with cabins := v.tables.cabins }
      rw [tables]
      rfl
    · show v.ring.notices = s.ring.notices
      rw [ring]
      rfl
    · show v.ring.driveSet = s.ring.driveSet
      rw [ring]
      rfl
    · rw [entry, ← hnew]
      cases h : written ps k.val with
      | none => exact loaded_of_unwritten h
      | some e => exact loaded_of_written h
    · obtain ⟨unbound, bound⟩ := permits z
      cases holder : (s.permits.get z).cabin with
      | none => exact unbound holder
      | some k =>
        have out : (taken k = true ∧ k ∈ allCabins) ↔
            (s.cabinEntry k).inService = true ∧ (new[k]).inService = false := by
          rw [← htaken]
          simp [allCabins, State.cabinEntry]
        rw [← entry] at out
        exact (bound k holder).trans (if_congr out rfl rfl)

end Sys2Proof.Machine
end

