-- ==== Sys2Proof/Proofs/ForgottenReports.lean ====
section

/-!
# Roles that lose their reports

What the owners make of their records when a role's address changes: the encoder heads are dropped together and
the position re-formed, which leaves head records, door states and report times alone; doors, wind heads and
drives are forgotten one by one (R6, R27, R43, R102, R161).
-/

namespace Sys2Proof.Machine

variable {s s₀ : State}

/-! ### Records one by one -/

/-- Acting for each record of a list acts on each of those records once. -/
theorem forEach_view {α β : Type} [DecidableEq α] (view : State → α → β) (act : α → β → β)
    {f : α → State → State}
    (step : ∀ x s y, view (f x s) y = if x = y then act y (view s y) else view s y)
    {xs : List α} (distinct : xs.Nodup) (s : State) (y : α) :
    view (s.forEach xs f) y = if y ∈ xs then act y (view s y) else view s y := by
  induction xs generalizing s with
  | nil => rfl
  | cons x xs ih =>
    obtain ⟨new, distinct⟩ := List.nodup_cons.1 distinct
    have tail : s.forEach (x :: xs) f = (f x s).forEach xs f := rfl
    rw [tail, ih distinct, step]
    by_cases here : x = y
    · subst here
      simp [new]
    · simp [here, Ne.symm here]

/-! ### What re-forming the position leaves -/

/-- The encoder head records, the door states and the report times are the same. -/
structure SameReports (s u : State) : Prop where
  head : ∀ e, u.tracker.head e = s.tracker.head e
  door : ∀ k, (u.cabin k).door = (s.cabin k).door
  report : ∀ k, (u.cabin k).lastReport = (s.cabin k).lastReport

theorem SameReports.refl (s : State) : SameReports s s := ⟨fun _ => rfl, fun _ => rfl, fun _ => rfl⟩

theorem SameReports.aside {u : State} (r : SameReports s₀ s)
    (same : u.tracker = s.tracker ∧ u.cabins = s.cabins) : SameReports s₀ u := by
  obtain ⟨tracker, cabins⟩ := same
  refine ⟨fun e => ?_, fun k => ?_, fun k => ?_⟩
  · rw [tracker, r.head]
  · rw [State.cabin_congr cabins, r.door]
  · rw [State.cabin_congr cabins, r.report]

theorem SameReports.then_setCabin (r : SameReports s₀ s) {k : Cabin} {c : CabinRecord}
    (door : c.door = (s.cabin k).door) (report : c.lastReport = (s.cabin k).lastReport) :
    SameReports s₀ (s.setCabin k c) := by
  refine ⟨r.head, fun j => ?_, fun j => ?_⟩
  · rw [State.setCabin_cabin, ← r.door]
    split
    · next e => rw [door, e]
    · rfl
  · rw [State.setCabin_cabin, ← r.report]
    split
    · next e => rw [report, e]
    · rfl

theorem SameReports.then_setTracker (r : SameReports s₀ s) {x : Tracker} (heads : x.headA = s.tracker.headA ∧
    x.headB = s.tracker.headB) : SameReports s₀ (s.setTracker x) :=
  ⟨fun e => (r.head e).symm ▸ by cases e <;> simp [Tracker.head, heads], r.door, r.report⟩

theorem SameReports.then_forEach {α : Type} {f : α → State → State}
    (step : ∀ x s, SameReports s₀ s → SameReports s₀ (f x s)) (r : SameReports s₀ s) (xs : List α) :
    SameReports s₀ (s.forEach xs f) := by
  unfold State.forEach
  induction xs generalizing s with
  | nil => exact r
  | cons x xs ih => exact ih (step x s r)

theorem SameReports.then_endCycle (r : SameReports s₀ s) (k : Cabin) : SameReports s₀ (endCycle k s) :=
  r.then_setCabin rfl rfl

theorem SameReports.then_zoneExit (r : SameReports s₀ s) (moved : Bool) (z : Zone) (k : Cabin) :
    SameReports s₀ (zoneExit moved z k s) := by
  have left : SameReports s₀ (cabinExit k s) := by
    have gone := r.then_setCabin (k := k) (c := { s.cabin k with location := none }) rfl rfl
    dsimp only [cabinExit]
    split
    · exact gone.aside (by simp)
    · exact (gone.then_endCycle k).aside (by simp)
  have cleared : SameReports s₀ (clearPermitAt z k (cabinExit k s)) := left.aside (by simp)
  dsimp only [zoneExit]
  split
  · exact cleared.aside (by simp)
  · exact cleared

theorem SameReports.then_uncommandedOpening (r : SameReports s₀ s) (k : Cabin) :
    SameReports s₀ (uncommandedOpening k s) := by
  have cycling := r.then_setCabin (k := k)
    (c := { s.cabin k with cycle := .cycling, releaseTime := none }) rfl rfl
  exact cycling.aside (by simp [uncommandedOpening])

theorem SameReports.then_zoneEntry (r : SameReports s₀ s) (z : Zone) (k : Cabin) :
    SameReports s₀ (zoneEntry z k s) := by
  have entered := r.then_setCabin (k := k) (c := { s.cabin k with location := some z }) rfl rfl
  dsimp only [zoneEntry]
  split
  · exact entered.then_uncommandedOpening k
  · exact entered

theorem SameReports.then_deliverMoves (r : SameReports s₀ s) (moved : Bool) (old new : ByZone Occupancy) :
    SameReports s₀ (deliverMoves moved old new s) := by
  refine .then_forEach (fun z v h => ?_) (.then_forEach (fun z v h => ?_) r _) _
  · unfold deliverEntry
    split
    · split
      · exact h
      · exact h.then_zoneEntry _ _
    · exact h
  · unfold deliverExit
    split
    · split
      · exact h
      · exact h.then_zoneExit _ _ _
    · exact h

theorem SameReports.then_putOcc (r : SameReports s₀ s) (new : ByZone Occupancy) :
    SameReports s₀ (putOcc new s) :=
  r.then_setTracker ⟨rfl, rfl⟩

theorem SameReports.then_recompute (r : SameReports s₀ s) (moved : Bool) :
    SameReports s₀ (recompute moved s) := by
  dsimp only [recompute]
  exact ((r.then_putOcc (membership s.tables.zones s.tracker.accepted)).then_deliverMoves moved s.tracker.occ
    (membership s.tables.zones s.tracker.accepted)).aside (by simp)

theorem SameReports.then_positionLost (r : SameReports s₀ s) : SameReports s₀ (positionLost s) := by
  dsimp only [positionLost]
  exact ((r.then_putOcc emptyZones).then_deliverMoves false s.tracker.occ emptyZones).aside (by simp)

theorem SameReports.then_positionReturns (r : SameReports s₀ s) (a : Accepted) :
    SameReports s₀ (positionReturns a s) := by
  dsimp only [positionReturns]
  exact ((r.then_putOcc (membership s.tables.zones a)).then_deliverMoves false emptyZones
    (membership s.tables.zones a)).aside (by simp)

theorem SameReports.then_reform (r : SameReports s₀ s) : SameReports s₀ (reform s) := by
  have accepted : SameReports s₀ (putAccepted s.tracker.formed s) := r.then_setTracker ⟨rfl, rfl⟩
  dsimp only [reform]
  split
  · unfold positionMoves
    refine SameReports.then_recompute ?_ true
    split
    · exact accepted
    · exact accepted.aside (by simp)
  · exact accepted.then_positionLost
  · exact accepted.then_positionReturns _
  · exact accepted

theorem SameReports.then_reformAfter (r : SameReports s₀ s) (was : Bool) :
    SameReports s₀ (reformAfter was s) := by
  dsimp only [reformAfter]
  split
  · exact r.then_reform.aside (by simp)
  · exact r.then_reform

/-! ### Encoder heads (R27) -/

/-- An encoder head record after a drop names it or not. -/
def EncoderHead.dropped (h : EncoderHead) (named : Bool) : EncoderHead := { h with fresh := h.fresh && !named }

theorem EncoderHead.dropped_false (h : EncoderHead) : h.dropped false = h := by simp [EncoderHead.dropped]

/-- The tracker with the named heads not fresh. -/
def Tracker.dropped (tr : Tracker) (a b : Bool) : Tracker :=
  { tr with headA := tr.headA.dropped a, headB := tr.headB.dropped b }

/-- A drop of head records leaves the others' reports, and the doors' (R27). -/
theorem dropHeads_reports (a b : Bool) (s : State) :
    SameReports (s.setTracker (s.tracker.dropped a b)) (dropHeads a b s) := by
  dsimp only [dropHeads]
  split
  · exact (SameReports.refl _).then_reformAfter _
  · next idle =>
    have same : s.tracker.dropped a b = s.tracker := by
      have stays (h : EncoderHead) (named : Bool) (off : (named && h.fresh) = false) : h.dropped named = h := by
        cases named with
        | false => exact h.dropped_false
        | true =>
          have stale : h.fresh = false := off
          rw [EncoderHead.dropped, stale, Bool.false_and, ← stale]
      rw [Tracker.dropped, stays _ a (by simp_all), stays _ b (by simp_all)]
    rw [same]
    exact ⟨fun _ => rfl, fun _ => rfl, fun _ => rfl⟩

/-! ### Doors (R43) -/

theorem doorStale_cabin (k : Cabin) (s : State) (j : Cabin) :
    (doorStale k s).cabin j = if k = j then { s.cabin j with door := .unknown } else s.cabin j := by
  have cabins : (doorStale k s).cabins = (s.setCabin k { s.cabin k with door := .unknown }).cabins := by
    simp [doorStale]
  rw [State.cabin_congr cabins, State.setCabin_cabin]
  split
  · next here => rw [here]
  · rfl

/-- A forgotten door is UNKNOWN without a report time, and the other doors stand (R43). -/
theorem forgetDoor_cabin (k : Cabin) (s : State) (j : Cabin) :
    (((forgetDoor k s).cabin j).door, ((forgetDoor k s).cabin j).lastReport) =
      if k = j then (.unknown, none) else ((s.cabin j).door, (s.cabin j).lastReport) := by
  dsimp only [forgetDoor]
  by_cases here : k = j
  · subst here
    split
    · next unknown => simpa using unknown
    · simp [doorStale_cabin]
  · split
    · simp [here]
    · simp [doorStale_cabin, here]

/-! ### Wind heads (R102) -/

theorem dropHead_head (n : Fin 4) (s : State) (m : Fin 4) :
    (dropHead n s).head m =
      if n = m then (if (s.head m).fresh = true then (s.head m).drop else s.head m) else s.head m := by
  unfold dropHead
  by_cases here : n = m
  · subst here
    split <;> simp
  · split <;> simp [here]

/-! ### Drives (R161) -/

/-- A drive record whose role's address has changed (R161, R162). -/
def Drive.forgotten (d : Drive) : Drive :=
  if d.fresh = true then
    { d with lastReport := none, fresh := false
             ready := ({ d with lastReport := none, fresh := false } : Drive).derivedReady }
  else { d with lastReport := none }

theorem State.drive_congr {u : State} (h : u.drives = s.drives) (n : Fin 4) : u.drive n = s.drive n := by
  simp [State.drive, h]

theorem judgeEnd_drives (s : State) : (judgeEnd s).drives = s.drives := by simp

theorem deriveReady_drive (n : Fin 4) (s : State) (m : Fin 4) :
    (deriveReady n s).drive m =
      if n = m then { s.drive m with ready := (s.drive m).derivedReady } else s.drive m := by
  dsimp only [deriveReady]
  split
  · next same =>
    split
    · next here => rw [← here, same]
    · rfl
  · rw [State.drive_congr (s := s.setDrive n { s.drive n with ready := (s.drive n).derivedReady }) (by simp),
      State.setDrive_drive]
    split
    · next here => rw [here]
    · rfl

theorem dropDrive_drive (n : Fin 4) (s : State) (m : Fin 4) :
    (dropDrive n s).drive m =
      if n = m ∧ (s.drive m).fresh = true then
        { s.drive m with fresh := false, ready := ({ s.drive m with fresh := false } : Drive).derivedReady }
      else s.drive m := by
  unfold dropDrive
  split
  · next fresh =>
    rw [State.drive_congr (judgeEnd_drives _), deriveReady_drive, State.setDrive_drive]
    by_cases here : n = m
    · subst here
      simp [fresh]
    · simp [here]
  · next stale =>
    rw [if_neg]
    rintro ⟨rfl, fresh⟩
    exact stale fresh

theorem forgetDrive_drive (n : Fin 4) (s : State) (m : Fin 4) :
    (forgetDrive n s).drive m = if n = m then (s.drive m).forgotten else s.drive m := by
  rw [forgetDrive, dropDrive_drive]
  by_cases here : n = m
  · subst here
    simp [Drive.forgotten]
  · simp [here]

end Sys2Proof.Machine
end

