-- ==== Sys2Proof/Proofs/RosterLoads.lean ====
section

/-!
# ROSTER loads

The refusals are the model's two checks on the roster as it would stand; an accepted load then has each owner
forget the roles whose address has changed (R6).
-/

namespace Sys2Proof.Machine

variable {s : State}

/-! ### The consequences -/

/-- What the owners' consequences leave and what they forget, block by block (R6). -/
structure RolesForgotten (changed : Fin 14 → Bool) (s u : State) : Prop where
  tables : u.tables = s.tables
  grader : u.grader = s.grader
  encoder : ∀ e, u.tracker.head e = (s.tracker.head e).dropped (changed (encoderRole e))
  door : ∀ k, (u.cabin k).door = if changed roleConcentrator = true then .unknown else (s.cabin k).door
  report : ∀ k, (u.cabin k).lastReport =
    if changed roleConcentrator = true then none else (s.cabin k).lastReport
  head : ∀ n, u.head n = if changed (headRole n) = true then
    (if (s.head n).fresh = true then (s.head n).drop else s.head n) else s.head n
  drive : ∀ n, u.drive n = if changed (driveRole n) = true then (s.drive n).forgotten else s.drive n

theorem allFour_nodup : allFour.Nodup := by decide

/-- The step of `rosterConsequences` for one wind head (R102). -/
def dropHeadIf (changed : Fin 14 → Bool) (n : Fin 4) (s : State) : State :=
  if changed (headRole n) then dropHead n s else s

/-- The step of `rosterConsequences` for one drive (R161). -/
def forgetDriveIf (changed : Fin 14 → Bool) (n : Fin 4) (s : State) : State :=
  if changed (driveRole n) then forgetDrive n s else s

/-- The step of `rosterConsequences` for the concentrator (R43). -/
def forgetDoorsIf (changed : Bool) (s : State) : State := if changed then forgetDoors s else s

theorem rosterConsequences_eq (changed : Fin 14 → Bool) (s : State) :
    rosterConsequences changed s =
      ((forgetDoorsIf (changed roleConcentrator)
        (dropHeads (changed roleEncoderA) (changed roleEncoderB) s)).forEach allFour
          (dropHeadIf changed)).forEach allFour (forgetDriveIf changed) := rfl

theorem dropHeadIf_head (changed : Fin 14 → Bool) (n : Fin 4) (s : State) (m : Fin 4) :
    (dropHeadIf changed n s).head m =
      if n = m then
        (if changed (headRole m) = true then
          (if (s.head m).fresh = true then (s.head m).drop else s.head m) else s.head m)
      else s.head m := by
  unfold dropHeadIf
  by_cases here : n = m
  · subst here
    split <;> simp [dropHead_head]
  · split <;> simp [dropHead_head, here]

theorem forgetDriveIf_drive (changed : Fin 14 → Bool) (n : Fin 4) (s : State) (m : Fin 4) :
    (forgetDriveIf changed n s).drive m =
      if n = m then (if changed (driveRole m) = true then (s.drive m).forgotten else s.drive m)
      else s.drive m := by
  unfold forgetDriveIf
  by_cases here : n = m
  · subst here
    split <;> simp [forgetDrive_drive]
  · split <;> simp [forgetDrive_drive, here]

theorem forgetDoorsIf_cabin (changed : Bool) (s : State) (k : Cabin) :
    ((forgetDoorsIf changed s).cabin k).door = (if changed = true then .unknown else (s.cabin k).door) ∧
      ((forgetDoorsIf changed s).cabin k).lastReport =
        if changed = true then none else (s.cabin k).lastReport := by
  unfold forgetDoorsIf
  split
  · have forgotten := forEach_view (fun s k => ((s.cabin k).door, (s.cabin k).lastReport))
      (fun _ _ => (Door.unknown, (none : Option Nat))) forgetDoor_cabin (List.nodup_finRange 48) s k
    rw [if_pos (List.mem_finRange k), Prod.mk.injEq] at forgotten
    exact forgotten
  · exact ⟨rfl, rfl⟩

theorem State.head_congr {u : State} (h : u.heads = s.heads) (n : Fin 4) : u.head n = s.head n := by
  simp [State.head, h]

theorem forgetDoorsIf_frame (changed : Bool) (s : State) :
    (forgetDoorsIf changed s).tables = s.tables ∧ (forgetDoorsIf changed s).tracker = s.tracker ∧
      (forgetDoorsIf changed s).heads = s.heads ∧ (forgetDoorsIf changed s).grader = s.grader ∧
      (forgetDoorsIf changed s).drives = s.drives := by
  unfold forgetDoorsIf
  split <;> simp

theorem forEach_dropHeadIf_frame (changed : Fin 14 → Bool) (ns : List (Fin 4)) (s : State) :
    let u := s.forEach ns (dropHeadIf changed)
    u.tables = s.tables ∧ u.tracker = s.tracker ∧ u.cabins = s.cabins ∧ u.grader = s.grader ∧
      u.drives = s.drives := by
  have kept := State.forEach_keeps s (fun u => (u.tables, u.tracker, u.cabins, u.grader, u.drives))
    (f := dropHeadIf changed) (fun n v => by unfold dropHeadIf; split <;> simp) ns
  simpa using kept

theorem forEach_forgetDriveIf_frame (changed : Fin 14 → Bool) (ns : List (Fin 4)) (s : State) :
    let u := s.forEach ns (forgetDriveIf changed)
    u.tables = s.tables ∧ u.tracker = s.tracker ∧ u.cabins = s.cabins ∧ u.grader = s.grader ∧
      u.heads = s.heads := by
  have kept := State.forEach_keeps s (fun u => (u.tables, u.tracker, u.cabins, u.grader, u.heads))
    (f := forgetDriveIf changed) (fun n v => by unfold forgetDriveIf; split <;> simp) ns
  simpa using kept

theorem rosterConsequences_forgets (changed : Fin 14 → Bool) (s : State) :
    RolesForgotten changed s (rosterConsequences changed s) := by
  rw [rosterConsequences_eq]
  have reports := dropHeads_reports (changed roleEncoderA) (changed roleEncoderB) s
  obtain ⟨-, -, tables₁, heads₁, grader₁, drives₁⟩ :=
    dropHeads_frame s (changed roleEncoderA) (changed roleEncoderB)
  generalize dropHeads (changed roleEncoderA) (changed roleEncoderB) s = v₁ at *
  have doors := forgetDoorsIf_cabin (changed roleConcentrator) v₁
  obtain ⟨tables₂, tracker₂, heads₂, grader₂, drives₂⟩ := forgetDoorsIf_frame (changed roleConcentrator) v₁
  generalize forgetDoorsIf (changed roleConcentrator) v₁ = v₂ at *
  have heads := forEach_view State.head
    (fun n h => if changed (headRole n) = true then (if h.fresh = true then h.drop else h) else h)
    (dropHeadIf_head changed) allFour_nodup v₂
  obtain ⟨tables₃, tracker₃, cabins₃, grader₃, drives₃⟩ := forEach_dropHeadIf_frame changed allFour v₂
  generalize v₂.forEach allFour (dropHeadIf changed) = v₃ at *
  have drives := forEach_view State.drive
    (fun n d => if changed (driveRole n) = true then d.forgotten else d) (forgetDriveIf_drive changed)
    allFour_nodup v₃
  obtain ⟨tables₄, tracker₄, cabins₄, grader₄, heads₄⟩ := forEach_forgetDriveIf_frame changed allFour v₃
  generalize v₃.forEach allFour (forgetDriveIf changed) = u at *
  have every (n : Fin 4) : n ∈ allFour := List.mem_finRange n
  have cabin (k : Cabin) : u.cabin k = v₂.cabin k := by
    rw [State.cabin_congr cabins₄, State.cabin_congr cabins₃]
  refine ⟨?_, ?_, fun e => ?_, fun k => ?_, fun k => ?_, fun n => ?_, fun n => ?_⟩
  · rw [tables₄, tables₃, tables₂, tables₁]
  · rw [grader₄, grader₃, grader₂, grader₁]
  · rw [tracker₄, tracker₃, tracker₂, reports.head]
    cases e <;> rfl
  · rw [cabin, (doors k).1, reports.door]
    rfl
  · rw [cabin, (doors k).2, reports.report]
    rfl
  · rw [State.head_congr heads₄, heads, if_pos (every n), State.head_congr heads₂, State.head_congr heads₁]
  · rw [drives, if_pos (every n), State.drive_congr drives₃, State.drive_congr drives₂,
      State.drive_congr drives₁]

theorem Drive.forgotten_fresh (d : Drive) : d.forgotten.fresh = false := by
  unfold Drive.forgotten
  split
  · rfl
  · next stale => simpa using stale

theorem Drive.forgotten_lastReport (d : Drive) : d.forgotten.lastReport = none := by
  unfold Drive.forgotten
  split <;> rfl

/-! ### The roster as it would stand -/

theorem clampRoster_eq (i : Fin 14) (e : List Byte) :
    clampRoster i e =
      (if 64 ≤ (e.getD 0 0).toNat then 62 else e.getD 0 0, clampCount (decide (64 ≤ (e.getD 0 0).toNat))) := by
  show clampRoster i e = (if 64 ≤ (entryOctet e 0).toNat then 62 else entryOctet e 0,
    clampCount (decide (64 ≤ (entryOctet e 0).toNat)))
  unfold clampRoster
  generalize entryOctet e 0 = o
  by_cases high : 64 ≤ o.toNat
  · simp [high, clampCount, Config.noStation]
  · simp [high, clampCount]

/-- The clamped count of a ROSTER load is the number of its entries of 64 and above (R6). -/
theorem loadedClamps_roster (ps : Entries) :
    loadedClamps clampRoster ps = (List.finRange 14).countP (fun i =>
      match written ps i.val with
      | some e => decide (64 ≤ (e.getD 0 0).toNat)
      | none => false) := by
  unfold loadedClamps
  generalize List.finRange 14 = roles
  induction roles with
  | nil => rfl
  | cons i roles ih =>
    rw [List.map_cons, List.sum_cons, List.countP_cons, ih, Nat.add_comm]
    congr 1
    cases written ps i.val with
    | none => rfl
    | some e => exact congrArg Prod.snd (clampRoster_eq i e)

/-- Settles O28: a load that fails a check of R6 is turned away; another writes the roster, and each owner forgets
the roles whose entry has changed. -/
theorem rosterLoadsAreCheckedAndForgetChangedRoles : Obligations.RosterLoadsAreCheckedAndForgetChangedRoles := by
  intro t src tag start body s takes load ps new changed refused c
  have loaded (i : Fin 14) : (loadedTable clampRoster s.tables.roster ps)[i] = new i := by
    dsimp only [new]
    cases h : written ps i.val with
    | none => exact loaded_of_unwritten h
    | some e => exact (loaded_of_written h).trans (congrArg Prod.fst (clampRoster_eq i e))
  have broadcast : holdsBroadcast ps = true ↔
      ∃ (i : Fin 14) (e : List Byte), written ps i.val = some e ∧ (e.getD 0 0).toNat = 63 := by
    rw [holdsBroadcast_iff]
    simp only [entryOctet, BitVec.toNat_eq]
    exact Iff.rfl
  have refuses : (holdsBroadcast ps ||
      rosterClashes s.ownAddress (loadedTable clampRoster s.tables.roster ps)) = true ↔ refused := by
    rw [Bool.or_eq_true, broadcast, rosterClashes_iff]
    simp only [loaded]
    exact Iff.rfl
  refine ⟨fun bad => ?_, fun good => ?_⟩
  · have done := completes_of_load (table := .roster) (t := t) (tag := tag) takes load
    have applied : Table.roster.apply ps (s.advance t) = (.plain .badArgument, s.advance t) :=
      if_pos (refuses.2 bad)
    rw [applied] at done
    exact ⟨_, ⟨done, rfl, rfl, rfl, rfl, rfl, rfl⟩, sameBlocks_of_eq rfl, rfl, rfl, rfl⟩
  · let roster := loadedTable clampRoster s.tables.roster ps
    let moved : Fin 14 → Bool := fun i => s.tables.roster[i] != roster[i]
    let v := (s.advance t).setTables { s.tables with roster := roster }
    have moved_iff (i : Fin 14) : moved i = true ↔ changed i := by
      show (s.tables.roster[i] != roster[i]) = true ↔ new i ≠ s.role i
      rw [bne_iff_ne, loaded, ne_comm]
      exact Iff.rfl
    have applied : Table.roster.apply ps (s.advance t) =
        (.clamped (loadedClamps clampRoster ps), rosterConsequences moved v) := if_neg (mt refuses.1 good)
    have answers := answers_of_load (tag := tag) takes load applied
      ((Quiet.refl v).then_rosterConsequences moved)
    have forgotten := rosterConsequences_forgets moved v
    have role (i : Fin 14) : v.role i = new i := loaded i
    clear_value moved
    generalize rosterConsequences moved v = u at *
    have keeps {α : Type} (i : Fin 14) (x y : α) (same : ¬ changed i) : (if moved i = true then x else y) = y :=
      if_neg (mt (moved_iff i).1 same)
    have takesNew {α : Type} (i : Fin 14) (x y : α) (other : changed i) :
        (if moved i = true then x else y) = x := if_pos ((moved_iff i).2 other)
    refine ⟨_, _, answers, loadedClamps_roster ps, fun i => ?_, ?_, forgotten.grader,
      fun e => ⟨?_, fun other => ?_, fun same => ?_⟩,
      fun other k => ⟨?_, ?_⟩, fun same k => ⟨?_, ?_⟩, fun n other => ?_, fun n same => ?_,
      fun n other => ⟨?_, ?_⟩, fun n same => ?_⟩
    · exact (congrArg (fun x : Tables => x.roster[i]) forgotten.tables).trans (role i)
    · show u.tables = { s.tables with roster := u.tables.roster }
      rw [forgotten.tables]
      rfl
    · show (u.tracker.head e).latest = _
      rw [forgotten.encoder]
      rfl
    · show (u.tracker.head e).fresh = false
      rw [forgotten.encoder, (moved_iff _).2 other]
      exact Bool.and_false _
    · have stays : moved (encoderRole e) = false := by simpa using mt (moved_iff _).1 same
      show u.tracker.head e = _
      rw [forgotten.encoder, stays, EncoderHead.dropped_false]
      rfl
    · exact (forgotten.door k).trans (takesNew _ _ _ other)
    · exact (forgotten.report k).trans (takesNew _ _ _ other)
    · exact (forgotten.door k).trans (keeps _ _ _ same)
    · exact (forgotten.report k).trans (keeps _ _ _ same)
    · exact (forgotten.head n).trans (takesNew _ _ _ other)
    · exact (forgotten.head n).trans (keeps _ _ _ same)
    · have gone := (forgotten.drive n).trans (takesNew _ _ _ other)
      exact (congrArg Drive.fresh gone).trans (Drive.forgotten_fresh _)
    · have gone := (forgotten.drive n).trans (takesNew _ _ _ other)
      exact (congrArg Drive.lastReport gone).trans (Drive.forgotten_lastReport _)
    · exact (forgotten.drive n).trans (keeps _ _ _ same)

end Sys2Proof.Machine
end

