-- ==== Sys2Proof/Proofs/Occupants.lean ====
section

/-!
# Coordinates, occupants and order keys

The platforms stand one pitch of 8,192 mm apart on a rim of 48 pitches (R31), and a zone in its ranges is
shorter than a pitch (R55). So a zone holds at most one cabin, and the distances of the cabins to one point
differ by whole pitches (R32, R85).
-/

namespace Sys2Proof.Machine

/-! ### Coordinates -/

theorem coordinate_eq (p : Nat) (k : Cabin) : (coordinate p k : Int) = ((p : Int) - 8192 * k.val) % 393216 := by
  simp only [coordinate, Config.pitch, Config.circumference]
  omega

/-- Cabins less than a pitch apart are one cabin (R31). -/
theorem cabin_eq_of_near {p : Nat} {k j : Cabin} (near : coordinate p k < coordinate p j + 8192)
    (near' : coordinate p j < coordinate p k + 8192) : k = j := by
  have := coordinate_eq p k
  have := coordinate_eq p j
  have := k.isLt
  have := j.isLt
  apply Fin.ext
  omega

theorem ZoneEntry.holds_iff (z : ZoneEntry) (c : Nat) : z.holds c = true ↔ z.start ≤ c ∧ c < z.finish := by
  simp [ZoneEntry.holds]

/-- A zone in its ranges is shorter than a pitch, so it holds at most one cabin (R32, R55). -/
theorem cabin_eq_of_holds {z : ZoneEntry} {p : Nat} {k j : Cabin} (range : z.inRange)
    (hk : z.holds (coordinate p k) = true) (hj : z.holds (coordinate p j) = true) : k = j := by
  rw [ZoneEntry.holds_iff] at hk hj
  obtain ⟨-, -, short, -⟩ := range
  exact cabin_eq_of_near (p := p) (by omega) (by omega)

/-! ### Occupancy records -/

/-- The cabin of a zone's occupancy record is in the zone (R32). -/
theorem holds_of_occupantAt {p : Nat} {z : ZoneEntry} {k : Cabin} (h : occupantAt p z = some k) :
    z.holds (coordinate p k) = true :=
  List.find?_some (p := fun j => z.holds (coordinate p j)) h

theorem occupantAt_isSome {p : Nat} {z : ZoneEntry} {k : Cabin} (h : z.holds (coordinate p k) = true) :
    (occupantAt p z).isSome = true :=
  List.find?_isSome.2 ⟨k, List.mem_finRange k, h⟩

theorem occupantAt_iff {p : Nat} {z : ZoneEntry} (range : z.inRange) (k : Cabin) :
    occupantAt p z = some k ↔ z.holds (coordinate p k) = true := by
  refine ⟨holds_of_occupantAt, fun here => ?_⟩
  obtain ⟨j, hj⟩ := Option.isSome_iff_exists.1 (occupantAt_isSome here)
  rw [hj, cabin_eq_of_holds range (holds_of_occupantAt hj) here]

theorem occupancyAt_of_some {p : Nat} {z : ZoneEntry} {k : Cabin} (h : occupantAt p z = some k) :
    occupancyAt p z = { occupant := some k, past := z.pastCutoff (coordinate p k) } := by
  rw [occupancyAt, h]

theorem occupancyAt_of_none {p : Nat} {z : ZoneEntry} (h : occupantAt p z = none) :
    occupancyAt p z = emptyOccupancy := by
  rw [occupancyAt, h]

@[simp] theorem occupancyAt_occupant (p : Nat) (z : ZoneEntry) :
    (occupancyAt p z).occupant = occupantAt p z := by
  cases h : occupantAt p z with
  | none => rw [occupancyAt_of_none h]; rfl
  | some k => rw [occupancyAt_of_some h]

/-- The past-cutoff field is that of the occupant (R32). -/
theorem occupancyAt_past_iff (p : Nat) (z : ZoneEntry) :
    (occupancyAt p z).past = true ↔
      ∃ k : Cabin, occupantAt p z = some k ∧ z.finish - z.cutoff ≤ coordinate p k := by
  cases h : occupantAt p z with
  | none => simp [occupancyAt_of_none h, emptyOccupancy]
  | some k => simp [occupancyAt_of_some h, ZoneEntry.pastCutoff]

/-! ### Order keys -/

theorem forwardDistance_eq (c x : Nat) : (forwardDistance c x : Int) = ((x : Int) - c) % 393216 := by
  simp only [forwardDistance, Config.circumference]
  omega

/-- The order key is the distance to the UNLOAD end, brought between 1 and a full revolution (R85). -/
theorem orderKey_spec (p finish : Nat) (k : Cabin) :
    0 < orderKey p finish k ∧ orderKey p finish k ≤ 393216 ∧
      ((orderKey p finish k : Int) - ((finish : Int) - coordinate p k)) % 393216 = 0 := by
  have distance := forwardDistance_eq (coordinate p k) finish
  dsimp only [orderKey, Config.circumference]
  split <;> omega

/-- Different cabins have different order keys, a whole number of pitches apart (R85). -/
theorem orderKey_inj {p finish : Nat} {k j : Cabin} (same : orderKey p finish k = orderKey p finish j) :
    k = j := by
  obtain ⟨-, -, hk⟩ := orderKey_spec p finish k
  obtain ⟨-, -, hj⟩ := orderKey_spec p finish j
  have := coordinate_eq p k
  have := coordinate_eq p j
  exact cabin_eq_of_near (p := p) (by omega) (by omega)

/-- The cabin in the zone is the next at its end: every other is at least a pitch behind (R85). -/
theorem orderKey_lt {p : Nat} {z : ZoneEntry} {k j : Cabin} (range : z.inRange) (other : k ≠ j)
    (here : z.holds (coordinate p k) = true) : orderKey p z.finish k < orderKey p z.finish j := by
  rw [ZoneEntry.holds_iff] at here
  obtain ⟨-, -, short, -⟩ := range
  obtain ⟨-, highK, hk⟩ := orderKey_spec p z.finish k
  obtain ⟨low, -, hj⟩ := orderKey_spec p z.finish j
  have := coordinate_eq p k
  have := coordinate_eq p j
  by_contra later
  exact other (cabin_eq_of_near (p := p) (by omega) (by omega))

/-- Settles O14: occupants by the pitch between the platforms, order keys by their residues. -/
theorem occupantsAndOrderKeysFollowTheCoordinate : Obligations.OccupantsAndOrderKeysFollowTheCoordinate := by
  refine ⟨fun z p range _ => ⟨coordinate_eq p, fun k j fromK toK fromJ toJ => ?_, fun k => ?_, ?_⟩,
    fun p finish _ _ => ⟨orderKey_spec p finish, fun k j => orderKey_inj, ?_⟩⟩
  · exact cabin_eq_of_holds range ((z.holds_iff _).2 ⟨fromK, toK⟩) ((z.holds_iff _).2 ⟨fromJ, toJ⟩)
  · rw [occupancyAt_occupant, occupantAt_iff range, ZoneEntry.holds_iff]
  · simp only [occupancyAt_occupant, occupancyAt_past_iff]
  · rintro z k j range rfl other fromK toK
    exact orderKey_lt range other ((z.holds_iff _).2 ⟨fromK, toK⟩)

end Sys2Proof.Machine
end

