-- ==== Sys2Proof/Proofs/StoppingSpeed.lean ====
section

/-!
# The stopping speed and the emergency test

The digit recursion of `integerRoot` is the greatest root (R153), and the emergency test is the first trip among
the records in raise order, or the ceiling (R154).
-/

namespace Sys2Proof.Machine

/-! ### The integer root -/

/-- One more base-4 digit doubles the root and may add one. -/
theorem rootDigits_spec (fuel n : Nat) (enough : n < 4 ^ fuel) :
    rootDigits fuel n ^ 2 ≤ n ∧ n < (rootDigits fuel n + 1) ^ 2 := by
  induction fuel generalizing n with
  | zero => simp [rootDigits] at enough ⊢; omega
  | succ fuel ih =>
    obtain ⟨low, high⟩ := ih (n / 4) (by rw [pow_succ] at enough; omega)
    have below : 4 * rootDigits fuel (n / 4) ^ 2 ≤ n := by omega
    have above : n < 4 * (rootDigits fuel (n / 4) + 1) ^ 2 := by omega
    dsimp only [rootDigits]
    split
    · next fits => exact ⟨by nlinarith only [fits], by nlinarith only [above]⟩
    · next exceeds => exact ⟨by nlinarith only [below], by nlinarith only [exceeds]⟩

theorem integerRoot_spec (n : Nat) : integerRoot n ^ 2 ≤ n ∧ n < (integerRoot n + 1) ^ 2 := by
  refine rootDigits_spec _ n ?_
  calc
    n < 2 ^ (n.log2 + 1) := Nat.lt_log2_self
    _ ≤ 2 ^ (2 * (n.log2 / 2 + 1)) := Nat.pow_le_pow_right (by decide) (by omega)
    _ = 4 ^ (n.log2 / 2 + 1) := by rw [pow_mul]; norm_num

theorem stoppingSpeed_of_passed (a : Nat) {d : Int} (passed : d ≤ 0) : stoppingSpeed a d = 0 :=
  if_neg (by omega)

theorem stoppingSpeed_of_ahead (a : Nat) {d : Int} (ahead : 0 < d) :
    (stoppingSpeed a d : Int) ^ 2 ≤ 512 * a * d ∧ 512 * a * d < ((stoppingSpeed a d : Int) + 1) ^ 2 := by
  obtain ⟨n, rfl⟩ := Int.eq_ofNat_of_zero_le ahead.le
  have root : stoppingSpeed a n = integerRoot (512 * a * n) := if_pos ahead
  rw [root]
  exact_mod_cast integerRoot_spec (512 * a * n)

/-! ### The emergency test -/

/-- The records that trip the test of R154: of a BRAKE_POINT kind, at the line with V_old above 0, or not to be
stopped before it even with one step of deceleration. -/
def State.Trips (s : State) (r : HoldRecord) : Prop :=
  ∃ z k p, (r.what = .zoneOverrun z k ∨ (r.what = .cabinOverload k ∧ z = .load)) ∧
    s.tracker.accepted.value = some p ∧
    let e := signedDistance (coordinate p k) (s.zone z).finish
    (e ≤ 0 ∧ 0 < s.rot.vCmd) ∨ (0 < e ∧ stoppingSpeed (s.p 2) e + 16 * s.p 2 / 10 < s.rot.vCmd)

variable {s : State} {r : HoldRecord}

/-- The zone and cabin of a BRAKE_POINT record are its own, or LOAD for CABIN_OVERLOAD (R75). -/
theorem brakePoint_iff (h : Hold) (z : Zone) (k : Cabin) :
    h.brakePoint = some (z, k) ↔ h = .zoneOverrun z k ∨ (h = .cabinOverload k ∧ z = .load) := by
  cases h <;> simp [Hold.brakePoint, and_comm, eq_comm]

theorem outruns_iff (s : State) (bound : Nat) :
    s.outruns bound = true ↔ bound + 16 * s.p 2 / 10 < s.rot.vCmd :=
  decide_eq_true_iff

theorem tripsOn_iff (s : State) (r : HoldRecord) : s.tripsOn r = true ↔ s.Trips r := by
  unfold State.Trips
  simp only [← brakePoint_iff]
  unfold State.tripsOn State.brakeDistances
  cases r.what.brakePoint with
  | none => simp
  | some zk =>
    obtain ⟨z, k⟩ := zk
    cases s.tracker.accepted.value with
    | none => simp
    | some p =>
      generalize distance : signedDistance (coordinate p k) (s.zone z).finish = e
      by_cases atLine : e ≤ 0
      · simp [distance, atLine]
      · simp [distance, atLine, outruns_iff, Int.not_le.1 atLine]

/-- A record that trips is of a BRAKE_POINT kind, so it has a cause (R150). -/
theorem brakeCause_ne_none (trips : s.Trips r) : r.what.brakeCause ≠ none := by
  obtain ⟨z, k, p, kind, -⟩ := trips
  rcases kind with e | ⟨e, -⟩ <;> simp [e, Hold.brakeCause]

theorem emergencyCause_of_trip {pre post : List HoldRecord} (moving : s.rot.wheel.moving = true)
    (records : s.holds.records = pre ++ r :: post) (trips : s.Trips r) (first : ∀ x ∈ pre, ¬ s.Trips x) :
    s.emergencyCause = r.what.brakeCause := by
  have found : s.holds.records.find? s.tripsOn = some r := by
    rw [records, List.find?_append, List.find?_eq_none.2 fun x mem => by rw [tripsOn_iff]; exact first x mem]
    simp [(tripsOn_iff s r).2 trips]
  rw [State.emergencyCause, if_pos moving, found]

theorem emergencyCause_of_no_trip (moving : s.rot.wheel.moving = true)
    (none : ∀ x ∈ s.holds.records, ¬ s.Trips x) :
    s.emergencyCause = if s.outruns s.ceiling = true then some .ceiling else .none := by
  have absent : s.holds.records.find? s.tripsOn = .none :=
    List.find?_eq_none.2 fun x mem => by rw [tripsOn_iff]; exact none x mem
  rw [State.emergencyCause, if_pos moving, absent]

/-- Settles O43: the distance by its residue, the speed by the integer root, the test by its first trip. -/
theorem stoppingSpeedAndTheEmergencyTest : Obligations.StoppingSpeedAndTheEmergencyTest := by
  refine ⟨fun c x => ?_, fun a d => ⟨stoppingSpeed_of_passed a, stoppingSpeed_of_ahead a⟩,
    fun s => ⟨fun rest => ?_, fun moving => ⟨fun pre r post records trips first => ?_, fun none => ?_⟩⟩⟩
  · have distance : signedDistance c x = (x - c + 196608) % 393216 - 196608 := rfl
    rw [distance]
    omega
  · rw [State.emergencyCause, rest]
    rfl
  · have cause := emergencyCause_of_trip moving records trips first
    exact ⟨cause, cause ▸ brakeCause_ne_none trips⟩
  · rw [emergencyCause_of_no_trip moving none]
    exact if_congr (outruns_iff s _) rfl rfl

end Sys2Proof.Machine
end

