-- ==== Sys2Proof/Proofs/ZoneMoves.lean ====
section

/-!
# From one membership to another

The exits and entries between two memberships act on each cabin's own record alone: on the way out its location is
NONE and its cycle IDLE, on the way in it has the zone and perhaps an uncommanded opening (R33, R44 to R46). So
the cabin records after a re-formation of the position are a function of the records before it, and a cabin's
location stays the zone it occupies.
-/

namespace Sys2Proof.Machine

variable {s : State}

/-! ### What the operations leave -/

theorem notify_tables (n : Notice) (s : State) : (notify n s).tables = s.tables := by simp
theorem notify_tracker (n : Notice) (s : State) : (notify n s).tracker = s.tracker := by simp
theorem notify_permits (n : Notice) (s : State) : (notify n s).permits = s.permits := by simp
theorem notify_service (n : Notice) (s : State) : (notify n s).service = s.service := by simp
theorem notify_holds (n : Notice) (s : State) : (notify n s).holds = s.holds := by simp

theorem notify_cabin (n : Notice) (s : State) (k : Cabin) : (notify n s).cabin k = s.cabin k :=
  State.cabin_congr (by simp) k

theorem notify_drive (n : Notice) (s : State) (m : Fin 4) : (notify n s).drive m = s.drive m :=
  State.drive_congr (by simp) m

theorem sequencerExit_holds (moved : Bool) (k : Cabin) (s : State) : (sequencerExit moved k s).holds = s.holds := by
  simp

theorem cabinExit_permits (k : Cabin) (s : State) : (cabinExit k s).permits = s.permits := by simp

theorem deliverExit_tracker (moved : Bool) (old new : ByZone Occupancy) (z : Zone) (s : State) :
    (deliverExit moved old new z s).tracker = s.tracker := by simp

theorem deliverMoves_tracker (moved : Bool) (old new : ByZone Occupancy) (s : State) :
    (deliverMoves moved old new s).tracker = s.tracker := by simp

theorem deliverCrossing_cabin (old new : ByZone Occupancy) (z : Zone) (s : State) (k : Cabin) :
    (deliverCrossing old new z s).cabin k = s.cabin k :=
  State.cabin_congr (by simp) k

theorem deliverCrossings_cabin (old new : ByZone Occupancy) (s : State) (k : Cabin) :
    (deliverCrossings old new s).cabin k = s.cabin k :=
  State.cabin_congr (by simp) k

theorem deliverCrossings_permits (old new : ByZone Occupancy) (s : State) :
    (deliverCrossings old new s).permits = s.permits := by simp

theorem deliverCrossings_service (old new : ByZone Occupancy) (s : State) :
    (deliverCrossings old new s).service = s.service := by simp

theorem recompute_tables (moved : Bool) (s : State) : (recompute moved s).tables = s.tables := by simp
theorem reform_tables (s : State) : (reform s).tables = s.tables := by simp

/-! ### One record -/

/-- A cabin record after a zone exit (R44, R45). -/
def CabinRecord.left (c : CabinRecord) : CabinRecord :=
  { c with location := none, cycle := .idle
           releaseTime := if c.cycle = .idle then c.releaseTime else none }

/-- A cabin record after an entry to a zone (R44, R46). -/
def CabinRecord.entered (z : Zone) (c : CabinRecord) : CabinRecord :=
  if c.cycle = .idle ∧ c.door.notLocked = true then
    { c with location := some z, cycle := .cycling, releaseTime := none }
  else { c with location := some z }

/-- A cabin is a zone's occupant in one membership and not in another: it leaves the zone from the first to the
second, and enters it from the second to the first (R33). -/
abbrev InOnly (a b : ByZone Occupancy) (z : Zone) (k : Cabin) : Prop :=
  (a.get z).occupant = some k ∧ (b.get z).occupant ≠ some k

/-- A cabin's record after the exits from one membership to another (R33, step 1). -/
def CabinRecord.afterExits (c : CabinRecord) (old new : ByZone Occupancy) (k : Cabin) : CabinRecord :=
  if InOnly old new .unload k ∨ InOnly old new .load k then c.left else c

/-- A cabin's record after the entry to one zone, where its occupant changed (R33, step 2). -/
def CabinRecord.afterEntry (c : CabinRecord) (old new : ByZone Occupancy) (z : Zone) (k : Cabin) : CabinRecord :=
  if InOnly new old z k then c.entered z else c

/-- A cabin's record after the exits and entries from one membership to another (R33). -/
def CabinRecord.moved (c : CabinRecord) (old new : ByZone Occupancy) (k : Cabin) : CabinRecord :=
  ((c.afterExits old new k).afterEntry old new .unload k).afterEntry old new .load k

@[simp] theorem CabinRecord.left_location (c : CabinRecord) : c.left.location = none := rfl
@[simp] theorem CabinRecord.left_cycle (c : CabinRecord) : c.left.cycle = .idle := rfl
@[simp] theorem CabinRecord.left_door (c : CabinRecord) : c.left.door = c.door := rfl
@[simp] theorem CabinRecord.left_left (c : CabinRecord) : c.left.left = c.left := rfl

@[simp] theorem CabinRecord.entered_location (z : Zone) (c : CabinRecord) :
    (c.entered z).location = some z := by
  unfold CabinRecord.entered; split <;> rfl

@[simp] theorem CabinRecord.entered_door (z : Zone) (c : CabinRecord) : (c.entered z).door = c.door := by
  unfold CabinRecord.entered; split <;> rfl

/-! ### One exit, one entry -/

theorem cabinExit_cabin (k : Cabin) (s : State) (j : Cabin) :
    (cabinExit k s).cabin j = if k = j then (s.cabin j).left else s.cabin j := by
  have judged (v : State) : (judgeExitBreach k v).cabin j = v.cabin j :=
    State.cabin_congr (judgeExitBreach_frame v k).2.2.2.2.1 j
  have tested (v : State) : (gateCycleChange k v).cabin j = v.cabin j :=
    State.cabin_congr (gateCycleChange_frame v k).2.2.2.2.1 j
  dsimp only [cabinExit]
  rw [judged]
  by_cases here : k = j
  · subst here
    split
    · next idle => simp [CabinRecord.left, idle]
    · next busy => simp [tested, endCycle, CabinRecord.left, busy]
  · split
    · simp [here]
    · simp [tested, endCycle, here]

theorem zoneExit_cabin (moved : Bool) (z : Zone) (k : Cabin) (s : State) (j : Cabin) :
    (zoneExit moved z k s).cabin j = if k = j then (s.cabin j).left else s.cabin j := by
  have cleared : (clearPermitAt z k (cabinExit k s)).cabin j = (cabinExit k s).cabin j := rfl
  have exited (v : State) : (sequencerExit moved k v).cabin j = v.cabin j :=
    State.cabin_congr (sequencerExit_frame v moved k).2.2.2.2.1 j
  rw [← cabinExit_cabin, ← cleared]
  dsimp only [zoneExit]
  split
  · exact exited _
  · rfl

theorem uncommandedOpening_cabin (k : Cabin) (s : State) (j : Cabin) :
    (uncommandedOpening k s).cabin j =
      if k = j then { s.cabin j with cycle := .cycling, releaseTime := none } else s.cabin j := by
  have cabins : (uncommandedOpening k s).cabins =
      (s.setCabin k { s.cabin k with cycle := .cycling, releaseTime := none }).cabins := by
    simp [uncommandedOpening]
  rw [State.cabin_congr cabins, State.setCabin_cabin]
  split
  · next here => rw [here]
  · rfl

theorem zoneEntry_cabin (z : Zone) (k : Cabin) (s : State) (j : Cabin) :
    (zoneEntry z k s).cabin j = if k = j then (s.cabin j).entered z else s.cabin j := by
  dsimp only [zoneEntry]
  rw [State.setCabin_cabin, if_pos rfl]
  by_cases here : k = j
  · subst here
    split
    · next opens =>
      have opens : (s.cabin k).cycle = .idle ∧ (s.cabin k).door.notLocked = true := opens
      simp [uncommandedOpening_cabin, CabinRecord.entered, opens]
    · next still =>
      have still : ¬ ((s.cabin k).cycle = .idle ∧ (s.cabin k).door.notLocked = true) := still
      simp [CabinRecord.entered, still]
  · split
    · simp [uncommandedOpening_cabin, here]
    · simp [here]

/-! ### All exits and entries -/

theorem deliverExit_cabin (moved : Bool) (old new : ByZone Occupancy) (z : Zone) (s : State) (k : Cabin) :
    (deliverExit moved old new z s).cabin k = if InOnly old new z k then (s.cabin k).left else s.cabin k := by
  unfold deliverExit InOnly
  split
  · next j occupied =>
    split
    · next stays =>
      rw [if_neg]
      rintro ⟨here, leaves⟩
      exact leaves (by rw [stays, ← occupied, here])
    · next leaves =>
      rw [zoneExit_cabin, occupied]
      refine if_congr ⟨?_, fun ⟨here, _⟩ => Option.some.inj here⟩ rfl rfl
      rintro rfl
      exact ⟨rfl, leaves⟩
  · next empty => simp [empty]

theorem deliverEntry_cabin (old new : ByZone Occupancy) (z : Zone) (s : State) (k : Cabin) :
    (deliverEntry old new z s).cabin k = (s.cabin k).afterEntry old new z k := by
  unfold deliverEntry CabinRecord.afterEntry InOnly
  split
  · next j occupied =>
    split
    · next stays =>
      rw [if_neg]
      rintro ⟨here, enters⟩
      exact enters (by rw [stays, ← occupied, here])
    · next enters =>
      rw [zoneEntry_cabin, occupied]
      refine if_congr ⟨?_, fun ⟨here, _⟩ => Option.some.inj here⟩ rfl rfl
      rintro rfl
      exact ⟨rfl, enters⟩
  · next empty => simp [empty]

/-- The exits and entries in their order, UNLOAD first. -/
theorem deliverMoves_eq (moved : Bool) (old new : ByZone Occupancy) (s : State) :
    deliverMoves moved old new s =
      deliverEntry old new .load (deliverEntry old new .unload
        (deliverExit moved old new .load (deliverExit moved old new .unload s))) := rfl

theorem deliverExits_cabin (moved : Bool) (old new : ByZone Occupancy) (s : State) (k : Cabin) :
    (deliverExit moved old new .load (deliverExit moved old new .unload s)).cabin k =
      (s.cabin k).afterExits old new k := by
  rw [deliverExit_cabin, deliverExit_cabin, CabinRecord.afterExits]
  by_cases load : InOnly old new .load k
  · rw [if_pos load, if_pos (Or.inr load)]
    split <;> rfl
  · rw [if_neg load]
    exact if_congr (or_iff_left load).symm rfl rfl

/-- Each cabin's record moves by itself. -/
theorem deliverMoves_cabin (moved : Bool) (old new : ByZone Occupancy) (s : State) (k : Cabin) :
    (deliverMoves moved old new s).cabin k = (s.cabin k).moved old new k := by
  rw [deliverMoves_eq, deliverEntry_cabin, deliverEntry_cabin, deliverExits_cabin, CabinRecord.moved]

/-! ### Locations -/

/-- A cabin's location is the zone it occupies in a membership (R44). -/
def CabinRecord.LocatedIn (c : CabinRecord) (m : ByZone Occupancy) (k : Cabin) : Prop :=
  ∀ z, c.location = some z ↔ (m.get z).occupant = some k

/-- No cabin occupies both zones of a membership. -/
def ZonesApart (m : ByZone Occupancy) : Prop := ∀ k, ¬ (m.unload.occupant = some k ∧ m.load.occupant = some k)

theorem locatedIn_iff (c : CabinRecord) (m : ByZone Occupancy) (k : Cabin) :
    c.LocatedIn m k ↔ (c.location = some .unload ↔ m.unload.occupant = some k) ∧
      (c.location = some .load ↔ m.load.occupant = some k) :=
  ⟨fun h => ⟨h .unload, h .load⟩, fun ⟨unload, load⟩ z => by
    cases z
    · exact unload
    · exact load⟩

theorem CabinRecord.afterEntry_location (c : CabinRecord) (old new : ByZone Occupancy) (z : Zone) (k : Cabin) :
    (c.afterEntry old new z k).location = if InOnly new old z k then some z else c.location := by
  unfold afterEntry
  split
  · exact c.entered_location z
  · rfl

/-- Locations follow the moves (R44). -/
theorem CabinRecord.LocatedIn.moved {c : CabinRecord} {old new : ByZone Occupancy} {k : Cabin}
    (h : c.LocatedIn old k) (apart : ZonesApart new) : (c.moved old new k).LocatedIn new k := by
  obtain ⟨unload, load⟩ := (locatedIn_iff _ _ _).1 h
  have one := apart k
  rw [locatedIn_iff, CabinRecord.moved, afterEntry_location, afterEntry_location, afterExits]
  simp only [InOnly, ByZone.get]
  by_cases u : old.unload.occupant = some k <;> by_cases l : old.load.occupant = some k <;>
    by_cases u' : new.unload.occupant = some k <;> by_cases l' : new.load.occupant = some k <;>
    simp_all

/-- A cabin whose zones are the same keeps its record. -/
theorem CabinRecord.moved_of_same {c : CabinRecord} {old new : ByZone Occupancy} {k : Cabin}
    (same : ∀ z, (old.get z).occupant = some k ↔ (new.get z).occupant = some k) : c.moved old new k = c := by
  have unload := same .unload
  have load := same .load
  simp [moved, afterExits, afterEntry, InOnly, unload, load]

end Sys2Proof.Machine
end

