-- ==== Sys2Proof/Proofs/ReformedPosition.lean ====
section

/-!
# The position re-formed

Whichever of its four cases it takes, a re-formation stores the accepted position as the heads and the latch form
it, brings the occupancy records to that position, and moves the cabin records from the old membership to the new
one (R29, R32 to R36, R44).
-/

namespace Sys2Proof.Machine

variable {s : State}

/-! ### Memberships -/

theorem membership_invalid (zones : ByZone ZoneEntry) : membership zones .invalid = emptyZones := rfl

theorem membership_of_value {zones : ByZone ZoneEntry} {a : Accepted} {p : Nat} (h : a.value = some p) (z : Zone) :
    (membership zones a).get z = occupancyAt p (zones.get z) := by
  rw [membership, h]
  cases z <;> rfl

theorem Accepted.eq_invalid_of_not_valid {a : Accepted} (h : a.valid = false) : a = .invalid := by
  cases a with
  | invalid => rfl
  | _ => cases h

theorem Accepted.valid_of_ne_invalid {a : Accepted} (h : a ≠ .invalid) : a.valid = true := by
  cases a with
  | invalid => exact absurd rfl h
  | _ => rfl

theorem Accepted.ne_invalid_of_valid {a : Accepted} (h : a.valid = true) : a ≠ .invalid := by
  rintro rfl
  cases h

/-- With the UNLOAD end not past the LOAD start, no cabin is in both zones (R56). -/
theorem membership_apart {zones : ByZone ZoneEntry} (apart : zones.unload.finish ≤ zones.load.start)
    (a : Accepted) : ZonesApart (membership zones a) := by
  rintro k ⟨unload, load⟩
  cases value : a.value with
  | none => simp [membership, value, emptyZones, emptyOccupancy] at unload
  | some p =>
    have atUnload : (membership zones a).unload = occupancyAt p zones.unload := membership_of_value value .unload
    have atLoad : (membership zones a).load = occupancyAt p zones.load := membership_of_value value .load
    rw [atUnload, occupancyAt_occupant] at unload
    rw [atLoad, occupancyAt_occupant] at load
    obtain ⟨-, high⟩ := (ZoneEntry.holds_iff _ _).1 (holds_of_occupantAt unload)
    obtain ⟨low, -⟩ := (ZoneEntry.holds_iff _ _).1 (holds_of_occupantAt load)
    exact absurd (Nat.lt_of_lt_of_le high (apart.trans low)) (Nat.lt_irrefl _)

/-! ### Membership recomputed -/

/-- Delivering the moves and crossings leaves the tracker, and the moves the cabin records as `moved` says. -/
theorem deliveries_tracker (moved : Bool) (old new : ByZone Occupancy) (s : State) :
    (deliverCrossings old new (deliverMoves moved old new s)).tracker = s.tracker := by
  simp

theorem recompute_tracker (moved : Bool) (s : State) :
    (recompute moved s).tracker =
      { s.tracker with occ := membership s.tables.zones s.tracker.accepted } := by
  dsimp only [recompute]
  rw [deliveries_tracker]
  rfl

theorem recompute_cabin (moved : Bool) (s : State) (k : Cabin) :
    (recompute moved s).cabin k =
      (s.cabin k).moved s.tracker.occ (membership s.tables.zones s.tracker.accepted) k := by
  dsimp only [recompute]
  rw [deliverCrossings_cabin, deliverMoves_cabin]
  rfl

/-! ### Lost and returned -/

theorem positionLost_tracker (s : State) : (positionLost s).tracker = { s.tracker with occ := emptyZones } := by
  dsimp only [positionLost]
  rw [notify_tracker, deliverMoves_tracker]
  rfl

theorem positionLost_cabin (s : State) (k : Cabin) :
    (positionLost s).cabin k = (s.cabin k).moved s.tracker.occ emptyZones k := by
  dsimp only [positionLost]
  rw [notify_cabin, deliverMoves_cabin]
  rfl

theorem positionReturns_tracker (a : Accepted) (s : State) :
    (positionReturns a s).tracker = { s.tracker with occ := membership s.tables.zones a } := by
  simp [positionReturns, putOcc]

theorem positionReturns_cabin (a : Accepted) (s : State) (k : Cabin) :
    (positionReturns a s).cabin k = (s.cabin k).moved emptyZones (membership s.tables.zones a) k := by
  have cabins : (positionReturns a s).cabins =
      (deliverMoves false emptyZones (membership s.tables.zones a)
        (putOcc (membership s.tables.zones a) s)).cabins := by
    simp [positionReturns]
  rw [State.cabin_congr cabins, deliverMoves_cabin]
  rfl

theorem positionMoves_tracker (old new : Accepted) (s : State) :
    (positionMoves old new s).tracker =
      { s.tracker with occ := membership s.tables.zones s.tracker.accepted } := by
  unfold positionMoves
  rw [recompute_tracker]
  split <;> simp

theorem positionMoves_cabin (old new : Accepted) (s : State) (k : Cabin) :
    (positionMoves old new s).cabin k =
      (s.cabin k).moved s.tracker.occ (membership s.tables.zones s.tracker.accepted) k := by
  unfold positionMoves
  rw [recompute_cabin]
  split
  · rfl
  · rw [notify_cabin, notify_tracker, notify_tables]

/-! ### The re-formation -/

/-- The occupancy records are those of the accepted position, and each cabin's location is the zone it occupies
(R32, R44). -/
structure Placed (s : State) : Prop where
  occ : s.tracker.occ = membership s.tables.zones s.tracker.accepted
  located : ∀ k, (s.cabin k).LocatedIn s.tracker.occ k

/-- The occupancy records that a re-formation leaves: none were kept while the position was, and stays, invalid. -/
def State.reformedOcc (s : State) : ByZone Occupancy :=
  if s.tracker.accepted.valid || s.tracker.formed.valid then membership s.tables.zones s.tracker.formed
  else s.tracker.occ

/-- A re-formation stores the position as formed, with its occupancy records, and leaves the head records, the
count and the latch (R29). -/
theorem reform_tracker (s : State) :
    (reform s).tracker = { s.tracker with accepted := s.tracker.formed, occ := s.reformedOcc } := by
  unfold reform State.reformedOcc
  dsimp only
  split
  · next valid formed =>
    rw [positionMoves_tracker, formed]
    simp [putAccepted]
  · next valid lost =>
    rw [positionLost_tracker, valid, Accepted.eq_invalid_of_not_valid lost]
    rfl
  · next invalid formed =>
    rw [positionReturns_tracker, formed]
    simp [putAccepted]
  · next invalid still =>
    rw [invalid, still]
    rfl

theorem reform_cabin_of_valid (valid : s.tracker.accepted.valid = true) (k : Cabin) :
    (reform s).cabin k =
      (s.cabin k).moved s.tracker.occ (membership s.tables.zones s.tracker.formed) k := by
  unfold reform
  dsimp only
  rw [valid]
  cases formed : s.tracker.formed.valid with
  | true => exact positionMoves_cabin _ _ _ k
  | false =>
    rw [Accepted.eq_invalid_of_not_valid formed]
    exact positionLost_cabin _ k

theorem reform_cabin_of_invalid (invalid : s.tracker.accepted.valid = false) (k : Cabin) :
    (reform s).cabin k = (s.cabin k).moved emptyZones (membership s.tables.zones s.tracker.formed) k := by
  unfold reform
  dsimp only
  rw [invalid]
  cases formed : s.tracker.formed.valid with
  | true => exact positionReturns_cabin _ _ k
  | false =>
    rw [Accepted.eq_invalid_of_not_valid formed, membership_invalid,
      CabinRecord.moved_of_same fun _ => Iff.rfl]
    rfl

namespace Placed

/-- While the position is invalid both zones are empty. -/
theorem occ_of_invalid (h : Placed s) (invalid : s.tracker.accepted.valid = false) :
    s.tracker.occ = emptyZones := by
  rw [h.occ, Accepted.eq_invalid_of_not_valid invalid, membership_invalid]

theorem reformedOcc (h : Placed s) : s.reformedOcc = membership s.tables.zones s.tracker.formed := by
  unfold State.reformedOcc
  split
  · rfl
  · next invalid =>
    obtain ⟨old, new⟩ : s.tracker.accepted.valid = false ∧ s.tracker.formed.valid = false := by
      simpa using invalid
    rw [h.occ_of_invalid old, Accepted.eq_invalid_of_not_valid new, membership_invalid]

/-- A re-formation moves each cabin from the old membership to the new one (R33, R35, R36). -/
theorem reform_cabin (h : Placed s) (k : Cabin) :
    (reform s).cabin k =
      (s.cabin k).moved s.tracker.occ (membership s.tables.zones s.tracker.formed) k := by
  cases valid : s.tracker.accepted.valid with
  | true => exact reform_cabin_of_valid valid k
  | false => rw [reform_cabin_of_invalid valid, h.occ_of_invalid valid]

/-- A re-formation keeps occupancy records and locations at the accepted position. -/
theorem reform (h : Placed s) (apart : s.tables.zones.unload.finish ≤ s.tables.zones.load.start) :
    Placed (reform s) := by
  have tables : (Machine.reform s).tables = s.tables := reform_tables s
  have tracker := reform_tracker s
  rw [h.reformedOcc] at tracker
  refine ⟨?_, fun k => ?_⟩
  · rw [tracker, tables]
  · rw [h.reform_cabin, tracker]
    exact (h.located k).moved (membership_apart apart _)

/-- New boundaries move the occupancy records and locations (R37). -/
theorem recompute (located : ∀ k, (s.cabin k).LocatedIn s.tracker.occ k)
    (apart : s.tables.zones.unload.finish ≤ s.tables.zones.load.start) (moved : Bool) :
    Placed (recompute moved s) := by
  have tables : (Machine.recompute moved s).tables = s.tables := recompute_tables moved s
  refine ⟨?_, fun k => ?_⟩
  · rw [recompute_tracker, tables]
  · rw [recompute_cabin, recompute_tracker]
    exact (located k).moved (membership_apart apart _)

end Placed

end Sys2Proof.Machine
end

