-- ==== Sys2Proof/Proofs/TrackLaw.lean ====
section

/-!
# The tracker's law

Only a POSITION report, a lapse or drop of encoder heads, a ZONES load and the two resets touch the tracker; each
ends with the position re-formed or the zones moved. Every other effect leaves the zones' entries, the tracker and
the cabins' locations as they are.
-/

namespace Sys2Proof.Machine

variable {s s₀ : State}

/-! ### Effects that leave every place -/

/-- The zones' entries, the tracker and the cabins' locations are the same. -/
structure SamePlaces (s u : State) : Prop where
  zones : u.tables.zones = s.tables.zones
  tracker : u.tracker = s.tracker
  location : ∀ k, (u.cabin k).location = (s.cabin k).location

namespace SamePlaces

theorem refl (s : State) : SamePlaces s s := ⟨rfl, rfl, fun _ => rfl⟩

theorem aside {u : State} (h : SamePlaces s₀ s) (same : u.tables.zones = s.tables.zones ∧
    u.tracker = s.tracker ∧ u.cabins = s.cabins) : SamePlaces s₀ u := by
  obtain ⟨zones, tracker, cabins⟩ := same
  exact ⟨zones.trans h.zones, tracker.trans h.tracker, fun k => by
    rw [State.cabin_congr cabins, h.location]⟩

theorem setTables {x : Tables} (zones : x.zones = s.tables.zones) : SamePlaces s (s.setTables x) :=
  ⟨zones, rfl, fun _ => rfl⟩

theorem then_setCabin (h : SamePlaces s₀ s) {k : Cabin} {c : CabinRecord}
    (location : c.location = (s.cabin k).location) : SamePlaces s₀ (s.setCabin k c) := by
  refine ⟨h.zones, h.tracker, fun j => ?_⟩
  rw [State.setCabin_cabin, ← h.location]
  split
  · next here => rw [location, here]
  · rfl

theorem then_forEach {α : Type} {f : α → State → State} (h : SamePlaces s₀ s)
    (step : ∀ x s, SamePlaces s₀ s → SamePlaces s₀ (f x s)) (xs : List α) :
    SamePlaces s₀ (s.forEach xs f) := by
  unfold State.forEach
  induction xs generalizing s with
  | nil => exact h
  | cons x xs ih => exact ih (step x s h)

theorem then_guarded {c : Prop} [Decidable c] {f : State → State} (h : SamePlaces s₀ s)
    (step : ∀ {u}, SamePlaces s₀ u → SamePlaces s₀ (f u)) : SamePlaces s₀ (if c then f s else s) := by
  split
  · exact step h
  · exact h

theorem then_endCycle (h : SamePlaces s₀ s) (k : Cabin) : SamePlaces s₀ (endCycle k s) := h.then_setCabin rfl

theorem then_advanceCycle (h : SamePlaces s₀ s) (k : Cabin) : SamePlaces s₀ (advanceCycle k s) := by
  unfold advanceCycle
  dsimp only
  split
  · split
    · have opened := h.then_setCabin (k := k)
        (c := { s.cabin k with cycle := .cycling, releaseTime := none }) rfl
      exact opened.aside (by simp [uncommandedOpening])
    · exact h
  · split
    · have cycling := h.then_setCabin (k := k) (c := { s.cabin k with cycle := .cycling }) rfl
      exact cycling.aside (by simp)
    · split
      · exact (h.then_endCycle k).aside (by simp)
      · exact h
  · split
    · exact h
    · exact (h.then_endCycle k).aside (by simp)

theorem then_judgeOverload (h : SamePlaces s₀ s) (k : Cabin) : SamePlaces s₀ (judgeOverload k s) := by
  have marked (b : Bool) : SamePlaces s₀ (s.setCabin k { s.cabin k with overloaded := b }) :=
    h.then_setCabin rfl
  unfold judgeOverload
  dsimp only
  split
  · split
    · exact (marked false).aside (by simp)
    · exact h
  · split
    · exact (marked true).aside (by simp)
    · exact h

theorem then_cabinReport (h : SamePlaces s₀ s) (k : Cabin) (d : Door) (n : Nat) :
    SamePlaces s₀ (cabinReport k d n s) := by
  have recorded : SamePlaces s₀ (recordReport k d n s) := h.then_setCabin rfl
  exact ((recorded.then_judgeOverload k).then_advanceCycle k).aside (by simp [cabinReport])

theorem then_doorStale (h : SamePlaces s₀ s) (k : Cabin) : SamePlaces s₀ (doorStale k s) := by
  have unknown := h.then_setCabin (k := k) (c := { s.cabin k with door := .unknown }) rfl
  exact unknown.aside (by simp [doorStale])

theorem then_staleEvent (h : SamePlaces s₀ s) (k : Cabin) : SamePlaces s₀ (staleEvent k s) :=
  h.then_guarded fun h => h.then_doorStale k

theorem then_forgetDoor (h : SamePlaces s₀ s) (k : Cabin) : SamePlaces s₀ (forgetDoor k s) := by
  have forgotten := h.then_setCabin (k := k) (c := { s.cabin k with lastReport := none }) rfl
  unfold forgetDoor
  dsimp only
  split
  · exact forgotten
  · exact forgotten.then_doorStale k

theorem then_doorCommand (h : SamePlaces s₀ s) (f : Frame) : SamePlaces s₀ (doorCommand f s) := by
  have unlocked (dst src cabin : Byte) : SamePlaces s₀ (decideUnlock dst src cabin s) := by
    unfold decideUnlock
    split
    · next k z _ =>
      have started : SamePlaces s₀ (startCycle k (spendPermit z k s)) :=
        (h.aside (u := spendPermit z k s) (by simp)).then_setCabin rfl
      have copied : SamePlaces s₀ (forwardDoor .unlock dst cabin actionUnlock (startCycle k (spendPermit z k s))) :=
        started.aside (by simp [forwardDoor])
      exact copied.then_guarded fun h => h.aside (by simp)
    · exact h.aside (by simp [deny])
  have locked (dst src cabin : Byte) : SamePlaces s₀ (decideLock dst src cabin s) := by
    unfold decideLock
    split
    · exact h.aside (by simp [forwardDoor])
    · exact h.aside (by simp [deny])
  unfold doorCommand
  split
  · split
    · exact unlocked _ _ _
    · split
      · exact locked _ _ _
      · exact h
  · exact h

theorem then_plainRequest {decide : State → Reply × State} (h : SamePlaces s₀ s)
    (step : SamePlaces s₀ (decide s).2) (src : Byte) (args : List Byte) :
    SamePlaces s₀ (plainRequest decide src args s).2 := by
  unfold plainRequest
  split
  · exact step
  · exact h

theorem then_ackHold (h : SamePlaces s₀ s) (src : Byte) (args : List Byte) :
    SamePlaces s₀ (ackHold src args s).2 := by
  have cleared (key : HoldKey) : SamePlaces s₀ (ackClear key s) := by
    unfold ackClear
    split <;> exact h.aside (by simp)
  unfold ackHold ackRecord
  split
  · split
    · split
      · exact h
      · split
        · exact cleared _
        · exact h.aside (by simp [answer])
        · exact h
    · exact h
  · exact h

theorem then_stow (h : SamePlaces s₀ s) (src : Byte) (args : List Byte) :
    SamePlaces s₀ (stow src args s).2 := by
  have stowed : SamePlaces s₀ (sequencerStow (changeWheel .stowed s)) :=
    (h.aside (by simp)).then_guarded fun h => h.aside (by simp)
  refine h.then_plainRequest ?_ src args
  split
  · split
    · exact stowed
    · exact stowed
    · exact h
    · exact h
  · exact h

theorem then_openService (h : SamePlaces s₀ s) (src : Byte) (args : List Byte) :
    SamePlaces s₀ (openService src args s).2 := by
  refine h.then_plainRequest ?_ src args
  split
  · exact h
  split
  · exact h
  split
  · exact h
  · dsimp only [openMode, answer]
    split
    · exact h.aside (by simp)
    · exact h.aside (by simp)

theorem then_armZone (h : SamePlaces s₀ s) (src : Byte) (args : List Byte) :
    SamePlaces s₀ (armZone src args s).2 := by
  have armed (z : Zone) (k : Cabin) : SamePlaces s₀ (armFor z k s).2 := by
    unfold armFor
    split
    · exact h.aside (by simp [answer])
    · exact h
    · exact h
  have named (z : Zone) : SamePlaces s₀ (armNamed z src s).2 := by
    unfold armNamed
    split
    · exact h
    split
    · exact h
    split
    · exact h
    split
    · exact h
    · exact armed z _
  unfold armZone
  split
  · split
    · exact named _
    · exact h
  · exact h

end SamePlaces

/-- The requests that may touch the tracker: the loads and RESTART. Every other leaves the places. -/
theorem owner_places {kind : Byte} {o : Owner} (found : ownerOf kind = some o) (src : Byte) (args : List Byte)
    (s : State) : o = loadRequest ∨ o = restart ∨ SamePlaces s (o src args s).2 := by
  have h := SamePlaces.refl s
  have mem := ownerOf_mem found
  simp only [requestTable, List.mem_cons, Prod.mk.injEq, List.not_mem_nil, or_false] at mem
  rcases mem with ⟨-, rfl⟩ | ⟨-, rfl⟩ | ⟨-, rfl⟩ | ⟨-, rfl⟩ | ⟨-, rfl⟩ | ⟨-, rfl⟩ | ⟨-, rfl⟩ |
    ⟨-, rfl⟩ | ⟨-, rfl⟩ | ⟨-, rfl⟩ | ⟨-, rfl⟩ | ⟨-, rfl⟩ | ⟨-, rfl⟩ | ⟨-, rfl⟩ | ⟨-, rfl⟩ |
    ⟨-, rfl⟩ | ⟨-, rfl⟩ | ⟨-, rfl⟩ | ⟨-, rfl⟩ | ⟨-, rfl⟩ | ⟨-, rfl⟩
  · refine .inr (.inr ?_)
    unfold readStatus
    split
    · exact h.then_guarded fun h => h.aside (by simp [clearOverflow])
    · exact h
  · rw [readTableRequest, readTable_state]; exact .inr (.inr h)
  · exact .inl rfl
  · refine .inr (.inr ?_)
    unfold setLocks
    split
    · split
      · exact h
      · exact h.aside (by simp [answer])
    · exact h
  · exact .inr (.inl rfl)
  · rw [readHolds_state]; exact .inr (.inr h)
  · exact .inr (.inr (h.then_plainRequest (h.aside (by simp [answer])) src args))
  · exact .inr (.inr (h.then_ackHold src args))
  · rw [readCabins_state]; exact .inr (.inr h)
  · rw [readWind_state]; exact .inr (.inr h)
  · refine .inr (.inr (h.then_plainRequest ?_ src args))
    split
    · exact h.aside (by simp [answer])
    · exact h
  · exact .inr (.inr (h.then_stow src args))
  · refine .inr (.inr (h.then_plainRequest ?_ src args))
    split
    · split
      · exact h
      · exact h.aside (by simp [answer, setTurning])
    · exact h
  · refine .inr (.inr (h.then_plainRequest ?_ src args))
    split <;> exact h.aside (by simp [answer])
  · refine .inr (.inr (h.then_plainRequest ?_ src args))
    split
    · split
      · exact h.aside (by simp [answer, setTurning])
      · exact h
    · exact h
  · refine .inr (.inr (h.then_plainRequest ?_ src args))
    split
    · split
      · exact h
      · exact h.aside (by simp [answer])
    · exact h
  · refine .inr (.inr ?_)
    unfold setTrim
    split
    · exact h.aside (by simp [putTrim])
    · exact h
  · exact .inr (.inr (h.then_openService src args))
  · refine .inr (.inr (h.then_plainRequest ?_ src args))
    split <;> exact h.aside (by simp [answer])
  · refine .inr (.inr (h.then_plainRequest ?_ src args))
    split <;> exact h.aside (by simp [answer])
  · exact .inr (.inr (h.then_armZone src args))

/-! ### The heads and the latch -/

/-- Fresh heads have a position on the rim, and the latch stands with a count of 3 (R25 to R28). -/
structure Tracker.Sound (tr : Tracker) : Prop where
  fresh : ∀ e, (tr.head e).fresh = true → ∃ p, (tr.head e).latest = some p ∧ p < 393216
  latch : tr.disagreements ≤ 3 ∧ (tr.latch = true ↔ tr.disagreements = 3)

/-- The tracker after the comparison, where both heads are fresh (R28). -/
def Tracker.afterComparison (tr : Tracker) (tolerance : Nat) : Tracker :=
  match tr.bothFresh, tr.headA.latest, tr.headB.latest with
  | true, some a, some b => tr.compared (circularDifference a b) tolerance
  | _, _, _ => tr

theorem compareHeads_tracker (s : State) : (compareHeads s).tracker = s.tracker.afterComparison (s.p 14) := by
  unfold compareHeads Tracker.afterComparison
  cases s.tracker.bothFresh <;> cases s.tracker.headA.latest <;> cases s.tracker.headB.latest
  case true.some.some => dsimp only; split <;> simp
  all_goals rfl

/-- A comparison touches the count and the latch alone. -/
theorem Tracker.afterComparison_eq (tr : Tracker) (tolerance : Nat) :
    tr.afterComparison tolerance =
      { tr with disagreements := (tr.afterComparison tolerance).disagreements
                latch := (tr.afterComparison tolerance).latch } := by
  unfold afterComparison
  split
  · unfold compared
    split <;> rfl
  · rfl

theorem Tracker.Sound.afterComparison {tr : Tracker} (h : tr.Sound) (tolerance : Nat) :
    (tr.afterComparison tolerance).Sound := by
  refine ⟨fun e => ?_, ?_⟩
  · have same : (tr.afterComparison tolerance).head e = tr.head e := by
      rw [tr.afterComparison_eq tolerance]
      cases e <;> rfl
    rw [same]
    exact h.fresh e
  · obtain ⟨count, latched⟩ := h.latch
    unfold Tracker.afterComparison
    split
    · unfold Tracker.compared
      dsimp only
      split
      · simp
      · refine ⟨Nat.min_le_left _ _, ?_⟩
        dsimp only
        rw [Bool.or_eq_true, beq_iff_eq, latched]
        omega
    · exact ⟨count, latched⟩

theorem Tracker.setHead_head (tr : Tracker) (e d : EncoderId) (h : EncoderHead) :
    (tr.setHead e h).head d = if e = d then h else tr.head d := by
  cases e <;> cases d <;> rfl

theorem Tracker.Sound.report {tr : Tracker} (h : tr.Sound) (e : EncoderId) {p : Nat} (range : p < 393216)
    (now : Nat) (health : Health) : (tr.setHead e ((tr.head e).report p now health)).Sound := by
  refine ⟨fun d => ?_, by cases e <;> exact h.latch⟩
  rw [Tracker.setHead_head]
  split
  · cases health with
    | ok => exact fun _ => ⟨p, rfl, range⟩
    | degraded => exact nofun
  · exact h.fresh d

/-! ### The law -/

theorem trackLaw_iff (s : State) :
    TrackLaw s ↔ s.tracker.Sound ∧ s.tracker.accepted = s.tracker.formed ∧ Placed s := by
  constructor
  · rintro ⟨fresh, latch, formed, occ, located⟩
    exact ⟨⟨fresh, latch⟩, formed, occ, fun k z => located z k⟩
  · rintro ⟨⟨fresh, latch⟩, formed, occ, located⟩
    exact ⟨fresh, latch, formed, occ, fun z k => located k z⟩

/-- The zones in their ranges, and the tracker's law. -/
abbrev Tracked (s : State) : Prop := ZonesLaw s ∧ TrackLaw s

theorem SamePlaces.tracked {u : State} (same : SamePlaces s u) (h : Tracked s) : Tracked u := by
  obtain ⟨zones, fresh, latch, formed, occ, located⟩ := h
  refine ⟨?_, ?_⟩
  · unfold ZonesLaw
    rw [same.zones]
    exact zones
  · unfold TrackLaw State.occ
    rw [same.tracker, same.zones]
    refine ⟨fresh, latch, formed, occ, fun z k => ?_⟩
    rw [same.location]
    exact located z k

/-- What a re-formation needs of the state to end in the law: sound heads, and occupancy records and locations at
the position as it was accepted before. -/
structure Reformable (s : State) : Prop where
  zones : ZonesLaw s
  sound : s.tracker.Sound
  placed : Placed s

theorem Tracked.reformable (h : Tracked s) : Reformable s := by
  obtain ⟨sound, -, placed⟩ := (trackLaw_iff s).1 h.2
  exact ⟨h.1, sound, placed⟩

/-- Heads, count and latch may change before a re-formation. -/
theorem Reformable.then_setTracker (h : Reformable s) {tr : Tracker} (sound : tr.Sound)
    (accepted : tr.accepted = s.tracker.accepted) (occ : tr.occ = s.tracker.occ) :
    Reformable (s.setTracker tr) := by
  refine ⟨h.zones, sound, ⟨?_, fun k => ?_⟩⟩
  · show tr.occ = membership s.tables.zones tr.accepted
    rw [occ, accepted, h.placed.occ]
  · show (s.cabin k).LocatedIn tr.occ k
    rw [occ]
    exact h.placed.located k

theorem Reformable.aside {u : State} (h : Reformable s)
    (same : u.tables = s.tables ∧ u.tracker = s.tracker ∧ u.cabins = s.cabins) : Reformable u := by
  obtain ⟨tables, tracker, cabins⟩ := same
  refine ⟨?_, tracker ▸ h.sound, ⟨?_, fun k => ?_⟩⟩
  · unfold ZonesLaw
    rw [tables]
    exact h.zones
  · rw [tracker, tables, h.placed.occ]
  · rw [tracker, State.cabin_congr cabins]
    exact h.placed.located k

theorem Reformable.reform (h : Reformable s) : Tracked (reform s) := by
  have tables : (Machine.reform s).tables = s.tables := reform_tables s
  refine ⟨?_, (trackLaw_iff _).2 ⟨?_, ?_, h.placed.reform h.zones.2.2⟩⟩
  · unfold ZonesLaw
    rw [tables]
    exact h.zones
  · rw [reform_tracker]
    exact ⟨fun e => by cases e; exacts [h.sound.fresh .a, h.sound.fresh .b], h.sound.latch⟩
  · rw [reform_tracker]
    rfl

theorem Reformable.reformAfter (h : Reformable s) (was : Bool) : Tracked (reformAfter was s) := by
  unfold Machine.reformAfter
  dsimp only
  split
  · exact ((SamePlaces.refl _).aside (by simp)).tracked h.reform
  · exact h.reform

theorem Reformable.compareHeads (h : Reformable s) : Reformable (compareHeads s) := by
  obtain ⟨-, -, tables, cabins, -⟩ := compareHeads_frame s
  have compared := h.then_setTracker (h.sound.afterComparison (s.p 14))
    (by rw [s.tracker.afterComparison_eq]) (by rw [s.tracker.afterComparison_eq])
  exact compared.aside ⟨tables, compareHeads_tracker s, cabins⟩

/-! ### The effects that touch the tracker -/

theorem Tracked.encoderReport (h : Tracked s) (e : EncoderId) (p : Nat) (health : Health) :
    Tracked (encoderReport e p health s) := by
  unfold Machine.encoderReport
  split
  · next range =>
    have reported := h.reformable.then_setTracker
      (h.reformable.sound.report e range s.lines.now health) (by cases e <;> rfl) (by cases e <;> rfl)
    exact reported.compareHeads.reformAfter _
  · exact h

theorem Tracked.dropHeads (h : Tracked s) (a b : Bool) : Tracked (dropHeads a b s) := by
  unfold Machine.dropHeads
  dsimp only
  split
  · refine (h.reformable.then_setTracker (tr := s.tracker.dropped a b) ⟨fun e fresh => ?_, ?_⟩ rfl
      rfl).reformAfter true
    · cases e
      · exact h.reformable.sound.fresh .a (Bool.and_eq_true_iff.1 fresh).1
      · exact h.reformable.sound.fresh .b (Bool.and_eq_true_iff.1 fresh).1
    · exact h.reformable.sound.latch
  · exact h

theorem Tracked.encoderLapse (h : Tracked s) (e : EncoderId) : Tracked (encoderLapse e s) := by
  unfold Machine.encoderLapse
  split
  · exact h.dropHeads _ _
  · exact h

/-- A ZONES load moves the occupancy records and locations; with the position invalid both zones stay empty. -/
theorem Tracked.zonesChanged {zones : ByZone ZoneEntry} (h : Tracked s)
    (range : ZonesLaw (s.setTables { s.tables with zones := zones })) :
    Tracked (zonesChanged (s.setTables { s.tables with zones := zones })) := by
  obtain ⟨sound, formed, placed⟩ := (trackLaw_iff s).1 h.2
  unfold Machine.zonesChanged
  split
  · next valid =>
    have moved := Placed.recompute (s := s.setTables { s.tables with zones := zones }) placed.located range.2.2
      false
    have tables : (recompute false (s.setTables { s.tables with zones := zones })).tables =
        { s.tables with zones := zones } := recompute_tables _ _
    refine ⟨?_, (trackLaw_iff _).2 ⟨?_, ?_, moved⟩⟩
    · unfold ZonesLaw
      rw [tables]
      exact range
    · rw [recompute_tracker]
      exact ⟨fun e => by cases e; exacts [sound.fresh .a, sound.fresh .b], sound.latch⟩
    · rw [recompute_tracker]
      exact formed
  · next invalid =>
    refine ⟨range, (trackLaw_iff _).2 ⟨sound, formed, ⟨?_, placed.located⟩⟩⟩
    have invalid : s.tracker.accepted.valid = false := by
      simpa [State.positionValid] using invalid
    show s.tracker.occ = membership zones s.tracker.accepted
    rw [placed.occ_of_invalid invalid, Accepted.eq_invalid_of_not_valid invalid, membership_invalid]

/-- RESTART empties the zones and forgets every location (R38, R54). -/
theorem tracked_restarted (zones : ZonesLaw s) : Tracked s.restarted := by
  have cabin (k : Cabin) : s.restarted.cabin k = resetCabin := Vector.getElem_replicate _
  refine ⟨zones, (trackLaw_iff _).2 ⟨⟨fun e => ?_, ?_⟩, rfl, ⟨rfl, fun k z => ?_⟩⟩⟩
  · cases e <;> exact nofun
  · simp [State.restarted, resetTracker]
  · rw [cabin]
    cases z <;> simp [State.restarted, resetTracker, resetCabin, emptyZones, emptyOccupancy, ByZone.get]

theorem tracked_powerOn (strap : BitVec 4) (underWay : Bool) (key : KeyLevel) (pending : List Instr) :
    Tracked (State.powerOn strap underWay key pending) :=
  SamePlaces.tracked (s := (State.powerOn strap underWay key pending).restarted) ⟨rfl, rfl, fun _ => rfl⟩
    (tracked_restarted (tableLaw_powerOn strap underWay key pending).2.1)

/-! ### Loads and requests -/

theorem Tracked.guarded {c : Prop} [Decidable c] {f : State → State} (h : Tracked s)
    (step : ∀ {u}, Tracked u → Tracked (f u)) : Tracked (if c then f s else s) := by
  split
  · exact step h
  · exact h

theorem Tracked.applyRoster (h : Tracked s) (ps : Entries) : Tracked (applyRoster ps s).2 := by
  unfold Machine.applyRoster
  dsimp only
  split
  · exact h
  · have loaded : Tracked (s.setTables { s.tables with roster := loadedTable clampRoster s.tables.roster ps }) :=
      SamePlaces.tracked (.setTables rfl) h
    generalize s.setTables { s.tables with roster := loadedTable clampRoster s.tables.roster ps } = v at loaded ⊢
    generalize (fun i : Fin 14 => s.tables.roster[i] != (loadedTable clampRoster s.tables.roster ps)[i]) = changed
    rw [rosterConsequences_eq]
    have dropped := loaded.dropHeads (changed roleEncoderA) (changed roleEncoderB)
    have doors := (SamePlaces.refl (Machine.dropHeads (changed roleEncoderA) (changed roleEncoderB) v)).then_guarded
      (c := changed roleConcentrator = true) (f := forgetDoors)
      (fun h => h.then_forEach (fun k _ h => h.then_forgetDoor k) _)
    have heads := doors.then_forEach (f := dropHeadIf changed)
      (fun _ _ h => h.then_guarded fun h => h.aside (by simp)) allFour
    exact (heads.then_forEach (f := forgetDriveIf changed)
      (fun _ _ h => h.then_guarded fun h => h.aside (by simp)) allFour).tracked dropped

theorem Tracked.applyCabins (h : Tracked s) (ps : Entries) : Tracked (applyCabins ps s).2 := by
  have loaded : Tracked (s.setTables { s.tables with cabins := loadedTable clampCabin s.tables.cabins ps }) :=
    SamePlaces.tracked (.setTables rfl) h
  exact ((SamePlaces.refl _).then_forEach (fun _ _ h => h.then_guarded fun h => h.aside (by simp))
    allCabins).tracked loaded

theorem Tracked.applyZones (h : Tracked s) (ps : Entries) : Tracked (applyZones ps s).2 := by
  unfold Machine.applyZones
  dsimp only
  split
  · exact h
  · next apart =>
    exact h.zonesChanged ⟨loadedZone_inRange ps h.1.1, loadedZone_inRange ps h.1.2.1, Nat.le_of_not_lt apart⟩

theorem Tracked.applyParameters (h : Tracked s) (ps : Entries) : Tracked (applyParameters ps s).2 := by
  unfold Machine.applyParameters
  dsimp only
  have loaded : Tracked (s.setTables { s.tables with params := loadedTable clampParam s.tables.params ps }) :=
    SamePlaces.tracked (.setTables rfl) h
  generalize s.setTables { s.tables with params := loadedTable clampParam s.tables.params ps } = v at loaded ⊢
  have encoders {u : State} (h : Tracked u) : Tracked (encodersLowered u) := h.dropHeads _ _
  have doors {u : State} (h : Tracked u) : Tracked (stalenessLowered u) :=
    ((SamePlaces.refl u).then_forEach (fun k _ h => h.then_staleEvent k) _).tracked h
  have drives {u : State} (h : Tracked u) : Tracked (drivesLowered u) :=
    ((SamePlaces.refl u).aside (by simp)).tracked h
  have heads {u : State} (h : Tracked u) : Tracked (headsLowered u) :=
    ((SamePlaces.refl u).aside (by simp)).tracked h
  exact (((loaded.guarded encoders).guarded doors).guarded drives).guarded heads

theorem Tracked.applyHeads (h : Tracked s) (ps : Entries) : Tracked (applyHeads ps s).2 := by
  have loaded : SamePlaces s (s.setTables { s.tables with heads := loadedTable clampHead s.tables.heads ps }) :=
    .setTables rfl
  have restarted := loaded.then_forEach (f := fun n s => if (written ps n.val).isSome then restartHead n s else s)
    (fun _ _ h => h.then_guarded fun h => h.aside (by simp)) allFour
  exact (restarted.aside (u := startSettling _) (by simp)).tracked h

theorem Tracked.apply (h : Tracked s) (t : Table) (ps : Entries) : Tracked (t.apply ps s).2 := by
  cases t
  case roster => exact h.applyRoster ps
  case cabins => exact h.applyCabins ps
  case zones => exact h.applyZones ps
  case parameters => exact h.applyParameters ps
  case heads => exact h.applyHeads ps
  case pass => exact SamePlaces.tracked (.setTables rfl) h
  case rules => exact SamePlaces.tracked (.aside (u := startSettling _) (.setTables rfl) (by simp)) h

theorem Tracked.loadTable (h : Tracked s) (args : List Byte) : Tracked (loadTable args s).2 := by
  have loaded (t : Table) (args : List Byte) : Tracked (loadOn t args s).2 := by
    unfold loadOn
    split
    · exact h
    split
    · exact h
    split
    · exact h
    split
    · exact h
    · exact h.apply t _
  unfold Machine.loadTable
  split
  · split
    · exact loaded _ _
    · exact h
  · exact h

theorem Tracked.restart (h : Tracked s) (src : Byte) (args : List Byte) : Tracked (restart src args s).2 := by
  unfold Machine.restart plainRequest
  split
  · dsimp only
    split
    · exact ((SamePlaces.refl s.restarted).aside (by simp [answer])).tracked (tracked_restarted h.1)
    · exact h
  · exact h

theorem Tracked.judgeRequest (h : Tracked s) (src kind : Byte) (args : List Byte) :
    Tracked (judgeRequest (ownerOf kind) src kind args s).2 := by
  have asked : Tracked (match ownerOf kind with
      | some o => o src args s
      | none => answer .badKind s).2 := by
    cases found : ownerOf kind with
    | none => exact h
    | some o =>
      rcases owner_places found src args s with rfl | rfl | same
      · exact h.loadTable args
      · exact h.restart src args
      · exact same.tracked h
  unfold Machine.judgeRequest
  split
  · exact asked
  split
  · exact asked
  · exact h

/-! ### Every effect -/

theorem Tracked.observe (h : Tracked s) (f : Frame) : Tracked (observe f s) := by
  have position (src : Byte) (p : Nat) (health : Health) : Tracked (observePosition src p health s) := by
    unfold observePosition
    split
    · exact h.encoderReport _ _ _
    split
    · exact h.encoderReport _ _ _
    · exact h
  have same := SamePlaces.refl s
  have drive (src : Byte) (ready : Bool) (fault : Byte) (speed : Nat) :
      Tracked (observeDrive src ready fault speed s) := by
    unfold observeDrive
    split
    · exact (same.aside (by simp)).tracked h
    · exact h
  have wind (src : Byte) (speed direction : Nat) (health : Health) :
      Tracked (observeWind src speed direction health s) := by
    unfold observeWind
    split
    · exact (same.aside (by simp)).tracked h
    · exact h
  have door (src cabin : Byte) (d : Door) (n : Nat) : Tracked (observeDoor src cabin d n s) := by
    unfold observeDoor
    split
    · split
      · exact (same.then_cabinReport _ d n).tracked h
      · exact h
    · exact h
  unfold Machine.observe
  split
  · split
    · exact position _ _ _
    split
    · exact drive _ _ _ _
    · exact h
  · split
    · exact wind _ _ _ _
    · exact h
  · split
    · exact door _ _ _ _
    · exact h
  · exact h

theorem Tracked.requestArrives (h : Tracked s) (f : Frame) : Tracked (requestArrives f s) := by
  unfold Machine.requestArrives
  split
  · next tag kind args _ =>
    unfold takeRequest
    split
    · exact ((SamePlaces.refl _).aside (by simp)).tracked (h.judgeRequest f.source kind args)
    · exact h
  · exact h

theorem Tracked.decideFrame (h : Tracked s) (f : Frame) : Tracked (decideFrame f s) := by
  have same := SamePlaces.refl s
  unfold Machine.decideFrame
  split
  · exact h
  split
  · exact (same.then_doorCommand f).tracked h
  split
  · exact (same.aside (by simp [takeAllStop])).tracked h
  split
  · exact h.requestArrives f
  · have observed := h.observe f
    rcases passOn_cases f (Machine.observe f s) with e | e <;> rw [e]
    · exact observed
    · exact ((SamePlaces.refl _).aside (by simp)).tracked observed

theorem Tracked.event {c : Instr} {t : Nat} {e : State → State} (event : Instr.event c = some (t, e))
    (h : Tracked s) : Tracked (e s) := by
  have same := SamePlaces.refl s
  cases c
  case encoderLapse => cases event; exact h.encoderLapse _
  case staleEvent => cases event; exact (same.then_staleEvent _).tracked h
  case frameSendEnd | rotationUpdate | windEvaluation | dwellExpiry | settlingEnd | headLapse | driveLapse =>
    cases event; exact (same.aside (by simp)).tracked h
  all_goals cases event

theorem tracked_invariant : StepInvariant Tracked Tracked where
  resetLow _ h := SamePlaces.tracked ⟨rfl, rfl, fun _ => rfl⟩ h
  release _ _ _ := tracked_powerOn _ _ _ _
  key _ _ h := SamePlaces.tracked ⟨rfl, rfl, fun _ => rfl⟩ h
  time _ _ _ h := SamePlaces.tracked ⟨rfl, rfl, fun _ => rfl⟩ h
  reception _ h := SamePlaces.tracked ⟨rfl, rfl, fun _ => rfl⟩ h
  frame f _ h := h.decideFrame f
  event _ _ _ _ event h := h.event event
  arbiter _ h := SamePlaces.tracked ⟨rfl, rfl, fun _ => rfl⟩ h

/-- Settles O56: an effect leaves every place, or ends with the position re-formed or the zones moved. -/
theorem stepsKeepTheTrackLaw : Obligations.StepsKeepTheTrackLaw :=
  tracked_invariant.kept fun _ _ h => SamePlaces.tracked ⟨rfl, rfl, fun _ => rfl⟩ h

end Sys2Proof.Machine
end

