-- ==== Sys2Proof/Proofs/IgnoredReports.lean ====
section

/-!
# Reports out of range

A report that its owner ignores is a frame that passes on and nothing more (R26, R41).
-/

namespace Sys2Proof.Machine

variable {s : State}

/-- A POSITION report that is heard is observed and passes on (R14, R16). -/
theorem completes_position {t : Nat} {dst src : Byte} {pos : BitVec 24} {health : Byte} (hears : s.hears src)
    (dest : destTaken dst) :
    Completes (.position t dst src pos health) s
      (passOn (positionFrame dst src pos health)
        (observePosition src pos.toNat (decodeHealth health) (s.advance t))) := by
  have wellFormed : (positionFrame dst src pos health).wellFormed = true :=
    (wellFormed_iff _).2 ⟨by simp [positionFrame, octets3], dest.1, dest.2, hears.2.1⟩
  have done := completes_of_row (c := .position t dst src pos health) rfl wellFormed hears.1 hears.2.2
  rwa [decideFrame_positionFrame] at done

/-- A DOOR_REPORT that is heard is observed and passes on (R14, R16). -/
theorem completes_doorReport {t : Nat} {dst src cabin door occupancy : Byte} (hears : s.hears src)
    (dest : destTaken dst) :
    Completes (.doorReport t dst src cabin door occupancy) s
      (passOn (doorReportFrame dst src cabin door occupancy)
        (observeDoor src cabin (decodeDoor door) occupancy.toNat (s.advance t))) := by
  have wellFormed : (doorReportFrame dst src cabin door occupancy).wellFormed = true :=
    (wellFormed_iff _).2 ⟨by simp [doorReportFrame], dest.1, dest.2, hears.2.1⟩
  have done := completes_of_row (c := .doorReport t dst src cabin door occupancy) rfl wellFormed hears.1
    hears.2.2
  rwa [decideFrame_doorReportFrame] at done

/-- A frame that passes on untouched by any block changes the forward buffer alone. -/
theorem passOn_alone {c : Instr} {t : Nat} {f : Frame} (done : Completes c s (passOn f (s.advance t))) :
    ∃ u, Completes c s u ∧ u.lines = s.linesAt t ∧ SameBlocks s u ∧ RoleFrameOnRing s u f ∧
      u.ring.notices = s.ring.notices := by
  have work : Quiet (s.advance t) (s.advance t) := .refl _
  obtain ⟨-, ring, lines⟩ := passOn_after work f
  refine ⟨_, done, lines, ?_, roleFrameOnRing_after work f, by rw [ring]; rfl⟩
  rcases passOn_cases f (s.advance t) with e | e <;> rw [e]
  · exact sameBlocks_of_eq rfl
  · rw [pushForward_eq]
    exact sameBlocks_of_eq rfl

theorem observePosition_of_beyond {p : Nat} (beyond : 393216 ≤ p) (src : Byte) (h : Health) (s : State) :
    observePosition src p h s = s := by
  have discarded (e : EncoderId) : encoderReport e p h s = s := if_neg (Nat.not_lt.2 beyond)
  rw [observePosition, discarded, discarded, ite_self, ite_self]

theorem observeDoor_of_no_cabin {cabin : Byte} (none : 48 ≤ cabin.toNat) (src : Byte) (d : Door) (n : Nat)
    (s : State) : observeDoor src cabin d n s = s := by
  have noCabin : decodeCabin cabin = .none := dif_neg (Nat.not_lt.2 none)
  rw [observeDoor, noCabin]
  exact ite_self _

/-- Settles O13: the tracker and the cabin records discard the report, and its frame passes on. -/
theorem reportsOutOfRangeChangeNothing : Obligations.ReportsOutOfRangeChangeNothing := by
  refine ⟨fun t dst src pos health s hears dest beyond => passOn_alone ?_,
    fun t dst src cabin door occupancy s hears dest none => passOn_alone ?_⟩
  · have done := completes_position (t := t) (pos := pos) (health := health) hears dest
    rwa [observePosition_of_beyond beyond] at done
  · have done := completes_doorReport (t := t) (cabin := cabin) (door := door) (occupancy := occupancy) hears dest
    rwa [observeDoor_of_no_cabin none] at done

end Sys2Proof.Machine
end

