-- ==== Sys2Proof/Proofs/ZoneLoads.lean ====
section

/-!
# ZONES loads

The stored entry of a written zone is its clamped one. With the position valid the tables' write is followed by a
recomputation of membership, which leaves all but the occupancy records of the tracker (R55, R56, R37).
-/

namespace Sys2Proof.Machine

variable {s : State}

/-! ### What moves between memberships leave -/

theorem CabinRecord.entered_reports (z : Zone) (c : CabinRecord) :
    (c.entered z).door = c.door ∧ (c.entered z).occupancy = c.occupancy ∧
      (c.entered z).lastReport = c.lastReport ∧ (c.entered z).overloaded = c.overloaded := by
  unfold entered
  split <;> exact ⟨rfl, rfl, rfl, rfl⟩

/-- A move leaves the door, the occupancy, the report time and the overloaded flag. -/
theorem CabinRecord.moved_reports (c : CabinRecord) (old new : ByZone Occupancy) (k : Cabin) :
    (c.moved old new k).door = c.door ∧ (c.moved old new k).occupancy = c.occupancy ∧
      (c.moved old new k).lastReport = c.lastReport ∧ (c.moved old new k).overloaded = c.overloaded := by
  have entry (c : CabinRecord) (z : Zone) : (c.afterEntry old new z k).door = c.door ∧
      (c.afterEntry old new z k).occupancy = c.occupancy ∧
      (c.afterEntry old new z k).lastReport = c.lastReport ∧
      (c.afterEntry old new z k).overloaded = c.overloaded := by
    unfold afterEntry
    split
    · exact c.entered_reports z
    · exact ⟨rfl, rfl, rfl, rfl⟩
  have exits : (c.afterExits old new k).door = c.door ∧ (c.afterExits old new k).occupancy = c.occupancy ∧
      (c.afterExits old new k).lastReport = c.lastReport ∧
      (c.afterExits old new k).overloaded = c.overloaded := by
    unfold afterExits
    split <;> exact ⟨rfl, rfl, rfl, rfl⟩
  simp only [moved, entry, exits, and_self]

/-- The blocks that the tracker's work may change (R33): its own, the cabin records, permits, sequencer, hold list
and wheel. -/
theorem untouched_of_frame {u : State} (h : u.pending = s.pending ∧ u.lines = s.lines ∧ u.tables = s.tables ∧
    u.heads = s.heads ∧ u.grader = s.grader ∧ u.drives = s.drives) :
    Untouched [.tracker, .cabins, .permits, .service, .holds, .rot] s u := by
  obtain ⟨pending, -, tables, heads, grader, drives⟩ := h
  refine ⟨pending, fun b other => ?_⟩
  cases b with
  | tables => exact tables
  | heads => exact heads
  | grader => exact grader
  | drives => exact drives
  | _ => simp at other

/-! ### Clamped entries -/

theorem entryNum_eq (e : List Byte) (i : Nat) :
    entryNum e i = 256 * (e.getD i 0).toNat + (e.getD (i + 1) 0).toNat := rfl

theorem clampZone_count (e : List Byte) :
    (clampZone e).2 =
      [decide ((clampZone e).1.start ≠ entryNum e 0), decide ((clampZone e).1.finish ≠ entryNum e 2),
        decide ((clampZone e).1.cutoff ≠ entryNum e 4), decide (1 < (e.getD 6 0).toNat),
        decide (1 < (e.getD 7 0).toNat)].count true := by
  have differs (a b : Nat) : decide (a ≠ b) = (a != b) := by rw [Bool.eq_iff_iff]; simp
  have sum (a b c d e : Nat) : a + (b + (c + (d + (e + 0)))) = a + b + c + d + e := by omega
  simp only [count_true_cons, List.count_nil, differs]
  rw [sum]
  rfl

theorem loadedZone_of_written {ps : Entries} {old : ByZone ZoneEntry} {z : Zone} {e : List Byte}
    (h : written ps (zoneIndex z) = some e) : loadedZone ps old z = clampZone e := by
  rw [loadedZone, h]

theorem loadedZone_of_unwritten {ps : Entries} {old : ByZone ZoneEntry} {z : Zone}
    (h : written ps (zoneIndex z) = none) : loadedZone ps old z = (old.get z, 0) := by
  rw [loadedZone, h]

/-! ### The load -/

theorem zonesChanged_cabin (s : State) (k : Cabin) :
    ((zonesChanged s).cabin k).door = (s.cabin k).door ∧
      ((zonesChanged s).cabin k).occupancy = (s.cabin k).occupancy := by
  unfold zonesChanged
  split
  · rw [recompute_cabin]
    obtain ⟨door, occupancy, -⟩ := (s.cabin k).moved_reports s.tracker.occ
      (membership s.tables.zones s.tracker.accepted) k
    exact ⟨door, occupancy⟩
  · exact ⟨rfl, rfl⟩

theorem zonesChanged_tracker (s : State) :
    (zonesChanged s).tracker = { s.tracker with occ := (zonesChanged s).tracker.occ } := by
  unfold zonesChanged
  split
  · rw [recompute_tracker]
  · rfl

theorem zonesChanged_occ {p : Nat} (valid : s.tracker.accepted.value = some p) (z : Zone) :
    (zonesChanged s).occ z = occupancyAt p (s.zone z) := by
  have positionValid : s.positionValid = true := by rw [State.positionValid, Accepted.valid, valid]; rfl
  rw [zonesChanged, if_pos positionValid, State.occ, recompute_tracker]
  exact membership_of_value valid z

theorem zonesChanged_of_invalid (invalid : s.tracker.accepted = .invalid) : zonesChanged s = s := by
  rw [zonesChanged, if_neg (by simp [State.positionValid, invalid, Accepted.valid, Accepted.value])]

/-- Settles O30: a load whose zones would overlap is turned away; another writes its clamped entries, and
membership follows while the position is valid. -/
theorem zoneLoadsMoveTheBoundaries : Obligations.ZoneLoadsMoveTheBoundaries := by
  intro t src tag start body s takes load ps index new clamps c
  have index_eq (z : Zone) : index z = zoneIndex z := by cases z <;> rfl
  have stored (z : Zone) : (loadedZone ps s.tables.zones z).1 = new z := by
    dsimp only [new]
    rw [index_eq]
    cases h : written ps (zoneIndex z) with
    | none => exact congrArg Prod.fst (loadedZone_of_unwritten h)
    | some e =>
      rw [loadedZone_of_written h]
      refine congrArg (ZoneEntry.mk _ _ _ _) ?_
      by_cases auto : e.getD 7 0 = 0x00
      · rw [if_pos auto]
        exact if_neg (by simpa [clampYes, entryOctet] using auto)
      · rw [if_neg auto]
        exact if_pos (by simpa [clampYes, entryOctet] using auto)
  have counted (z : Zone) : (loadedZone ps s.tables.zones z).2 = clamps z := by
    dsimp only [clamps]
    rw [index_eq]
    cases h : written ps (zoneIndex z) with
    | none => exact congrArg Prod.snd (loadedZone_of_unwritten h)
    | some e =>
      dsimp only
      rw [← stored, loadedZone_of_written h]
      exact clampZone_count e
  clear_value new clamps
  refine ⟨fun overlap => ?_, fun apart => ?_⟩
  · have done := completes_of_load (table := .zones) (t := t) (tag := tag) takes load
    have applied : Table.zones.apply ps (s.advance t) = (.plain .badArgument, s.advance t) :=
      if_pos (by
        show (loadedZone ps s.tables.zones .load).1.start < (loadedZone ps s.tables.zones .unload).1.finish
        rw [stored, stored]
        exact overlap)
    rw [applied] at done
    exact ⟨_, ⟨done, rfl, rfl, rfl, rfl, rfl, rfl⟩, sameBlocks_of_eq rfl, rfl, rfl, rfl⟩
  · let zones : ByZone ZoneEntry := { unload := new .unload, load := new .load }
    let v := (s.advance t).setTables { s.tables with zones := zones }
    have applied : Table.zones.apply ps (s.advance t) =
        (.clamped (clamps .unload + clamps .load), zonesChanged v) := by
      rw [← counted, ← counted]
      have taken : ¬ (loadedZone ps s.tables.zones .load).1.start <
          (loadedZone ps s.tables.zones .unload).1.finish := by
        rw [stored, stored]
        exact Nat.not_lt.2 apart
      refine (if_neg taken).trans ?_
      show _ = (_, zonesChanged ((s.advance t).setTables { s.tables with
        zones := { unload := new .unload, load := new .load } }))
      rw [← stored, ← stored]
      rfl
    have answers := answers_of_load (tag := tag) takes load applied ((Quiet.refl v).then_zonesChanged)
    have zone (z : Zone) : v.zone z = new z := by cases z <;> rfl
    have frame := zonesChanged_frame v
    have tables : (zonesChanged v).tables = v.tables := frame.2.2.1
    refine ⟨_, _, answers, rfl, fun z => ?_, ?_, ?_, zonesChanged_tracker v, fun invalid => ?_,
      fun p valid z => ?_, zonesChanged_cabin v⟩
    · show (zonesChanged v).tables.zones.get z = new z
      rw [tables]
      exact zone z
    · show (zonesChanged v).tables = { s.tables with zones := (zonesChanged v).tables.zones }
      rw [tables]
      rfl
    · exact (((setTables_untouched t _ s).trans (untouched_of_frame frame)).trans
        (pushResponse_untouched _ _ _ _ _)).mono (by simp)
    · rw [zonesChanged_of_invalid (s := v) invalid]
      exact ⟨((setTables_untouched t _ s).trans (pushResponse_untouched _ _ _ _ _)).mono (by simp), rfl⟩
    · rw [← zone]
      exact zonesChanged_occ (s := v) valid z

end Sys2Proof.Machine
end

