-- ==== Sys2Proof/Proofs/Expiries.lean ====
section

/-!
# Expiries and lapses

Each event of the time base looks at the moment first. Before its time it leaves the state as the time base found
it; at its time it has the effect of its owner's rule (R27, R42, R102, R118, R119, R161; log 14).
-/

namespace Sys2Proof.Machine

variable {s u : State}

/-! ### Events of the time base -/

theorem completes_of_event {c : Instr} {t : Nat} {e : State → State} (reset : s.lines.inReset = false)
    (event : Instr.event c = some (t, e)) : Completes c s (e (s.advance t)) :=
  completes_of_inStep reset (exec_event event s)

theorem onlyTime_of_event {c : Instr} {t : Nat} {e : State → State} (reset : s.lines.inReset = false)
    (event : Instr.event c = some (t, e)) (idle : e (s.advance t) = s.advance t) : OnlyTime c t s := by
  have done := completes_of_event reset event
  rw [idle] at done
  exact ⟨_, done, rfl, rfl, sameBlocks_of_eq rfl⟩

/-- Whether a time is older than a limit at a moment. -/
theorem olderThan_iff (s : State) (taken : Option Nat) (limit : Nat) :
    s.olderThan taken limit = true ↔ ∃ m, taken = some m ∧ limit < s.lines.now - m := by
  cases taken with
  | none => simp [State.olderThan]
  | some m => exact decide_eq_true_iff.trans ⟨fun old => ⟨m, rfl, old⟩, by rintro ⟨_, ⟨⟩, old⟩; exact old⟩

/-! ### Dwell and settling -/

/-- The grade in force takes a value, with its notice, before the other blocks take the change (R120). -/
def gradeTold (g : Grade) (s : State) : State :=
  notify (.gradeChanged g s.grader.computed) (s.setGrader { s.grader with inForce := g })

/-- A fall of the grade in force clears WIND_STOP where it was 4, and the sequencer takes it (R120, R83). -/
theorem changeGrade_of_fall {g : Grade} (fall : g ≠ 4) (s : State) :
    changeGrade g s = sequencerGrade g
      (if s.grader.inForce = 4 then clearHold .windStop (gradeTold g s) else gradeTold g s) := by
  simp only [changeGrade, gradeTold, fall, and_false, if_false, ne_eq, not_false_eq_true, and_true]
  rfl

theorem changeGrade_grader (g : Grade) (s : State) :
    (changeGrade g s).grader = { s.grader with inForce := g } := by
  have told : (gradeTold g s).grader = { s.grader with inForce := g } := by simp [gradeTold]
  rw [← told]
  unfold changeGrade
  dsimp only
  rw [(sequencerGrade_frame _ g).2.2.2.2.2.2.1]
  split
  · split
    · simp [gradeTold]
    · split <;> simp [gradeTold]
  · split
    · simp [gradeTold]
    · split <;> simp [gradeTold]

theorem changeGrade_untouched (g : Grade) (s : State) :
    Untouched [.service, .permits, .grader, .holds, .rot] s (changeGrade g s) := by
  obtain ⟨pending, -, tables, tracker, cabins, heads, drives⟩ := changeGrade_frame s g
  refine ⟨pending, fun b other => ?_⟩
  cases b with
  | tables => exact tables
  | tracker => exact tracker
  | cabins => exact cabins
  | heads => exact heads
  | drives => exact drives
  | _ => simp at other

theorem changeGrade_holds_of_fall {g : Grade} (fall : g ≠ 4) (s : State) :
    (changeGrade g s).holds = if s.grader.inForce = 4 then (clearHold .windStop (gradeTold g s)).holds
      else s.holds := by
  rw [changeGrade_of_fall fall, (sequencerGrade_frame _ g).2.2.2.2.2.2.2.1]
  split
  · rfl
  · simp [gradeTold]

/-- A fall that does not end an OPEN service leaves the sequencer and the permits (R83, R61). -/
theorem changeGrade_service_of_fall {g : Grade} (fall : g ≠ 4)
    (stays : s.service.mode ≠ .opened ∨ g.val < 3) :
    (changeGrade g s).service = s.service ∧ (changeGrade g s).permits = s.permits := by
  rw [changeGrade_of_fall fall]
  have told : (gradeTold g s).service = s.service ∧ (gradeTold g s).permits = s.permits := by simp [gradeTold]
  have before : ∀ x : State, x = (if s.grader.inForce = 4 then clearHold .windStop (gradeTold g s)
      else gradeTold g s) → x.service = s.service ∧ x.permits = s.permits := by
    rintro x rfl
    split
    · simpa using told
    · exact told
  generalize (if s.grader.inForce = 4 then clearHold .windStop (gradeTold g s) else gradeTold g s) = x at before ⊢
  obtain ⟨service, permits⟩ := before x rfl
  have idle : sequencerGrade g x = x := if_neg (by
    rw [service]
    rintro ⟨opened, high⟩
    exact stays.elim (· opened) (Nat.not_lt.2 high))
  rw [idle]
  exact ⟨service, permits⟩

theorem expireDwell_of_due {d : Dwell} (dwell : s.grader.dwell = some d)
    (due : d.start + d.length ≤ s.lines.now) : expireDwell s = changeGrade d.highest (putDwell none s) := by
  unfold expireDwell
  rw [dwell]
  exact if_pos due

theorem expireDwell_of_early (early : ∀ d, s.grader.dwell = some d → s.lines.now < d.start + d.length) :
    expireDwell s = s := by
  unfold expireDwell
  split
  · next d dwell => exact if_neg (Nat.not_le.2 (early d dwell))
  · rfl

theorem endSettling_of_early (early : ∀ e, s.grader.settling = some e → s.lines.now < e) :
    endSettling s = s := by
  unfold endSettling
  split
  · next e settling => exact if_neg (Nat.not_le.2 (early e settling))
  · rfl

theorem setGrader_untouched (s : State) (x : Grader) : Untouched [.grader] s (s.setGrader x) :=
  ⟨rfl, fun b other => by
    cases b with
    | grader => simp at other
    | _ => rfl⟩

/-! ### Encoder heads (R27) -/

theorem reformAfter_tracker (was : Bool) (s : State) : (reformAfter was s).tracker = (reform s).tracker := by
  unfold reformAfter
  dsimp only
  split <;> simp

/-- A drop of a fresh head re-forms the position with the head not fresh. -/
theorem encoderLapse_of_due {e : EncoderId} (due : s.encoderOverdue e (s.p 15) = true)
    (fresh : (s.tracker.head e).fresh = true) :
    encoderLapse e s = reformAfter true (s.setTracker (s.tracker.dropped (e == .a) (e == .b))) := by
  rw [encoderLapse, if_pos due]
  exact if_pos (by cases e <;> simpa [Tracker.head] using fresh)

theorem formed_of_no_fresh {tr : Tracker} (stale : ∀ e, (tr.head e).fresh = false) : tr.formed = .invalid := by
  have a : tr.headA.fresh = false := stale .a
  have b : tr.headB.fresh = false := stale .b
  simp [Tracker.formed, a, b]

/-! ### The wheel as the end of stopping is judged -/

/-- The wheel after the end of stopping is judged (R149). -/
def Wheel.judged (rest : Bool) : Wheel → Wheel
  | .stopping d => if rest then d.rest else .stopping d
  | w => w

theorem atRest_iff (s : State) :
    s.atRest = true ↔ s.rot.vCmd = 0 ∧ ∀ n, (s.drive n).fresh = true → (s.drive n).speed ≤ 16 := by
  simp [State.atRest, allFour, or_iff_not_imp_left]

theorem State.atRest_congr (vCmd : u.rot.vCmd = s.rot.vCmd) (drives : u.drives = s.drives) :
    u.atRest = s.atRest := by
  have drive : u.drive = s.drive := funext (State.drive_congr drives)
  rw [State.atRest, vCmd, drive, State.atRest]

theorem judgeEnd_wheel (s : State) : (judgeEnd s).rot.wheel = s.rot.wheel.judged s.atRest := by
  unfold judgeEnd
  cases wheel : s.rot.wheel with
  | stopping d =>
    dsimp only [Wheel.judged]
    split
    · simp
    · exact wheel
  | _ => exact wheel

/-- Judging the end of stopping leaves the reference and the limit. -/
theorem judgeEnd_speeds (s : State) :
    (judgeEnd s).rot.vCmd = s.rot.vCmd ∧ (judgeEnd s).rot.vLim = s.rot.vLim := by
  rcases judgeEnd_cases s with ⟨d, -, -, e⟩ | e <;> simp [e]

/-- An entry to STOPPING(HELD) ends in HELD where the wheel is at rest (R149). -/
theorem enterStopping_held (s : State) :
    enterStopping .held s = if s.atRest = true then changeWheel .held (changeWheel (.stopping .held) s)
      else changeWheel (.stopping .held) s := by
  have wheel : (changeWheel (.stopping .held) s).rot.wheel = .stopping .held := by simp
  have rest : (changeWheel (.stopping .held) s).atRest = s.atRest :=
    State.atRest_congr (by simp) (by simp)
  rw [enterStopping, judgeEnd, wheel]
  dsimp only
  rw [rest]
  rfl

/-- A raise of any kind but ALL_STOP stops a running wheel and leaves every other (R147). -/
theorem onRaise_of_other {key : HoldKey} (other : key ≠ .allStop) (s : State) :
    onRaise key s = if s.rot.wheel = .running then enterStopping .held s else s := by
  unfold onRaise
  cases s.rot.wheel with
  | running => simp [other]
  | stopping d => simp [other]
  | _ => rfl

theorem onRaise_wheel {key : HoldKey} (other : key ≠ .allStop) (s : State) :
    (onRaise key s).rot.wheel =
      if s.rot.wheel = .running then (if s.atRest = true then .held else .stopping .held) else s.rot.wheel := by
  rw [onRaise_of_other other]
  split
  · rw [enterStopping_held]
    split <;> simp
  · rfl

theorem onRaise_speeds {key : HoldKey} (other : key ≠ .allStop) (s : State) :
    (onRaise key s).rot.vCmd = s.rot.vCmd ∧ (onRaise key s).rot.vLim = s.rot.vLim := by
  rw [onRaise_of_other other]
  split
  · rw [enterStopping_held]
    split <;> simp
  · exact ⟨rfl, rfl⟩

/-! ### Doors (R42) -/

/-- The record of a stale door with its notice, before its zone is tested (R42). -/
def doorLost (k : Cabin) (s : State) : State :=
  notify (.doorStale k) (s.setCabin k { s.cabin k with door := .unknown })

/-- The zone whose ZONE_OVERRUN a stale door raises: its own, with the cabin past the cutoff (R70). -/
def State.overrunAtStale (s : State) (k : Cabin) : Option Zone :=
  match (s.cabin k).location with
  | some z =>
    if s.occ z = { occupant := some k, past := true } ∧ s.holdsKey (.zoneOverrun z) = false then some z
    else none
  | none => none

theorem doorLost_frame (k : Cabin) (s : State) :
    (doorLost k s).lines = s.lines ∧ (doorLost k s).tracker = s.tracker ∧ (doorLost k s).holds = s.holds ∧
      (doorLost k s).rot = s.rot ∧ (doorLost k s).drives = s.drives := by
  simp [doorLost]

theorem doorLost_cabin (k : Cabin) (s : State) (j : Cabin) :
    (doorLost k s).cabin j = if k = j then { s.cabin k with door := .unknown } else s.cabin j := by
  rw [doorLost, notify_cabin, State.setCabin_cabin]

/-- A door UNKNOWN is not LOCKED, so past the cutoff its cabin overruns (R70). -/
theorem doorStale_eq (k : Cabin) (s : State) :
    doorStale k s =
      match s.overrunAtStale k with
      | some z => onRaise (.zoneOverrun z) (stopRaised (.zoneOverrun z k) (doorLost k s))
      | none => doorLost k s := by
  obtain ⟨-, tracker, holds, -⟩ := doorLost_frame k s
  have here : (doorLost k s).cabin k = { s.cabin k with door := .unknown } := by
    rw [doorLost_cabin, if_pos rfl]
  have location : ((doorLost k s).cabin k).location = (s.cabin k).location := by rw [here]
  have secured : ((doorLost k s).cabin k).secured = false := by rw [here]; rfl
  show testCabin k (doorLost k s) = _
  unfold testCabin State.overrunAtStale
  rw [location]
  cases (s.cabin k).location with
  | none => rfl
  | some z =>
    have occ : (doorLost k s).occ z = s.occ z := State.occ_congr tracker z
    have key : (doorLost k s).holdsKey (.zoneOverrun z) = s.holdsKey (.zoneOverrun z) :=
      State.holdsKey_congr holds _
    dsimp only
    rw [occ]
    by_cases occupant : (s.occ z).occupant = some k
    · rw [if_pos occupant]
      cases past : (s.occ z).past with
      | true =>
        have occupied : s.occ z = { occupant := some k, past := true } := by rw [← occupant, ← past]
        have overruns : (doorLost k s).overrunCabin z = some k := by
          simp [State.overrunCabin, occ, occupied, secured]
        rw [testOverrun, overruns]
        dsimp only
        rw [raiseHold]
        cases stands : s.holdsKey (.zoneOverrun z) with
        | true => simp [Hold.key, key, stands]
        | false => simp [Hold.key, key, stands, occupied, stopRaised]
      | false =>
        have clear : (doorLost k s).overrunCabin z = none := by
          unfold State.overrunCabin
          rw [occ]
          split
          · next e => rw [e] at past; cases past
          · rfl
        have inside : ¬ (s.occ z = { occupant := some k, past := true } ∧
            s.holdsKey (.zoneOverrun z) = false) := by
          rintro ⟨e, -⟩
          rw [e] at past
          cases past
        rw [testOverrun, clear, if_neg inside]
    · have away : ¬ (s.occ z = { occupant := some k, past := true } ∧
          s.holdsKey (.zoneOverrun z) = false) := by
        rintro ⟨e, -⟩
        rw [e] at occupant
        exact occupant rfl
      rw [if_neg occupant, if_neg away]

theorem SameDesk.aside {v : State} (h : SameDesk s u)
    (same : v.lines = u.lines ∧ v.tables = u.tables ∧ v.ring = u.ring) : SameDesk s v := by
  obtain ⟨lines, tables, ring⟩ := same
  refine ⟨tables.trans h.tables, ?_, by rw [ring, h.notices], by rw [ring, h.overflow]⟩
  rw [State.ownAddress, lines]
  exact h.ownAddress

theorem sameDesk_advance (t : Nat) (s : State) : SameDesk s (s.advance t) := ⟨rfl, rfl, rfl, rfl⟩

theorem SameDesk.doorLost (h : SameDesk s u) (k : Cabin) :
    SameDesk (Machine.notify (.doorStale k) s) (doorLost k u) :=
  (h.aside (by simp)).notify _

theorem SameDesk.stopRaised (h : SameDesk s u) (what : Hold) :
    SameDesk (Machine.notify (.holdRaised what) s) (stopRaised what u) :=
  (h.aside (v := appendHold what u) (by simp)).notify _

theorem SameDesk.changeWheel (h : SameDesk s u) (w : Wheel) :
    SameDesk (Machine.notify (.stateChanged w) s) (changeWheel w u) :=
  (h.aside (v := putWheel w u) (by simp)).notify _

/-- A running wheel that a raise stops: its rotation record and its notices, HELD at once where it is at rest
(R147, R149). -/
theorem onRaise_of_running {key : HoldKey} (other : key ≠ .allStop) (running : u.rot.wheel = .running)
    (desk : SameDesk s u) :
    (onRaise key u).rot =
        { u.rot with wheel := if u.atRest = true then .held else .stopping .held, stopPending := false } ∧
      SameDesk (s.afterNotices ([.stateChanged (.stopping .held)] ++
        if u.atRest = true then [.stateChanged .held] else [])) (onRaise key u) := by
  rw [onRaise_of_other other, if_pos running, enterStopping_held]
  split
  · exact ⟨by simp [Wheel.pendsStop], (desk.changeWheel _).changeWheel _⟩
  · exact ⟨by simp [Wheel.pendsStop], desk.changeWheel _⟩

theorem stopRaised_overrun_holds (z : Zone) (k : Cabin) (s : State) :
    (stopRaised (.zoneOverrun z k) s).holds =
      { s.holds with
        records := s.holds.records ++ [{ what := .zoneOverrun z k, raised := s.lines.now, acked := false }] } := by
  simp [stopRaised, appendHold, Hold.key, HoldKey.console]

theorem doorStale_untouched (k : Cabin) (s : State) : Untouched [.cabins, .holds, .rot] s (doorStale k s) := by
  obtain ⟨pending, -, tables, tracker, permits, service, heads, grader, drives⟩ := doorStale_frame s k
  refine ⟨pending, fun b other => ?_⟩
  cases b with
  | tables => exact tables
  | tracker => exact tracker
  | permits => exact permits
  | service => exact service
  | heads => exact heads
  | grader => exact grader
  | drives => exact drives
  | _ => simp at other

/-! ### Drives (R161) -/

theorem readyCount_le (h : ∀ n, (u.drive n).ready = true → (s.drive n).ready = true) :
    u.readyCount ≤ s.readyCount :=
  List.countP_mono_left fun n _ => h n

theorem State.readyCount_congr (h : ∀ n, (u.drive n).ready = (s.drive n).ready) :
    u.readyCount = s.readyCount := by
  simp [State.readyCount, h]

/-- Where the ready count has not risen, DRIVES_LOST can only be raised (R163). -/
theorem judgeDrivesLost_of_le {before : Nat} (le : s.readyCount ≤ before) :
    judgeDrivesLost before s =
      if 2 ≤ before ∧ s.readyCount < 2 then raiseHold .drivesLost s else s := by
  unfold judgeDrivesLost
  have noRise : ¬ (before < 2 ∧ 2 ≤ s.readyCount) := by omega
  rw [if_neg noRise]

/-- A fresh drive is dropped: its record, DRIVES_LOST where the ready count falls below 2, and the end of stopping
(R161 to R163, R149). -/
theorem dropDrive_eq {n : Fin 4} (fresh : (s.drive n).fresh = true) :
    ∃ x : State, x.rot = s.rot ∧ x.holds = s.holds ∧ x.drives = (dropDrive n s).drives ∧
      dropDrive n s =
        judgeEnd (if 2 ≤ s.readyCount ∧ x.readyCount < 2 then raiseHold .drivesLost x else x) := by
  have dropped : dropDrive n s = judgeEnd (deriveReady n (s.setDrive n { s.drive n with fresh := false })) :=
    if_pos fresh
  rw [dropped, judgeEnd_drives]
  have before : (s.setDrive n { s.drive n with fresh := false }).readyCount = s.readyCount := by
    refine State.readyCount_congr fun m => ?_
    rw [State.setDrive_drive]
    split
    · next here => rw [here]
    · rfl
  unfold deriveReady
  dsimp only
  rw [State.setDrive_drive, if_pos rfl]
  split
  · refine ⟨s.setDrive n { s.drive n with fresh := false }, by simp, by simp, rfl, ?_⟩
    rw [before, if_neg (by omega)]
  · rw [before, judgeDrivesLost_of_le]
    · refine ⟨_, ?_, ?_, ?_, rfl⟩
      · simp
      · simp
      · split <;> simp
    · rw [← before]
      refine readyCount_le fun m => ?_
      rw [notify_drive, State.setDrive_drive]
      split
      · exact fun ready => by simp [Drive.derivedReady] at ready
      · exact id

theorem dropDrive_untouched (n : Fin 4) (s : State) : Untouched [.drives, .holds, .rot] s (dropDrive n s) := by
  obtain ⟨pending, -, tables, tracker, cabins, permits, service, heads, grader⟩ := dropDrive_frame s n
  refine ⟨pending, fun b other => ?_⟩
  cases b with
  | tables => exact tables
  | tracker => exact tracker
  | cabins => exact cabins
  | permits => exact permits
  | service => exact service
  | heads => exact heads
  | grader => exact grader
  | _ => simp at other

/-- What a raise of any kind but ALL_STOP makes of the wheel (R125, R147). -/
theorem raiseHold_wheel {h : Hold} (other : h.key ≠ .allStop) (s : State) :
    (raiseHold h s).rot.wheel =
      if s.rot.wheel = .running ∧ s.holdsKey h.key = false then
        (if s.atRest = true then .held else .stopping .held)
      else s.rot.wheel := by
  have raised : raiseHold h s = if s.holdsKey h.key = true then s else onRaise h.key (stopRaised h s) := rfl
  have rest : (stopRaised h s).atRest = s.atRest :=
    State.atRest_congr (by rw [stopRaised_rot]) (by simp [stopRaised])
  rw [raised]
  cases stands : s.holdsKey h.key with
  | true => simp
  | false => simp [onRaise_wheel other, stopRaised_rot, rest]

theorem raiseHold_speeds {h : Hold} (other : h.key ≠ .allStop) (s : State) :
    (raiseHold h s).rot.vCmd = s.rot.vCmd ∧ (raiseHold h s).rot.vLim = s.rot.vLim := by
  unfold raiseHold
  split
  · exact ⟨rfl, rfl⟩
  · obtain ⟨vCmd, vLim⟩ := onRaise_speeds other (stopRaised h s)
    rw [stopRaised_rot] at vCmd vLim
    exact ⟨vCmd, vLim⟩

/-- The wheel and the speeds after a drive is dropped (R147, R149, R163). -/
theorem dropDrive_rot {n : Fin 4} (fresh : (s.drive n).fresh = true) :
    let u := dropDrive n s
    (2 ≤ s.readyCount → u.readyCount < 2 → u.holdsKey .drivesLost = true) ∧
      u.rot.vCmd = s.rot.vCmd ∧ u.rot.vLim = s.rot.vLim ∧
      u.rot.wheel =
        Wheel.judged u.atRest
          (if s.rot.wheel = .running ∧ 2 ≤ s.readyCount ∧ u.readyCount < 2 ∧ s.holdsKey .drivesLost = false then
            .stopping .held
          else s.rot.wheel) := by
  have other : Hold.drivesLost.key ≠ .allStop := nofun
  obtain ⟨x, rot, holds, drives, e⟩ := dropDrive_eq fresh
  have ready : x.readyCount = (dropDrive n s).readyCount :=
    State.readyCount_congr fun m => by rw [State.drive_congr drives]
  have key : x.holdsKey .drivesLost = s.holdsKey .drivesLost := State.holdsKey_congr holds _
  dsimp only
  rw [← ready]
  generalize dropDrive n s = u at *
  by_cases lost : 2 ≤ s.readyCount ∧ x.readyCount < 2
  · rw [if_pos lost] at e
    obtain ⟨vCmd, vLim⟩ := raiseHold_speeds other x
    have rest : u.atRest = x.atRest :=
      State.atRest_congr (by rw [e, (judgeEnd_speeds _).1, vCmd]) drives.symm
    have rest' : (raiseHold .drivesLost x).atRest = x.atRest := State.atRest_congr vCmd (by simp)
    refine ⟨fun _ _ => ?_, ?_, ?_, ?_⟩
    · rw [e, State.holdsKey_congr (judgeEnd_frame _).2.2.2.2.2.2.2.2.2.1, raiseHold_holdsKey]
      exact Bool.or_true _
    · rw [e, (judgeEnd_speeds _).1, vCmd, rot]
    · rw [e, (judgeEnd_speeds _).2, vLim, rot]
    · rw [rest, e, judgeEnd_wheel, rest', raiseHold_wheel other, rot]
      simp only [Hold.key, key, lost, true_and]
      split
      · cases x.atRest <;> rfl
      · rfl
  · rw [if_neg lost] at e
    have rest : u.atRest = x.atRest := State.atRest_congr (by rw [e, (judgeEnd_speeds _).1]) drives.symm
    refine ⟨fun enough few => absurd ⟨enough, few⟩ lost, ?_, ?_, ?_⟩
    · rw [e, (judgeEnd_speeds _).1, rot]
    · rw [e, (judgeEnd_speeds _).2, rot]
    · rw [rest, e, judgeEnd_wheel, rot, if_neg fun h => lost ⟨h.2.1, h.2.2.1⟩]

/-! ### The events at their time -/

theorem dwellExpiry_acts {t : Nat} {d : Dwell} (reset : s.lines.inReset = false)
    (dwell : s.grader.dwell = some d) (due : d.start + d.length ≤ max s.lines.now t)
    (fall : d.highest < s.grader.inForce) :
    ∃ u, Completes (.dwellExpiry t) s u ∧ u.lines = s.linesAt t ∧
      u.grader = { s.grader with inForce := d.highest, dwell := none } ∧
      Untouched [.service, .permits, .grader, .holds, .rot] s u ∧
      (s.grader.inForce = 4 → u.holdsKey .windStop = false) ∧
      (s.grader.inForce ≠ 4 → u.holds = s.holds) ∧
      (s.service.mode ≠ .opened ∨ d.highest.val < 3 → u.service = s.service ∧ u.permits = s.permits) := by
  have notStop : d.highest ≠ 4 := ne_of_lt (lt_of_lt_of_le fall (Fin.le_last _))
  have done := completes_of_event (c := .dwellExpiry t) reset rfl
  rw [expireDwell_of_due (s := s.advance t) dwell due] at done
  have holds := changeGrade_holds_of_fall notStop (putDwell none (s.advance t))
  refine ⟨_, done, by simp [State.advance, State.linesAt], ?_,
    (((setGrader_untouched (s.advance t) _).trans (changeGrade_untouched d.highest _)).of_advance).mono (by simp),
    fun stop => ?_, fun other => ?_, fun stays => changeGrade_service_of_fall notStop stays⟩
  · rw [changeGrade_grader]
    rfl
  · rw [if_pos (show (putDwell none (s.advance t)).grader.inForce = 4 from stop)] at holds
    rw [State.holdsKey_congr holds, clearHold_holdsKey]
    simp
  · rw [if_neg (show ¬ (putDwell none (s.advance t)).grader.inForce = 4 from other)] at holds
    rw [holds]
    rfl

theorem encoderLapse_acts {t : Nat} {e : EncoderId} (reset : s.lines.inReset = false)
    (due : (s.advance t).encoderOverdue e (s.p 15) = true) (fresh : (s.tracker.head e).fresh = true) :
    ∃ u, Completes (.encoderLapse t e) s u ∧ u.lines = s.linesAt t ∧
      Untouched [.tracker, .cabins, .permits, .service, .holds, .rot] s u ∧
      u.tracker.head e = { s.tracker.head e with fresh := false } ∧
      (∀ h, h ≠ e → u.tracker.head h = s.tracker.head h) ∧
      u.tracker.disagreements = s.tracker.disagreements ∧ u.tracker.latch = s.tracker.latch ∧
      ((∀ h, h ≠ e → (s.tracker.head h).fresh = false) →
        u.tracker.accepted = .invalid ∧ u.holdsKey .positionLost = true) := by
  have done := completes_of_event (c := .encoderLapse t e) reset rfl
  have frame := encoderLapse_frame (s.advance t) e
  have act : encoderLapse e (s.advance t) = reformAfter true ((s.advance t).setTracker
      (s.tracker.dropped (e == .a) (e == .b))) := encoderLapse_of_due due fresh
  rw [act] at done frame
  have tracker := (reformAfter_tracker true ((s.advance t).setTracker
    (s.tracker.dropped (e == .a) (e == .b)))).trans (reform_tracker _)
  have head (h : EncoderId) : (s.tracker.dropped (e == .a) (e == .b)).head h =
      (s.tracker.head h).dropped (decide (h = e)) := by
    cases e <;> cases h <;> rfl
  have heads (h : EncoderId) : (reformAfter true ((s.advance t).setTracker
      (s.tracker.dropped (e == .a) (e == .b)))).tracker.head h = (s.tracker.head h).dropped (decide (h = e)) := by
    rw [← head, tracker]
    cases h <;> rfl
  refine ⟨_, done, frame.2.1.trans rfl, (untouched_of_frame frame).of_advance, ?_, fun h other => ?_, ?_, ?_,
    fun others => ?_⟩
  · rw [heads]
    simp [EncoderHead.dropped]
  · rw [heads, decide_eq_false other, EncoderHead.dropped_false]
  · rw [tracker]
    rfl
  · rw [tracker]
    rfl
  · have stale (h : EncoderId) : ((s.tracker.dropped (e == .a) (e == .b)).head h).fresh = false := by
      rw [head]
      by_cases here : h = e
      · simp [EncoderHead.dropped, here]
      · rw [decide_eq_false here, EncoderHead.dropped_false, others h here]
    have formed := formed_of_no_fresh stale
    refine ⟨by rw [tracker]; exact formed, ?_⟩
    have none : (reform ((s.advance t).setTracker
        (s.tracker.dropped (e == .a) (e == .b)))).tracker.anyFresh = false := by
      rw [reform_tracker]
      exact Bool.or_eq_false_iff.2 ⟨stale .a, stale .b⟩
    unfold reformAfter
    dsimp only
    rw [none, if_pos (by rfl), raiseHold_holdsKey]
    exact Bool.or_true _

theorem staleEvent_acts {t : Nat} {k : Cabin} (reset : s.lines.inReset = false)
    (due : (s.advance t).doorOverdue k (s.p 16) = true) :
    ∃ u, Completes (.staleEvent t k) s u ∧ u.lines = s.linesAt t ∧
      Untouched [.cabins, .holds, .rot] s u ∧
      u.cabin k = { s.cabin k with door := .unknown } ∧ (∀ j, j ≠ k → u.cabin j = s.cabin j) ∧
      match s.overrunAtStale k with
      | none => u.holds = s.holds ∧ u.rot = s.rot ∧ NoticesQueued s u [.doorStale k]
      | some z =>
        u.holds =
          { s.holds with
            records := s.holds.records ++
              [{ what := .zoneOverrun z k, raised := max s.lines.now t, acked := false }] } ∧
        if s.rot.wheel = .running then
          u.rot =
            { s.rot with wheel := if s.atRest = true then .held else .stopping .held, stopPending := false } ∧
          NoticesQueued s u
            ([.doorStale k, .holdRaised (.zoneOverrun z k), .stateChanged (.stopping .held)] ++
              if s.atRest = true then [.stateChanged .held] else [])
        else
          u.rot = s.rot ∧ NoticesQueued s u [.doorStale k, .holdRaised (.zoneOverrun z k)] := by
  have done := completes_of_event (c := .staleEvent t k) reset rfl
  have stale : staleEvent k (s.advance t) = doorStale k (s.advance t) := if_pos due
  rw [stale] at done
  have lines := (doorStale_frame (s.advance t) k).2.1
  have blocks := (doorStale_untouched k (s.advance t)).of_advance
  have cabin := doorStale_cabin k (s.advance t)
  refine ⟨_, done, lines, blocks, by rw [cabin, if_pos rfl]; rfl,
    fun j other => by rw [cabin, if_neg other.symm]; rfl, ?_⟩
  have act := doorStale_eq k (s.advance t)
  have desk := (sameDesk_advance t s).doorLost k
  obtain ⟨lines, -, holds, rot, drives⟩ := doorLost_frame k (s.advance t)
  have zone : (s.advance t).overrunAtStale k = s.overrunAtStale k := rfl
  rw [zone] at act
  generalize doorLost k (s.advance t) = x at *
  generalize s.overrunAtStale k = raises at act ⊢
  cases raises with
  | none =>
    dsimp only at act ⊢
    rw [act]
    exact ⟨holds, rot, SameDesk.noticesQueued (s := s) (ns := [.doorStale k]) desk⟩
  | some z =>
    dsimp only at act ⊢
    have raised := desk.stopRaised (.zoneOverrun z k)
    have records := stopRaised_overrun_holds z k x
    have same : (stopRaised (.zoneOverrun z k) x).rot = s.rot := (stopRaised_rot _ x).trans rot
    have rest : (stopRaised (.zoneOverrun z k) x).atRest = s.atRest :=
      State.atRest_congr (by rw [same]) (by simpa [stopRaised] using drives)
    rw [act]
    refine ⟨?_, ?_⟩
    · rw [(onRaise_frame _ _).2.2.2.2.2.2.2.2.2.1, records, holds, lines]
      rfl
    · split
      · next running =>
        obtain ⟨stopped, told⟩ := onRaise_of_running (key := .zoneOverrun z) nofun
          (by rw [same]; exact running) raised
        rw [rest, same] at stopped
        rw [rest] at told
        exact ⟨stopped, told.noticesQueued⟩
      · next other =>
        rw [onRaise_of_other (key := .zoneOverrun z) nofun, same, if_neg other]
        exact ⟨same, SameDesk.noticesQueued (s := s) (ns := [.doorStale k, .holdRaised (.zoneOverrun z k)]) raised⟩

theorem settlingEnd_acts {t : Nat} {e : Nat} (reset : s.lines.inReset = false)
    (settling : s.grader.settling = some e) (due : e ≤ max s.lines.now t) :
    ∃ u, Completes (.settlingEnd t) s u ∧ u.lines = s.linesAt t ∧ u.ring = s.ring ∧
      Untouched [.grader] s u ∧ u.grader = { s.grader with settling := none } := by
  have done := completes_of_event (c := .settlingEnd t) reset rfl
  have act : endSettling (s.advance t) =
      (s.advance t).setGrader { s.grader with settling := none } := by
    rw [endSettling, show (s.advance t).grader.settling = some e from settling]
    exact if_pos due
  rw [act] at done
  exact ⟨_, done, rfl, rfl, (setGrader_untouched (s.advance t) _).of_advance, rfl⟩

theorem headLapse_acts {t : Nat} {n : Fin 4} (reset : s.lines.inReset = false)
    (due : (s.advance t).olderThan (s.head n).lastSample (s.p 18) = true) (fresh : (s.head n).fresh = true) :
    ∃ u, Completes (.headLapse t n) s u ∧ u.lines = s.linesAt t ∧ u.ring = s.ring ∧
      Untouched [.heads] s u ∧ (∀ m, m ≠ n → u.head m = s.head m) ∧ u.head n = (s.head n).drop := by
  have done := completes_of_event (c := .headLapse t n) reset rfl
  have act : headLapse n (s.advance t) = dropHead n (s.advance t) := if_pos due
  rw [act] at done
  have head := dropHead_head n (s.advance t)
  obtain ⟨pending, lines, tables, ring, tracker, cabins, permits, service, grader, holds, rot, drives⟩ :=
    dropHead_frame (s := s.advance t) n
  refine ⟨_, done, lines, ring, ⟨pending, fun b other => ?_⟩, fun m other => ?_, ?_⟩
  · cases b with
    | tables => exact tables
    | tracker => exact tracker
    | cabins => exact cabins
    | permits => exact permits
    | service => exact service
    | grader => exact grader
    | holds => exact holds
    | rot => exact rot
    | drives => exact drives
    | _ => simp at other
  · rw [head, if_neg other.symm]
    rfl
  · rw [head, if_pos rfl, if_pos (show ((s.advance t).head n).fresh = true from fresh)]
    rfl

theorem driveLapse_acts {t : Nat} {n : Fin 4} (reset : s.lines.inReset = false)
    (due : (s.advance t).olderThan (s.drive n).lastReport (s.p 17) = true) (fresh : (s.drive n).fresh = true) :
    ∃ u, Completes (.driveLapse t n) s u ∧ u.lines = s.linesAt t ∧
      Untouched [.drives, .holds, .rot] s u ∧ (∀ m, m ≠ n → u.drive m = s.drive m) ∧
      u.drive n = { s.drive n with fresh := false, ready := false } ∧
      (2 ≤ s.readyCount → u.readyCount < 2 → u.holdsKey .drivesLost = true) ∧
      u.rot.vCmd = s.rot.vCmd ∧ u.rot.vLim = s.rot.vLim ∧
      u.rot.wheel =
        Wheel.judged u.atRest
          (if s.rot.wheel = .running ∧ 2 ≤ s.readyCount ∧ u.readyCount < 2 ∧ s.holdsKey .drivesLost = false then
            .stopping .held
          else s.rot.wheel) := by
  have done := completes_of_event (c := .driveLapse t n) reset rfl
  have act : driveLapse n (s.advance t) = dropDrive n (s.advance t) := if_pos due
  rw [act] at done
  have drive := dropDrive_drive n (s.advance t)
  refine ⟨_, done, (dropDrive_frame _ _).2.1, (dropDrive_untouched n _).of_advance, fun m other => ?_, ?_,
    dropDrive_rot (s := s.advance t) fresh⟩
  · rw [drive, if_neg fun h => other h.1.symm]
    rfl
  · rw [drive, if_pos ⟨rfl, fresh⟩]
    rfl

/-- Settles O49: at their time each event is its owner's operation, and before it the test of the moment fails. -/
theorem expiriesAndLapsesActAtTheirTime : Obligations.ExpiriesAndLapsesActAtTheirTime := by
  unfold Obligations.ExpiriesAndLapsesActAtTheirTime
  refine ⟨fun t s reset => ⟨?_, ?_, ?_, ?_⟩, fun t s reset => ?_⟩
  · exact fun d dwell due fall => dwellExpiry_acts reset dwell due fall
  · exact fun early => onlyTime_of_event reset rfl (expireDwell_of_early early)
  · exact fun e settling due => settlingEnd_acts reset settling due
  · exact fun early => onlyTime_of_event reset rfl (endSettling_of_early early)
  intro older
  have old (taken : Option Nat) (limit : Nat) :
      (s.advance t).olderThan taken limit = true ↔ older taken limit := olderThan_iff _ taken limit
  have young {taken : Option Nat} {limit : Nat} (h : ¬ older taken limit) :
      ¬ (s.advance t).olderThan taken limit = true := fun due => h ((old _ _).1 due)
  refine ⟨?_, ?_, ?_, ?_, ?_, ?_, ?_, ?_⟩
  · exact fun e due fresh => encoderLapse_acts reset ((old _ _).2 due) fresh
  · intro k due believed
    have overdue : (s.advance t).doorOverdue k (s.p 16) = true :=
      Bool.and_eq_true_iff.2 ⟨bne_iff_ne.2 believed, (old _ _).2 due⟩
    obtain ⟨u, done, lines, untouched, here, others, told⟩ := staleEvent_acts reset overdue
    refine ⟨u, done, lines, untouched, here, others, ?_⟩
    have rest : decide (s.rot.vCmd = 0 ∧ ∀ n, (s.drive n).fresh = true → (s.drive n).speed ≤ 16) = s.atRest := by
      rw [Bool.eq_iff_iff, decide_eq_true_iff, atRest_iff]
    dsimp only
    rw [rest]
    exact told
  · exact fun n due fresh => headLapse_acts reset ((old _ _).2 due) fresh
  · intro n due fresh
    obtain ⟨u, done, lines, untouched, others, here, lost, vCmd, vLim, wheel⟩ :=
      driveLapse_acts reset ((old _ _).2 due) fresh
    refine ⟨u, done, lines, untouched, others, here, lost, vCmd, vLim, ?_⟩
    have rest : decide (s.rot.vCmd = 0 ∧ ∀ m, (u.drive m).fresh = true → (u.drive m).speed ≤ 16) = u.atRest := by
      rw [Bool.eq_iff_iff, decide_eq_true_iff, atRest_iff, vCmd]
    dsimp only
    rw [rest, wheel]
    cases s.rot.wheel with
    | running =>
      simp only [true_and]
      split <;> rfl
    | stopping d => rfl
    | _ => rfl
  · exact fun e due => onlyTime_of_event reset rfl (if_neg (young due))
  · exact fun k due => onlyTime_of_event reset rfl (if_neg fun h => young due (Bool.and_eq_true_iff.1 h).2)
  · exact fun n due => onlyTime_of_event reset rfl (if_neg (young due))
  · exact fun n due => onlyTime_of_event reset rfl (if_neg (young due))

end Sys2Proof.Machine
end

