-- ==== Sys2Proof/Proofs/MoveHolds.lean ====
section

/-!
# The hold list through the moves

Exits, entries and crossings only add to the hold list: a breach names one more cabin, and a ZONE_OVERRUN that is
new names a cabin that crossed its zone's cutoff. The clear of POSITION_LOST, where the position returns, is the
one removal (R30, R33, R49, R50, R70).
-/

namespace Sys2Proof.Machine

variable {s u v : State} {P : Zone → Cabin → Prop}

/-! ### Growth of the hold list -/

/-- A record of the hold list is of some hold. -/
def State.HasHold (s : State) (what : Hold) : Prop := ∃ r ∈ s.holds.records, r.what = what

/-- A DOOR_BREACH record names a cabin. -/
def State.Breached (s : State) (k : Cabin) : Prop :=
  ∃ r ∈ s.holds.records, ∃ ks, r.what = .doorBreach ks ∧ k ∈ ks

/-- The hold list only grows, but for POSITION_LOST, and each new ZONE_OVERRUN is of a cabin with a property. -/
structure HoldsGrow (P : Zone → Cabin → Prop) (s u : State) : Prop where
  keys : ∀ key, key ≠ .positionLost → s.holdsKey key = true → u.holdsKey key = true
  breach : ∀ k, s.Breached k → u.Breached k
  named : ∀ z k, s.HasHold (.zoneOverrun z k) → u.HasHold (.zoneOverrun z k)
  overrun : ∀ z, u.holdsKey (.zoneOverrun z) = true →
    s.holdsKey (.zoneOverrun z) = true ∨ ∃ k, P z k ∧ u.HasHold (.zoneOverrun z k)

namespace HoldsGrow

theorem of_holds (h : u.holds = s.holds) : HoldsGrow P s u where
  keys key _ := by rw [State.holdsKey_congr h]; exact id
  breach k := by unfold State.Breached; rw [h]; exact id
  named z k := by unfold State.HasHold; rw [h]; exact id
  overrun z := by rw [State.holdsKey_congr h]; exact .inl

theorem refl (s : State) : HoldsGrow P s s := of_holds rfl

theorem trans (first : HoldsGrow P s v) (second : HoldsGrow P v u) : HoldsGrow P s u where
  keys key other := second.keys key other ∘ first.keys key other
  breach k := second.breach k ∘ first.breach k
  named z k := second.named z k ∘ first.named z k
  overrun z stands := by
    rcases second.overrun z stands with before | new
    · rcases first.overrun z before with old | ⟨k, crossed, names⟩
      · exact .inl old
      · exact .inr ⟨k, crossed, second.named z k names⟩
    · exact .inr new

theorem after (grows : HoldsGrow P v u) (same : v.holds = s.holds) : HoldsGrow P s u := (of_holds same).trans grows

theorem mono {Q : Zone → Cabin → Prop} (grows : HoldsGrow P s u) (le : ∀ z k, P z k → Q z k) : HoldsGrow Q s u where
  keys := grows.keys
  breach := grows.breach
  named := grows.named
  overrun z stands := (grows.overrun z stands).imp_right fun ⟨k, crossed, names⟩ => ⟨k, le z k crossed, names⟩

theorem forEach {α : Type} {f : α → State → State} (step : ∀ x s, HoldsGrow P s (f x s)) (xs : List α) (s : State) :
    HoldsGrow P s (s.forEach xs f) := by
  unfold State.forEach
  induction xs generalizing s with
  | nil => exact refl s
  | cons x xs ih => exact (step x s).trans (ih (f x s))

/-- Records that stay in the list keep all that it says. -/
theorem of_subset (subset : ∀ r ∈ s.holds.records, r ∈ u.holds.records)
    (overrun : ∀ z, u.holdsKey (.zoneOverrun z) = true →
      s.holdsKey (.zoneOverrun z) = true ∨ ∃ k, P z k ∧ u.HasHold (.zoneOverrun z k)) : HoldsGrow P s u where
  keys key _ stands := by
    obtain ⟨r, mem, here⟩ := (State.holdsKey_iff _ key).1 stands
    exact (State.holdsKey_iff _ key).2 ⟨r, subset r mem, here⟩
  breach := fun _ ⟨r, mem, named⟩ => ⟨r, subset r mem, named⟩
  named := fun _ _ ⟨r, mem, here⟩ => ⟨r, subset r mem, here⟩
  overrun := overrun

end HoldsGrow

/-! ### Raises and the clear of POSITION_LOST -/

theorem raiseHold_records {h : Hold} (fresh : s.holdsKey h.key = false) :
    (raiseHold h s).holds.records = s.holds.records ++ [{ what := h, raised := s.lines.now, acked := false }] := by
  rw [raiseHold_holds, fresh]
  rfl

theorem raiseHold_grows {h : Hold} (crossed : ∀ z k, h = .zoneOverrun z k → P z k) (s : State) :
    HoldsGrow P s (raiseHold h s) := by
  cases stands : s.holdsKey h.key with
  | true => exact .of_holds (by rw [raiseHold_holds, stands]; rfl)
  | false =>
    have records := raiseHold_records stands
    refine .of_subset (fun r mem => by rw [records]; exact List.mem_append_left _ mem) fun z key => ?_
    rw [raiseHold_holdsKey, Bool.or_eq_true, beq_iff_eq] at key
    refine key.imp_right fun new => ?_
    cases h with
    | zoneOverrun y k =>
      cases new
      exact ⟨k, crossed z k rfl, _, by rw [records]; exact List.mem_append_right _ (List.mem_singleton_self _), rfl⟩
    | _ => cases new

theorem HoldRecord.addBreach_key (k : Cabin) (r : HoldRecord) : (r.addBreach k).what.key = r.what.key := by
  unfold addBreach
  split
  · next e => rw [e]; rfl
  · rfl

theorem HoldRecord.addBreach_of_other {k : Cabin} {r : HoldRecord} (other : ∀ ks, r.what ≠ .doorBreach ks) :
    r.addBreach k = r := by
  unfold addBreach
  split
  · next ks e => exact absurd e (other ks)
  · rfl

theorem HoldRecord.addBreach_of_breach {k : Cabin} {r : HoldRecord} {ks : List Cabin} (e : r.what = .doorBreach ks) :
    (r.addBreach k).what = .doorBreach (ks ++ [k]) := by
  unfold addBreach
  split
  · next e' => rw [e] at e'; cases e'; rfl
  · next other => exact absurd e (other ks)

theorem doorBreach_of_key {h : Hold} (key : h.key = .doorBreach) : ∃ ks, h = .doorBreach ks := by
  cases h with
  | doorBreach ks => exact ⟨ks, rfl⟩
  | _ => cases key

theorem mem_breachCabins {k : Cabin} (h : k ∈ s.breachCabins) : s.Breached k := by
  unfold State.breachCabins at h
  split at h
  · next ks raised acked found =>
    exact ⟨_, List.mem_of_find?_eq_some found, ks, rfl, h⟩
  · cases h

theorem raiseBreach_grows (k : Cabin) (s : State) : HoldsGrow P s (raiseBreach k s) := by
  unfold raiseBreach
  split
  · split
    · exact .refl s
    · refine .trans (v := s.setHolds { s.holds with records := s.holds.records.map (HoldRecord.addBreach k) }) ?_
        (.of_holds (notify_holds _ _))
      have key (x : HoldKey) : (s.setHolds
          { s.holds with records := s.holds.records.map (HoldRecord.addBreach k) }).holdsKey x = s.holdsKey x := by
        rw [Bool.eq_iff_iff, State.holdsKey_iff, State.holdsKey_iff]
        simp [HoldRecord.addBreach_key]
      refine ⟨fun x _ => by rw [key]; exact id, fun j => ?_, fun z j => ?_, fun z => by rw [key]; exact .inl⟩
      · rintro ⟨r, mem, ks, e, named⟩
        exact ⟨_, List.mem_map_of_mem mem, _, HoldRecord.addBreach_of_breach e, List.mem_append_left _ named⟩
      · rintro ⟨r, mem, e⟩
        refine ⟨r.addBreach k, List.mem_map_of_mem mem, ?_⟩
        rw [HoldRecord.addBreach_of_other fun ks e' => (nomatch e.symm.trans e')]
        exact e
  · exact raiseHold_grows nofun s

/-- A raise of a breach names its cabin (R126). -/
theorem raiseBreach_breached (k : Cabin) (s : State) : (raiseBreach k s).Breached k := by
  unfold raiseBreach
  split
  · next stands =>
    split
    · next listed => exact mem_breachCabins listed
    · obtain ⟨r, mem, key⟩ := (State.holdsKey_iff _ _).1 stands
      obtain ⟨ks, e⟩ := doorBreach_of_key key
      refine ⟨r.addBreach k, ?_, _, HoldRecord.addBreach_of_breach e, List.mem_append_right _ (by simp)⟩
      rw [notify_holds]
      exact List.mem_map_of_mem mem
  · next fresh =>
    refine ⟨{ what := .doorBreach [k], raised := s.lines.now, acked := false }, ?_, [k], rfl,
      List.mem_singleton_self k⟩
    rw [raiseHold_records (Bool.eq_false_iff.2 fresh)]
    exact List.mem_append_right _ (List.mem_singleton_self _)

theorem clearPositionLost_grows (s : State) : HoldsGrow P s (clearHold .positionLost s) := by
  have kept (r : HoldRecord) (mem : r ∈ s.holds.records) (other : r.what.key ≠ .positionLost) :
      r ∈ (clearHold .positionLost s).holds.records := by
    rw [clearHold_holds]
    exact List.mem_filter.2 ⟨mem, bne_iff_ne.2 other⟩
  refine ⟨fun key other stands => ?_, fun k => ?_, fun z k => ?_, fun z stands => .inl ?_⟩
  · rw [clearHold_holdsKey, stands]
    exact bne_iff_ne.2 other
  · rintro ⟨r, mem, ks, e, named⟩
    exact ⟨r, kept r mem (by rw [e]; nofun), ks, e, named⟩
  · rintro ⟨r, mem, e⟩
    exact ⟨r, kept r mem (by rw [e]; nofun), e⟩
  · rw [clearHold_holdsKey, Bool.and_eq_true] at stands
    exact stands.1

/-! ### Overrun tests -/

theorem overrunCabin_eq_some {z : Zone} {k : Cabin} :
    s.overrunCabin z = some k ↔ s.occ z = { occupant := some k, past := true } ∧ (s.cabin k).secured = false := by
  unfold State.overrunCabin
  split
  · next j occ =>
    rw [occ]
    constructor
    · intro e
      split at e
      · cases e
      · next ajar => cases e; exact ⟨rfl, Bool.eq_false_iff.2 ajar⟩
    · rintro ⟨e, ajar⟩
      cases e
      rw [ajar]
      rfl
  · next other => exact ⟨nofun, fun h => absurd h.1 (other k)⟩

theorem testOverrun_grows {z : Zone}
    (crossed : ∀ k, s.occ z = { occupant := some k, past := true } → (s.cabin k).secured = false → P z k) :
    HoldsGrow P s (testOverrun z s) := by
  unfold testOverrun
  split
  · next k overruns =>
    obtain ⟨occ, ajar⟩ := overrunCabin_eq_some.1 overruns
    exact raiseHold_grows (fun y j e => by cases e; exact crossed k occ ajar) s
  · exact .refl s

theorem testOverrun_holdsKey {z : Zone} {k : Cabin} (occ : s.occ z = { occupant := some k, past := true })
    (ajar : (s.cabin k).secured = false) : (testOverrun z s).holdsKey (.zoneOverrun z) = true := by
  rw [testOverrun, overrunCabin_eq_some.2 ⟨occ, ajar⟩]
  dsimp only
  rw [raiseHold_holdsKey]
  simp [Hold.key]

theorem testCabin_of_outside {k : Cabin} (outside : (s.cabin k).location = none) : testCabin k s = s := by
  rw [testCabin, outside]

/-! ### Exits -/

theorem setCabin_setCabin (k : Cabin) (c d : CabinRecord) (s : State) :
    (s.setCabin k c).setCabin k d = s.setCabin k d := by
  simp [State.setCabin, State.setCabins]

/-- Outside the zones the end of a cycle has no overrun to test (R47, R70). -/
theorem gateCycleChange_outside (k : Cabin) (s : State) (outside : (s.cabin k).location = none) :
    gateCycleChange k (endCycle k s) = endCycle k s :=
  testCabin_of_outside (by simpa [endCycle] using outside)

theorem cabinExit_eq (k : Cabin) (s : State) :
    cabinExit k s = judgeExitBreach k (s.setCabin k (s.cabin k).left) := by
  unfold cabinExit
  dsimp only
  congr 1
  split
  · next idle => simp [CabinRecord.left, idle]
  · next busy =>
    rw [gateCycleChange_outside k _ (by simp)]
    simp [endCycle, setCabin_setCabin, CabinRecord.left, busy]

theorem judgeExitBreach_grows (k : Cabin) (s : State) : HoldsGrow P s (judgeExitBreach k s) := by
  unfold judgeExitBreach
  split
  · split
    · exact .refl s
    · exact .of_holds (notify_holds _ _)
    · exact raiseBreach_grows k s
  · exact .refl s

theorem zoneExit_holds (moved : Bool) (z : Zone) (k : Cabin) (s : State) :
    (zoneExit moved z k s).holds = (cabinExit k s).holds := by
  unfold zoneExit
  dsimp only
  split
  · rw [sequencerExit_holds]
    rfl
  · rfl

theorem zoneExit_grows (moved : Bool) (z : Zone) (k : Cabin) (s : State) : HoldsGrow P s (zoneExit moved z k s) := by
  refine .trans ?_ (.of_holds (zoneExit_holds moved z k s))
  rw [cabinExit_eq]
  exact (judgeExitBreach_grows k (s.setCabin k (s.cabin k).left)).after rfl

theorem notLocked_iff (d : Door) : d.notLocked = true ↔ d = .closed ∨ d = .opened ∨ d = .fault := by
  cases d <;> simp [Door.notLocked]

/-- An exit with a door not locked is a breach while the position is valid (R49). -/
theorem zoneExit_breached {moved : Bool} {z : Zone} {k : Cabin} (valid : s.positionValid = true)
    (ajar : (s.cabin k).door.notLocked = true) : (zoneExit moved z k s).Breached k := by
  unfold State.Breached
  rw [zoneExit_holds, cabinExit_eq, judgeExitBreach]
  rw [if_pos (show (s.setCabin k (s.cabin k).left).positionValid = true from valid), State.setCabin_cabin, if_pos rfl,
    CabinRecord.left_door]
  cases door : (s.cabin k).door with
  | locked => rw [door] at ajar; cases ajar
  | unknown => rw [door] at ajar; cases ajar
  | _ => exact raiseBreach_breached k _

theorem deliverExit_grows (moved : Bool) (old new : ByZone Occupancy) (z : Zone) (s : State) :
    HoldsGrow P s (deliverExit moved old new z s) := by
  unfold deliverExit
  split
  · split
    · exact .refl s
    · exact zoneExit_grows moved z _ s
  · exact .refl s

theorem deliverExit_breached {moved : Bool} {old new : ByZone Occupancy} {z : Zone} {k : Cabin}
    (leaves : InOnly old new z k) (valid : s.positionValid = true) (ajar : (s.cabin k).door.notLocked = true) :
    (deliverExit moved old new z s).Breached k := by
  rw [deliverExit, leaves.1]
  dsimp only
  rw [if_neg leaves.2]
  exact zoneExit_breached valid ajar

/-! ### Entries and crossings -/

/-- A zone has a new record with its occupant past the cutoff, and the occupant's record is not both LOCKED and
IDLE (R34, R70). -/
def Crosses (old new : ByZone Occupancy) (c : Cabin → CabinRecord) (z : Zone) (k : Cabin) : Prop :=
  new.get z = { occupant := some k, past := true } ∧ old.get z ≠ new.get z ∧ (c k).secured = false

theorem secured_of_notLocked {c : CabinRecord} (ajar : c.door.notLocked = true) : c.secured = false := by
  unfold CabinRecord.secured
  cases door : c.door with
  | locked => rw [door] at ajar; cases ajar
  | _ => rfl

/-- An entry tests for an overrun only where the opening is uncommanded (R46, R47). -/
theorem zoneEntry_grows {z : Zone} {k : Cabin}
    (crossed : s.occ z = { occupant := some k, past := true } → (s.cabin k).door.notLocked = true → P z k) :
    HoldsGrow P s (zoneEntry z k s) := by
  unfold zoneEntry
  dsimp only
  rw [State.setCabin_cabin, if_pos rfl]
  split
  · next opens =>
    obtain ⟨-, ajar⟩ := opens
    unfold uncommandedOpening gateCycleChange
    dsimp only
    generalize notice : Notice.uncommandedOpening k _ = n
    generalize told : notify n _ = w
    have holds : w.holds = s.holds := by rw [← told]; simp
    have tracker : w.tracker = s.tracker := by rw [← told]; simp
    have cabin : w.cabin k = { s.cabin k with location := some z, cycle := .cycling, releaseTime := none } := by
      rw [← told, notify_cabin]
      simp
    refine .trans (.of_holds holds) ?_
    rw [testCabin, cabin]
    dsimp only
    split
    · next here =>
      refine testOverrun_grows fun j occ _ => ?_
      rw [occ] at here
      cases here
      rw [State.occ_congr tracker] at occ
      exact crossed occ ajar
    · exact .refl w
  · exact .of_holds rfl

theorem deliverEntry_grows {old new : ByZone Occupancy} {c : Cabin → CabinRecord} {z : Zone}
    (occ : s.tracker.occ = new) (doors : ∀ k, (s.cabin k).door = (c k).door) :
    HoldsGrow (Crosses old new c) s (deliverEntry old new z s) := by
  unfold deliverEntry
  split
  · next k occupied =>
    split
    · exact .refl s
    · next enters =>
      refine zoneEntry_grows fun past ajar => ⟨by rw [← occ]; exact past, fun same => ?_,
        secured_of_notLocked (by rw [← doors]; exact ajar)⟩
      exact enters (by rw [same, occupied])
  · exact .refl s

theorem deliverCrossing_grows {old new : ByZone Occupancy} {c : Cabin → CabinRecord} {z : Zone}
    (occ : s.tracker.occ = new) (cabins : ∀ k, s.cabin k = c k) :
    HoldsGrow (Crosses old new c) s (deliverCrossing old new z s) := by
  unfold deliverCrossing
  split
  · next past =>
    exact testOverrun_grows fun k here ajar => ⟨by rw [← occ]; exact here, past.2, by rw [← cabins]; exact ajar⟩
  · exact .refl s

theorem deliverCrossing_raises {old new : ByZone Occupancy} {z : Zone} {k : Cabin} (occ : s.tracker.occ = new)
    (crosses : Crosses old new s.cabin z k) :
    (deliverCrossing old new z s).holdsKey (.zoneOverrun z) = true := by
  obtain ⟨here, other, ajar⟩ := crosses
  rw [deliverCrossing, if_pos ⟨by rw [here], other⟩]
  exact testOverrun_holdsKey (by rw [State.occ, occ, here]) ajar

/-! ### The moves from one membership to another -/

theorem deliverEntries_grows {old new : ByZone Occupancy} {c : Cabin → CabinRecord} (occ : s.tracker.occ = new)
    (doors : ∀ k, (s.cabin k).door = (c k).door) :
    HoldsGrow (Crosses old new c) s (deliverEntry old new .load (deliverEntry old new .unload s)) := by
  refine (deliverEntry_grows occ doors).trans (deliverEntry_grows (by simpa using occ) fun k => ?_)
  rw [deliverEntry_cabin, ← doors, CabinRecord.afterEntry]
  split
  · exact CabinRecord.entered_door _ _
  · rfl

theorem deliverMoves_grows {moved : Bool} {old new : ByZone Occupancy} (occ : s.tracker.occ = new) :
    HoldsGrow (Crosses old new ((deliverMoves moved old new s).cabin)) s (deliverMoves moved old new s) := by
  have doors (k : Cabin) : ((deliverMoves moved old new s).cabin k).door = (s.cabin k).door := by
    rw [deliverMoves_cabin]
    exact ((s.cabin k).moved_reports old new k).1
  generalize (deliverMoves moved old new s).cabin = c at doors ⊢
  rw [deliverMoves_eq]
  have exits := (deliverExit_grows (P := Crosses old new c) moved old new .unload s).trans
    (deliverExit_grows moved old new .load _)
  refine exits.trans (deliverEntries_grows (by simpa using occ) fun k => ?_)
  rw [doors, deliverExits_cabin, CabinRecord.afterExits]
  split <;> rfl

theorem deliverMoves_breached {moved : Bool} {old new : ByZone Occupancy} {z : Zone} {k : Cabin}
    (occ : s.tracker.occ = new) (leaves : InOnly old new z k) (valid : s.positionValid = true)
    (ajar : (s.cabin k).door.notLocked = true) : (deliverMoves moved old new s).Breached k := by
  rw [deliverMoves_eq]
  refine (deliverEntries_grows (by simpa using occ) fun _ => rfl).breach k ?_
  cases z with
  | unload =>
    exact (deliverExit_grows (P := fun _ _ => True) moved old new .load _).breach k
      (deliverExit_breached leaves valid ajar)
  | load =>
    refine deliverExit_breached leaves ?_ ?_
    · rw [State.positionValid, deliverExit_tracker]
      exact valid
    · rw [deliverExit_cabin]
      split <;> exact ajar

theorem deliverCrossings_grows {old new : ByZone Occupancy} (occ : s.tracker.occ = new) :
    HoldsGrow (Crosses old new s.cabin) s (deliverCrossings old new s) := by
  show HoldsGrow _ s (deliverCrossing old new .load (deliverCrossing old new .unload s))
  refine (deliverCrossing_grows occ fun _ => rfl).trans (deliverCrossing_grows (by simpa using occ) fun k => ?_)
  exact deliverCrossing_cabin _ _ _ _ k

theorem deliverCrossings_raises {old new : ByZone Occupancy} {z : Zone} {k : Cabin} (occ : s.tracker.occ = new)
    (crosses : Crosses old new s.cabin z k) :
    (deliverCrossings old new s).holdsKey (.zoneOverrun z) = true := by
  show (deliverCrossing old new .load (deliverCrossing old new .unload s)).holdsKey _ = true
  have later : (deliverCrossing old new .unload s).tracker.occ = new := by simpa using occ
  have cabins : (deliverCrossing old new .unload s).cabin = s.cabin :=
    funext (deliverCrossing_cabin _ _ _ _)
  cases z with
  | unload =>
    exact (deliverCrossing_grows (c := s.cabin) later (congrFun cabins)).keys _ nofun
      (deliverCrossing_raises occ crosses)
  | load => exact deliverCrossing_raises later (by rw [cabins]; exact crosses)

theorem sweepBreach_grows (s : State) : HoldsGrow P s (sweepBreach s) := by
  refine HoldsGrow.forEach (fun k s => ?_) _ s
  unfold judgeBreach
  split
  · exact raiseBreach_grows k s
  · exact .refl s

end Sys2Proof.Machine
end

