-- ==== Sys2Proof/Proofs/Passages.lean ====
section

/-!
# Exits at the sequencer and the gate

Of the moves between two memberships the sequencer takes the UNLOAD exit alone, and the gate clears the permit of
the cabin that leaves; every other permit stays or becomes CLEAR (R60, R62, R87, R91).
-/

namespace Sys2Proof.Machine

variable {s u v : State}

/-! ### The sequencer -/

/-- The sequencer after the passage of a listed cabin (R87, R91). -/
def Service.afterPassage (v : Service) (k : Cabin) (occupancy : Nat) : Service :=
  if 0 < occupancy then { v with list := v.list.erase k ++ [k] }
  else if v.list.erase k = [] then { v with mode := .cleared, list := [] }
  else { v with list := v.list.erase k }

theorem passage_service {k : Cabin} (mode : s.service.mode = .clearDown) :
    (passage k s).service = s.service.afterPassage k (s.cabin k).occupancy := by
  unfold passage Service.afterPassage
  split
  · next empty =>
    rw [if_neg (by omega)]
    unfold checkComplete
    split
    · next complete =>
      have last : s.service.list.erase k = [] := complete.2
      rw [if_pos last]
      simp [completeClearDown, putList, last]
    · next more =>
      have others : s.service.list.erase k ≠ [] := fun last => more ⟨mode, last⟩
      rw [if_neg others]
      rfl
  · next occupied =>
    rw [if_pos (by omega)]
    rfl

theorem passed_iff (s : State) (k : Cabin) :
    s.passed k = true ↔ ∃ p, s.tracker.accepted.value = some p ∧
      signedDistance (coordinate p k) (s.zone .unload).finish ≤ 0 := by
  unfold State.passed State.coord
  cases s.tracker.accepted.value <;> simp

/-- An UNLOAD exit of a listed cabin in CLEARDOWN that has passed the zone's end (R87). -/
def State.Passes (s : State) (k : Cabin) : Prop :=
  s.service.mode = .clearDown ∧ s.passed k = true ∧ k ∈ s.service.list

theorem State.passes_congr (tables : u.tables = s.tables) (tracker : u.tracker = s.tracker)
    (service : u.service = s.service) (k : Cabin) : u.Passes k ↔ s.Passes k := by
  have passed : u.passed k = s.passed k := by
    unfold State.passed State.coord State.zone
    rw [tracker, tables]
  rw [State.Passes, State.Passes, passed, service]

theorem sequencerExit_of_passes {k : Cabin} (passes : s.Passes k) :
    sequencerExit true k s = passage k s := by
  obtain ⟨mode, passed, listed⟩ := passes
  exact if_pos ⟨mode, rfl, passed, listed⟩

theorem sequencerExit_of_not {moved : Bool} {k : Cabin} (other : ¬ (moved = true ∧ s.Passes k)) :
    sequencerExit moved k s = s :=
  if_neg fun ⟨mode, moved, passed, listed⟩ => other ⟨moved, mode, passed, listed⟩

/-- The state in which the sequencer takes an exit. -/
theorem passes_at_exit (z : Zone) (k : Cabin) (s : State) :
    (clearPermitAt z k (cabinExit k s)).Passes k ↔ s.Passes k :=
  State.passes_congr (s := s) (by simp) (by simp) (by simp) k

theorem deliverExit_service_of_passes {old new : ByZone Occupancy} {k : Cabin} (leaves : InOnly old new .unload k)
    (passes : s.Passes k) :
    (deliverExit true old new .unload s).service = s.service.afterPassage k (s.cabin k).occupancy := by
  rw [deliverExit, leaves.1]
  dsimp only
  rw [if_neg leaves.2, zoneExit, if_pos rfl, sequencerExit_of_passes ((passes_at_exit _ k s).2 passes),
    passage_service ((passes_at_exit _ k s).2 passes).1]
  have occupancy : ((clearPermitAt .unload k (cabinExit k s)).cabin k).occupancy = (s.cabin k).occupancy := by
    rw [State.cabin_congr (s := cabinExit k s) (by simp), cabinExit_cabin, if_pos rfl]
    rfl
  rw [occupancy]
  simp

theorem deliverExit_service_of_not {moved : Bool} {old new : ByZone Occupancy} {z : Zone}
    (other : z = .unload → moved = true → ∀ k, InOnly old new .unload k → ¬ s.Passes k) :
    (deliverExit moved old new z s).service = s.service := by
  unfold deliverExit
  split
  · next k occupied =>
    split
    · rfl
    · next leaves =>
      unfold zoneExit
      dsimp only
      split
      · next here =>
        subst here
        rw [sequencerExit_of_not fun ⟨moved, passes⟩ =>
          other rfl moved k ⟨occupied, leaves⟩ ((passes_at_exit _ k s).1 passes)]
        simp
      · simp
  · rfl

/-- Entries and the LOAD exit leave the sequencer. -/
theorem deliverMoves_service (moved : Bool) (old new : ByZone Occupancy) (s : State) :
    (deliverMoves moved old new s).service = (deliverExit moved old new .unload s).service := by
  rw [deliverMoves_eq]
  simp [deliverExit_service_of_not (z := .load) (s := deliverExit moved old new .unload s) nofun]

/-! ### Permits -/

/-- Every permit stays or becomes CLEAR. -/
def PermitsClear (s u : State) : Prop := ∀ z, u.permits.get z = s.permits.get z ∨ u.permits.get z = .clear

namespace PermitsClear

theorem of_permits (h : u.permits = s.permits) : PermitsClear s u := fun z => .inl (by rw [h])

theorem trans (first : PermitsClear s v) (second : PermitsClear v u) : PermitsClear s u := fun z => by
  rcases second z with same | clear
  · rw [same]
    exact first z
  · exact .inr clear

theorem clear (h : PermitsClear s u) {z : Zone} (clear : s.permits.get z = .clear) : u.permits.get z = .clear :=
  (h z).elim (fun same => same.trans clear) id

end PermitsClear

theorem gateModeChange_permits (m : ServiceMode) (s : State) : PermitsClear s (gateModeChange m s) := by
  have under (z : Zone) (p : Permit) : p.underMode m z = p ∨ p.underMode m z = .clear := by
    unfold Permit.underMode
    split
    · split
      · exact .inl rfl
      · exact .inr rfl
    · exact .inl rfl
  intro z
  cases z
  · exact under .unload _
  · exact under .load _

theorem sequencerExit_permits (moved : Bool) (k : Cabin) (s : State) :
    PermitsClear s (sequencerExit moved k s) := by
  have checked (v : State) : PermitsClear v (checkComplete v) := by
    unfold checkComplete
    split
    · obtain ⟨w, same, e⟩ : ∃ w, w.permits = v.permits ∧
          completeClearDown v = stopToStandby (gateModeChange .cleared w) := by
        refine ⟨_, ?_, rfl⟩
        simp
      rw [e]
      exact .trans (.of_permits same) (.trans (gateModeChange_permits .cleared w) (.of_permits (by simp)))
    · exact .of_permits rfl
  unfold sequencerExit
  split
  · unfold passage
    split
    · exact checked _
    · exact .of_permits rfl
  · exact .of_permits rfl

theorem clearPermitAt_get (z : Zone) (k : Cabin) (s : State) (y : Zone) :
    (clearPermitAt z k s).permits.get y =
      if z = y then (s.permits.get y).releaseCabin k else s.permits.get y := by
  cases z <;> cases y <;> rfl

theorem clearPermitAt_permits (z : Zone) (k : Cabin) (s : State) : PermitsClear s (clearPermitAt z k s) := by
  intro y
  rw [clearPermitAt_get]
  split
  · unfold Permit.releaseCabin
    split
    · exact .inr rfl
    · exact .inl rfl
  · exact .inl rfl

theorem zoneExit_permits (moved : Bool) (z : Zone) (k : Cabin) (s : State) :
    PermitsClear (clearPermitAt z k (cabinExit k s)) (zoneExit moved z k s) := by
  unfold zoneExit
  dsimp only
  split
  · exact sequencerExit_permits moved k _
  · exact .of_permits rfl

theorem deliverExit_permits (moved : Bool) (old new : ByZone Occupancy) (z : Zone) (s : State) :
    PermitsClear s (deliverExit moved old new z s) := by
  unfold deliverExit
  split
  · split
    · exact .of_permits rfl
    · exact (PermitsClear.of_permits (by simp)).trans ((clearPermitAt_permits z _ _).trans (zoneExit_permits moved z _ s))
  · exact .of_permits rfl

/-- An exit clears the permit bound to the cabin (R60). -/
theorem deliverExit_clears {moved : Bool} {old new : ByZone Occupancy} {z : Zone} {k : Cabin}
    (leaves : InOnly old new z k) (bound : s.permits.get z = .clear ∨ (s.permits.get z).cabin = some k) :
    (deliverExit moved old new z s).permits.get z = .clear := by
  rw [deliverExit, leaves.1]
  dsimp only
  rw [if_neg leaves.2]
  refine (zoneExit_permits moved z k s).clear ?_
  rw [clearPermitAt_get, if_pos rfl, cabinExit_permits, Permit.releaseCabin]
  split
  · rfl
  · next other => exact bound.resolve_right other

theorem deliverMoves_clears {moved : Bool} {old new : ByZone Occupancy} {z : Zone} {k : Cabin}
    (leaves : InOnly old new z k) (bound : (s.permits.get z).cabin = some k) :
    (deliverMoves moved old new s).permits.get z = .clear := by
  have entries : (deliverMoves moved old new s).permits =
      (deliverExit moved old new .load (deliverExit moved old new .unload s)).permits := by
    rw [deliverMoves_eq]
    simp
  rw [entries]
  cases z with
  | unload => exact (deliverExit_permits moved old new .load _).clear (deliverExit_clears leaves (.inr bound))
  | load =>
    refine deliverExit_clears leaves ?_
    rcases deliverExit_permits moved old new .unload s .load with same | clear
    · exact .inr (by rw [same]; exact bound)
    · exact .inl clear

end Sys2Proof.Machine
end

