-- ==== Sys2Proof/Proofs/ReformedEffects.lean ====
section

/-!
# What a re-formation does beyond the tracker and the cabins

Each of the four cases of a re-formation delivers the moves from the membership before it to the membership of the
position as formed; what they do to the hold list, the sequencer, the permits and the notices is theirs (R33, R35,
R36).
-/

namespace Sys2Proof.Machine

variable {s u : State}

/-! ### The four cases -/

/-- The membership that a re-formation moves from: no cabin is in a zone while the position is invalid. -/
def State.occBefore (s : State) : ByZone Occupancy :=
  if s.tracker.accepted.valid = true then s.tracker.occ else emptyZones

/-- The membership of the position as the heads and the latch form it. -/
def State.occFormed (s : State) : ByZone Occupancy := membership s.tables.zones s.tracker.formed

theorem Placed.occBefore (h : Placed s) : s.occBefore = s.tracker.occ := by
  unfold State.occBefore
  split
  · rfl
  · next invalid => exact (h.occ_of_invalid (Bool.eq_false_iff.2 invalid)).symm

theorem occBefore_of_valid (valid : s.tracker.accepted.valid = true) : s.occBefore = s.tracker.occ := if_pos valid

theorem occBefore_of_invalid (invalid : s.tracker.accepted.valid = false) : s.occBefore = emptyZones :=
  if_neg (Bool.eq_false_iff.1 invalid)

theorem occFormed_of_invalid (invalid : s.tracker.formed.valid = false) : s.occFormed = emptyZones := by
  rw [State.occFormed, Accepted.eq_invalid_of_not_valid invalid, membership_invalid]

theorem reform_moves (valid : s.tracker.accepted.valid = true) (formed : s.tracker.formed.valid = true) :
    reform s = positionMoves s.tracker.accepted s.tracker.formed (putAccepted s.tracker.formed s) := by
  unfold reform
  dsimp only
  rw [valid, formed]

theorem reform_loses (valid : s.tracker.accepted.valid = true) (lost : s.tracker.formed.valid = false) :
    reform s = positionLost (putAccepted s.tracker.formed s) := by
  unfold reform
  dsimp only
  rw [valid, lost]

theorem reform_returns (invalid : s.tracker.accepted.valid = false) (formed : s.tracker.formed.valid = true) :
    reform s = positionReturns s.tracker.formed (putAccepted s.tracker.formed s) := by
  unfold reform
  dsimp only
  rw [invalid, formed]

theorem reform_stays (invalid : s.tracker.accepted.valid = false) (lost : s.tracker.formed.valid = false) :
    reform s = putAccepted s.tracker.formed s := by
  unfold reform
  dsimp only
  rw [invalid, lost]

theorem not_crosses_emptyZones {old : ByZone Occupancy} {c : Cabin → CabinRecord} {z : Zone} {k : Cabin} :
    ¬ Crosses old emptyZones c z k := by
  rintro ⟨here, -⟩
  cases z <;> cases here

/-! ### The position stays valid -/

/-- A valid position that stays valid recomputes the membership, after the notice of a new mode. -/
theorem reform_recomputes (valid : s.tracker.accepted.valid = true) (formed : s.tracker.formed.valid = true) :
    ∃ v, reform s = recompute true v ∧ v.tables = s.tables ∧
      v.tracker = { s.tracker with accepted := s.tracker.formed } ∧ v.cabins = s.cabins ∧
      v.permits = s.permits ∧ v.service = s.service ∧ v.holds = s.holds ∧
      (s.tracker.accepted.code = s.tracker.formed.code → v.lines = s.lines ∧ v.ring = s.ring) := by
  rw [reform_moves valid formed, positionMoves]
  refine ⟨_, rfl, ?_⟩
  split
  · exact ⟨rfl, rfl, rfl, rfl, rfl, rfl, fun _ => ⟨rfl, rfl⟩⟩
  · next other => exact ⟨by simp [putAccepted], by simp [putAccepted], by simp [putAccepted], by simp [putAccepted],
      by simp [putAccepted], by simp [putAccepted], fun same => absurd same other⟩

theorem recompute_eq (moved : Bool) (s : State) :
    recompute moved s =
      deliverCrossings s.tracker.occ (membership s.tables.zones s.tracker.accepted)
        (deliverMoves moved s.tracker.occ (membership s.tables.zones s.tracker.accepted)
          (putOcc (membership s.tables.zones s.tracker.accepted) s)) := rfl

theorem recompute_grows (moved : Bool) (s : State) :
    HoldsGrow (Crosses s.tracker.occ (membership s.tables.zones s.tracker.accepted) (recompute moved s).cabin) s
      (recompute moved s) := by
  rw [recompute_eq, funext (deliverCrossings_cabin _ _ _)]
  generalize membership s.tables.zones s.tracker.accepted = new
  have moves := deliverMoves_grows (moved := moved) (old := s.tracker.occ) (s := putOcc new s) (new := new) rfl
  exact (moves.trans (deliverCrossings_grows (by simp [putOcc]))).after rfl

theorem recompute_raises {moved : Bool} {z : Zone} {k : Cabin}
    (crosses : Crosses s.tracker.occ (membership s.tables.zones s.tracker.accepted) (recompute moved s).cabin z k) :
    (recompute moved s).holdsKey (.zoneOverrun z) = true := by
  rw [recompute_eq, funext (deliverCrossings_cabin _ _ _)] at crosses
  rw [recompute_eq]
  exact deliverCrossings_raises (by simp [putOcc]) crosses

/-! ### The hold list -/

theorem positionLost_grows (P : Zone → Cabin → Prop) (s : State) : HoldsGrow P s (positionLost s) := by
  have moves := deliverMoves_grows (moved := false) (old := s.tracker.occ) (s := putOcc emptyZones s) rfl
  have none := (moves.mono (Q := P) fun z k crosses => absurd crosses not_crosses_emptyZones).after (s := s) rfl
  exact none.trans (.of_holds (notify_holds _ _))

theorem positionReturns_grows (a : Accepted) (s : State) :
    HoldsGrow (Crosses emptyZones (membership s.tables.zones a) (positionReturns a s).cabin) s
      (positionReturns a s) := by
  have cabins : (positionReturns a s).cabin = (deliverMoves false emptyZones (membership s.tables.zones a)
      (putOcc (membership s.tables.zones a) s)).cabin :=
    funext (State.cabin_congr (by simp [positionReturns]))
  rw [cabins]
  unfold positionReturns
  dsimp only
  generalize membership s.tables.zones a = new
  have moves := deliverMoves_grows (moved := false) (old := emptyZones) (s := putOcc new s) (new := new) rfl
  have occ : (deliverMoves false emptyZones new (putOcc new s)).tracker.occ = new := by simp [putOcc]
  generalize deliverMoves false emptyZones new (putOcc new s) = v at moves occ ⊢
  have swept : (sweepBreach v).cabin = v.cabin := funext (State.cabin_congr (by simp))
  have crossings := deliverCrossings_grows (s := sweepBreach v) (old := emptyZones) (new := new) (by simpa using occ)
  rw [swept] at crossings
  have told : HoldsGrow (Crosses emptyZones new v.cabin) s
      (notify (.positionMode a) (deliverCrossings emptyZones new (sweepBreach v))) :=
    ((moves.after (s := s) rfl).trans ((sweepBreach_grows v).trans crossings)).trans
      (.of_holds (notify_holds _ _))
  exact told.trans (clearPositionLost_grows _)

theorem positionReturns_raises {a : Accepted} {z : Zone} {k : Cabin}
    (crosses : Crosses emptyZones (membership s.tables.zones a) (positionReturns a s).cabin z k) :
    (positionReturns a s).holdsKey (.zoneOverrun z) = true := by
  have cabins : (positionReturns a s).cabin = (sweepBreach (deliverMoves false emptyZones
      (membership s.tables.zones a) (putOcc (membership s.tables.zones a) s))).cabin :=
    funext (State.cabin_congr (by simp [positionReturns]))
  rw [cabins] at crosses
  unfold positionReturns
  dsimp only
  have raised := deliverCrossings_raises (by simp [putOcc]) crosses
  rw [clearHold_holdsKey, State.holdsKey_congr (notify_holds _ _), raised]
  rfl

/-- The position's return clears POSITION_LOST (R36). -/
theorem positionReturns_clears (a : Accepted) (s : State) :
    (positionReturns a s).holdsKey .positionLost = false := by
  unfold positionReturns
  rw [clearHold_holdsKey]
  simp

theorem reform_grows (s : State) :
    HoldsGrow (Crosses s.occBefore s.occFormed (reform s).cabin) s (reform s) := by
  cases valid : s.tracker.accepted.valid <;> cases formed : s.tracker.formed.valid
  case true.true =>
    obtain ⟨v, e, tables, tracker, -, -, -, holds, -⟩ := reform_recomputes valid formed
    have grows := recompute_grows true v
    rw [tables, tracker] at grows
    rw [occBefore_of_valid valid, e]
    exact grows.after holds
  case true.false =>
    rw [reform_loses valid formed]
    exact (positionLost_grows _ (putAccepted s.tracker.formed s)).after rfl
  case false.true =>
    rw [occBefore_of_invalid valid, reform_returns valid formed]
    exact (positionReturns_grows s.tracker.formed (putAccepted s.tracker.formed s)).after rfl
  case false.false =>
    rw [reform_stays valid formed]
    exact .of_holds rfl

theorem reform_raises {z : Zone} {k : Cabin} (crosses : Crosses s.occBefore s.occFormed (reform s).cabin z k) :
    (reform s).holdsKey (.zoneOverrun z) = true := by
  cases formed : s.tracker.formed.valid
  case false =>
    rw [occFormed_of_invalid formed] at crosses
    exact absurd crosses not_crosses_emptyZones
  cases valid : s.tracker.accepted.valid
  case true =>
    obtain ⟨v, e, tables, tracker, -⟩ := reform_recomputes valid formed
    rw [occBefore_of_valid valid, e] at crosses
    rw [e]
    refine recompute_raises (k := k) ?_
    rw [tables, tracker]
    exact crosses
  case false =>
    rw [occBefore_of_invalid valid, reform_returns valid formed] at crosses
    rw [reform_returns valid formed]
    exact positionReturns_raises crosses

/-- A cabin that leaves a zone with its door not locked breaches, while the position is valid (R49). -/
theorem reform_breached {z : Zone} {k : Cabin} (formed : s.tracker.formed.valid = true)
    (leaves : InOnly s.occBefore s.occFormed z k) (ajar : (s.cabin k).door.notLocked = true) :
    (reform s).Breached k := by
  cases valid : s.tracker.accepted.valid
  case false =>
    rw [occBefore_of_invalid valid] at leaves
    cases z <;> cases leaves.1
  case true =>
    rw [occBefore_of_valid valid] at leaves
    obtain ⟨v, e, tables, tracker, cabins, -⟩ := reform_recomputes valid formed
    rw [e, recompute_eq, tables, tracker]
    refine (deliverCrossings_grows (by simp [putOcc])).breach k ?_
    refine deliverMoves_breached rfl leaves ?_ ?_
    · show v.tracker.accepted.valid = true
      rw [tracker]
      exact formed
    · show (v.cabin k).door.notLocked = true
      rw [State.cabin_congr cabins]
      exact ajar

/-! ### The sequencer -/

theorem recompute_service (moved : Bool) (s : State) :
    (recompute moved s).service = (deliverExit moved s.tracker.occ
      (membership s.tables.zones s.tracker.accepted) .unload
      (putOcc (membership s.tables.zones s.tracker.accepted) s)).service := by
  rw [recompute_eq, deliverCrossings_service, deliverMoves_service]

/-- An UNLOAD exit, with the position valid before and after, of a listed cabin in CLEARDOWN that is past the zone's
end (R87). -/
def State.PassesFormed (s : State) (k : Cabin) : Prop :=
  s.service.mode = .clearDown ∧ s.tracker.accepted.valid = true ∧ k ∈ s.service.list ∧
    InOnly s.tracker.occ s.occFormed .unload k ∧
    ∃ p, s.tracker.formed.value = some p ∧ signedDistance (coordinate p k) (s.zone .unload).finish ≤ 0

theorem reform_service_of_passes {k : Cabin} (passes : s.PassesFormed k) :
    (reform s).service = s.service.afterPassage k (s.cabin k).occupancy := by
  obtain ⟨mode, valid, listed, leaves, p, value, passed⟩ := passes
  have formed : s.tracker.formed.valid = true := by rw [Accepted.valid, value]; rfl
  obtain ⟨v, e, tables, tracker, cabins, -, service, -⟩ := reform_recomputes valid formed
  have zone : v.zone .unload = s.zone .unload := by rw [State.zone, tables, State.zone]
  rw [e, recompute_service, ← service, ← State.cabin_congr cabins]
  refine deliverExit_service_of_passes (s := putOcc _ v) ?_ ⟨?_, ?_, ?_⟩
  · rw [tables, tracker]
    exact leaves
  · exact (congrArg Service.mode service).trans mode
  · refine (passed_iff _ k).2 ⟨p, ?_, ?_⟩
    · show v.tracker.accepted.value = some p
      rw [tracker]
      exact value
    · show signedDistance (coordinate p k) (v.zone .unload).finish ≤ 0
      rw [zone]
      exact passed
  · show k ∈ v.service.list
    rw [service]
    exact listed

theorem reform_service_of_not (none : ∀ k, ¬ s.PassesFormed k) : (reform s).service = s.service := by
  cases valid : s.tracker.accepted.valid <;> cases formed : s.tracker.formed.valid
  case true.true =>
    obtain ⟨v, e, tables, tracker, -, -, service, -⟩ := reform_recomputes valid formed
    have zone : v.zone .unload = s.zone .unload := by rw [State.zone, tables, State.zone]
    rw [e, recompute_service, deliverExit_service_of_not]
    · exact service
    · rintro - - k leaves ⟨mode, passed, listed⟩
      obtain ⟨p, value, passed⟩ := (passed_iff _ k).1 passed
      refine none k ⟨?_, valid, ?_, ?_, p, ?_, ?_⟩
      · rw [← service]
        exact mode
      · rw [← service]
        exact listed
      · rw [tables, tracker] at leaves
        exact leaves
      · rw [← show v.tracker.accepted = s.tracker.formed by rw [tracker]]
        exact value
      · rw [← zone]
        exact passed
  case true.false =>
    rw [reform_loses valid formed, positionLost, notify_service, deliverMoves_service,
      deliverExit_service_of_not (moved := false) nofun]
    rfl
  case false.true =>
    rw [reform_returns valid formed]
    have returned : (positionReturns s.tracker.formed (putAccepted s.tracker.formed s)).service =
        (deliverMoves false emptyZones s.occFormed
          (putOcc s.occFormed (putAccepted s.tracker.formed s))).service := by
      simp [positionReturns, putAccepted, State.occFormed]
    rw [returned, deliverMoves_service, deliverExit_service_of_not (moved := false) nofun]
    rfl
  case false.false =>
    rw [reform_stays valid formed]
    rfl

/-! ### The permits -/

/-- A zone exit clears the permit bound to the cabin (R60). -/
theorem reform_clears {z : Zone} {k : Cabin} (leaves : InOnly s.occBefore s.occFormed z k)
    (bound : (s.permits.get z).cabin = some k) : (reform s).permits.get z = .clear := by
  cases valid : s.tracker.accepted.valid
  case false =>
    rw [occBefore_of_invalid valid] at leaves
    cases z <;> cases leaves.1
  rw [occBefore_of_valid valid] at leaves
  cases formed : s.tracker.formed.valid
  case true =>
    obtain ⟨v, e, tables, tracker, -, permits, -⟩ := reform_recomputes valid formed
    rw [e, recompute_eq, deliverCrossings_permits, tables, tracker]
    refine deliverMoves_clears leaves ?_
    show (v.permits.get z).cabin = some k
    rw [permits]
    exact bound
  case false =>
    rw [occFormed_of_invalid formed] at leaves
    rw [reform_loses valid formed, positionLost, notify_permits]
    exact deliverMoves_clears leaves bound

/-! ### The notice of an exit with the door UNKNOWN -/

theorem deliverExit_of_same {moved : Bool} {old new : ByZone Occupancy} {z : Zone} (same : old.get z = new.get z) :
    deliverExit moved old new z s = s := by
  unfold deliverExit
  split
  · next k occupied => exact if_pos (by rw [← same, occupied])
  · rfl

theorem deliverEntry_of_same {old new : ByZone Occupancy} {z : Zone} (same : old.get z = new.get z) :
    deliverEntry old new z s = s := by
  unfold deliverEntry
  split
  · next k occupied => exact if_pos (by rw [same, occupied])
  · rfl

theorem deliverEntry_of_none {old new : ByZone Occupancy} {z : Zone} (none : (new.get z).occupant = none) :
    deliverEntry old new z s = s := by
  rw [deliverEntry, none]

theorem deliverCrossing_of_same {old new : ByZone Occupancy} {z : Zone} (same : old.get z = new.get z) :
    deliverCrossing old new z s = s :=
  if_neg fun h => h.2 same

theorem membership_past_of_none {zones : ByZone ZoneEntry} {a : Accepted} {z : Zone}
    (none : ((membership zones a).get z).occupant = none) : ((membership zones a).get z).past = false := by
  cases value : a.value with
  | none =>
    rw [membership, value]
    cases z <;> rfl
  | some p =>
    rw [membership_of_value value] at none ⊢
    unfold occupancyAt at none ⊢
    split at none
    · cases none
    · rfl

/-- Of the moves in which one cabin leaves its zone empty and the other zone stands, its exit is all. -/
theorem recompute_of_exit {z : Zone} {k : Cabin} (occupied : (s.tracker.occ.get z).occupant = some k)
    (none : ((membership s.tables.zones s.tracker.accepted).get z).occupant = none)
    (others : ∀ y, y ≠ z → s.tracker.occ.get y = (membership s.tables.zones s.tracker.accepted).get y) :
    recompute true s = zoneExit true z k (putOcc (membership s.tables.zones s.tracker.accepted) s) := by
  have past := membership_past_of_none none
  rw [recompute_eq]
  generalize membership s.tables.zones s.tracker.accepted = new at *
  generalize s.tracker.occ = old at *
  have exit (v : State) : deliverExit true old new z v = zoneExit true z k v := by
    rw [deliverExit, occupied]
    dsimp only
    rw [none, if_neg nofun]
  have crossing (v : State) : deliverCrossing old new z v = v := if_neg fun h => by rw [past] at h; cases h.1
  rw [deliverMoves_eq]
  show deliverCrossing old new .load (deliverCrossing old new .unload _) = _
  cases z with
  | unload =>
    have load := others .load nofun
    rw [exit, deliverExit_of_same load, deliverEntry_of_none none, deliverEntry_of_same load, crossing,
      deliverCrossing_of_same load]
  | load =>
    have unload := others .unload nofun
    rw [deliverExit_of_same unload, exit, deliverEntry_of_same unload, deliverEntry_of_none none,
      deliverCrossing_of_same unload, crossing]

/-- The exit of an idle cabin with its door UNKNOWN is told of (R49). -/
theorem zoneExit_told {z : Zone} {k : Cabin} (valid : u.positionValid = true)
    (door : (u.cabin k).door = .unknown) (mode : u.service.mode ≠ .clearDown) (desk : SameDesk s u) :
    SameDesk (notify (.unknownOutside k) s) (zoneExit true z k u) := by
  have exit : cabinExit k u = notify (.unknownOutside k) (u.setCabin k (u.cabin k).left) := by
    rw [cabinExit_eq, judgeExitBreach,
      if_pos (show (u.setCabin k (u.cabin k).left).positionValid = true from valid), State.setCabin_cabin, if_pos rfl,
      CabinRecord.left_door, door]
  have told : SameDesk (notify (.unknownOutside k) s) (clearPermitAt z k (cabinExit k u)) := by
    rw [exit]
    exact ((desk.aside (v := u.setCabin k (u.cabin k).left) ⟨rfl, rfl, rfl⟩).notify _).aside ⟨rfl, rfl, rfl⟩
  unfold zoneExit
  dsimp only
  rw [sequencerExit_of_not fun h => mode ((passes_at_exit z k u).1 h.2).1, ite_self]
  exact told

theorem reform_told {z : Zone} {k : Cabin} (valid : s.tracker.accepted.valid = true)
    (formed : s.tracker.formed.valid = true) (code : s.tracker.accepted.code = s.tracker.formed.code)
    (occupied : (s.tracker.occ.get z).occupant = some k) (none : (s.occFormed.get z).occupant = none)
    (others : ∀ y, y ≠ z → s.tracker.occ.get y = s.occFormed.get y) (door : (s.cabin k).door = .unknown)
    (mode : s.service.mode ≠ .clearDown) :
    SameDesk (notify (.unknownOutside k) s) (reform s) := by
  obtain ⟨v, e, tables, tracker, cabins, -, service, -, kept⟩ := reform_recomputes valid formed
  obtain ⟨lines, ring⟩ := kept code
  have new : membership v.tables.zones v.tracker.accepted = s.occFormed := by rw [tables, tracker]; rfl
  have old : v.tracker.occ = s.tracker.occ := by rw [tracker]
  have desk : SameDesk s v := (SameDesk.mk rfl rfl rfl rfl : SameDesk s s).aside ⟨lines, tables, ring⟩
  rw [e, recompute_of_exit (k := k) (by rw [old]; exact occupied) (by rw [new]; exact none)
    (fun y other => by rw [old, new]; exact others y other)]
  refine zoneExit_told ?_ ?_ ?_ (desk.aside ⟨rfl, rfl, rfl⟩)
  · show v.tracker.accepted.valid = true
    rw [tracker]
    exact formed
  · show (v.cabin k).door = .unknown
    rw [State.cabin_congr cabins]
    exact door
  · show v.service.mode ≠ .clearDown
    rw [service]
    exact mode

end Sys2Proof.Machine
end

