-- ==== Sys2Proof/Proofs/PositionReports.lean ====
section

/-!
# POSITION reports

A report in range sets its head, compares the heads where both are fresh, and re-forms the position (R26, R28, R29).
-/

namespace Sys2Proof.Machine

variable {s u v : State} {e : EncoderId} {p : Nat} {h : Health}

/-! ### Health, heads and the comparison -/

/-- The state before the re-formation: the head set, and the heads compared (R26, R28). -/
def reported (e : EncoderId) (p : Nat) (h : Health) (s : State) : State :=
  compareHeads (s.setTracker (s.tracker.setHead e ((s.tracker.head e).report p s.lines.now h)))

/-- The tracker as a report leaves it before the re-formation. -/
def State.reportedTracker (s : State) (e : EncoderId) (p : Nat) (h : Health) : Tracker :=
  (s.tracker.setHead e ((s.tracker.head e).report p s.lines.now h)).afterComparison (s.p 14)

theorem encoderReport_eq (range : p < 393216) :
    encoderReport e p h s = reformAfter s.tracker.anyFresh (reported e p h s) := if_pos range

theorem reported_tracker : (reported e p h s).tracker = s.reportedTracker e p h := compareHeads_tracker _

theorem reported_frame : (reported e p h s).tables = s.tables ∧ (reported e p h s).cabins = s.cabins ∧
    (reported e p h s).permits = s.permits ∧ (reported e p h s).service = s.service := by
  obtain ⟨-, -, tables, cabins, permits, service, -⟩ := compareHeads_frame
    (s.setTracker (s.tracker.setHead e ((s.tracker.head e).report p s.lines.now h)))
  exact ⟨tables, cabins, permits, service⟩

theorem Tracker.setHead_rest (tr : Tracker) (e : EncoderId) (x : EncoderHead) :
    (tr.setHead e x).disagreements = tr.disagreements ∧ (tr.setHead e x).latch = tr.latch ∧
      (tr.setHead e x).accepted = tr.accepted ∧ (tr.setHead e x).occ = tr.occ := by
  cases e <;> exact ⟨rfl, rfl, rfl, rfl⟩

theorem Tracker.afterComparison_rest (tr : Tracker) (tolerance : Nat) :
    (∀ e, (tr.afterComparison tolerance).head e = tr.head e) ∧
      (tr.afterComparison tolerance).accepted = tr.accepted ∧
      (tr.afterComparison tolerance).occ = tr.occ := by
  rw [tr.afterComparison_eq tolerance]
  exact ⟨fun e => by cases e <;> rfl, rfl, rfl⟩

theorem reportedTracker_rest :
    (s.reportedTracker e p h).accepted = s.tracker.accepted ∧ (s.reportedTracker e p h).occ = s.tracker.occ := by
  obtain ⟨-, accepted, occ⟩ := (s.tracker.setHead e
    ((s.tracker.head e).report p s.lines.now h)).afterComparison_rest (s.p 14)
  obtain ⟨-, -, accepted', occ'⟩ := s.tracker.setHead_rest e ((s.tracker.head e).report p s.lines.now h)
  exact ⟨accepted.trans accepted', occ.trans occ'⟩

theorem reportedTracker_head (d : EncoderId) :
    (s.reportedTracker e p h).head d =
      if e = d then (s.tracker.head e).report p s.lines.now h else s.tracker.head d := by
  rw [State.reportedTracker, (Tracker.afterComparison_rest _ _).1, Tracker.setHead_head]

/-- The comparison, where both heads are fresh, and nothing otherwise (R28). -/
theorem Tracker.afterComparison_spec (tr : Tracker) (tolerance : Nat) :
    match tr.headA.fresh, tr.headB.fresh with
    | true, true =>
      ∀ a b, tr.headA.latest = some a → tr.headB.latest = some b →
        let apart := max a b - min a b
        if min apart (393216 - apart) ≤ tolerance then
          (tr.afterComparison tolerance).disagreements = 0 ∧ (tr.afterComparison tolerance).latch = false
        else
          (tr.afterComparison tolerance).disagreements = min 3 (tr.disagreements + 1) ∧
            (tr.afterComparison tolerance).latch =
              (tr.latch || (tr.afterComparison tolerance).disagreements == 3)
    | _, _ =>
      (tr.afterComparison tolerance).disagreements = tr.disagreements ∧
        (tr.afterComparison tolerance).latch = tr.latch := by
  cases freshA : tr.headA.fresh <;> cases freshB : tr.headB.fresh
  case true.true =>
    intro a b latestA latestB
    have compared : tr.afterComparison tolerance = tr.compared (circularDifference a b) tolerance := by
      simp [afterComparison, bothFresh, freshA, freshB, latestA, latestB]
    rw [compared]
    show if circularDifference a b ≤ tolerance then _ else _
    unfold Tracker.compared
    split <;> exact ⟨rfl, rfl⟩
  all_goals
    have idle : tr.afterComparison tolerance = tr := by simp [afterComparison, bothFresh, freshA, freshB]
    rw [idle]
    exact ⟨rfl, rfl⟩

/-- The accepted position as the latch and the fresh heads give it (R29). -/
theorem Tracker.formed_spec {tr : Tracker} (known : ∀ e, (tr.head e).fresh = true → (tr.head e).latest ≠ none) :
    match tr.latch, tr.headA.fresh, tr.headB.fresh with
    | true, _, _ => tr.formed = .invalid
    | false, true, true => ∃ a, tr.headA.latest = some a ∧ tr.formed = .dual a
    | false, true, false => ∃ a, tr.headA.latest = some a ∧ tr.formed = .single a
    | false, false, true => ∃ b, tr.headB.latest = some b ∧ tr.formed = .single b
    | false, false, false => tr.formed = .invalid := by
  have latestA : tr.headA.fresh = true → ∃ a, tr.headA.latest = some a :=
    fun fresh => Option.ne_none_iff_exists'.1 (known .a fresh)
  have latestB : tr.headB.fresh = true → ∃ b, tr.headB.latest = some b :=
    fun fresh => Option.ne_none_iff_exists'.1 (known .b fresh)
  cases latch : tr.latch
  case true => simp [formed, latch]
  cases freshA : tr.headA.fresh
  case true =>
    obtain ⟨a, latest⟩ := latestA freshA
    cases freshB : tr.headB.fresh <;> exact ⟨a, latest, by simp [formed, latch, freshA, freshB, latest]⟩
  cases freshB : tr.headB.fresh
  case true =>
    obtain ⟨b, latest⟩ := latestB freshB
    exact ⟨b, latest, by simp [formed, latch, freshA, freshB, latest]⟩
  simp [formed, latch, freshA, freshB]

theorem anyFresh_of_formed {tr : Tracker} (formed : tr.formed.valid = true) : tr.anyFresh = true := by
  by_contra stale
  obtain ⟨a, b⟩ := Bool.or_eq_false_iff.1 (Bool.eq_false_iff.2 stale)
  rw [formed_of_no_fresh (fun e => by cases e <;> assumption)] at formed
  cases formed

theorem latch_of_formed {tr : Tracker} (formed : tr.formed.valid = true) : tr.latch = false := by
  by_contra latched
  rw [Bool.not_eq_false] at latched
  simp [Tracker.formed, latched, Accepted.valid, Accepted.value] at formed

/-- A latch newly set raises ENCODER_DISAGREE; else the comparison is of the tracker alone (R28). -/
theorem compareHeads_eq (s : State) :
    compareHeads s =
      if (s.tracker.afterComparison (s.p 14)).latch = true ∧ s.tracker.latch = false then
        raiseHold .encoderDisagree (s.setTracker (s.tracker.afterComparison (s.p 14)))
      else s.setTracker (s.tracker.afterComparison (s.p 14)) := by
  unfold compareHeads Tracker.afterComparison
  cases s.tracker.bothFresh <;> cases s.tracker.headA.latest <;> cases s.tracker.headB.latest
  case true.some.some => simp
  all_goals
    have idle : ¬ (s.tracker.latch = true ∧ s.tracker.latch = false) := fun ⟨set, clear⟩ => nomatch set.symm.trans clear
    exact (if_neg idle).symm

theorem reported_eq :
    reported e p h s =
      if (s.reportedTracker e p h).latch = true ∧ s.tracker.latch = false then
        raiseHold .encoderDisagree (s.setTracker (s.reportedTracker e p h))
      else s.setTracker (s.reportedTracker e p h) := by
  rw [reported, compareHeads_eq]
  show (if (s.reportedTracker e p h).latch = true ∧ (s.tracker.setHead e _).latch = false then _ else _) = _
  rw [(Tracker.setHead_rest _ _ _).2.1]
  rfl

/-! ### After the re-formation -/

theorem reformAfter_rest (was : Bool) (s : State) :
    (reformAfter was s).cabins = (reform s).cabins ∧ (reformAfter was s).permits = (reform s).permits ∧
      (reformAfter was s).service = (reform s).service := by
  unfold reformAfter
  dsimp only
  split
  · simp
  · exact ⟨rfl, rfl, rfl⟩

theorem reformAfter_grows {P : Zone → Cabin → Prop} (was : Bool) (s : State) :
    HoldsGrow P (reform s) (reformAfter was s) := by
  unfold reformAfter
  dsimp only
  split
  · exact raiseHold_grows nofun _
  · exact .refl _

theorem reformAfter_of_fresh {was : Bool} (fresh : s.tracker.anyFresh = true) : reformAfter was s = reform s := by
  have still : (reform s).tracker.anyFresh = true := by
    rw [reform_tracker]
    exact fresh
  unfold reformAfter
  dsimp only
  rw [still]
  exact if_neg (by simp)

theorem encoderReport_tracker (range : p < 393216) :
    (encoderReport e p h s).tracker =
      { s.reportedTracker e p h with
        accepted := (s.reportedTracker e p h).formed, occ := (reported e p h s).reformedOcc } := by
  rw [encoderReport_eq range, reformAfter_tracker, reform_tracker, reported_tracker]

theorem encoderReport_head (range : p < 393216) (d : EncoderId) :
    (encoderReport e p h s).tracker.head d = (s.reportedTracker e p h).head d := by
  rw [encoderReport_tracker range]
  cases d <;> rfl

theorem reported_grows {P : Zone → Cabin → Prop} : HoldsGrow P s (reported e p h s) := by
  rw [reported_eq]
  split
  · exact (raiseHold_grows nofun (s.setTracker (s.reportedTracker e p h))).after rfl
  · exact .of_holds rfl

theorem encoderReport_grows (range : p < 393216) :
    HoldsGrow (Crosses (reported e p h s).occBefore (reported e p h s).occFormed (encoderReport e p h s).cabin) s
      (encoderReport e p h s) := by
  rw [encoderReport_eq range, show (reformAfter s.tracker.anyFresh (reported e p h s)).cabin =
    (reform (reported e p h s)).cabin from funext (State.cabin_congr (reformAfter_rest _ _).1)]
  exact reported_grows.trans ((reform_grows _).trans (reformAfter_grows _ _))

/-! ### The encoder clauses -/

theorem encoderReport_disagree (range : p < 393216) (before : s.tracker.latch = false)
    (latched : (encoderReport e p h s).tracker.latch = true) :
    (encoderReport e p h s).holdsKey .encoderDisagree = true := by
  rw [encoderReport_tracker range] at latched
  have raised : (reported e p h s).holdsKey .encoderDisagree = true := by
    rw [reported_eq, if_pos ⟨latched, before⟩, raiseHold_holdsKey]
    exact Bool.or_true _
  rw [encoderReport_eq range]
  exact (reformAfter_grows (P := fun _ _ => True) _ _).keys _ nofun ((reform_grows _).keys _ nofun raised)

theorem encoderReport_lost (range : p < 393216) (was : s.tracker.anyFresh = true)
    (stale : (encoderReport e p h s).tracker.anyFresh = false) :
    (encoderReport e p h s).holdsKey .positionLost = true := by
  rw [encoderReport_eq range] at stale ⊢
  rw [reformAfter_tracker] at stale
  unfold reformAfter
  dsimp only
  rw [was, stale, if_pos (by rfl), raiseHold_holdsKey]
  exact Bool.or_true _

theorem encoderReport_returns (range : p < 393216) (before : s.tracker.accepted = .invalid)
    (valid : (encoderReport e p h s).tracker.accepted ≠ .invalid) :
    (encoderReport e p h s).holdsKey .positionLost = false := by
  rw [encoderReport_tracker range] at valid
  have formed : (reported e p h s).tracker.formed.valid = true := by
    rw [reported_tracker]
    exact Accepted.valid_of_ne_invalid valid
  have invalid : (reported e p h s).tracker.accepted.valid = false := by
    rw [reported_tracker, reportedTracker_rest.1, before]
    rfl
  rw [encoderReport_eq range, reformAfter_of_fresh (anyFresh_of_formed formed), reform_returns invalid formed]
  exact positionReturns_clears _ _

/-- The moves leave doors, occupancies, report times and overloaded flags. -/
theorem encoderReport_reports (range : p < 393216) (k : Cabin) :
    ((encoderReport e p h s).cabin k).door = (s.cabin k).door ∧
      ((encoderReport e p h s).cabin k).occupancy = (s.cabin k).occupancy ∧
      ((encoderReport e p h s).cabin k).lastReport = (s.cabin k).lastReport ∧
      ((encoderReport e p h s).cabin k).overloaded = (s.cabin k).overloaded := by
  rw [encoderReport_eq range, State.cabin_congr (reformAfter_rest _ _).1,
    ← State.cabin_congr (u := reported e p h s) (s := s) reported_frame.2.1]
  cases valid : (reported e p h s).tracker.accepted.valid with
  | true =>
    rw [reform_cabin_of_valid valid]
    exact CabinRecord.moved_reports _ _ _ _
  | false =>
    rw [reform_cabin_of_invalid valid]
    exact CabinRecord.moved_reports _ _ _ _

/-! ### The sequencer -/

theorem passesFormed_iff (range : p < 393216) (k : Cabin) :
    (reported e p h s).PassesFormed k ↔
      s.service.mode = .clearDown ∧ s.tracker.accepted ≠ .invalid ∧ k ∈ s.service.list ∧
        (s.occ .unload).occupant = some k ∧ ((encoderReport e p h s).occ .unload).occupant ≠ some k ∧
        ∃ q, (encoderReport e p h s).tracker.accepted.value = some q ∧
          signedDistance (coordinate q k) (s.zone .unload).finish ≤ 0 := by
  obtain ⟨tables, -, -, service⟩ := reported_frame (s := s) (e := e) (p := p) (h := h)
  obtain ⟨accepted, occ⟩ := reportedTracker_rest (s := s) (e := e) (p := p) (h := h)
  have tracker := encoderReport_tracker (s := s) (e := e) (h := h) range
  have zone : (reported e p h s).zone .unload = s.zone .unload := by rw [State.zone, tables, State.zone]
  have valid_iff : s.tracker.accepted.valid = true ↔ s.tracker.accepted ≠ .invalid :=
    ⟨Accepted.ne_invalid_of_valid, Accepted.valid_of_ne_invalid⟩
  have new (valid : s.tracker.accepted.valid = true) :
      (encoderReport e p h s).occ .unload = (reported e p h s).occFormed.get .unload := by
    rw [State.occ, tracker, State.reformedOcc, reported_tracker, accepted, valid, State.occFormed, reported_tracker]
    rfl
  unfold State.PassesFormed InOnly
  rw [service, zone, reported_tracker, accepted, occ, valid_iff, show
    (encoderReport e p h s).tracker.accepted = (s.reportedTracker e p h).formed by rw [tracker]]
  constructor
  · rintro ⟨mode, valid, listed, ⟨old, left⟩, passed⟩
    exact ⟨mode, valid, listed, old, by rw [new (valid_iff.2 valid)]; exact left, passed⟩
  · rintro ⟨mode, valid, listed, old, left, passed⟩
    exact ⟨mode, valid, listed, ⟨old, by rw [← new (valid_iff.2 valid)]; exact left⟩, passed⟩

theorem encoderReport_passage (range : p < 393216) (k : Cabin) (passage : s.service.mode = .clearDown ∧
    s.tracker.accepted ≠ .invalid ∧ k ∈ s.service.list ∧ (s.occ .unload).occupant = some k ∧
    ((encoderReport e p h s).occ .unload).occupant ≠ some k ∧
    ∃ q, (encoderReport e p h s).tracker.accepted.value = some q ∧
      signedDistance (coordinate q k) (s.zone .unload).finish ≤ 0) :
    (encoderReport e p h s).service = s.service.afterPassage k (s.cabin k).occupancy := by
  obtain ⟨-, cabins, -, service⟩ := reported_frame (s := s) (e := e) (p := p) (h := h)
  rw [encoderReport_eq range, (reformAfter_rest _ _).2.2,
    reform_service_of_passes ((passesFormed_iff range k).2 passage), service, State.cabin_congr cabins]

theorem encoderReport_no_passage (range : p < 393216) (none : ∀ k, ¬ (s.service.mode = .clearDown ∧
    s.tracker.accepted ≠ .invalid ∧ k ∈ s.service.list ∧ (s.occ .unload).occupant = some k ∧
    ((encoderReport e p h s).occ .unload).occupant ≠ some k ∧
    ∃ q, (encoderReport e p h s).tracker.accepted.value = some q ∧
      signedDistance (coordinate q k) (s.zone .unload).finish ≤ 0)) :
    (encoderReport e p h s).service = s.service := by
  rw [encoderReport_eq range, (reformAfter_rest _ _).2.2,
    reform_service_of_not fun k passes => none k ((passesFormed_iff range k).1 passes), reported_frame.2.2.2]

/-! ### One record in a move -/

/-- A cabin that leaves a zone and enters none has the record of its exit (R44). -/
theorem CabinRecord.moved_of_gone {c : CabinRecord} {old new : ByZone Occupancy} {z : Zone} {k : Cabin}
    (leaves : InOnly old new z k) (gone : (c.moved old new k).location = none) : c.moved old new k = c.left := by
  have exited : c.afterExits old new k = c.left := by
    refine if_pos ?_
    cases z with
    | unload => exact .inl leaves
    | load => exact .inr leaves
  unfold moved at gone ⊢
  rw [exited] at gone ⊢
  rw [afterEntry_location, afterEntry_location] at gone
  unfold afterEntry
  split at gone
  · cases gone
  · next load =>
    split at gone
    · cases gone
    · next unload => rw [if_neg load, if_neg unload]

/-- A cabin that was IDLE or in the other zone enters with its cycle IDLE (R44, R46). -/
theorem CabinRecord.moved_of_entered {c : CabinRecord} {old new : ByZone Occupancy} {z : Zone} {k : Cabin}
    (located : c.LocatedIn old k) (apart : ZonesApart new) (enters : InOnly new old z k)
    (idle : c.cycle = .idle ∨ c.location ≠ none) :
    ∃ x : CabinRecord, x.cycle = .idle ∧ x.door = c.door ∧ c.moved old new k = x.entered z := by
  have door : (c.afterExits old new k).door = c.door := by unfold afterExits; split <;> rfl
  have rested : (c.afterExits old new k).cycle = .idle := by
    unfold afterExits
    split
    · rfl
    · next stays =>
      refine idle.resolve_right fun inside => ?_
      obtain ⟨y, here⟩ := Option.ne_none_iff_exists'.1 inside
      have was := (located y).1 here
      have one := apart k
      cases y <;> cases z <;> simp_all [InOnly, ByZone.get]
  refine ⟨_, rested, door, ?_⟩
  have one := apart k
  unfold moved afterEntry
  cases z with
  | unload =>
    have away : ¬ InOnly new old .load k := fun load => one ⟨enters.1, load.1⟩
    rw [if_neg away, if_pos enters]
  | load =>
    have away : ¬ InOnly new old .unload k := fun unload => one ⟨unload.1, enters.1⟩
    rw [if_neg away, if_pos enters]

theorem CabinRecord.entered_of_idle {c : CabinRecord} (idle : c.cycle = .idle) (z : Zone) :
    (c.door.notLocked = true → (c.entered z).cycle = .cycling ∧ (c.entered z).releaseTime = none) ∧
      (¬ c.door.notLocked = true → (c.entered z).cycle = .idle) := by
  constructor
  · intro ajar
    rw [entered, if_pos ⟨idle, ajar⟩]
    exact ⟨rfl, rfl⟩
  · intro shut
    rw [entered, if_neg fun h => shut h.2]
    exact idle

/-! ### With the tracker's law -/

theorem reported_reformable (law : Tracked s) (range : p < 393216) : Reformable (reported e p h s) := by
  obtain ⟨-, -, accepted, occ⟩ := s.tracker.setHead_rest e ((s.tracker.head e).report p s.lines.now h)
  exact (law.reformable.then_setTracker (law.reformable.sound.report e range s.lines.now h) accepted occ).compareHeads

theorem reported_occBefore (law : Tracked s) (range : p < 393216) :
    (reported e p h s).occBefore = s.tracker.occ := by
  rw [(reported_reformable law range).placed.occBefore, reported_tracker, reportedTracker_rest.2]

theorem encoderReport_occ (law : Tracked s) (range : p < 393216) :
    (encoderReport e p h s).tracker.occ = (reported e p h s).occFormed := by
  rw [encoderReport_tracker range]
  exact (reported_reformable law range).placed.reformedOcc

theorem encoderReport_occ_eq (law : Tracked s) (z : Zone) :
    (encoderReport e p h s).occ z =
      match (encoderReport e p h s).tracker.accepted.value with
      | some q => occupancyAt q (s.zone z)
      | none => { occupant := none, past := false } := by
  obtain ⟨-, -, placed⟩ := (trackLaw_iff _).1 (law.encoderReport e p h).2
  have tables : (encoderReport e p h s).tables = s.tables := (encoderReport_frame _ _ _ _).2.2.1
  rw [State.occ, placed.occ, tables]
  cases value : (encoderReport e p h s).tracker.accepted.value with
  | some q => exact membership_of_value value z
  | none =>
    rw [membership, value]
    cases z <;> rfl

theorem encoderReport_cabin (law : Tracked s) (range : p < 393216) (k : Cabin) :
    (encoderReport e p h s).cabin k =
      (s.cabin k).moved s.tracker.occ (encoderReport e p h s).tracker.occ k := by
  rw [encoderReport_occ law range, encoderReport_eq range, State.cabin_congr (reformAfter_rest _ _).1,
    (reported_reformable law range).placed.reform_cabin, State.cabin_congr reported_frame.2.1, reported_tracker,
    reportedTracker_rest.2, State.occFormed, reported_tracker]

theorem encoderReport_apart (law : Tracked s) : ZonesApart (encoderReport e p h s).tracker.occ := by
  obtain ⟨-, -, placed⟩ := (trackLaw_iff _).1 (law.encoderReport e p h).2
  rw [placed.occ]
  exact membership_apart (law.encoderReport e p h).1.2.2 _

/-- A cabin that is in a zone before a report and not after it leaves the zone. -/
theorem encoderReport_leaves (law : Tracked s) (range : p < 393216) {z : Zone} {k : Cabin}
    (inside : (s.cabin k).location = some z) (left : ((encoderReport e p h s).occ z).occupant ≠ some k) :
    InOnly (reported e p h s).occBefore (reported e p h s).occFormed z k := by
  rw [reported_occBefore law range, ← encoderReport_occ law range]
  exact ⟨(law.reformable.placed.located k z).1 inside, left⟩

theorem encoderReport_clears (law : Tracked s) (range : p < 393216) {z : Zone} {k : Cabin}
    (inside : (s.cabin k).location = some z) (left : ((encoderReport e p h s).occ z).occupant ≠ some k)
    (bound : (s.permits.get z).cabin = some k) : (encoderReport e p h s).permits.get z = .clear := by
  have leaves := encoderReport_leaves law range inside left
  rw [encoderReport_eq range, (reformAfter_rest _ _).2.1]
  exact reform_clears leaves (by rw [reported_frame.2.2.1]; exact bound)

theorem encoderReport_gone (law : Tracked s) (range : p < 393216) {z : Zone} {k : Cabin}
    (inside : (s.cabin k).location = some z) (left : ((encoderReport e p h s).occ z).occupant ≠ some k)
    (gone : ((encoderReport e p h s).cabin k).location = none) :
    ((encoderReport e p h s).cabin k).cycle = .idle ∧
      ((s.cabin k).cycle ≠ .idle → ((encoderReport e p h s).cabin k).releaseTime = none) := by
  have record := encoderReport_cabin (e := e) (h := h) law range k
  rw [record] at gone ⊢
  rw [CabinRecord.moved_of_gone ⟨(law.reformable.placed.located k z).1 inside, left⟩ gone]
  exact ⟨rfl, fun busy => if_neg busy⟩

theorem reported_formed (range : p < 393216) (valid : (encoderReport e p h s).tracker.accepted ≠ .invalid) :
    (reported e p h s).tracker.formed.valid = true := by
  rw [encoderReport_tracker range] at valid
  rw [reported_tracker]
  exact Accepted.valid_of_ne_invalid valid

theorem encoderReport_breached (law : Tracked s) (range : p < 393216) {z : Zone} {k : Cabin}
    (inside : (s.cabin k).location = some z) (left : ((encoderReport e p h s).occ z).occupant ≠ some k)
    (valid : (encoderReport e p h s).tracker.accepted ≠ .invalid) (ajar : (s.cabin k).door.notLocked = true) :
    (encoderReport e p h s).Breached k := by
  have leaves := encoderReport_leaves law range inside left
  have formed := reported_formed range valid
  rw [encoderReport_eq range]
  exact (reformAfter_grows (P := fun _ _ => True) _ _).breach k (reform_breached formed leaves
    (by rw [State.cabin_congr reported_frame.2.1]; exact ajar))

theorem encoderReport_told (law : Tracked s) (range : p < 393216) {z : Zone} {k : Cabin}
    (inside : (s.cabin k).location = some z) (valid : (encoderReport e p h s).tracker.accepted ≠ .invalid)
    (code : (encoderReport e p h s).tracker.accepted.code = s.tracker.accepted.code)
    (door : (s.cabin k).door = .unknown) (mode : s.service.mode ≠ .clearDown)
    (none : ((encoderReport e p h s).occ z).occupant = none)
    (others : ∀ y, y ≠ z → (encoderReport e p h s).occ y = s.occ y) :
    SameDesk (notify (.unknownOutside k) s) (encoderReport e p h s) := by
  obtain ⟨tables, cabins, -, service⟩ := reported_frame (s := s) (e := e) (p := p) (h := h)
  obtain ⟨accepted, occ⟩ := reportedTracker_rest (s := s) (e := e) (p := p) (h := h)
  have formed := reported_formed range valid
  have new := encoderReport_occ (e := e) (h := h) law range
  have occupied := (law.reformable.placed.located k z).1 inside
  have before : s.tracker.accepted.valid = true := by
    by_contra invalid
    rw [law.reformable.placed.occ_of_invalid (Bool.eq_false_iff.2 invalid)] at occupied
    cases z <;> cases occupied
  have desk : SameDesk s (reported e p h s) := by
    have latch : (s.reportedTracker e p h).latch = false := by
      rw [reported_tracker] at formed
      exact latch_of_formed formed
    rw [reported_eq, latch, if_neg (by simp)]
    exact ⟨rfl, rfl, rfl, rfl⟩
  have told : SameDesk (notify (.unknownOutside k) (reported e p h s)) (reform (reported e p h s)) := by
    refine reform_told (z := z) ?_ formed ?_ ?_ ?_ (fun y other => ?_) ?_ ?_
    · rw [reported_tracker, accepted]
      exact before
    · rw [encoderReport_tracker range] at code
      rw [reported_tracker, accepted]
      exact code.symm
    · rw [reported_tracker, occ]
      exact occupied
    · rw [← new]
      exact none
    · rw [← new, reported_tracker, occ]
      exact (others y other).symm
    · rw [State.cabin_congr cabins]
      exact door
    · rw [service]
      exact mode
  rw [encoderReport_eq range, reformAfter_of_fresh (anyFresh_of_formed formed)]
  exact (desk.notify _).trans told

theorem encoderReport_entered (law : Tracked s) (range : p < 393216) {z : Zone} {k : Cabin}
    (inside : ((encoderReport e p h s).cabin k).location = some z) (outside : (s.cabin k).location ≠ some z)
    (idle : (s.cabin k).cycle = .idle ∨ (s.cabin k).location ≠ none) :
    ((s.cabin k).door.notLocked = true → ((encoderReport e p h s).cabin k).cycle = .cycling ∧
        ((encoderReport e p h s).cabin k).releaseTime = none) ∧
      (¬ (s.cabin k).door.notLocked = true → ((encoderReport e p h s).cabin k).cycle = .idle) := by
  have located := law.reformable.placed.located k
  have enters : InOnly (encoderReport e p h s).tracker.occ s.tracker.occ z k :=
    ⟨((law.encoderReport e p h).reformable.placed.located k z).1 inside, fun was => outside ((located z).2 was)⟩
  obtain ⟨x, rested, door, moved⟩ := CabinRecord.moved_of_entered located (encoderReport_apart law) enters idle
  rw [encoderReport_cabin law range k, moved, ← door]
  exact x.entered_of_idle rested z

theorem encoderReport_still (law : Tracked s) (range : p < 393216) {k : Cabin}
    (still : ((encoderReport e p h s).cabin k).location = (s.cabin k).location) :
    (encoderReport e p h s).cabin k = s.cabin k := by
  have after := (law.encoderReport e p h).reformable.placed.located k
  rw [encoderReport_cabin law range k]
  refine CabinRecord.moved_of_same fun z => ?_
  rw [← law.reformable.placed.located k z, ← after z, still]

/-! ### ZONE_OVERRUN -/

theorem crosses_iff {old new : ByZone Occupancy} {z : Zone} {k : Cabin} :
    Crosses old new u.cabin z k ↔ new.get z = { occupant := some k, past := true } ∧ old.get z ≠ new.get z ∧
      ¬ ((u.cabin k).door = .locked ∧ (u.cabin k).cycle = .idle) := by
  unfold Crosses CabinRecord.secured
  simp

theorem encoderReport_overrun_grows (law : Tracked s) (range : p < 393216) :
    HoldsGrow (Crosses s.tracker.occ (encoderReport e p h s).tracker.occ (encoderReport e p h s).cabin) s
      (encoderReport e p h s) := by
  have grows := encoderReport_grows (s := s) (e := e) (h := h) range
  rwa [reported_occBefore law range, ← encoderReport_occ law range] at grows

theorem encoderReport_raises (law : Tracked s) (range : p < 393216) {z : Zone} {k : Cabin}
    (crosses : Crosses s.tracker.occ (encoderReport e p h s).tracker.occ (encoderReport e p h s).cabin z k) :
    (encoderReport e p h s).holdsKey (.zoneOverrun z) = true ∧
      (s.holdsKey (.zoneOverrun z) = false → (encoderReport e p h s).HasHold (.zoneOverrun z k)) := by
  have cabins : (encoderReport e p h s).cabin = (reform (reported e p h s)).cabin := by
    rw [encoderReport_eq range]
    exact funext (State.cabin_congr (reformAfter_rest _ _).1)
  have raised : (encoderReport e p h s).holdsKey (.zoneOverrun z) = true := by
    rw [← reported_occBefore (e := e) (h := h) law range, encoderReport_occ law range, cabins] at crosses
    rw [encoderReport_eq range]
    exact (reformAfter_grows (P := fun _ _ => True) _ _).keys _ nofun (reform_raises crosses)
  refine ⟨raised, fun before => ?_⟩
  rcases (encoderReport_overrun_grows law range).overrun z raised with stood | ⟨j, other, named⟩
  · rw [before] at stood
    cases stood
  · have same := other.1.symm.trans crosses.1
    cases same
    exact named

theorem encoderReport_overrun_same (law : Tracked s) (range : p < 393216) {z : Zone}
    (none : ∀ k, ¬ Crosses s.tracker.occ (encoderReport e p h s).tracker.occ (encoderReport e p h s).cabin z k) :
    (encoderReport e p h s).holdsKey (.zoneOverrun z) = s.holdsKey (.zoneOverrun z) := by
  have grows := encoderReport_overrun_grows (e := e) (h := h) law range
  rw [Bool.eq_iff_iff]
  exact ⟨fun stands => (grows.overrun z stands).resolve_right fun ⟨k, crosses, _⟩ => none k crosses,
    grows.keys _ nofun⟩

/-! ### The report on the ring -/

theorem observePosition_of_role {src : Byte} (role : src = s.role (encoderRole e))
    (first : e = .b → src ≠ s.role roleEncoderA) : observePosition src p h s = encoderReport e p h s := by
  unfold observePosition
  cases e with
  | a => exact if_pos role
  | b =>
    rw [if_neg (first rfl)]
    exact if_pos role

theorem passOn_eq_setRing (f : Frame) (s : State) : ∃ fs, passOn f s = s.setRing { s.ring with forward := fs } := by
  rcases passOn_cases f s with same | pushed
  · exact ⟨s.ring.forward, same⟩
  · exact ⟨_, pushed.trans (pushForward_eq f s)⟩

theorem report_decodeHealth (x : EncoderHead) (now : Nat) (health : Byte) :
    x.report p now (decodeHealth health) =
      if health = 0x00 then { latest := some p, taken := some now, health := .ok, fresh := true }
      else { x with health := .degraded, fresh := false } := by
  unfold decodeHealth
  split <;> rfl

/-- Fresh heads have a latest position after a report where they had one before it (R25, R26). -/
theorem reportedTracker_known (known : ∀ d, (s.tracker.head d).fresh = true → (s.tracker.head d).latest ≠ none)
    (d : EncoderId) (fresh : ((s.reportedTracker e p h).head d).fresh = true) :
    ((s.reportedTracker e p h).head d).latest ≠ none := by
  rw [reportedTracker_head] at fresh ⊢
  split at fresh
  · next here =>
    rw [if_pos here]
    cases h with
    | ok => exact nofun
    | degraded => cases fresh
  · next other =>
    rw [if_neg other]
    exact known d fresh

theorem encoderReport_compared (range : p < 393216) :
    match (encoderReport e p h s).tracker.headA.fresh, (encoderReport e p h s).tracker.headB.fresh with
    | true, true =>
      ∀ a b, (encoderReport e p h s).tracker.headA.latest = some a →
        (encoderReport e p h s).tracker.headB.latest = some b →
        let apart := max a b - min a b
        if min apart (393216 - apart) ≤ s.p 14 then
          (encoderReport e p h s).tracker.disagreements = 0 ∧ (encoderReport e p h s).tracker.latch = false
        else
          (encoderReport e p h s).tracker.disagreements = min 3 (s.tracker.disagreements + 1) ∧
            (encoderReport e p h s).tracker.latch =
              (s.tracker.latch || (encoderReport e p h s).tracker.disagreements == 3)
    | _, _ =>
      (encoderReport e p h s).tracker.disagreements = s.tracker.disagreements ∧
        (encoderReport e p h s).tracker.latch = s.tracker.latch := by
  have spec := (s.tracker.setHead e ((s.tracker.head e).report p s.lines.now h)).afterComparison_spec (s.p 14)
  obtain ⟨heads, -⟩ := (s.tracker.setHead e
    ((s.tracker.head e).report p s.lines.now h)).afterComparison_rest (s.p 14)
  obtain ⟨count, latch, -⟩ := s.tracker.setHead_rest e ((s.tracker.head e).report p s.lines.now h)
  have a : (s.reportedTracker e p h).headA = (s.tracker.setHead e _).headA := heads .a
  have b : (s.reportedTracker e p h).headB = (s.tracker.setHead e _).headB := heads .b
  rw [← a, ← b, count, latch] at spec
  rw [encoderReport_tracker range]
  exact spec

theorem encoderReport_formed (range : p < 393216)
    (known : ∀ d, (s.tracker.head d).fresh = true → (s.tracker.head d).latest ≠ none) :
    match (encoderReport e p h s).tracker.latch, (encoderReport e p h s).tracker.headA.fresh,
      (encoderReport e p h s).tracker.headB.fresh with
    | true, _, _ => (encoderReport e p h s).tracker.accepted = .invalid
    | false, true, true => ∃ a, (encoderReport e p h s).tracker.headA.latest = some a ∧
        (encoderReport e p h s).tracker.accepted = .dual a
    | false, true, false => ∃ a, (encoderReport e p h s).tracker.headA.latest = some a ∧
        (encoderReport e p h s).tracker.accepted = .single a
    | false, false, true => ∃ b, (encoderReport e p h s).tracker.headB.latest = some b ∧
        (encoderReport e p h s).tracker.accepted = .single b
    | false, false, false => (encoderReport e p h s).tracker.accepted = .invalid := by
  rw [encoderReport_tracker range]
  exact Tracker.formed_spec (reportedTracker_known known)

/-- Settles O12: each clause is one of the re-formation's effects, on the state that the comparison leaves. -/
theorem positionReportsReachTheTracker : Obligations.PositionReportsReachTheTracker := by
  intro e t dst src pos health s hears dest role first range known
  have done := completes_position (t := t) (pos := pos) (health := health) hears dest
  rw [observePosition_of_role (s := s.advance t) role first] at done
  have quiet : Quiet (s.advance t) (encoderReport e pos.toNat (decodeHealth health) (s.advance t)) :=
    (Quiet.refl _).then_encoderReport e pos.toNat (decodeHealth health)
  have frame := encoderReport_frame (s.advance t) e pos.toNat (decodeHealth health)
  have head (d : EncoderId) := (encoderReport_head (s := s.advance t) (e := e) (h := decodeHealth health) range
    d).trans (reportedTracker_head d)
  have compared := @encoderReport_compared (s.advance t) e pos.toNat (decodeHealth health) range
  have formed := @encoderReport_formed (s.advance t) e pos.toNat (decodeHealth health) range known
  have disagree := @encoderReport_disagree (s.advance t) e pos.toNat (decodeHealth health) range
  have lost := @encoderReport_lost (s.advance t) e pos.toNat (decodeHealth health) range
  have returns := @encoderReport_returns (s.advance t) e pos.toNat (decodeHealth health) range
  have reports := @encoderReport_reports (s.advance t) e pos.toNat (decodeHealth health) range
  have passes := @encoderReport_passage (s.advance t) e pos.toNat (decodeHealth health) range
  have noPassage := @encoderReport_no_passage (s.advance t) e pos.toNat (decodeHealth health) range
  have lawAfter (law : Tracked (s.advance t)) := law.encoderReport e pos.toNat (decodeHealth health)
  have occ := @encoderReport_occ_eq (s.advance t) e pos.toNat (decodeHealth health)
  have clears (law) := @encoderReport_clears (s.advance t) e pos.toNat (decodeHealth health) law range
  have gone (law) := @encoderReport_gone (s.advance t) e pos.toNat (decodeHealth health) law range
  have breached (law) := @encoderReport_breached (s.advance t) e pos.toNat (decodeHealth health) law range
  have told (law) := @encoderReport_told (s.advance t) e pos.toNat (decodeHealth health) law range
  have entered (law) := @encoderReport_entered (s.advance t) e pos.toNat (decodeHealth health) law range
  have still (law) := @encoderReport_still (s.advance t) e pos.toNat (decodeHealth health) law range
  have raises (law) := @encoderReport_raises (s.advance t) e pos.toNat (decodeHealth health) law range
  have same (law) := @encoderReport_overrun_same (s.advance t) e pos.toNat (decodeHealth health) law range
  generalize encoderReport e pos.toNat (decodeHealth health) (s.advance t) = w at *
  obtain ⟨-, -, lines⟩ := passOn_after quiet (positionFrame dst src pos health)
  have onRing := roleFrameOnRing_after quiet (positionFrame dst src pos health)
  obtain ⟨fs, forwarded⟩ := passOn_eq_setRing (positionFrame dst src pos health) w
  rw [forwarded] at done lines onRing
  refine ⟨_, done, lines.trans quiet.lines, onRing, (untouched_of_frame frame).of_advance, ?_, fun d other => ?_,
    compared, formed, disagree, fun was staleA staleB => ?_, returns, reports, passes, noPassage,
    fun zones track => ?_⟩
  · exact (head e).trans ((if_pos rfl).trans (report_decodeHealth _ _ _))
  · exact (head d).trans (if_neg other.symm)
  · exact lost (Bool.or_eq_true_iff.2 was) (Bool.or_eq_false_iff.2 ⟨staleA, staleB⟩)
  have law : Tracked (s.advance t) := ⟨zones, track⟩
  refine ⟨occ law, (lawAfter law).reformable.placed.located, fun k z inside left =>
    ⟨clears law inside left, gone law inside left,
      fun valid ajar => breached law inside left valid ((notLocked_iff _).2 ajar),
      fun valid code door _ mode none others => ?_⟩,
    fun k z inside outside idle => ?_, fun k => still law, fun z => ⟨fun k crosses => ?_, fun none => ?_⟩⟩
  · have told := told law inside valid code door mode none others
    exact SameDesk.noticesQueued (ns := [.unknownOutside k])
      ((((sameDesk_advance t s).notify _).trans told).then_forward fs)
  · obtain ⟨opens, stays⟩ := entered law inside outside idle
    exact ⟨fun ajar => opens ((notLocked_iff _).2 ajar), fun shut => stays (mt (notLocked_iff _).1 shut)⟩
  · exact raises law (crosses_iff.2 crosses)
  · exact same law fun k crosses => none k (crosses_iff.1 crosses)

end Sys2Proof.Machine
end

