-- ==== Sys2Proof/Proofs/HoldListKept.lean ====
section

/-!
# What the blocks' work keeps of the hold list

A raise adds one record of a new key, a breach names one more cabin, a clear takes the record of its key, and nothing
else touches the records. So the hold list keeps its law through every operation, and a cabin once named in the
DOOR_BREACH record stays named: no owner clears that record, only an ACK_HOLD does (R125, R126, R128, R131).
-/

namespace Sys2Proof.Machine

variable {s u v s₀ : State}

/-! ### The law of the list -/

/-- Every key of the hold list (R123, R124). -/
def allHoldKeys : List HoldKey :=
  [.allStop, .consoleHold, .windStop, .positionLost, .encoderDisagree, .drivesLost, .doorBreach,
    .zoneOverrun .unload, .zoneOverrun .load, .cabinOverload]

theorem mem_allHoldKeys (key : HoldKey) : key ∈ allHoldKeys := by
  cases key with
  | zoneOverrun z => cases z <;> decide
  | _ => decide

/-- A record was not raised in the future, and a breach list of it is not empty and without repeats (R126). -/
def HoldRecord.Sound (r : HoldRecord) (now : Nat) : Prop :=
  r.raised ≤ now ∧ ∀ ks, r.what = .doorBreach ks → ks ≠ [] ∧ ks.Nodup

/-- The capacity of the list follows from its keys being distinct. -/
theorem holdLaw_iff (s : State) :
    HoldLaw s ↔ (s.holds.records.map (fun r => r.what.key)).Nodup ∧ ∀ r ∈ s.holds.records, r.Sound s.lines.now := by
  refine ⟨fun ⟨distinct, _, sound⟩ => ⟨distinct, sound⟩, fun ⟨distinct, sound⟩ => ⟨distinct, ?_, sound⟩⟩
  have le := (distinct.subperm fun key _ => mem_allHoldKeys key).length_le
  rwa [List.length_map] at le

theorem holdLaw_of_records (h : HoldLaw s) (now : s.lines.now ≤ u.lines.now)
    (records : u.holds.records = s.holds.records) : HoldLaw u := by
  obtain ⟨distinct, sound⟩ := (holdLaw_iff s).1 h
  refine (holdLaw_iff u).2 ⟨by rw [records]; exact distinct, fun r mem => ?_⟩
  rw [records] at mem
  exact ⟨(sound r mem).1.trans now, (sound r mem).2⟩

/-- A raise keeps the law, its own breach list being sound (R125). -/
theorem raiseHold_law {what : Hold} (breach : ∀ ks, what = .doorBreach ks → ks ≠ [] ∧ ks.Nodup) (h : HoldLaw s) :
    HoldLaw (raiseHold what s) := by
  have lines : (raiseHold what s).lines = s.lines := by simp
  cases stands : s.holdsKey what.key with
  | true => exact holdLaw_of_records h (by rw [lines]) (by rw [raiseHold_holds, stands]; rfl)
  | false =>
    obtain ⟨distinct, sound⟩ := (holdLaw_iff s).1 h
    have new : what.key ∉ s.holds.records.map (fun r => r.what.key) := fun mem => by
      obtain ⟨r, mem, key⟩ := List.mem_map.1 mem
      exact Bool.eq_false_iff.1 stands ((State.holdsKey_iff s _).2 ⟨r, mem, key⟩)
    rw [holdLaw_iff, raiseHold_records stands, lines]
    refine ⟨?_, fun r mem => ?_⟩
    · rw [List.map_append]
      simpa using distinct.concat new
    · rcases List.mem_append.1 mem with old | here
      · exact sound r old
      · cases List.mem_singleton.1 here
        exact ⟨Nat.le_refl _, breach⟩

/-- A clear keeps the law (R128). -/
theorem clearHold_law (key : HoldKey) (h : HoldLaw s) : HoldLaw (clearHold key s) := by
  obtain ⟨distinct, sound⟩ := (holdLaw_iff s).1 h
  rw [holdLaw_iff, clearHold_holds, show (clearHold key s).lines = s.lines by simp]
  exact ⟨distinct.sublist (List.filter_sublist.map _), fun r mem => sound r (List.mem_of_mem_filter mem)⟩

/-- Under the law the DOOR_BREACH record is the one that its key finds. -/
theorem eq_of_key {r r' : HoldRecord} (h : HoldLaw s) (mem : r ∈ s.holds.records) (mem' : r' ∈ s.holds.records)
    (key : r.what.key = r'.what.key) : r = r' :=
  List.inj_on_of_nodup_map h.1 mem mem' key

theorem mem_breachCabins_of_law {r : HoldRecord} {ks : List Cabin} (h : HoldLaw s) (mem : r ∈ s.holds.records)
    (what : r.what = .doorBreach ks) : s.breachCabins = ks := by
  have stands : s.holdsKey .doorBreach = true := (State.holdsKey_iff s _).2 ⟨r, mem, by rw [what]; rfl⟩
  obtain ⟨r', found⟩ := Option.isSome_iff_exists.1 stands
  have key : r'.what.key = .doorBreach := by simpa using List.find?_some found
  have same : r' = r := eq_of_key h (List.mem_of_find?_eq_some found) mem (by rw [key, what]; rfl)
  subst same
  rw [State.breachCabins, found]
  obtain ⟨_, _, _⟩ := r'
  cases what
  rfl

/-- A cabin added to the breach list keeps the law (R126). -/
theorem raiseBreach_law (k : Cabin) (h : HoldLaw s) : HoldLaw (raiseBreach k s) := by
  unfold raiseBreach
  split
  · split
    · exact h
    · next unlisted =>
      obtain ⟨distinct, sound⟩ := (holdLaw_iff s).1 h
      have added : HoldLaw (s.setHolds { s.holds with records := s.holds.records.map (HoldRecord.addBreach k) }) := by
        refine (holdLaw_iff _).2 ⟨?_, fun r' mem => ?_⟩
        · simpa [Function.comp_def, HoldRecord.addBreach_key] using distinct
        · obtain ⟨r, stood, rfl⟩ := List.mem_map.1 mem
          refine ⟨?_, fun ks what => ?_⟩
          · have raised : (r.addBreach k).raised = r.raised := by unfold HoldRecord.addBreach; split <;> rfl
            rw [raised]
            exact (sound r stood).1
          · have key : r.what.key = .doorBreach := by rw [← r.addBreach_key k, what]; rfl
            obtain ⟨before, listed⟩ := doorBreach_of_key key
            rw [HoldRecord.addBreach_of_breach listed] at what
            cases what
            rw [mem_breachCabins_of_law h stood listed] at unlisted
            exact ⟨by simp, by simpa using ((sound r stood).2 before listed).2.concat unlisted⟩
      exact holdLaw_of_records added (by simp) (by simp)
  · exact raiseHold_law (fun ks e => by cases e; simp) h

/-- Marking a record acknowledged keeps the law (R132). -/
theorem markAcked_law (key : HoldKey) (h : HoldLaw s) : HoldLaw (markAcked key s) := by
  obtain ⟨distinct, sound⟩ := (holdLaw_iff s).1 h
  refine (holdLaw_iff _).2 ⟨?_, fun r' mem => ?_⟩
  · have same (r : HoldRecord) : (if r.what.key = key then { r with acked := true } else r).what.key = r.what.key := by
      split <;> rfl
    simpa [markAcked, Function.comp_def, same] using distinct
  · obtain ⟨r, stood, rfl⟩ := List.mem_map.1 mem
    split <;> exact sound r stood

/-! ### What an effect keeps -/

/-- The time base has not moved back, the hold list keeps its law, and each cabin that the DOOR_BREACH record names
stays named. -/
structure HoldsKept (s u : State) : Prop where
  now : s.lines.now ≤ u.lines.now
  law : HoldLaw s → HoldLaw u
  breach : ∀ k, s.Breached k → u.Breached k

theorem breached_of_records (records : u.holds.records = s.holds.records) {k : Cabin} (h : s.Breached k) :
    u.Breached k := by
  unfold State.Breached
  rw [records]
  exact h

namespace HoldsKept

theorem of_records (now : s.lines.now ≤ u.lines.now) (records : u.holds.records = s.holds.records) : HoldsKept s u where
  now := now
  law h := holdLaw_of_records h now records
  breach _ := breached_of_records records

theorem refl (s : State) : HoldsKept s s := of_records (Nat.le_refl _) rfl

theorem trans (first : HoldsKept s v) (second : HoldsKept v u) : HoldsKept s u where
  now := first.now.trans second.now
  law := second.law ∘ first.law
  breach k := second.breach k ∘ first.breach k

theorem aside (h : HoldsKept s₀ s) (same : u.lines = s.lines ∧ u.holds = s.holds) : HoldsKept s₀ u :=
  h.trans (of_records (by rw [same.1]) (by rw [same.2]))

theorem then_forEach {α : Type} {f : α → State → State} (h : HoldsKept s₀ s)
    (step : ∀ x s, HoldsKept s₀ s → HoldsKept s₀ (f x s)) (xs : List α) : HoldsKept s₀ (s.forEach xs f) := by
  unfold State.forEach
  induction xs generalizing s with
  | nil => exact h
  | cons x xs ih => exact ih (step x s h)

/-! ### Raises and clears -/

theorem then_raiseHold (h : HoldsKept s₀ s) {what : Hold} (other : what.key ≠ .doorBreach) :
    HoldsKept s₀ (raiseHold what s) :=
  h.trans
    { now := by simp
      law := raiseHold_law fun ks e => absurd (by rw [e]; rfl) other
      breach := (raiseHold_grows (P := fun _ _ => True) (fun _ _ _ => trivial) s).breach }

theorem then_raiseBreach (h : HoldsKept s₀ s) (k : Cabin) : HoldsKept s₀ (raiseBreach k s) :=
  h.trans
    { now := by simp
      law := raiseBreach_law k
      breach := (raiseBreach_grows (P := fun _ _ => True) k s).breach }

theorem then_clearHold (h : HoldsKept s₀ s) {key : HoldKey} (other : key ≠ .doorBreach) :
    HoldsKept s₀ (clearHold key s) := by
  refine h.trans { now := by simp, law := clearHold_law key, breach := fun k => ?_ }
  rintro ⟨r, mem, ks, what, listed⟩
  refine ⟨r, ?_, ks, what, listed⟩
  rw [clearHold_holds]
  exact List.mem_filter.2 ⟨mem, bne_iff_ne.2 fun e => other (by rw [← e, what]; rfl)⟩

theorem then_markAcked (h : HoldsKept s₀ s) (key : HoldKey) : HoldsKept s₀ (markAcked key s) := by
  refine h.trans { now := by simp, law := markAcked_law key, breach := fun k => ?_ }
  rintro ⟨r, mem, ks, what, listed⟩
  exact ⟨_, List.mem_map_of_mem mem, ks, by split <;> exact what, listed⟩

theorem then_clearOverload (h : HoldsKept s₀ s) (k : Cabin) : HoldsKept s₀ (clearOverload k s) := by
  unfold clearOverload
  split
  · split
    · exact h.then_clearHold nofun
    · exact h
  · exact h

/-! ### The release gate -/

theorem then_testOverrun (h : HoldsKept s₀ s) (z : Zone) : HoldsKept s₀ (testOverrun z s) := by
  unfold testOverrun
  split
  · exact h.then_raiseHold nofun
  · exact h

theorem then_testCabin (h : HoldsKept s₀ s) (k : Cabin) : HoldsKept s₀ (testCabin k s) := by
  unfold testCabin
  split
  · split
    · exact h.then_testOverrun _
    · exact h
  · exact h

theorem then_clearOverrun (h : HoldsKept s₀ s) (z : Zone) : HoldsKept s₀ (clearOverrun z s) :=
  (h.then_clearHold (key := .zoneOverrun z) nofun).then_testOverrun z

theorem then_autoClear (h : HoldsKept s₀ s) (z : Zone) (k : Cabin) : HoldsKept s₀ (autoClear z k s) := by
  unfold autoClear
  split
  · exact h.then_clearOverrun z
  · exact h

theorem then_gateReport (h : HoldsKept s₀ s) (k : Cabin) : HoldsKept s₀ (gateReport k s) :=
  ((h.then_autoClear _ k).then_autoClear _ k).then_testCabin k

theorem then_gateCompletion (h : HoldsKept s₀ s) (k : Cabin) : HoldsKept s₀ (gateCompletion k s) :=
  (h.then_testCabin k).aside (by simp [gateCompletion])

/-! ### The cabin records -/

theorem then_uncommandedOpening (h : HoldsKept s₀ s) (k : Cabin) : HoldsKept s₀ (uncommandedOpening k s) :=
  HoldsKept.then_testCabin (h.aside (by simp)) k

theorem then_advanceCycle (h : HoldsKept s₀ s) (k : Cabin) : HoldsKept s₀ (advanceCycle k s) := by
  unfold advanceCycle
  dsimp only
  split
  · split
    · exact h.then_uncommandedOpening k
    · exact h
  · split
    · exact HoldsKept.then_testCabin (h.aside (by simp)) k
    · split
      · exact HoldsKept.then_gateCompletion (h.aside (by simp)) k
      · exact h
  · split
    · exact h
    · exact HoldsKept.then_gateCompletion (h.aside (by simp)) k

theorem then_judgeOverload (h : HoldsKept s₀ s) (k : Cabin) : HoldsKept s₀ (judgeOverload k s) := by
  unfold judgeOverload
  dsimp only
  split
  · split
    · exact HoldsKept.then_clearOverload (h.aside (by simp)) k
    · exact h
  · split
    · exact HoldsKept.then_raiseHold (h.aside (by simp)) nofun
    · exact h

theorem then_judgeBreach (h : HoldsKept s₀ s) (k : Cabin) : HoldsKept s₀ (judgeBreach k s) := by
  unfold judgeBreach
  split
  · exact h.then_raiseBreach k
  · exact h

theorem then_judgeExitBreach (h : HoldsKept s₀ s) (k : Cabin) : HoldsKept s₀ (judgeExitBreach k s) := by
  unfold judgeExitBreach
  split
  · split
    · exact h
    · exact h.aside (by simp)
    · exact h.then_raiseBreach k
  · exact h

theorem then_cabinReport (h : HoldsKept s₀ s) (k : Cabin) (d : Door) (n : Nat) :
    HoldsKept s₀ (cabinReport k d n s) := by
  have recorded : HoldsKept s₀ (recordReport k d n s) := h.aside (by simp)
  exact ((((recorded.then_judgeOverload k).then_advanceCycle k).then_judgeBreach k).then_gateReport k).aside
    (by simp [cabinReport])

/-! ### The moves between memberships -/

theorem then_zoneExit (h : HoldsKept s₀ s) (moved : Bool) (z : Zone) (k : Cabin) :
    HoldsKept s₀ (zoneExit moved z k s) := by
  have left : HoldsKept s₀ (cabinExit k s) := by
    rw [cabinExit_eq]
    exact HoldsKept.then_judgeExitBreach (h.aside (by simp)) k
  exact left.aside ⟨by simp, zoneExit_holds moved z k s⟩

theorem then_zoneEntry (h : HoldsKept s₀ s) (z : Zone) (k : Cabin) : HoldsKept s₀ (zoneEntry z k s) := by
  unfold zoneEntry
  dsimp only
  split
  · exact HoldsKept.then_uncommandedOpening (h.aside (by simp)) k
  · exact h.aside (by simp)

theorem then_deliverMoves (h : HoldsKept s₀ s) (moved : Bool) (old new : ByZone Occupancy) :
    HoldsKept s₀ (deliverMoves moved old new s) := by
  refine (h.then_forEach (fun z _ h => ?_) _).then_forEach (fun z _ h => ?_) _
  · unfold deliverExit
    split
    · split
      · exact h
      · exact h.then_zoneExit moved z _
    · exact h
  · unfold deliverEntry
    split
    · split
      · exact h
      · exact h.then_zoneEntry z _
    · exact h

theorem then_deliverCrossings (h : HoldsKept s₀ s) (old new : ByZone Occupancy) :
    HoldsKept s₀ (deliverCrossings old new s) := by
  refine h.then_forEach (fun z _ h => ?_) _
  unfold deliverCrossing
  split
  · exact h.then_testOverrun z
  · exact h

theorem then_sweepBreach (h : HoldsKept s₀ s) : HoldsKept s₀ (sweepBreach s) :=
  h.then_forEach (fun k _ h => h.then_judgeBreach k) _

theorem then_recompute (h : HoldsKept s₀ s) (moved : Bool) : HoldsKept s₀ (recompute moved s) := by
  rw [recompute_eq]
  exact (HoldsKept.then_deliverMoves (h.aside (by simp)) _ _ _).then_deliverCrossings _ _

theorem then_positionReturns (h : HoldsKept s₀ s) (a : Accepted) : HoldsKept s₀ (positionReturns a s) := by
  unfold positionReturns
  dsimp only
  have moved := HoldsKept.then_deliverMoves (s := putOcc (membership s.tables.zones a) s) (h.aside (by simp)) false
    emptyZones (membership s.tables.zones a)
  have crossed := moved.then_sweepBreach.then_deliverCrossings emptyZones (membership s.tables.zones a)
  exact HoldsKept.then_clearHold (crossed.aside (by simp)) nofun

theorem then_reform (h : HoldsKept s₀ s) : HoldsKept s₀ (reform s) := by
  have formed : HoldsKept s₀ (putAccepted s.tracker.formed s) := h.aside (by simp)
  unfold reform
  dsimp only
  split
  · unfold positionMoves
    refine HoldsKept.then_recompute ?_ true
    split
    · exact formed
    · exact formed.aside (by simp)
  · have moved := HoldsKept.then_deliverMoves (s := putOcc emptyZones (putAccepted s.tracker.formed s))
      (formed.aside (by simp)) false s.tracker.occ emptyZones
    exact moved.aside (by simp [positionLost, putAccepted])
  · exact formed.then_positionReturns _
  · exact formed

theorem then_compareHeads (h : HoldsKept s₀ s) : HoldsKept s₀ (compareHeads s) := by
  unfold compareHeads
  split
  · dsimp only
    split
    · exact HoldsKept.then_raiseHold (h.aside (by simp)) nofun
    · exact h.aside (by simp)
  · exact h

/-! ### The drives and the grade in force -/

theorem then_judgeEnd (h : HoldsKept s₀ s) : HoldsKept s₀ (judgeEnd s) := h.aside (by simp)

theorem then_deriveReady (h : HoldsKept s₀ s) (n : Fin 4) : HoldsKept s₀ (deriveReady n s) := by
  have judged {u : State} (h : HoldsKept s₀ u) (before : Nat) : HoldsKept s₀ (judgeDrivesLost before u) := by
    unfold judgeDrivesLost
    split
    · exact h.then_raiseHold nofun
    · split
      · exact h.then_clearHold nofun
      · exact h
  unfold deriveReady
  dsimp only
  split
  · exact h
  · exact judged (h.aside (by simp)) _

theorem then_driveReport (h : HoldsKept s₀ s) (n : Fin 4) (ready : Bool) (fault : Byte) (speed : Nat) :
    HoldsKept s₀ (driveReport n ready fault speed s) :=
  (HoldsKept.then_deriveReady (h.aside (u := s.setDrive n _) (by simp)) n).then_judgeEnd

theorem then_dropDrive (h : HoldsKept s₀ s) (n : Fin 4) : HoldsKept s₀ (dropDrive n s) := by
  unfold dropDrive
  split
  · exact (HoldsKept.then_deriveReady (h.aside (by simp)) n).then_judgeEnd
  · exact h

/-- A change of the grade in force raises or clears WIND_STOP alone (R120). -/
theorem then_changeGrade (h : HoldsKept s₀ s) (g : Grade) : HoldsKept s₀ (changeGrade g s) := by
  have told : HoldsKept s₀ (gradeTold g s) := h.aside (by simp [gradeTold])
  have held : HoldsKept s₀ (if s.grader.inForce ≠ 4 ∧ g = 4 then raiseHold .windStop (gradeTold g s)
      else if s.grader.inForce = 4 ∧ g ≠ 4 then clearHold .windStop (gradeTold g s) else gradeTold g s) := by
    split
    · exact told.then_raiseHold nofun
    · split
      · exact told.then_clearHold nofun
      · exact told
  unfold changeGrade
  dsimp only
  refine held.aside ?_
  split <;> simp [gradeTold]

end HoldsKept

end Sys2Proof.Machine
end

