-- ==== Sys2Proof/Proofs/ReportedCabins.lean ====
section

/-!
# The record a DOOR_REPORT leaves

Of the steps of a report the first three write the cabin's own record: what was reported, the overloaded flag and the
door cycle; the others leave every record. The permits follow the cycle, and the rest of the report is for the hold
list and the sequencer (R41, R45 to R47, R51, R52).
-/

namespace Sys2Proof.Machine

variable {s : State}

/-! ### One record -/

/-- A cabin record with what was reported (R41, steps 1 and 2). -/
def CabinRecord.recorded (c : CabinRecord) (d : Door) (n now : Nat) : CabinRecord :=
  { c with door := d, lastReport := some now, occupancy := min n 40 }

/-- A cabin record after its overload is judged (R51, R52). -/
def CabinRecord.overloadJudged (c : CabinRecord) (capacity : Nat) : CabinRecord :=
  { c with overloaded :=
      if c.occupancy ≤ capacity then false
      else if c.door = .locked ∧ c.location = some .load then true else c.overloaded }

/-- A cabin record after its cycle advances, with its release lapsed or not (R45, R46). -/
def CabinRecord.advanced (c : CabinRecord) (lapsed : Bool) : CabinRecord :=
  match c.cycle with
  | .idle =>
    if c.door.notLocked = true ∧ c.location ≠ none then { c with cycle := .cycling, releaseTime := none } else c
  | .releaseSent =>
    if c.door.notLocked = true then { c with cycle := .cycling }
    else if lapsed = true then { c with cycle := .idle, releaseTime := none } else c
  | .cycling => if c.door.notLocked = true then c else { c with cycle := .idle, releaseTime := none }

/-- A cycle advances in its own two fields. -/
theorem CabinRecord.advanced_eq (c : CabinRecord) (lapsed : Bool) :
    c.advanced lapsed =
      { c with cycle := (c.advanced lapsed).cycle, releaseTime := (c.advanced lapsed).releaseTime } := by
  unfold advanced
  split
  · split <;> rfl
  · split
    · rfl
    · split <;> rfl
  · split <;> rfl

theorem recordReport_cabin (k : Cabin) (d : Door) (n : Nat) (s : State) (j : Cabin) :
    (recordReport k d n s).cabin j = if k = j then (s.cabin j).recorded d n s.lines.now else s.cabin j := by
  rw [recordReport, State.setCabin_cabin]
  split
  · next here => rw [here]; rfl
  · rfl

theorem judgeOverload_cabin (k : Cabin) (s : State) (j : Cabin) :
    (judgeOverload k s).cabin j =
      if k = j then (s.cabin j).overloadJudged (s.cabinEntry k).capacity else s.cabin j := by
  have cleared (c : CabinRecord) : (clearOverload k (s.setCabin k c)).cabin j = (s.setCabin k c).cabin j :=
    State.cabin_congr (by simp) j
  have raised (c : CabinRecord) :
      (raiseHold (.cabinOverload k) (s.setCabin k c)).cabin j = (s.setCabin k c).cabin j :=
    State.cabin_congr (by simp) j
  unfold judgeOverload CabinRecord.overloadJudged
  dsimp only
  by_cases here : k = j
  · subst here
    rw [if_pos rfl]
    split
    · next fits =>
      split
      · rw [cleared, State.setCabin_cabin, if_pos rfl]
      · next light => rw [← Bool.eq_false_iff.2 light]
    · next heavy =>
      split
      · next laden => rw [raised, State.setCabin_cabin, if_pos rfl, if_pos ⟨laden.1, laden.2.1⟩]
      · next still =>
        split
        · next place =>
          have already : (s.cabin k).overloaded = true := by simpa [place] using still
          rw [← already]
        · rfl
  · rw [if_neg here]
    split
    · split
      · rw [cleared, State.setCabin_cabin, if_neg here]
      · rfl
    · split
      · rw [raised, State.setCabin_cabin, if_neg here]
      · rfl

theorem endCycle_cabin (k : Cabin) (s : State) (j : Cabin) :
    (endCycle k s).cabin j =
      if k = j then { s.cabin j with cycle := .idle, releaseTime := none } else s.cabin j := by
  rw [endCycle, State.setCabin_cabin]
  split
  · next here => rw [here]
  · rfl

theorem gateCompletion_cabin (k : Cabin) (s : State) (j : Cabin) : (gateCompletion k s).cabin j = s.cabin j :=
  State.cabin_congr (by simp) j

theorem testCabin_cabin (k : Cabin) (s : State) (j : Cabin) : (testCabin k s).cabin j = s.cabin j :=
  State.cabin_congr (by simp) j

theorem advanceCycle_of_idle {k : Cabin} (idle : (s.cabin k).cycle = .idle) :
    advanceCycle k s = if (s.cabin k).door.notLocked = true ∧ (s.cabin k).location ≠ none then
      uncommandedOpening k s else s := by
  simp only [advanceCycle, idle]

theorem advanceCycle_of_releaseSent {k : Cabin} (sent : (s.cabin k).cycle = .releaseSent) :
    advanceCycle k s = if (s.cabin k).door.notLocked = true then
      gateCycleChange k (s.setCabin k { s.cabin k with cycle := .cycling })
    else if s.releaseLapsed (s.cabin k).releaseTime = true then gateCompletion k (endCycle k s) else s := by
  simp only [advanceCycle, sent]

theorem advanceCycle_of_cycling {k : Cabin} (cycling : (s.cabin k).cycle = .cycling) :
    advanceCycle k s = if (s.cabin k).door.notLocked = true then s else gateCompletion k (endCycle k s) := by
  simp only [advanceCycle, cycling]

theorem CabinRecord.advanced_of_idle {c : CabinRecord} (idle : c.cycle = .idle) (lapsed : Bool) :
    c.advanced lapsed = if c.door.notLocked = true ∧ c.location ≠ none then
      { c with cycle := .cycling, releaseTime := none } else c := by
  simp only [advanced, idle]

theorem CabinRecord.advanced_of_releaseSent {c : CabinRecord} (sent : c.cycle = .releaseSent) (lapsed : Bool) :
    c.advanced lapsed = if c.door.notLocked = true then { c with cycle := .cycling }
      else if lapsed = true then { c with cycle := .idle, releaseTime := none } else c := by
  simp only [advanced, sent]

theorem CabinRecord.advanced_of_cycling {c : CabinRecord} (cycling : c.cycle = .cycling) (lapsed : Bool) :
    c.advanced lapsed =
      if c.door.notLocked = true then c else { c with cycle := .idle, releaseTime := none } := by
  simp only [advanced, cycling]

theorem completed_cabin (k : Cabin) (s : State) (j : Cabin) :
    (gateCompletion k (endCycle k s)).cabin j =
      if k = j then { s.cabin j with cycle := .idle, releaseTime := none } else s.cabin j := by
  rw [gateCompletion_cabin, endCycle_cabin]

theorem advanceCycle_cabin_other {k j : Cabin} (other : k ≠ j) (s : State) :
    (advanceCycle k s).cabin j = s.cabin j := by
  have completed : (gateCompletion k (endCycle k s)).cabin j = s.cabin j := by rw [completed_cabin, if_neg other]
  cases cycle : (s.cabin k).cycle with
  | idle =>
    rw [advanceCycle_of_idle cycle]
    split
    · rw [uncommandedOpening_cabin, if_neg other]
    · rfl
  | releaseSent =>
    rw [advanceCycle_of_releaseSent cycle]
    split
    · rw [gateCycleChange, testCabin_cabin, State.setCabin_cabin, if_neg other]
    · split
      · exact completed
      · rfl
  | cycling =>
    rw [advanceCycle_of_cycling cycle]
    split
    · rfl
    · exact completed

theorem advanceCycle_cabin (k : Cabin) (s : State) (j : Cabin) :
    (advanceCycle k s).cabin j =
      if k = j then (s.cabin j).advanced (s.releaseLapsed (s.cabin j).releaseTime) else s.cabin j := by
  split
  case isFalse other => exact advanceCycle_cabin_other other s
  case isTrue here =>
    subst here
    have completed := completed_cabin k s k
    rw [if_pos rfl] at completed
    cases cycle : (s.cabin k).cycle with
    | idle =>
      rw [advanceCycle_of_idle cycle, CabinRecord.advanced_of_idle cycle]
      split
      · rw [uncommandedOpening_cabin, if_pos rfl]
      · rfl
    | releaseSent =>
      rw [advanceCycle_of_releaseSent cycle, CabinRecord.advanced_of_releaseSent cycle]
      split
      · rw [gateCycleChange, testCabin_cabin, State.setCabin_cabin, if_pos rfl]
      · split
        · exact completed
        · rfl
    | cycling =>
      rw [advanceCycle_of_cycling cycle, CabinRecord.advanced_of_cycling cycle]
      split
      · rfl
      · exact completed

/-- A cabin record after a report (R41). -/
def CabinRecord.reported (c : CabinRecord) (d : Door) (n now capacity : Nat) (lapsed : Bool) : CabinRecord :=
  ((c.recorded d n now).overloadJudged capacity).advanced lapsed

/-! ### The stages of a report -/

/-- A report up to its advanced cycle: the cabin's record is written. -/
def reportAdvanced (k : Cabin) (d : Door) (n : Nat) (s : State) : State :=
  advanceCycle k (judgeOverload k (recordReport k d n s))

theorem cabinReport_eq (k : Cabin) (d : Door) (n : Nat) (s : State) :
    cabinReport k d n s = sequencerReport k (gateReport k (judgeBreach k (reportAdvanced k d n s))) := rfl

theorem reportAdvanced_cabin (k : Cabin) (d : Door) (n : Nat) (s : State) (j : Cabin) :
    (reportAdvanced k d n s).cabin j =
      if k = j then
        (s.cabin j).reported d n s.lines.now (s.cabinEntry k).capacity (s.releaseLapsed (s.cabin j).releaseTime)
      else s.cabin j := by
  have lapsed : (judgeOverload k (recordReport k d n s)).releaseLapsed = s.releaseLapsed := by
    funext taken
    cases taken with
    | none => rfl
    | some r =>
      have now : (judgeOverload k (recordReport k d n s)).lines = s.lines := by simp
      unfold State.releaseLapsed State.age
      rw [now]
  rw [reportAdvanced, advanceCycle_cabin, judgeOverload_cabin, recordReport_cabin, lapsed]
  have entry : (recordReport k d n s).cabinEntry k = s.cabinEntry k := rfl
  rw [entry]
  by_cases here : k = j
  · subst here
    simp only [if_true]
    rfl
  · simp only [if_neg here]

theorem cabinReport_cabins (k : Cabin) (d : Door) (n : Nat) (s : State) :
    (cabinReport k d n s).cabins = (reportAdvanced k d n s).cabins := by
  rw [cabinReport_eq]
  simp

theorem cabinReport_cabin (k : Cabin) (d : Door) (n : Nat) (s : State) (j : Cabin) :
    (cabinReport k d n s).cabin j =
      if k = j then
        (s.cabin j).reported d n s.lines.now (s.cabinEntry k).capacity (s.releaseLapsed (s.cabin j).releaseTime)
      else s.cabin j := by
  rw [State.cabin_congr (cabinReport_cabins k d n s), reportAdvanced_cabin]

/-! ### The permits -/

theorem clearPermitsOf_get (k : Cabin) (s : State) (z : Zone) :
    (clearPermitsOf k s).permits.get z = (s.permits.get z).releaseCabin k := by
  cases z <;> rfl

theorem clearPermitsOf_permits (k : Cabin) (s : State) : PermitsClear s (clearPermitsOf k s) := fun z => by
  rw [clearPermitsOf_get, Permit.releaseCabin]
  split
  · exact .inr rfl
  · exact .inl rfl

/-- A completion clears the permits of the cabin, and nothing else of a cycle touches them (R47, R60). -/
theorem advanceCycle_permits (k : Cabin) (s : State) (z : Zone) :
    (advanceCycle k s).permits.get z =
      if (s.cabin k).cycle ≠ .idle ∧ ((advanceCycle k s).cabin k).cycle = .idle ∧
          (s.permits.get z).cabin = some k then .clear
      else s.permits.get z := by
  rw [advanceCycle_cabin, if_pos rfl]
  have completed : (gateCompletion k (endCycle k s)).permits.get z =
      if (s.permits.get z).cabin = some k then .clear else s.permits.get z := by
    rw [gateCompletion, clearPermitsOf_get, Permit.releaseCabin,
      show (testCabin k (endCycle k s)).permits = s.permits by simp]
  cases cycle : (s.cabin k).cycle with
  | idle =>
    rw [advanceCycle_of_idle cycle]
    split <;> simp
  | releaseSent =>
    rw [advanceCycle_of_releaseSent cycle, CabinRecord.advanced_of_releaseSent cycle]
    split
    · simp
    · split
      · simpa using completed
      · simp [cycle]
  | cycling =>
    rw [advanceCycle_of_cycling cycle, CabinRecord.advanced_of_cycling cycle]
    split
    · simp [cycle]
    · simpa using completed

theorem reportAdvanced_permits (k : Cabin) (d : Door) (n : Nat) (s : State) (z : Zone) :
    (reportAdvanced k d n s).permits.get z =
      if (s.cabin k).cycle ≠ .idle ∧ ((reportAdvanced k d n s).cabin k).cycle = .idle ∧
          (s.permits.get z).cabin = some k then .clear
      else s.permits.get z := by
  have before : (judgeOverload k (recordReport k d n s)).permits = s.permits := by simp
  have cycle : ((judgeOverload k (recordReport k d n s)).cabin k).cycle = (s.cabin k).cycle := by
    rw [judgeOverload_cabin, if_pos rfl, recordReport_cabin, if_pos rfl]
    rfl
  rw [reportAdvanced, advanceCycle_permits, before, cycle]

theorem cabinReport_permits (k : Cabin) (d : Door) (n : Nat) (s : State) (z : Zone) :
    (cabinReport k d n s).permits.get z =
      if (s.cabin k).cycle ≠ .idle ∧ ((cabinReport k d n s).cabin k).cycle = .idle ∧
          (s.permits.get z).cabin = some k then .clear
      else s.permits.get z := by
  have permits : (cabinReport k d n s).permits = (reportAdvanced k d n s).permits := by
    rw [cabinReport_eq]
    simp
  rw [State.cabin_congr (cabinReport_cabins k d n s), permits, reportAdvanced_permits]

end Sys2Proof.Machine
end

