-- ==== Sys2Proof/Proofs/RoutineEffects.lean ====
section

/-!
# The routine effects on cabins, permits and breaches

But for the moves of the tracker, a forwarded UNLOCK, an ARM_ZONE, an acknowledged breach and the two resets, every
effect of a command is routine: places stay, permits stay or become CLEAR, a lawful door cycle stays lawful, and a
cabin that becomes a breach is in the DOOR_BREACH record.
-/

namespace Sys2Proof.Machine

variable {s u v s₀ : State}

/-! ### Cabins -/

/-- The door cycle of a record is lawful (R44 to R46, R70). -/
structure CabinRecord.Cyclic (c : CabinRecord) : Prop where
  idle : c.cycle = .idle → c.releaseTime = none
  outside : c.location = none → c.cycle = .idle
  sent : c.cycle = .releaseSent → c.releaseTime ≠ none
  cycling : c.cycle = .cycling → c.door ≠ .locked

theorem cycleLaw_iff (s : State) : CycleLaw s ↔ ∀ k, (s.cabin k).Cyclic :=
  ⟨fun h k => ⟨(h k).1, (h k).2.1, (h k).2.2.1, (h k).2.2.2⟩,
    fun h k => ⟨(h k).idle, (h k).outside, (h k).sent, (h k).cycling⟩⟩

theorem notLocked_ne_locked {d : Door} (ajar : d.notLocked = true) : d ≠ .locked := by
  rintro rfl
  cases ajar

namespace CabinRecord.Cyclic

variable {c : CabinRecord}

theorem left (h : c.Cyclic) : c.left.Cyclic where
  idle _ := by
    unfold CabinRecord.left
    dsimp only
    split
    · next idle => exact h.idle idle
    · rfl
  outside _ := rfl
  sent := nofun
  cycling := nofun

theorem entered (h : c.Cyclic) (z : Zone) : (c.entered z).Cyclic := by
  unfold CabinRecord.entered
  split
  · next opens => exact ⟨nofun, nofun, nofun, fun _ => notLocked_ne_locked opens.2⟩
  · exact ⟨h.idle, nofun, h.sent, h.cycling⟩

theorem moved (h : c.Cyclic) (old new : ByZone Occupancy) (k : Cabin) : (c.moved old new k).Cyclic := by
  have entry {c : CabinRecord} (h : c.Cyclic) (z : Zone) : (c.afterEntry old new z k).Cyclic := by
    unfold CabinRecord.afterEntry
    split
    · exact h.entered z
    · exact h
  refine entry (entry ?_ _) _
  unfold CabinRecord.afterExits
  split
  · exact h.left
  · exact h

/-- A report moves the cycle on with the door it brings (R45, R46). -/
theorem reported (h : c.Cyclic) (d : Door) (n now capacity : Nat) (lapsed : Bool) :
    (c.reported d n now capacity lapsed).Cyclic := by
  unfold CabinRecord.reported CabinRecord.advanced
  split
  · next idle =>
    have idle : c.cycle = .idle := idle
    split
    · next opens =>
      exact ⟨nofun, fun outside => absurd outside opens.2, nofun, fun _ => notLocked_ne_locked opens.1⟩
    · refine ⟨h.idle, h.outside, h.sent, fun cycling => ?_⟩
      rw [show c.cycle = .cycling from cycling] at idle
      cases idle
  · next sent =>
    have sent : c.cycle = .releaseSent := sent
    split
    · next ajar =>
      refine ⟨nofun, fun outside => ?_, nofun, fun _ => notLocked_ne_locked ajar⟩
      rw [h.outside outside] at sent
      cases sent
    · split
      · exact ⟨fun _ => rfl, fun _ => rfl, nofun, nofun⟩
      · refine ⟨h.idle, h.outside, h.sent, fun cycling => ?_⟩
        rw [show c.cycle = .cycling from cycling] at sent
        cases sent
  · split
    · next ajar => exact ⟨h.idle, h.outside, h.sent, fun _ => notLocked_ne_locked ajar⟩
    · exact ⟨fun _ => rfl, fun _ => rfl, nofun, nofun⟩

/-- A door believed no more leaves a cycle lawful (R42). -/
theorem doubted (h : c.Cyclic) : ({ c with door := .unknown } : CabinRecord).Cyclic :=
  ⟨h.idle, h.outside, h.sent, fun _ => nofun⟩

theorem forgotten (h : c.Cyclic) : ({ c with lastReport := none } : CabinRecord).Cyclic :=
  ⟨h.idle, h.outside, h.sent, h.cycling⟩

end CabinRecord.Cyclic

/-- A cabin outside both zones with its door reported not locked (R48). -/
def State.Ajar (s : State) (k : Cabin) : Prop := (s.cabin k).location = none ∧ (s.cabin k).door.notLocked = true

theorem breachLaw_iff (s : State) : BreachLaw s ↔ (s.positionValid = true → ∀ k, s.Ajar k → s.Breached k) :=
  ⟨fun h valid k ajar => h valid k ajar.1 ajar.2, fun h valid k location door => h valid k ⟨location, door⟩⟩

theorem judgeBreach_breached {k : Cabin} (valid : s.positionValid = true) (ajar : s.Ajar k) :
    (judgeBreach k s).Breached k := by
  rw [judgeBreach, if_pos ⟨valid, ajar⟩]
  exact raiseBreach_breached k s

/-- A report that leaves its cabin ajar names it, while the position is valid (R48). -/
theorem cabinReport_breached {k : Cabin} {d : Door} {n : Nat} (valid : (cabinReport k d n s).positionValid = true)
    (ajar : (cabinReport k d n s).Ajar k) : (cabinReport k d n s).Breached k := by
  have positions : (cabinReport k d n s).positionValid = (reportAdvanced k d n s).positionValid := by
    rw [State.positionValid, cabinReport_eq]
    simp [State.positionValid]
  rw [State.Ajar, State.cabin_congr (cabinReport_cabins k d n s)] at ajar
  have judged : (judgeBreach k (reportAdvanced k d n s)).Breached k :=
    judgeBreach_breached (by rw [← positions]; exact valid) ajar
  have told := (HoldsKept.refl (judgeBreach k (reportAdvanced k d n s))).then_gateReport k
  exact (told.aside (u := cabinReport k d n s) (by rw [cabinReport_eq]; simp)).breach k judged

/-! ### Permits -/

theorem clearBothPermits_permits (s : State) : PermitsClear s (clearBothPermits s) := fun z => by
  cases z <;> exact .inr rfl

theorem changeMode_permits (m : ServiceMode) (cause : ModeCause) (s : State) :
    PermitsClear s (changeMode m cause s) :=
  .trans (.of_permits (by simp)) (gateModeChange_permits m _)

theorem checkComplete_permits (s : State) : PermitsClear s (checkComplete s) := by
  unfold checkComplete
  split
  · obtain ⟨w, same, e⟩ : ∃ w, w.permits = s.permits ∧
        completeClearDown s = stopToStandby (gateModeChange .cleared w) := by
      refine ⟨_, ?_, rfl⟩
      simp
    rw [e]
    exact .trans (.of_permits same) (.trans (gateModeChange_permits .cleared w) (.of_permits (by simp)))
  · exact .of_permits rfl

theorem enterClearDown_permits (cause : ModeCause) (s : State) : PermitsClear s (enterClearDown cause s) :=
  .trans (.trans (.of_permits (by simp)) (gateModeChange_permits .clearDown _)) (checkComplete_permits _)

theorem changeGrade_permits (g : Grade) (s : State) : PermitsClear s (changeGrade g s) := by
  have graded (w : State) : PermitsClear w (sequencerGrade g w) := by
    unfold sequencerGrade
    split
    · exact enterClearDown_permits .wind w
    · exact .of_permits rfl
  unfold changeGrade
  dsimp only
  generalize raised : (if s.grader.inForce ≠ 4 ∧ g = 4 then _ else _) = w
  have same : w.permits = s.permits := by
    rw [← raised]
    split
    · simp
    · split <;> simp
  refine .trans (.of_permits same) (.trans ?_ (graded _))
  split
  · exact clearBothPermits_permits w
  · exact .of_permits rfl

/-! ### Routine effects -/

/-- An effect that leaves the places, keeps the hold list's law and its breaches, brings each new breach to the
list, clears permits at most and keeps door cycles lawful. -/
structure Routine (s u : State) extends SamePlaces s u, HoldsKept s u where
  ajar : u.positionValid = true → ∀ k, u.Ajar k → s.Ajar k ∨ u.Breached k
  permits : PermitsClear s u
  cycles : ∀ k, (s.cabin k).Cyclic → (u.cabin k).Cyclic

namespace Routine

/-- An effect that leaves every cabin record. -/
theorem of_cabins (held : HoldsKept s u) (permits : PermitsClear s u)
    (same : u.tables.zones = s.tables.zones ∧ u.tracker = s.tracker ∧ u.cabins = s.cabins) : Routine s u where
  toSamePlaces := (SamePlaces.refl s).aside same
  toHoldsKept := held
  ajar _ k ajar := .inl (by rw [State.Ajar, ← State.cabin_congr same.2.2]; exact ajar)
  permits := permits
  cycles k lawful := by rw [State.cabin_congr same.2.2]; exact lawful

theorem refl (s : State) : Routine s s := of_cabins (.refl s) (.of_permits rfl) ⟨rfl, rfl, rfl⟩

theorem trans (first : Routine s v) (second : Routine v u) : Routine s u where
  zones := second.zones.trans first.zones
  tracker := second.tracker.trans first.tracker
  location k := (second.location k).trans (first.location k)
  toHoldsKept := first.toHoldsKept.trans second.toHoldsKept
  ajar valid k ajar := by
    have before : v.positionValid = true := by rw [State.positionValid, ← second.tracker]; exact valid
    rcases second.ajar valid k ajar with there | breached
    · exact (first.ajar before k there).imp_right (second.breach k)
    · exact .inr breached
  permits := first.permits.trans second.permits
  cycles k := second.cycles k ∘ first.cycles k

theorem then_held (h : Routine s₀ s) (held : HoldsKept s u) (same : u.tables.zones = s.tables.zones ∧
    u.tracker = s.tracker ∧ u.cabins = s.cabins ∧ u.permits = s.permits) : Routine s₀ u :=
  h.trans (.of_cabins held (.of_permits same.2.2.2) ⟨same.1, same.2.1, same.2.2.1⟩)

theorem aside (h : Routine s₀ s) (same : u.tables.zones = s.tables.zones ∧ u.tracker = s.tracker ∧
    u.cabins = s.cabins ∧ u.permits = s.permits ∧ u.lines = s.lines ∧ u.holds = s.holds) : Routine s₀ u := by
  obtain ⟨zones, tracker, cabins, permits, lines, holds⟩ := same
  exact h.then_held ((HoldsKept.refl s).aside ⟨lines, holds⟩) ⟨zones, tracker, cabins, permits⟩

/-- An effect that clears permits at most. -/
theorem then_cleared (h : Routine s₀ s) (permits : PermitsClear s u) (same : u.tables.zones = s.tables.zones ∧
    u.tracker = s.tracker ∧ u.cabins = s.cabins ∧ u.lines = s.lines ∧ u.holds = s.holds) : Routine s₀ u := by
  obtain ⟨zones, tracker, cabins, held⟩ := same
  exact h.trans (.of_cabins ((HoldsKept.refl s).aside held) permits ⟨zones, tracker, cabins⟩)

theorem then_setCabin (h : Routine s₀ s) {k : Cabin} {c : CabinRecord} (location : c.location = (s.cabin k).location)
    (door : c.door.notLocked = true → (s.cabin k).door.notLocked = true) (lawful : (s.cabin k).Cyclic → c.Cyclic) :
    Routine s₀ (s.setCabin k c) := by
  refine h.trans ⟨(SamePlaces.refl s).then_setCabin location, (HoldsKept.refl s).aside ⟨rfl, rfl⟩,
    fun _ j ajar => .inl ?_, .of_permits rfl, fun j => ?_⟩
  · rw [State.Ajar, State.setCabin_cabin] at ajar
    split at ajar
    · next here => subst here; exact ⟨location ▸ ajar.1, door ajar.2⟩
    · exact ajar
  · rw [State.setCabin_cabin]
    split
    · next here => subst here; exact lawful
    · exact id

theorem then_forEach {α : Type} {f : α → State → State} (h : Routine s₀ s)
    (step : ∀ x s, Routine s₀ s → Routine s₀ (f x s)) (xs : List α) : Routine s₀ (s.forEach xs f) := by
  unfold State.forEach
  induction xs generalizing s with
  | nil => exact h
  | cons x xs ih => exact ih (step x s h)

theorem then_guarded {c : Prop} [Decidable c] {f : State → State} (h : Routine s₀ s)
    (step : ∀ {u}, Routine s₀ u → Routine s₀ (f u)) : Routine s₀ (if c then f s else s) := by
  split
  · exact step h
  · exact h

/-! ### The hold list and the service mode -/

theorem then_raiseHold (h : Routine s₀ s) {what : Hold} (other : what.key ≠ .doorBreach) :
    Routine s₀ (raiseHold what s) :=
  h.then_held ((HoldsKept.refl s).then_raiseHold other) (by simp)

theorem then_changeMode (h : Routine s₀ s) (m : ServiceMode) (cause : ModeCause) : Routine s₀ (changeMode m cause s) :=
  h.then_cleared (changeMode_permits m cause s) (by simp)

theorem then_enterClearDown (h : Routine s₀ s) (cause : ModeCause) : Routine s₀ (enterClearDown cause s) :=
  h.then_cleared (enterClearDown_permits cause s) (by simp)

/-! ### The grade -/

theorem then_changeGrade (h : Routine s₀ s) (g : Grade) : Routine s₀ (changeGrade g s) :=
  h.trans (.of_cabins ((HoldsKept.refl s).then_changeGrade g) (changeGrade_permits g s) (by simp))

theorem then_gradeStep (h : Routine s₀ s) (c : Grade) : Routine s₀ (gradeStep c s) := by
  unfold gradeStep
  split
  · exact Routine.then_changeGrade (h.aside (by simp)) c
  · split <;> exact h.aside (by simp)

theorem then_evaluate (h : Routine s₀ s) : Routine s₀ (evaluate s) :=
  Routine.then_gradeStep (h.aside (by simp)) _

theorem then_expireDwell (h : Routine s₀ s) : Routine s₀ (expireDwell s) := by
  unfold expireDwell
  split
  · split
    · exact Routine.then_changeGrade (h.aside (by simp)) _
    · exact h
  · exact h

/-! ### The cabin records and the drives -/

theorem then_cabinReport (h : Routine s₀ s) (k : Cabin) (d : Door) (n : Nat) : Routine s₀ (cabinReport k d n s) := by
  refine h.trans ⟨(SamePlaces.refl s).then_cabinReport k d n, (HoldsKept.refl s).then_cabinReport k d n,
    fun valid j ajar => ?_, fun z => ?_, fun j => ?_⟩
  · by_cases here : k = j
    · subst here
      exact .inr (cabinReport_breached valid ajar)
    · rw [State.Ajar, cabinReport_cabin, if_neg here] at ajar
      exact .inl ajar
  · rw [cabinReport_permits]
    split
    · exact .inr rfl
    · exact .inl rfl
  · rw [cabinReport_cabin]
    split
    · exact fun lawful => lawful.reported ..
    · exact id

theorem then_testCabin (h : Routine s₀ s) (k : Cabin) : Routine s₀ (testCabin k s) :=
  h.then_held ((HoldsKept.refl s).then_testCabin k) (by simp)

theorem then_doorStale (h : Routine s₀ s) (k : Cabin) : Routine s₀ (doorStale k s) := by
  have unknown := h.then_setCabin (k := k) (c := { s.cabin k with door := .unknown }) rfl nofun (·.doubted)
  exact Routine.then_testCabin (unknown.aside (by simp)) k

theorem then_staleEvent (h : Routine s₀ s) (k : Cabin) : Routine s₀ (staleEvent k s) :=
  h.then_guarded fun h => h.then_doorStale k

theorem then_forgetDoor (h : Routine s₀ s) (k : Cabin) : Routine s₀ (forgetDoor k s) := by
  have forgotten := h.then_setCabin (k := k) (c := { s.cabin k with lastReport := none }) rfl id (·.forgotten)
  unfold forgetDoor
  dsimp only
  split
  · exact forgotten
  · exact forgotten.then_doorStale k

theorem then_clearPermitsOf (h : Routine s₀ s) (k : Cabin) : Routine s₀ (clearPermitsOf k s) :=
  h.then_cleared (clearPermitsOf_permits k s) ⟨rfl, rfl, rfl, rfl, rfl⟩

theorem then_driveReport (h : Routine s₀ s) (n : Fin 4) (ready : Bool) (fault : Byte) (speed : Nat) :
    Routine s₀ (driveReport n ready fault speed s) :=
  h.then_held ((HoldsKept.refl s).then_driveReport n ready fault speed) (by simp)

theorem then_dropDrive (h : Routine s₀ s) (n : Fin 4) : Routine s₀ (dropDrive n s) :=
  h.then_held ((HoldsKept.refl s).then_dropDrive n) (by simp)

theorem then_driveLapse (h : Routine s₀ s) (n : Fin 4) : Routine s₀ (driveLapse n s) :=
  h.then_guarded fun h => h.then_dropDrive n

theorem then_forgetDrive (h : Routine s₀ s) (n : Fin 4) : Routine s₀ (forgetDrive n s) :=
  Routine.then_dropDrive (h.aside (by simp)) n

/-! ### Requests -/

theorem then_plainRequest {decide : State → Reply × State} (h : Routine s₀ s) (step : Routine s₀ (decide s).2)
    (src : Byte) (args : List Byte) : Routine s₀ (plainRequest decide src args s).2 := by
  unfold plainRequest
  split
  · exact step
  · exact h

theorem then_putResume (h : Routine s₀ s) (b : Bool) : Routine s₀ (putResume b s) :=
  h.then_held (.of_records (Nat.le_refl _) rfl) ⟨rfl, rfl, rfl, rfl⟩

theorem then_setTurning (h : Routine s₀ s) : Routine s₀ (setTurning s) :=
  Routine.then_putResume (h.aside (by simp)) false

theorem then_stow (h : Routine s₀ s) (src : Byte) (args : List Byte) : Routine s₀ (stow src args s).2 := by
  have stowed : Routine s₀ (sequencerStow (changeWheel .stowed s)) :=
    Routine.then_guarded (h.aside (by simp)) fun h => h.then_changeMode .closed .request
  refine h.then_plainRequest ?_ src args
  split
  · split
    · exact stowed
    · exact stowed
    · exact h
    · exact h
  · exact h

theorem then_openService (h : Routine s₀ s) (src : Byte) (args : List Byte) :
    Routine s₀ (openService src args s).2 := by
  refine h.then_plainRequest ?_ src args
  split
  · exact h
  split
  · exact h
  split
  · exact h
  · dsimp only [openMode, answer]
    split
    · exact Routine.then_changeMode (h.aside (by simp)) .opened .request
    · exact h.then_changeMode .opened .request

end Routine

/-- Every request is routine but for the loads, RESTART, ACK_HOLD and ARM_ZONE. -/
theorem owner_routine {kind : Byte} {o : Owner} (found : ownerOf kind = some o) (src : Byte) (args : List Byte)
    (s : State) : Routine s (o src args s).2 ∨ o = loadRequest ∨ o = restart ∨ o = ackHold ∨ o = armZone := by
  have h := Routine.refl s
  have mem := ownerOf_mem found
  simp only [requestTable, List.mem_cons, Prod.mk.injEq, List.not_mem_nil, or_false] at mem
  rcases mem with ⟨-, rfl⟩ | ⟨-, rfl⟩ | ⟨-, rfl⟩ | ⟨-, rfl⟩ | ⟨-, rfl⟩ | ⟨-, rfl⟩ | ⟨-, rfl⟩ |
    ⟨-, rfl⟩ | ⟨-, rfl⟩ | ⟨-, rfl⟩ | ⟨-, rfl⟩ | ⟨-, rfl⟩ | ⟨-, rfl⟩ | ⟨-, rfl⟩ | ⟨-, rfl⟩ |
    ⟨-, rfl⟩ | ⟨-, rfl⟩ | ⟨-, rfl⟩ | ⟨-, rfl⟩ | ⟨-, rfl⟩ | ⟨-, rfl⟩
  · refine .inl ?_
    unfold readStatus
    split
    · exact h.then_guarded fun h => h.aside (by simp [clearOverflow])
    · exact h
  · rw [readTableRequest, readTable_state]; exact .inl h
  · exact .inr (.inl rfl)
  · refine .inl ?_
    unfold setLocks
    split
    · split
      · exact h
      · exact h.aside (by simp [answer])
    · exact h
  · exact .inr (.inr (.inl rfl))
  · rw [readHolds_state]; exact .inl h
  · exact .inl (h.then_plainRequest (h.then_raiseHold (what := .consoleHold) nofun) src args)
  · exact .inr (.inr (.inr (.inl rfl)))
  · rw [readCabins_state]; exact .inl h
  · rw [readWind_state]; exact .inl h
  · refine .inl (h.then_plainRequest ?_ src args)
    split
    · exact h.aside (by simp [answer])
    · exact h
  · exact .inl (h.then_stow src args)
  · refine .inl (h.then_plainRequest ?_ src args)
    split
    · split
      · exact h
      · exact h.then_setTurning
    · exact h
  · refine .inl (h.then_plainRequest ?_ src args)
    split <;> exact h.aside (by simp [answer])
  · refine .inl (h.then_plainRequest ?_ src args)
    split
    · split
      · exact h.then_setTurning
      · exact h
    · exact h
  · refine .inl (h.then_plainRequest ?_ src args)
    split
    · split
      · exact h
      · exact Routine.then_putResume (h.aside (by simp)) true
    · exact h
  · refine .inl ?_
    unfold setTrim
    split
    · exact h.aside (by simp [putTrim])
    · exact h
  · exact .inl (h.then_openService src args)
  · refine .inl (h.then_plainRequest ?_ src args)
    split
    · exact h.then_enterClearDown .request
    · exact h
    · exact h
  · refine .inl (h.then_plainRequest ?_ src args)
    split
    · exact h.then_changeMode .closed .request
    · exact h
    · exact h
  · exact .inr (.inr (.inr (.inr rfl)))

end Sys2Proof.Machine
end

