-- ==== Sys2Proof/Proofs/BlockInvariant.lean ====
section

/-!
# Laws of the cabins, permits and holds

A law that the routine effects keep is kept by every step once it is shown for the few other effects: the two resets,
a re-formation of the position, a ZONES load, a forwarded UNLOCK, an ARM_ZONE and an acknowledged breach.
-/

namespace Sys2Proof.Machine

variable {s u v : State}

/-! ### The heads before a re-formation -/

/-- What a report or a drop of encoder heads does before the position is re-formed: head records, count and latch
change, and perhaps ENCODER_DISAGREE is raised. -/
structure HeadsMoved (s v : State) extends HoldsKept s v where
  tables : v.tables = s.tables
  cabins : v.cabins = s.cabins
  permits : v.permits = s.permits
  accepted : v.tracker.accepted = s.tracker.accepted
  occ : v.tracker.occ = s.tracker.occ
  sound : s.tracker.Sound → v.tracker.Sound

namespace HeadsMoved

theorem of_setTracker {tr : Tracker} (accepted : tr.accepted = s.tracker.accepted) (occ : tr.occ = s.tracker.occ)
    (sound : s.tracker.Sound → tr.Sound) : HeadsMoved s (s.setTracker tr) :=
  ⟨(HoldsKept.refl s).aside ⟨rfl, rfl⟩, rfl, rfl, rfl, accepted, occ, sound⟩

theorem compareHeads (h : HeadsMoved s v) : HeadsMoved s (compareHeads v) := by
  obtain ⟨-, -, tables, cabins, permits, -⟩ := compareHeads_frame v
  have tracker := compareHeads_tracker v
  have same := v.tracker.afterComparison_eq (v.p 14)
  refine ⟨h.toHoldsKept.then_compareHeads, tables.trans h.tables, cabins.trans h.cabins, permits.trans h.permits,
    ?_, ?_, fun sound => ?_⟩
  · rw [tracker, same]
    exact h.accepted
  · rw [tracker, same]
    exact h.occ
  · rw [tracker]
    exact (h.sound sound).afterComparison _

theorem report {p : Nat} (range : p < 393216) (e : EncoderId) (health : Health) (s : State) :
    HeadsMoved s (Machine.compareHeads
      (s.setTracker (s.tracker.setHead e ((s.tracker.head e).report p s.lines.now health)))) := by
  have set : HeadsMoved s (s.setTracker (s.tracker.setHead e ((s.tracker.head e).report p s.lines.now health))) :=
    of_setTracker (by cases e <;> rfl) (by cases e <;> rfl) fun sound => sound.report e range _ health
  exact set.compareHeads

theorem dropped (a b : Bool) (s : State) : HeadsMoved s (s.setTracker (s.tracker.dropped a b)) := by
  refine of_setTracker rfl rfl fun sound => ⟨fun e fresh => ?_, sound.latch⟩
  cases e
  · exact sound.fresh .a (Bool.and_eq_true_iff.1 fresh).1
  · exact sound.fresh .b (Bool.and_eq_true_iff.1 fresh).1

/-- The cabins that breached before are still named when the position is re-formed. -/
theorem breached (h : HeadsMoved s v) (law : BreachLaw s) (valid : v.tracker.accepted.valid = true) (k : Cabin)
    (ajar : v.Ajar k) : v.Breached k := by
  refine h.breach k ((breachLaw_iff s).1 law ?_ k ?_)
  · rw [State.positionValid, ← h.accepted]
    exact valid
  · rw [State.Ajar, ← State.cabin_congr h.cabins]
    exact ajar

end HeadsMoved

/-! ### What a law is to be shown of -/

/-- A law that routine effects keep, with the effects it is to be shown of one by one. -/
structure BlockInvariant (law : State → Prop) : Prop where
  routine : ∀ {s u}, Routine s u → law s → law u
  powerOn : ∀ strap underWay key pending, law (State.powerOn strap underWay key pending)
  restarted : ∀ {s}, law s → law s.restarted
  reform : ∀ {s v}, HeadsMoved s v → law s → law (reform v)
  zones : ∀ {s} ps, law s → law (applyZones ps s).2
  unlock : ∀ {s z k}, (s.occ z).occupant = some k → law s → law (startCycle k (spendPermit z k s))
  arm : ∀ {s z k}, (s.occ z).occupant = some k → law s → law (putPermit z (.armed k) s)
  /-- The breach record may go once every cabin it names is LOCKED (R131). -/
  acked : ∀ {s r ks}, s.holdRecord .doorBreach = some r → r.what = .doorBreach ks →
    (∀ k ∈ ks, (s.cabin k).door = .locked) → law s → law (clearHold .doorBreach s)

namespace BlockInvariant

variable {law : State → Prop}

theorem guarded {c : Prop} [Decidable c] {f : State → State} (h : law s) (step : ∀ {u}, law u → law (f u)) :
    law (if c then f s else s) := by
  split
  · exact step h
  · exact h

/-! ### The tracker -/

theorem reformAfter (i : BlockInvariant law) (h : law s) (moved : HeadsMoved s v) (was : Bool) :
    law (reformAfter was v) :=
  guarded (i.reform moved h) fun h => i.routine ((Routine.refl _).then_raiseHold nofun) h

theorem encoderReport (i : BlockInvariant law) (h : law s) (e : EncoderId) (p : Nat) (health : Health) :
    law (encoderReport e p health s) := by
  unfold Machine.encoderReport
  split
  · next range => exact i.reformAfter h (.report range e health s) _
  · exact h

theorem dropHeads (i : BlockInvariant law) (h : law s) (a b : Bool) : law (dropHeads a b s) := by
  unfold Machine.dropHeads
  dsimp only
  split
  · exact i.reformAfter h (.dropped a b s) true
  · exact h

theorem encoderLapse (i : BlockInvariant law) (h : law s) (e : EncoderId) : law (encoderLapse e s) :=
  guarded h fun h => i.dropHeads h _ _

/-! ### Loads -/

theorem setTables (i : BlockInvariant law) (h : law s) {x : Tables} (zones : x.zones = s.tables.zones) :
    law (s.setTables x) :=
  i.routine ((Routine.refl s).aside ⟨zones, rfl, rfl, rfl, rfl, rfl⟩) h

theorem applyRoster (i : BlockInvariant law) (h : law s) (ps : Entries) : law (applyRoster ps s).2 := by
  unfold Machine.applyRoster
  dsimp only
  split
  · exact h
  · have loaded := i.setTables h
      (x := { s.tables with roster := loadedTable clampRoster s.tables.roster ps }) rfl
    generalize s.setTables { s.tables with roster := loadedTable clampRoster s.tables.roster ps } = v at loaded ⊢
    generalize (fun i : Fin 14 => s.tables.roster[i] != (loadedTable clampRoster s.tables.roster ps)[i]) = changed
    rw [rosterConsequences_eq]
    have dropped := i.dropHeads loaded (changed roleEncoderA) (changed roleEncoderB)
    have doors := (Routine.refl (Machine.dropHeads (changed roleEncoderA) (changed roleEncoderB) v)).then_guarded
      (c := changed roleConcentrator = true) (f := forgetDoors)
      (fun h => h.then_forEach (fun k _ h => h.then_forgetDoor k) _)
    have heads := doors.then_forEach (f := dropHeadIf changed)
      (fun _ _ h => h.then_guarded fun h => h.aside (by simp)) allFour
    exact i.routine (heads.then_forEach (f := forgetDriveIf changed)
      (fun _ _ h => h.then_guarded fun h => h.then_forgetDrive _) allFour) dropped

theorem applyCabins (i : BlockInvariant law) (h : law s) (ps : Entries) : law (applyCabins ps s).2 := by
  have loaded := i.setTables h
    (x := { s.tables with cabins := loadedTable clampCabin s.tables.cabins ps }) rfl
  exact i.routine ((Routine.refl _).then_forEach (f := fun k s' =>
      if s.tables.cabins[k].inService && !(loadedTable clampCabin s.tables.cabins ps)[k].inService then
        clearPermitsOf k s' else s')
    (fun k _ h => h.then_guarded fun h => h.then_clearPermitsOf k) allCabins) loaded

theorem applyParameters (i : BlockInvariant law) (h : law s) (ps : Entries) : law (applyParameters ps s).2 := by
  unfold Machine.applyParameters
  dsimp only
  have loaded := i.setTables h
    (x := { s.tables with params := loadedTable clampParam s.tables.params ps }) rfl
  generalize s.setTables { s.tables with params := loadedTable clampParam s.tables.params ps } = v at loaded ⊢
  have encoders {u : State} (h : law u) : law (encodersLowered u) := i.dropHeads h _ _
  have doors {u : State} (h : law u) : law (stalenessLowered u) :=
    i.routine ((Routine.refl u).then_forEach (fun k _ h => h.then_staleEvent k) _) h
  have drives {u : State} (h : law u) : law (drivesLowered u) :=
    i.routine ((Routine.refl u).then_forEach (fun n _ h => h.then_driveLapse n) _) h
  have heads {u : State} (h : law u) : law (headsLowered u) := i.routine ((Routine.refl u).aside (by simp)) h
  exact guarded (guarded (guarded (guarded loaded encoders) doors) drives) heads

theorem applyHeads (i : BlockInvariant law) (h : law s) (ps : Entries) : law (applyHeads ps s).2 := by
  have loaded := i.setTables h
    (x := { s.tables with heads := loadedTable clampHead s.tables.heads ps }) rfl
  have restarted := (Routine.refl (s.setTables
    { s.tables with heads := loadedTable clampHead s.tables.heads ps })).then_forEach
    (f := fun n s => if (written ps n.val).isSome then restartHead n s else s)
    (fun _ _ h => h.then_guarded fun h => h.aside (by simp)) allFour
  exact i.routine (restarted.aside (u := startSettling _) (by simp)) loaded

theorem apply (i : BlockInvariant law) (h : law s) (t : Table) (ps : Entries) : law (t.apply ps s).2 := by
  cases t
  case roster => exact i.applyRoster h ps
  case cabins => exact i.applyCabins h ps
  case zones => exact i.zones ps h
  case parameters => exact i.applyParameters h ps
  case heads => exact i.applyHeads h ps
  case pass => exact i.setTables h rfl
  case rules => exact i.routine (.aside (u := startSettling _) (.refl _) (by simp)) (i.setTables h rfl)

theorem loadTable (i : BlockInvariant law) (h : law s) (args : List Byte) : law (loadTable args s).2 := by
  have loaded (t : Table) (args : List Byte) : law (loadOn t args s).2 := by
    unfold loadOn
    split
    · exact h
    split
    · exact h
    split
    · exact h
    split
    · exact h
    · exact i.apply h t _
  unfold Machine.loadTable
  split
  · split
    · exact loaded _ _
    · exact h
  · exact h

/-! ### The other requests -/

theorem restart (i : BlockInvariant law) (h : law s) (src : Byte) (args : List Byte) :
    law (restart src args s).2 := by
  unfold Machine.restart plainRequest
  split
  · dsimp only
    split
    · exact i.routine ((Routine.refl s.restarted).aside (by simp [answer])) (i.restarted h)
    · exact h
  · exact h

theorem ackRecord (i : BlockInvariant law) (h : law s) (key : HoldKey) : law (ackRecord key s).2 := by
  have same := Routine.refl s
  unfold Machine.ackRecord
  split
  · exact h
  · next r found =>
    have here : r.what.key = key := by simpa using List.find?_some found
    split
    · next clears =>
      show law (ackClear key s)
      cases key
      case zoneOverrun z =>
        exact i.routine (same.then_held ((HoldsKept.refl s).then_clearOverrun z) (by simp [ackClear])) h
      case doorBreach =>
        obtain ⟨ks, what⟩ := doorBreach_of_key here
        refine i.acked found what (fun k mem => ?_) h
        rw [what] at clears
        simp only [State.ackEffect, ackIf] at clears
        split at clears
        · next locked => exact beq_iff_eq.1 (List.all_eq_true.1 locked k mem)
        · cases clears
      all_goals exact i.routine (same.then_held ((HoldsKept.refl s).then_clearHold nofun) (by simp [ackClear])) h
    · exact i.routine (same.then_held ((HoldsKept.refl s).then_markAcked key) ⟨rfl, rfl, rfl, rfl⟩) h
    · exact h

theorem ackHold (i : BlockInvariant law) (h : law s) (src : Byte) (args : List Byte) :
    law (ackHold src args s).2 := by
  unfold Machine.ackHold
  split
  · split
    · exact i.ackRecord h _
    · exact h
  · exact h

theorem armZone (i : BlockInvariant law) (h : law s) (src : Byte) (args : List Byte) :
    law (armZone src args s).2 := by
  have named (z : Zone) : law (armNamed z src s).2 := by
    unfold armNamed
    split
    · exact h
    split
    · exact h
    split
    · exact h
    split
    · exact h
    · next k occupied =>
      unfold armFor
      split
      · exact i.arm occupied h
      · exact h
      · exact h
  unfold Machine.armZone
  split
  · split
    · exact named _
    · exact h
  · exact h

theorem judgeRequest (i : BlockInvariant law) (h : law s) (src kind : Byte) (args : List Byte) :
    law (judgeRequest (ownerOf kind) src kind args s).2 := by
  have asked : law (match ownerOf kind with
      | some o => o src args s
      | none => answer .badKind s).2 := by
    cases found : ownerOf kind with
    | none => exact h
    | some o =>
      rcases owner_routine found src args s with same | rfl | rfl | rfl | rfl
      · exact i.routine same h
      · exact i.loadTable h args
      · exact i.restart h src args
      · exact i.ackHold h src args
      · exact i.armZone h src args
  unfold Machine.judgeRequest
  split
  · exact asked
  split
  · exact asked
  · exact h

/-! ### Frames and events -/

theorem observe (i : BlockInvariant law) (h : law s) (f : Frame) : law (observe f s) := by
  have same := Routine.refl s
  have position (src : Byte) (p : Nat) (health : Health) : law (observePosition src p health s) := by
    unfold observePosition
    split
    · exact i.encoderReport h _ _ _
    split
    · exact i.encoderReport h _ _ _
    · exact h
  have drive (src : Byte) (ready : Bool) (fault : Byte) (speed : Nat) :
      law (observeDrive src ready fault speed s) := by
    unfold observeDrive
    split
    · exact i.routine (same.then_driveReport _ ready fault speed) h
    · exact h
  have wind (src : Byte) (speed direction : Nat) (health : Health) :
      law (observeWind src speed direction health s) := by
    unfold observeWind
    split
    · exact i.routine (same.aside (by simp)) h
    · exact h
  have door (src cabin : Byte) (d : Door) (n : Nat) : law (observeDoor src cabin d n s) := by
    unfold observeDoor
    split
    · split
      · exact i.routine (same.then_cabinReport _ d n) h
      · exact h
    · exact h
  unfold Machine.observe
  split
  · split
    · exact position _ _ _
    split
    · exact drive _ _ _ _
    · exact h
  · split
    · exact wind _ _ _ _
    · exact h
  · split
    · exact door _ _ _ _
    · exact h
  · exact h

theorem occupied_of_judgeUnlock {src cabin : Byte} {k : Cabin} {z : Zone}
    (decided : s.judgeUnlock src cabin = .ok (k, z)) : (s.occ z).occupant = some k := by
  unfold State.judgeUnlock at decided
  split at decided
  · cases decided
  split at decided
  · cases decided
  split at decided
  · cases decided
  split at decided
  · cases decided
  · next zone =>
    split at decided
    · cases decided
    · cases decided
      simpa using List.find?_some zone

theorem doorCommand (i : BlockInvariant law) (h : law s) (f : Frame) : law (doorCommand f s) := by
  have same := Routine.refl s
  have unlocked (dst src cabin : Byte) : law (decideUnlock dst src cabin s) := by
    unfold decideUnlock
    split
    · next k z decided =>
      have started := i.unlock (occupied_of_judgeUnlock decided) h
      generalize e : startCycle k (spendPermit z k s) = v at started
      have copied : Routine v (forwardDoor .unlock dst cabin actionUnlock v) :=
        (Routine.refl v).aside (by simp [forwardDoor])
      have tested := copied.then_guarded (c := ((forwardDoor .unlock dst cabin actionUnlock v).occ z).past = true)
        (f := testOverrun z) fun {u} h => h.then_held ((HoldsKept.refl u).then_testOverrun z) (by simp)
      rw [← e] at tested started
      exact i.routine tested started
    · exact i.routine (same.aside (by simp [deny])) h
  have locked (dst src cabin : Byte) : law (decideLock dst src cabin s) := by
    unfold decideLock
    split
    · exact i.routine (same.aside (by simp [forwardDoor])) h
    · exact i.routine (same.aside (by simp [deny])) h
  unfold Machine.doorCommand
  split
  · split
    · exact unlocked _ _ _
    split
    · exact locked _ _ _
    · exact h
  · exact h

theorem requestArrives (i : BlockInvariant law) (h : law s) (f : Frame) : law (requestArrives f s) := by
  unfold Machine.requestArrives
  split
  · next tag kind args _ =>
    unfold takeRequest
    split
    · exact i.routine ((Routine.refl _).aside (by simp)) (i.judgeRequest h f.source kind args)
    · exact h
  · exact h

theorem decideFrame (i : BlockInvariant law) (h : law s) (f : Frame) : law (decideFrame f s) := by
  unfold Machine.decideFrame
  split
  · exact h
  split
  · exact i.doorCommand h f
  split
  · have raised := (Routine.refl s).then_raiseHold (what := .allStop f.source (f.payload.headD 0x00)) nofun
    exact i.routine (raised.aside (u := takeAllStop f s) (by simp [takeAllStop])) h
  split
  · exact i.requestArrives h f
  · have observed := i.observe h f
    rcases passOn_cases f (Machine.observe f s) with e | e <;> rw [e]
    · exact observed
    · exact i.routine ((Routine.refl _).aside (by simp)) observed

theorem event (i : BlockInvariant law) {c : Instr} {t : Nat} {e : State → State}
    (event : Instr.event c = some (t, e)) (h : law s) : law (e s) := by
  have same := Routine.refl s
  cases c
  case encoderLapse => cases event; exact i.encoderLapse h _
  case staleEvent => cases event; exact i.routine (same.then_staleEvent _) h
  case windEvaluation => cases event; exact i.routine same.then_evaluate h
  case dwellExpiry => cases event; exact i.routine same.then_expireDwell h
  case driveLapse => cases event; exact i.routine (same.then_driveLapse _) h
  case frameSendEnd | rotationUpdate | settlingEnd | headLapse =>
    cases event; exact i.routine (same.aside (by simp)) h
  all_goals cases event

theorem steps (i : BlockInvariant law) : StepInvariant law law where
  resetLow s h := i.routine ((Routine.refl s).then_held (.of_records (Nat.le_refl _) rfl) ⟨rfl, rfl, rfl, rfl⟩) h
  release _ _ _ := i.powerOn _ _ _ _
  key _ s h := i.routine ((Routine.refl s).then_held (.of_records (Nat.le_refl _) rfl) ⟨rfl, rfl, rfl, rfl⟩) h
  time t s _ h := i.routine
    ((Routine.refl s).then_held (.of_records (Nat.le_max_left _ t) rfl) ⟨rfl, rfl, rfl, rfl⟩) h
  reception s h := i.routine ((Routine.refl s).then_held (.of_records (Nat.le_refl _) rfl) ⟨rfl, rfl, rfl, rfl⟩) h
  frame f _ h := i.decideFrame h f
  event _ _ _ _ event h := i.event event h
  arbiter s h := i.routine ((Routine.refl s).aside ⟨rfl, rfl, rfl, rfl, rfl, rfl⟩) h

/-- Every step keeps the law. -/
theorem kept (i : BlockInvariant law) : Kept law :=
  i.steps.kept fun _ s h => i.routine ((Routine.refl s).aside ⟨rfl, rfl, rfl, rfl, rfl, rfl⟩) h

end BlockInvariant

end Sys2Proof.Machine
end

