-- ==== Sys2Proof/Proofs/PermitsAndBreaches.lean ====
section

/-!
# The permits, the door cycles and the breach list

A permit is bound to the occupant of its zone because the exit of that occupant clears it. A cabin with its door not
locked is in the DOOR_BREACH record because its report, its exit or the sweep at the position's return named it, and
the record goes only when every cabin of it is LOCKED (R48 to R50, R57, R60, R131).
-/

namespace Sys2Proof.Machine

variable {s u v w : State}

/-! ### Permits through the moves -/

theorem deliverMoves_permits (moved : Bool) (old new : ByZone Occupancy) (s : State) :
    PermitsClear s (deliverMoves moved old new s) := by
  rw [deliverMoves_eq]
  exact ((deliverExit_permits moved old new .unload s).trans (deliverExit_permits moved old new .load _)).trans
    (.of_permits (by simp))

theorem PermitsClear.between (moves : PermitsClear v w) (before : v.permits = s.permits)
    (after : u.permits = w.permits) : PermitsClear s u :=
  (PermitsClear.of_permits before).trans (moves.trans (.of_permits after))

theorem recompute_permits (moved : Bool) (s : State) : PermitsClear s (recompute moved s) := by
  rw [recompute_eq]
  generalize membership s.tables.zones s.tracker.accepted = new
  exact (deliverMoves_permits moved s.tracker.occ new (putOcc new s)).between rfl (deliverCrossings_permits _ _ _)

theorem reform_permits (s : State) : PermitsClear s (reform s) := by
  cases valid : s.tracker.accepted.valid <;> cases formed : s.tracker.formed.valid
  case true.true =>
    obtain ⟨v, e, -, -, -, permits, -⟩ := reform_recomputes valid formed
    rw [e]
    exact (recompute_permits true v).between permits rfl
  case true.false =>
    rw [reform_loses valid formed]
    have moves := deliverMoves_permits false s.tracker.occ emptyZones
      (putOcc emptyZones (putAccepted s.tracker.formed s))
    exact moves.between rfl (by simp [positionLost, putAccepted])
  case false.true =>
    rw [reform_returns valid formed]
    have moves := deliverMoves_permits false emptyZones s.occFormed
      (putOcc s.occFormed (putAccepted s.tracker.formed s))
    exact moves.between rfl (by simp [positionReturns, putAccepted, State.occFormed])
  case false.false =>
    rw [reform_stays valid formed]
    exact .of_permits rfl

/-- A permit that does not follow its cabin out of the zone stays bound to the occupant. -/
theorem permitLaw_of_clears (h : PermitLaw s) (permits : PermitsClear s u)
    (clears : ∀ z k, (s.permits.get z).cabin = some k → (s.occ z).occupant = some k →
      (u.occ z).occupant ≠ some k → u.permits.get z = .clear) : PermitLaw u := by
  intro z k bound
  rcases permits z with same | clear
  · rw [same] at bound
    by_contra left
    have clear := clears z k bound (h z k bound) left
    rw [← same, clear] at bound
    cases bound
  · rw [clear] at bound
    cases bound

theorem permitLaw_of_permits (h : PermitLaw s) (permits : PermitsClear s u) (occ : u.tracker.occ = s.tracker.occ) :
    PermitLaw u :=
  permitLaw_of_clears h permits fun z _ _ here left => absurd (by rw [State.occ, occ]; exact here) left

theorem recompute_permitLaw (h : PermitLaw s) (moved : Bool) : PermitLaw (recompute moved s) := by
  refine permitLaw_of_clears h (recompute_permits moved s) fun z k bound here left => ?_
  rw [State.occ, recompute_tracker] at left
  rw [recompute_eq, deliverCrossings_permits]
  exact deliverMoves_clears (s := putOcc _ s) ⟨here, left⟩ bound

theorem reform_permitLaw (h : PermitLaw s) (placed : Placed s) : PermitLaw (reform s) := by
  refine permitLaw_of_clears h (reform_permits s) fun z k bound here left => ?_
  rw [State.occ, reform_tracker, placed.reformedOcc] at left
  exact reform_clears ⟨by rw [placed.occBefore]; exact here, left⟩ bound

/-! ### Permits and cycles -/

theorem Permit.spend_cabin (k : Cabin) (p : Permit) : (p.spend k).cabin = p.cabin := by
  unfold spend
  split
  · next armed => rw [armed]; rfl
  · rfl

theorem HeadsMoved.reformable (moved : HeadsMoved s v) (h : Tracked s) : Reformable v := by
  obtain ⟨sound, -, placed⟩ := (trackLaw_iff s).1 h.2
  refine ⟨?_, moved.sound sound, ⟨?_, fun k => ?_⟩⟩
  · unfold ZonesLaw
    rw [moved.tables]
    exact h.1
  · rw [moved.occ, moved.tables, moved.accepted, placed.occ]
  · rw [State.cabin_congr moved.cabins, moved.occ]
    exact placed.located k

/-- The law of the permits and of the door cycles, with the tracker's law that they lean on. -/
abbrev PermitAndCycleLaw (s : State) : Prop := ZonesLaw s ∧ TrackLaw s ∧ PermitLaw s ∧ CycleLaw s

theorem permitAndCycle_of_places (same : SamePlaces s u) (clears : PermitsClear s u)
    (lawful : ∀ k, (s.cabin k).Cyclic → (u.cabin k).Cyclic) (h : PermitAndCycleLaw s) : PermitAndCycleLaw u := by
  obtain ⟨zones, track, permits, cycles⟩ := h
  obtain ⟨zones', track'⟩ := same.tracked ⟨zones, track⟩
  exact ⟨zones', track', permitLaw_of_permits permits clears (by rw [same.tracker]),
    (cycleLaw_iff u).2 fun k => lawful k ((cycleLaw_iff s).1 cycles k)⟩

/-- After a reset both permits are CLEAR and every cycle is IDLE (R54, R68). -/
theorem permitAndCycle_of_reset (tracked : Tracked u) (permits : u.permits = resetPermits)
    (cabin : ∀ k, u.cabin k = resetCabin) : PermitAndCycleLaw u := by
  refine ⟨tracked.1, tracked.2, fun z k bound => ?_, (cycleLaw_iff u).2 fun k => ?_⟩
  · rw [permits] at bound
    cases z <;> cases bound
  · rw [cabin]
    exact ⟨fun _ => rfl, fun _ => rfl, nofun, nofun⟩

theorem applyZones_permitAndCycle (ps : Entries) (h : PermitAndCycleLaw s) :
    PermitAndCycleLaw (applyZones ps s).2 := by
  obtain ⟨zones, track, permits, cycles⟩ := h
  obtain ⟨zones', track'⟩ := Tracked.applyZones ⟨zones, track⟩ ps
  refine ⟨zones', track', ?_⟩
  unfold applyZones
  dsimp only
  split
  · exact ⟨permits, cycles⟩
  · dsimp only
    generalize ({ unload := _, load := _ } : ByZone ZoneEntry) = entries
    unfold zonesChanged
    split
    · refine ⟨recompute_permitLaw (s := s.setTables { s.tables with zones := entries }) permits false,
        (cycleLaw_iff _).2 fun k => ?_⟩
      rw [recompute_cabin]
      exact ((cycleLaw_iff s).1 cycles k).moved _ _ k
    · exact ⟨permits, cycles⟩

theorem unlock_permitAndCycle {z : Zone} {k : Cabin} (here : (s.occ z).occupant = some k)
    (h : PermitAndCycleLaw s) : PermitAndCycleLaw (startCycle k (spendPermit z k s)) := by
  obtain ⟨zones, track, permits, cycles⟩ := h
  have located : (s.cabin k).location = some z := (((trackLaw_iff s).1 track).2.2.located k z).2 here
  have same : SamePlaces s (startCycle k (spendPermit z k s)) :=
    ((SamePlaces.refl s).aside (u := spendPermit z k s) (by simp)).then_setCabin rfl
  obtain ⟨zones', track'⟩ := same.tracked ⟨zones, track⟩
  refine ⟨zones', track', fun y j bound => permits y j ?_, (cycleLaw_iff _).2 fun j => ?_⟩
  · rw [← bound]
    show _ = ((s.permits.set z ((s.permits.get z).spend k)).get y).cabin
    cases z <;> cases y
    · exact (Permit.spend_cabin k _).symm
    · rfl
    · rfl
    · exact (Permit.spend_cabin k _).symm
  · rw [startCycle, State.setCabin_cabin]
    split
    · refine ⟨nofun, fun outside => ?_, fun _ => nofun, nofun⟩
      exact nomatch located.symm.trans outside
    · exact (cycleLaw_iff s).1 cycles j

theorem arm_permitAndCycle {z : Zone} {k : Cabin} (here : (s.occ z).occupant = some k)
    (h : PermitAndCycleLaw s) : PermitAndCycleLaw (putPermit z (.armed k) s) := by
  obtain ⟨zones, track, permits, cycles⟩ := h
  refine ⟨zones, track, fun y j bound => ?_, cycles⟩
  by_cases same : z = y
  · subst same
    have : k = j := by cases z <;> exact Option.some.inj bound
    exact this ▸ here
  · refine permits y j ?_
    rw [← bound]
    cases z <;> cases y
    · exact absurd rfl same
    · rfl
    · rfl
    · exact absurd rfl same

theorem permitAndCycle_invariant : BlockInvariant PermitAndCycleLaw where
  routine effect := permitAndCycle_of_places effect.toSamePlaces effect.permits effect.cycles
  powerOn _ _ _ _ := permitAndCycle_of_reset (tracked_powerOn _ _ _ _) rfl fun _ => Vector.getElem_replicate _
  restarted h := permitAndCycle_of_reset (tracked_restarted h.1) rfl fun _ => Vector.getElem_replicate _
  reform {s v} moved h := by
    obtain ⟨zones, track, permits, cycles⟩ := h
    have ready := moved.reformable ⟨zones, track⟩
    obtain ⟨zones', track'⟩ := ready.reform
    refine ⟨zones', track',
      reform_permitLaw (permitLaw_of_permits permits (.of_permits moved.permits) moved.occ) ready.placed,
      (cycleLaw_iff _).2 fun k => ?_⟩
    rw [ready.placed.reform_cabin, State.cabin_congr moved.cabins]
    exact ((cycleLaw_iff s).1 cycles k).moved _ _ k
  zones := applyZones_permitAndCycle
  unlock := unlock_permitAndCycle
  arm := arm_permitAndCycle
  acked {s _ _} _ _ _ h := by
    have cabin (k : Cabin) : (clearHold .doorBreach s).cabin k = s.cabin k := State.cabin_congr (by simp) k
    refine permitAndCycle_of_places ((SamePlaces.refl s).aside (by simp)) (.of_permits (by simp)) (fun k => ?_) h
    rw [cabin]
    exact id

/-- Settles O57: an exit clears the permit of the cabin that leaves, and a cycle moves on with the door it is
reported with. -/
theorem stepsKeepThePermitAndCycleLaws : Obligations.StepsKeepThePermitAndCycleLaws :=
  permitAndCycle_invariant.kept

/-! ### Breaches through the moves -/

theorem ajar_of_moved {c : CabinRecord} {old new : ByZone Occupancy} {k : Cabin} (stays : ∀ z, ¬ InOnly old new z k)
    (outside : (c.moved old new k).location = none) : c.location = none := by
  unfold CabinRecord.moved at outside
  rw [CabinRecord.afterEntry_location] at outside
  split at outside
  · cases outside
  rw [CabinRecord.afterEntry_location] at outside
  split at outside
  · cases outside
  rwa [CabinRecord.afterExits, if_neg fun leaves => leaves.elim (stays _) (stays _)] at outside

/-- A cabin that a move leaves outside with its door not locked left its zone just now, or breached before (R49). -/
theorem recompute_breached {moved : Bool} {k : Cabin} (valid : s.positionValid = true)
    (before : s.Ajar k → s.Breached k) (ajar : (recompute moved s).Ajar k) : (recompute moved s).Breached k := by
  obtain ⟨outside, door⟩ := ajar
  rw [recompute_cabin] at outside door
  rw [((s.cabin k).moved_reports _ _ k).1] at door
  by_cases leaves : ∃ z, InOnly s.tracker.occ (membership s.tables.zones s.tracker.accepted) z k
  · obtain ⟨z, leaves⟩ := leaves
    rw [recompute_eq]
    exact ((HoldsKept.refl _).then_deliverCrossings _ _).breach k
      (deliverMoves_breached (s := putOcc _ s) rfl leaves valid door)
  · exact ((HoldsKept.refl s).then_recompute moved).breach k
      (before ⟨ajar_of_moved (fun z here => leaves ⟨z, here⟩) outside, door⟩)

/-- The sweep names every cabin outside the zones with its door not locked (R50). -/
theorem sweepBreach_breached {k : Cabin} (valid : s.positionValid = true) (ajar : s.Ajar k) :
    (sweepBreach s).Breached k := by
  have swept (ks : List Cabin) (mem : k ∈ ks) : (s.forEach ks judgeBreach).Breached k := by
    unfold State.forEach
    induction ks generalizing s with
    | nil => cases mem
    | cons j ks ih =>
      rcases List.mem_cons.1 mem with rfl | mem
      · exact ((HoldsKept.refl _).then_forEach (fun k _ h => h.then_judgeBreach k) ks).breach k
          (judgeBreach_breached valid ajar)
      · have tracker : (judgeBreach j s).tracker = s.tracker := by simp
        have cabin : (judgeBreach j s).cabin k = s.cabin k := State.cabin_congr (by simp) k
        exact ih (s := judgeBreach j s) (by rw [State.positionValid, tracker]; exact valid)
          (by rw [State.Ajar, cabin]; exact ajar) mem
  exact swept allCabins (List.mem_finRange k)

theorem positionReturns_breached {a : Accepted} {k : Cabin} (valid : s.positionValid = true)
    (ajar : (positionReturns a s).Ajar k) : (positionReturns a s).Breached k := by
  unfold positionReturns at ajar ⊢
  dsimp only at ajar ⊢
  generalize membership s.tables.zones a = new at ajar ⊢
  have tracker : (deliverMoves false emptyZones new (putOcc new s)).tracker.accepted = s.tracker.accepted := by
    simp [putOcc]
  generalize deliverMoves false emptyZones new (putOcc new s) = w at tracker ajar ⊢
  have before : w.Ajar k := by
    rw [State.Ajar, State.cabin_congr (s := w) (by simp)] at ajar
    exact ajar
  have swept := sweepBreach_breached (by rw [State.positionValid, tracker]; exact valid) before
  have crossed := (HoldsKept.refl (sweepBreach w)).then_deliverCrossings emptyZones new
  have told : HoldsKept (sweepBreach w) (notify (.positionMode a) (deliverCrossings emptyZones new (sweepBreach w))) :=
    crossed.aside (by simp)
  exact (told.then_clearHold (key := .positionLost) nofun).breach k swept

theorem reform_breachLaw (before : s.tracker.accepted.valid = true → ∀ k, s.Ajar k → s.Breached k) :
    BreachLaw (reform s) := by
  refine (breachLaw_iff _).2 fun valid k ajar => ?_
  have formed : s.tracker.formed.valid = true := by
    rw [State.positionValid, reform_tracker] at valid
    exact valid
  cases accepted : s.tracker.accepted.valid
  case true =>
    obtain ⟨w, e, -, tracker, cabins, -, -, holds, -⟩ := reform_recomputes accepted formed
    rw [e] at ajar ⊢
    refine recompute_breached (by rw [State.positionValid, tracker]; exact formed) (fun ajar => ?_) ajar
    rw [State.Ajar, State.cabin_congr cabins] at ajar
    exact breached_of_records (by rw [holds]) (before accepted k ajar)
  case false =>
    rw [reform_returns accepted formed] at ajar ⊢
    exact positionReturns_breached (by exact formed) ajar

/-! ### The breach list -/

/-- The breach list's law, with the hold list's that makes its record the one of its key. -/
abbrev HeldBreachLaw (s : State) : Prop := HoldLaw s ∧ BreachLaw s

theorem heldBreach_of_same (h : HeldBreachLaw s) (tracker : u.tracker = s.tracker) (held : HoldsKept s u)
    (same : ∀ k, u.Ajar k → s.Ajar k) : HeldBreachLaw u := by
  refine ⟨held.law h.1, (breachLaw_iff u).2 fun valid k ajar => ?_⟩
  rw [State.positionValid, tracker] at valid
  exact held.breach k ((breachLaw_iff s).1 h.2 valid k (same k ajar))

theorem Routine.heldBreach (effect : Routine s u) (h : HeldBreachLaw s) : HeldBreachLaw u := by
  refine ⟨effect.law h.1, (breachLaw_iff u).2 fun valid k ajar => ?_⟩
  have before : s.positionValid = true := by rw [State.positionValid, ← effect.tracker]; exact valid
  exact (effect.ajar valid k ajar).elim (fun there => effect.breach k ((breachLaw_iff s).1 h.2 before k there)) id

/-- A reset leaves its three records and no position (R38, R135). -/
theorem heldBreach_of_reset (holds : u.holds = resetHolds u.lines.now) (tracker : u.tracker = resetTracker) :
    HeldBreachLaw u := by
  refine ⟨(holdLaw_iff u).2 ⟨?_, fun r mem => ?_⟩, (breachLaw_iff u).2 fun valid => ?_⟩
  · rw [holds]
    show [HoldKey.windStop, .positionLost, .drivesLost].Nodup
    decide
  · rw [holds] at mem
    simp only [resetHolds, List.mem_cons, List.not_mem_nil, or_false] at mem
    rcases mem with rfl | rfl | rfl <;> exact ⟨Nat.le_refl _, nofun⟩
  · rw [State.positionValid, tracker] at valid
    cases valid

theorem applyZones_heldBreach (ps : Entries) (h : HeldBreachLaw s) : HeldBreachLaw (applyZones ps s).2 := by
  unfold applyZones
  dsimp only
  split
  · exact h
  · generalize ({ unload := _, load := _ } : ByZone ZoneEntry) = zones
    unfold zonesChanged
    split
    · next valid =>
      have loaded : HoldsKept s (s.setTables { s.tables with zones := zones }) := (HoldsKept.refl s).aside ⟨rfl, rfl⟩
      refine ⟨(loaded.then_recompute false).law h.1, (breachLaw_iff _).2 fun _ k ajar => ?_⟩
      exact recompute_breached valid ((breachLaw_iff s).1 h.2 valid k) ajar
    · exact h

/-- The record that an ACK_HOLD clears names no cabin that breaches still (R131). -/
theorem acked_heldBreach {r : HoldRecord} {ks : List Cabin} (found : s.holdRecord .doorBreach = some r)
    (what : r.what = .doorBreach ks) (locked : ∀ k ∈ ks, (s.cabin k).door = .locked) (h : HeldBreachLaw s) :
    HeldBreachLaw (clearHold .doorBreach s) := by
  refine ⟨clearHold_law _ h.1, (breachLaw_iff _).2 fun valid k ajar => ?_⟩
  rw [State.positionValid, show (clearHold .doorBreach s).tracker = s.tracker by simp] at valid
  rw [State.Ajar, State.cabin_congr (s := s) (by simp)] at ajar
  obtain ⟨r', mem, ks', what', listed⟩ := (breachLaw_iff s).1 h.2 valid k ajar
  have same := eq_of_key h.1 mem (List.mem_of_find?_eq_some found) (by rw [what, what']; rfl)
  rw [same, what] at what'
  cases what'
  exact absurd (locked k listed) (notLocked_ne_locked ajar.2)

theorem heldBreach_invariant : BlockInvariant HeldBreachLaw where
  routine := Routine.heldBreach
  powerOn _ _ _ _ := heldBreach_of_reset rfl rfl
  restarted _ := heldBreach_of_reset rfl rfl
  reform {s v} moved h := ⟨(moved.toHoldsKept.then_reform).law h.1, reform_breachLaw (moved.breached h.2)⟩
  zones := applyZones_heldBreach
  unlock {s z k} _ h := by
    refine heldBreach_of_same h rfl ((HoldsKept.refl s).aside (by simp)) fun j ajar => ?_
    rw [State.Ajar, startCycle, State.setCabin_cabin] at ajar
    split at ajar
    · next here => exact here ▸ ajar
    · exact ajar
  arm {s z k} _ h := heldBreach_of_same h rfl (.of_records (Nat.le_refl _) rfl) fun _ => id
  acked := acked_heldBreach

/-- Settles O58: whatever leaves a cabin outside the zones with its door not locked names it. -/
theorem stepsKeepTheBreachLaw : Obligations.StepsKeepTheBreachLaw := heldBreach_invariant.kept

end Sys2Proof.Machine
end

