-- ==== Sys2Proof/Proofs/HoldCabinAndWindReads.lean ====
section

/-!
# The reads of the hold list, the cabins and the wind

A request that its owner answers without a change of state is answered alone: one RESPONSE joins the queue. The data
of the three reads are then the records of their chapters, octet for octet (R53, R97, R105, R134).
-/

namespace Sys2Proof.Machine

variable {s : State}

/-! ### A request that changes nothing -/

theorem requestFrame_wellFormed {src : Byte} (range : src.toNat ≤ 61) (s : State) (tag kind : Byte)
    {args : List Byte} (short : args.length ≤ 62) :
    (requestFrame s.ownAddress src tag kind args).wellFormed = true := by
  have own : s.ownAddress.toNat ≤ 61 := by
    rw [State.ownAddress_toNat]
    have := s.lines.strap.isLt
    omega
  refine (wellFormed_iff _).2 ⟨?_, ?_, ?_, range⟩
  · simp [requestFrame]
    omega
  · show s.ownAddress.toNat ≤ 63
    omega
  · show s.ownAddress.toNat ≠ 62
    omega

/-- A request of the console that its owner answers as the state stands changes nothing else (R168). -/
theorem answersOnly_of_owner {c : Instr} {t : Nat} {src tag kind : Byte} {args : List Byte} {o : Owner} {r : Reply}
    (takes : s.takesConsole src) (short : args.length ≤ 62)
    (frame : s.frameOf c = some (t, requestFrame s.ownAddress src tag kind args)) (owner : ownerOf kind = some o)
    (answers : o src args (s.advance t) = (r, s.advance t)) :
    AnswersOnly c t s (pushResponse src tag kind r (s.advance t)) src tag kind r.result r.data := by
  obtain ⟨⟨hears, room⟩, console⟩ := takes
  have done := completes_of_request frame (requestFrame_wellFormed hears.2.1 s tag kind short) hears
  have judged : judgeRequest (ownerOf kind) src kind args (s.advance t) = (r, s.advance t) := by
    rw [owner]
    exact (if_pos console).trans answers
  rw [takeRequest_of_room (s := s.advance t) _ room, judged] at done
  exact ⟨⟨done, rfl, rfl, rfl, rfl, rfl, rfl⟩, sameBlocks_of_eq rfl, rfl, rfl, rfl⟩

/-! ### The cabin records -/

/-- Of pieces of one length each stands at its place. -/
theorem take_drop_flatMap {α β : Type} {f : α → List β} {n : Nat} (size : ∀ x, (f x).length = n) {xs : List α}
    {i : Nat} {x : α} (there : xs[i]? = some x) : ((xs.flatMap f).drop (n * i)).take n = f x := by
  induction xs generalizing i with
  | nil => cases there
  | cons y ys ih =>
    rw [List.flatMap_cons]
    cases i with
    | zero =>
      obtain rfl : y = x := Option.some.inj there
      exact List.take_left' (size y)
    | succ i =>
      rw [Nat.mul_succ, Nat.add_comm, ← List.drop_drop, List.drop_left' (size y)]
      exact ih there

theorem cabinData_length {first count : Nat} (range : first + count ≤ 48) :
    (s.cabinData first count).length = 7 * count := by
  have size (k : Cabin) : (s.cabinOctets k).length = 7 := rfl
  rw [State.cabinData, List.length_flatMap, funext size, List.map_const', List.sum_replicate]
  simp [allCabins]
  omega

theorem cabinData_at {first count : Nat} {k : Cabin} (low : first ≤ k.val) (high : k.val < first + count) :
    ((s.cabinData first count).drop (7 * (k.val - first))).take 7 = s.cabinOctets k := by
  refine take_drop_flatMap (f := s.cabinOctets) (n := 7) (fun _ => rfl) ?_
  rw [List.getElem?_take_of_lt (by omega), List.getElem?_drop, Nat.add_sub_cancel' low, allCabins]
  simp

/-! ### The wind record -/

theorem headState_code (s : State) (n : Fin 4) :
    (s.headState n).code =
      if (s.headEntry n).enabled = false then 0x00 else if (s.head n).fresh = false then 0x01
      else if (s.head n).entered < 12 then 0x02 else 0x03 := by
  simp only [State.headState, apply_ite HeadState.code, Bool.not_eq_true']
  rfl

theorem figureOf_eq (s : State) (n : Fin 4) (x : Nat) :
    s.figureOf n x = if (s.headState n).code = 0x03 then x else 0 := by
  unfold State.figureOf State.headValid
  cases s.headState n <;> rfl

theorem windRecord_eq (s : State) :
    s.windRecord = [gradeOctet s.grader.inForce, gradeOctet s.grader.computed, octet s.siteFigures.valid] ++
      octets2 s.siteFigures.gust ++ octets2 s.siteFigures.sustained ++ octets2 s.siteFigures.spread ++
      [sectorField s.siteFigures.sector] ++ s.headOctets 0 ++ s.headOctets 1 ++ s.headOctets 2 ++ s.headOctets 3 :=
  rfl

theorem sectorField_eq (x : Option Nat) : sectorField x = (x.map octet).getD 0xFF := by
  cases x <;> rfl

theorem headOctets_eq (s : State) (n : Fin 4) :
    s.headOctets n =
      [(s.headState n).code, octet (s.head n).entered, ((s.head n).sector.map octet).getD 0xFF] ++
        octets2 (if (s.headState n).code = 0x03 then (s.head n).gust else 0) ++
        octets2 (if (s.headState n).code = 0x03 then (s.head n).sustained else 0) := by
  rw [State.headOctets, figureOf_eq, figureOf_eq, sectorField_eq]

/-! ### The three reads -/

theorem readHolds_badLength {src : Byte} {args : List Byte} (other : args.length ≠ 1) :
    readHolds src args s = answer .badLength s := by
  unfold readHolds
  split
  · exact absurd rfl other
  · rfl

theorem readCabins_badLength {src : Byte} {args : List Byte} (other : args.length ≠ 2) :
    readCabins src args s = answer .badLength s := by
  unfold readCabins
  split
  · exact absurd rfl other
  · rfl

theorem readWind_badLength {src : Byte} {args : List Byte} (other : args ≠ []) :
    readWind src args s = answer .badLength s := by
  unfold readWind
  split
  · exact absurd rfl other
  · rfl

/-- Settles O26: each read's owner answers its record and leaves the state. -/
theorem holdCabinAndWindReadsChangeNothing : Obligations.HoldCabinAndWindReadsChangeNothing := by
  intro t src tag args s takes short
  have holds {r : Reply} (answers : readHolds src args (s.advance t) = (r, s.advance t)) :=
    answersOnly_of_owner (c := .readHolds t src tag args) (tag := tag) (kind := 0x10) takes short rfl rfl answers
  have cabins {r : Reply} (answers : readCabins src args (s.advance t) = (r, s.advance t)) :=
    answersOnly_of_owner (c := .readCabins t src tag args) (tag := tag) (kind := 0x18) takes short rfl rfl answers
  have wind {r : Reply} (answers : readWind src args (s.advance t) = (r, s.advance t)) :=
    answersOnly_of_owner (c := .readWind t src tag args) (tag := tag) (kind := 0x20) takes short rfl rfl answers
  refine ⟨fun other => ⟨_, holds (readHolds_badLength other)⟩, fun part here => ⟨fun other => ?_, fun here' => ?_,
    fun here' => ?_⟩, fun other => ⟨_, cabins (readCabins_badLength other)⟩, fun first count here => ⟨fun outside => ?_,
    fun low some few high => ?_⟩, fun other => ⟨_, wind (readWind_badLength other)⟩, fun here => ?_⟩
  · subst here
    refine ⟨_, holds (r := .plain .badArgument) ?_⟩
    have notRecords : part ≠ 0x00 := by rintro rfl; exact absurd other (by decide)
    have notCabins : part ≠ 0x01 := by rintro rfl; exact absurd other (by decide)
    exact (if_neg notRecords).trans (if_neg notCabins)
  · subst here here'
    exact ⟨_, holds (r := .done (s.advance t).holdData) rfl⟩
  · subst here here'
    exact ⟨_, holds (r := .done (s.advance t).breachData) rfl⟩
  · subst here
    have zero : count.toNat = 0 ↔ count = 0 := by
      rw [← BitVec.toNat_inj]
      rfl
    rw [zero] at outside
    exact ⟨_, cabins (if_pos outside)⟩
  · subst here
    have inside : ¬ (48 ≤ first.toNat ∨ count = 0 ∨ 8 < count.toNat ∨ 48 < first.toNat + count.toNat) := by
      rintro (h | rfl | h | h)
      · omega
      · exact absurd some (by decide)
      · omega
      · omega
    exact ⟨_, _, cabins (if_neg inside), cabinData_length high, fun k low high => cabinData_at low high⟩
  · subst here
    have answered := wind (r := .done s.windRecord) rfl
    rw [show (Reply.done s.windRecord).data = s.windRecord from rfl, windRecord_eq] at answered
    simp only [headOctets_eq, headState_code, sectorField_eq] at answered
    exact ⟨rfl, _, answered⟩

end Sys2Proof.Machine
end

