-- ==== Sys2Proof/Proofs/HoldStages.lean ====
section

/-!
# Stages of a change to the hold list

An event raises and clears in stages, each with keys of its own. A stage tells the wheel where it touches a record of
its keys; so what a whole event does to the wheel follows from the list before and after it, stage by stage
(R125, R128, R147 to R149).
-/

namespace Sys2Proof.Machine

variable {s u v : State} {K L : HoldKey → Prop}

/-! ### The records of a key -/

/-- The records of a key, in raise order. -/
def State.recordsOf (s : State) (key : HoldKey) : List HoldRecord :=
  s.holds.records.filter (fun r => r.what.key == key)

theorem mem_recordsOf {r : HoldRecord} {key : HoldKey} :
    r ∈ s.recordsOf key ↔ r ∈ s.holds.records ∧ r.what.key = key := by
  simp [State.recordsOf]

theorem recordsOf_of_empty (empty : s.holds.records = []) (key : HoldKey) : s.recordsOf key = [] := by
  rw [State.recordsOf, empty]
  rfl

theorem recordsOf_congr (same : u.holds.records = s.holds.records) (key : HoldKey) :
    u.recordsOf key = s.recordsOf key := by
  rw [State.recordsOf, same, State.recordsOf]

theorem holdRecord_eq (s : State) (key : HoldKey) : s.holdRecord key = (s.recordsOf key).head? :=
  List.head?_filter.symm

theorem holdRecord_congr {key : HoldKey} (same : u.recordsOf key = s.recordsOf key) :
    u.holdRecord key = s.holdRecord key := by
  rw [holdRecord_eq, same, holdRecord_eq]

theorem holdsKey_eq (s : State) (key : HoldKey) : s.holdsKey key = !(s.recordsOf key).isEmpty := by
  rw [State.holdsKey, holdRecord_eq]
  cases s.recordsOf key <;> rfl

theorem holdsKey_iff_recordsOf {key : HoldKey} : s.holdsKey key = true ↔ s.recordsOf key ≠ [] := by
  rw [holdsKey_eq]
  cases s.recordsOf key <;> simp

/-! ### Stages -/

/-- The wheel after a raise that finds it RUNNING (R147, R149). -/
def State.stoppedWheel (s : State) : Wheel := if s.atRest = true then .held else .stopping .held

/-- The wheel after a clear that empties the list (R148). -/
def State.returnedWheel (s : State) : Wheel :=
  if s.holds.resumeRequired = false ∧ (s.rot.wheel = .held ∨ s.rot.wheel = .stopping .held) then .running
  else s.rot.wheel

/-- What a change of the hold list to records of some keys does to the list and the wheel. -/
structure HoldStage (K : HoldKey → Prop) (s u : State) : Prop where
  drives : u.drives = s.drives
  vCmd : u.rot.vCmd = s.rot.vCmd
  vLim : u.rot.vLim = s.rot.vLim
  /-- Only records of its keys change. -/
  others : ∀ key, ¬ K key → u.recordsOf key = s.recordsOf key
  /-- The wheel is told only of a change. -/
  told : u.rot = s.rot ∨ ∃ key, K key ∧ u.recordsOf key ≠ s.recordsOf key
  /-- Where it empties the list, the wheel returns. -/
  emptied : s.holds.records ≠ [] → u.holds.records = [] → u.rot.wheel = s.returnedWheel
  /-- An empty list that stays empty leaves the wheel. -/
  kept : s.holds.records = [] → u.holds.records = [] → u.rot.wheel = s.rot.wheel
  /-- Where it raises into an empty list, a RUNNING wheel stops. -/
  stopped : s.holds.records = [] → u.holds.records ≠ [] → s.rot.wheel = .running → u.rot.wheel = s.stoppedWheel
  /-- A wheel that moves was told of a raise that stands, or the list is empty. -/
  stays : (u.rot.wheel = s.rot.wheel ∧ u.holds.resumeRequired = s.holds.resumeRequired) ∨ u.holds.records = [] ∨
    ∃ key, K key ∧ u.recordsOf key ≠ []
  /-- With no record of its keys it has nothing to clear, and a raise moves a RUNNING wheel alone. -/
  quiet : (∀ key, K key → s.recordsOf key = []) → s.rot.wheel ≠ .running → u.rot.wheel = s.rot.wheel

namespace HoldStage

/-- A stage that leaves the wheel, and the list as empty as it was. -/
theorem of_rot (drives : u.drives = s.drives) (rot : u.rot = s.rot)
    (resume : u.holds.resumeRequired = s.holds.resumeRequired)
    (empty : u.holds.records = [] ↔ s.holds.records = [])
    (others : ∀ key, ¬ K key → u.recordsOf key = s.recordsOf key) : HoldStage K s u where
  drives := drives
  vCmd := by rw [rot]
  vLim := by rw [rot]
  others := others
  told := .inl rot
  emptied filled gone := absurd (empty.1 gone) filled
  kept _ _ := by rw [rot]
  stopped gone filled := absurd (empty.2 gone) filled
  stays := .inl ⟨by rw [rot], resume⟩
  quiet _ _ := by rw [rot]

theorem aside (same : u.holds = s.holds ∧ u.rot = s.rot ∧ u.drives = s.drives) : HoldStage K s u := by
  obtain ⟨holds, rot, drives⟩ := same
  exact of_rot drives rot (by rw [holds]) (by rw [holds]) fun key _ => recordsOf_congr (by rw [holds]) key

theorem refl (s : State) : HoldStage K s s := aside ⟨rfl, rfl, rfl⟩

theorem mono (h : HoldStage K s u) (le : ∀ key, K key → L key) : HoldStage L s u where
  drives := h.drives
  vCmd := h.vCmd
  vLim := h.vLim
  others key other := h.others key fun mine => other (le key mine)
  told := h.told.imp_right fun ⟨key, mine, changed⟩ => ⟨key, le key mine, changed⟩
  emptied := h.emptied
  kept := h.kept
  stopped := h.stopped
  stays := h.stays.imp_right (·.imp_right fun ⟨key, mine, stands⟩ => ⟨key, le key mine, stands⟩)
  quiet absent := h.quiet fun key mine => absent key (le key mine)

/-- A stage that raises into an empty list leaves a record of one of its keys. -/
theorem raised (h : HoldStage K s u) (before : s.holds.records = []) (after : u.holds.records ≠ []) :
    ∃ key, K key ∧ u.recordsOf key ≠ [] := by
  obtain ⟨r, mem⟩ := List.exists_mem_of_ne_nil _ after
  have stands : u.recordsOf r.what.key ≠ [] := List.ne_nil_of_mem (mem_recordsOf.2 ⟨mem, rfl⟩)
  refine ⟨r.what.key, ?_, stands⟩
  by_contra other
  rw [h.others _ other, recordsOf_of_empty before] at stands
  exact stands rfl

theorem nonempty_after (second : HoldStage L v u) (apart : ∀ key, K key → ¬ L key)
    (raised : ∃ key, K key ∧ v.recordsOf key ≠ []) : u.holds.records ≠ [] := fun empty => by
  obtain ⟨key, mine, stands⟩ := raised
  rw [← second.others key (apart key mine), recordsOf_of_empty empty] at stands
  exact stands rfl

/-- Two stages with keys apart are one. -/
theorem trans (first : HoldStage K s v) (second : HoldStage L v u) (apart : ∀ key, K key → ¬ L key) :
    HoldStage (fun key => K key ∨ L key) s u where
  drives := second.drives.trans first.drives
  vCmd := second.vCmd.trans first.vCmd
  vLim := second.vLim.trans first.vLim
  others key other := by
    rw [second.others key fun mine => other (.inr mine), first.others key fun mine => other (.inl mine)]
  told := by
    rcases first.told with same | ⟨key, mine, changed⟩
    · rcases second.told with same' | ⟨key, mine, changed⟩
      · exact .inl (same'.trans same)
      · refine .inr ⟨key, .inr mine, ?_⟩
        rwa [first.others key fun other => apart key other mine] at changed
    · refine .inr ⟨key, .inl mine, ?_⟩
      rwa [second.others key (apart key mine)]
  emptied before after := by
    by_cases between : v.holds.records = []
    · rw [second.kept between after, first.emptied before between]
    · rw [second.emptied between after]
      rcases first.stays with ⟨wheel, resume⟩ | empty | stands
      · rw [State.returnedWheel, wheel, resume, State.returnedWheel]
      · exact absurd empty between
      · exact absurd after (second.nonempty_after apart stands)
  kept before after := by
    by_cases between : v.holds.records = []
    · rw [second.kept between after, first.kept before between]
    · exact absurd after (second.nonempty_after apart (first.raised before between))
  stopped before after running := by
    by_cases between : v.holds.records = []
    · have wheel := first.kept before between
      rw [second.stopped between after (wheel.trans running), State.stoppedWheel,
        State.atRest_congr first.vCmd first.drives, State.stoppedWheel]
    · have wheel := first.stopped before between running
      have absent (key : HoldKey) (mine : L key) : v.recordsOf key = [] := by
        rw [first.others key fun other => apart key other mine, recordsOf_of_empty before]
      have still : v.rot.wheel ≠ .running := by
        rw [wheel, State.stoppedWheel]
        split <;> exact nofun
      rw [second.quiet absent still, wheel]
  stays := by
    rcases second.stays with ⟨wheel, resume⟩ | empty | ⟨key, mine, stands⟩
    · rcases first.stays with ⟨wheel', resume'⟩ | empty | ⟨key, mine, stands⟩
      · exact .inl ⟨wheel.trans wheel', resume.trans resume'⟩
      · by_cases after : u.holds.records = []
        · exact .inr (.inl after)
        · obtain ⟨key, mine, stands⟩ := second.raised empty after
          exact .inr (.inr ⟨key, .inr mine, stands⟩)
      · refine .inr (.inr ⟨key, .inl mine, ?_⟩)
        rwa [second.others key (apart key mine)]
    · exact .inr (.inl empty)
    · exact .inr (.inr ⟨key, .inr mine, stands⟩)
  quiet absent still := by
    have wheel := first.quiet (fun key mine => absent key (.inl mine)) still
    have absent' (key : HoldKey) (mine : L key) : v.recordsOf key = [] := by
      rw [first.others key fun other => apart key other mine]
      exact absent key (.inr mine)
    rw [second.quiet absent' (by rwa [wheel]), wheel]

theorem between {w : State} (stage : HoldStage K v w) (before : v.holds = s.holds ∧ v.rot = s.rot ∧ v.drives = s.drives)
    (after : u.holds = w.holds ∧ u.rot = w.rot ∧ u.drives = w.drives) : HoldStage K s u :=
  (trans (K := fun _ => False) (aside before) (trans (L := fun _ => False) stage (aside after) fun _ _ => id)
    fun _ => False.elim).mono fun _ => by simp

/-- The wheel moves only with the list. -/
theorem rot_of_holds (h : HoldStage K s u) (same : u.holds = s.holds) : u.rot = s.rot :=
  h.told.resolve_right fun ⟨key, _, changed⟩ => changed (recordsOf_congr (by rw [same]) key)

end HoldStage

/-! ### Raises and clears -/

theorem raiseHold_of_stands {what : Hold} (stands : s.holdsKey what.key = true) : raiseHold what s = s := if_pos stands

theorem raiseHold_recordsOf {what : Hold} (fresh : s.holdsKey what.key = false) (key : HoldKey) :
    (raiseHold what s).recordsOf key =
      s.recordsOf key ++ if what.key = key then [{ what := what, raised := s.lines.now, acked := false }] else [] := by
  rw [State.recordsOf, raiseHold_records fresh, List.filter_append]
  by_cases mine : what.key = key <;> simp [State.recordsOf, mine]

theorem clearHold_recordsOf (key key' : HoldKey) :
    (clearHold key s).recordsOf key' = if key = key' then [] else s.recordsOf key' := by
  rw [State.recordsOf, clearHold_holds]
  split
  · next here =>
    subst here
    simp [List.filter_filter]
  · next other =>
    rw [List.filter_filter, State.recordsOf]
    refine List.filter_congr fun r _ => ?_
    by_cases mine : r.what.key = key'
    · simp [mine, Ne.symm other]
    · simp [mine]

/-- A raise is a stage of its key (R125, R147). -/
theorem raiseHold_stage {what : Hold} (other : what.key ≠ .allStop) (s : State) :
    HoldStage (· = what.key) s (raiseHold what s) := by
  cases stands : s.holdsKey what.key with
  | true => rw [raiseHold_of_stands stands]; exact .refl s
  | false =>
    have wheel := raiseHold_wheel other s
    have speeds := raiseHold_speeds other s
    have mine : (raiseHold what s).recordsOf what.key ≠ [] := by
      rw [raiseHold_recordsOf stands, if_pos rfl]
      simp
    have filled : (raiseHold what s).holds.records ≠ [] := by
      rw [raiseHold_records stands]
      simp
    have absent : s.recordsOf what.key = [] := by simpa [holdsKey_eq] using stands
    exact
      { drives := by simp
        vCmd := speeds.1
        vLim := speeds.2
        others := fun key other => by rw [raiseHold_recordsOf stands, if_neg (Ne.symm other), List.append_nil]
        told := .inr ⟨_, rfl, by rwa [absent]⟩
        emptied := fun _ empty => absurd empty filled
        kept := fun _ empty => absurd empty filled
        stopped := fun _ _ running => by rw [wheel, if_pos ⟨running, stands⟩]; rfl
        stays := .inr (.inr ⟨_, rfl, mine⟩)
        quiet := fun _ still => by rw [wheel, if_neg fun h => still h.1] }

theorem onClear_wheel (s : State) :
    (onClear s).rot.wheel = if s.holds.records = [] then s.returnedWheel else s.rot.wheel := by
  have empty : s.noHolds = true ↔ s.holds.records = [] := List.isEmpty_iff
  unfold onClear State.returnedWheel
  by_cases gone : s.holds.records = []
  · rw [if_pos gone, empty.2 gone]
    cases s.holds.resumeRequired with
    | true => simp
    | false => cases wheel : s.rot.wheel with
      | held => simp
      | stopping d => cases d <;> simp [wheel]
      | _ => simp [wheel]
  · rw [if_neg gone, Bool.eq_false_iff.2 (mt empty.1 gone)]
    rfl

theorem onClear_speeds (s : State) :
    (onClear s).rot.vCmd = s.rot.vCmd ∧ (onClear s).rot.vLim = s.rot.vLim := by
  unfold onClear
  split
  · split <;> simp
  · exact ⟨rfl, rfl⟩

theorem clearHold_of_absent {key : HoldKey} (absent : s.holdRecord key = none) : clearHold key s = s := by
  rw [clearHold, absent]

theorem clearHold_rot {key : HoldKey} (stands : s.recordsOf key ≠ []) :
    (clearHold key s).rot.wheel =
        (if (clearHold key s).holds.records = [] then s.returnedWheel else s.rot.wheel) ∧
      (clearHold key s).rot.vCmd = s.rot.vCmd ∧ (clearHold key s).rot.vLim = s.rot.vLim := by
  obtain ⟨r, found⟩ := Option.isSome_iff_exists.1 (holdsKey_iff_recordsOf.2 stands)
  have cleared : clearHold key s = onClear (notify (.holdCleared r.what) (removeHold key s)) := by
    rw [clearHold, found]
  have rot : (notify (.holdCleared r.what) (removeHold key s)).rot = s.rot := by simp [removeHold]
  have holds : (notify (.holdCleared r.what) (removeHold key s)).holds = (clearHold key s).holds := by
    rw [cleared]
    simp
  have returned : (notify (.holdCleared r.what) (removeHold key s)).returnedWheel = s.returnedWheel := by
    rw [State.returnedWheel, rot, holds, clearHold_holds, State.returnedWheel]
  rw [← holds, ← returned, ← rot, cleared]
  exact ⟨onClear_wheel _, onClear_speeds _⟩

/-- A clear is a stage of its key (R128, R148). -/
theorem clearHold_stage (key : HoldKey) (s : State) : HoldStage (· = key) s (clearHold key s) := by
  by_cases absent : s.recordsOf key = []
  · have unfound : s.holdRecord key = none := by rw [holdRecord_eq, absent]; rfl
    rw [clearHold_of_absent unfound]
    exact .refl s
  · obtain ⟨wheel, vCmd, vLim⟩ := clearHold_rot absent
    exact
      { drives := by simp
        vCmd := vCmd
        vLim := vLim
        others := fun key' other => by rw [clearHold_recordsOf, if_neg (Ne.symm other)]
        told := .inr ⟨key, rfl, by rw [clearHold_recordsOf, if_pos rfl]; exact Ne.symm absent⟩
        emptied := fun _ empty => by rw [wheel, if_pos empty]
        kept := fun empty _ => absurd (recordsOf_of_empty empty key) absent
        stopped := fun empty _ _ => absurd (recordsOf_of_empty empty key) absent
        stays := by
          by_cases empty : (clearHold key s).holds.records = []
          · exact .inr (.inl empty)
          · exact .inl ⟨by rw [wheel, if_neg empty], by rw [clearHold_holds]⟩
        quiet := fun none _ => absurd (none key rfl) absent }

theorem addBreach_recordsOf (k : Cabin) {key : HoldKey} (other : key ≠ .doorBreach) (s : State) :
    (s.setHolds { s.holds with records := s.holds.records.map (HoldRecord.addBreach k) }).recordsOf key =
      s.recordsOf key := by
  have keys : (fun r : HoldRecord => r.what.key == key) ∘ HoldRecord.addBreach k = fun r => r.what.key == key := by
    funext r
    simp [HoldRecord.addBreach_key]
  show (s.holds.records.map (HoldRecord.addBreach k)).filter _ = _
  rw [List.filter_map, keys]
  refine (List.map_congr_left fun r mem => ?_).trans (List.map_id _)
  refine HoldRecord.addBreach_of_other fun ks what => other ?_
  rw [← (beq_iff_eq.1 (List.mem_filter.1 mem).2 : r.what.key = key), what]
  rfl

/-- A cabin added to the breach list changes its record alone (R126). -/
theorem raiseBreach_stage (k : Cabin) (s : State) : HoldStage (· = .doorBreach) s (raiseBreach k s) := by
  unfold raiseBreach
  split
  · split
    · exact .refl s
    · have added : HoldStage (· = .doorBreach) s
          (s.setHolds { s.holds with records := s.holds.records.map (HoldRecord.addBreach k) }) :=
        .of_rot rfl rfl rfl List.map_eq_nil_iff fun key other => addBreach_recordsOf k other s
      exact added.between ⟨rfl, rfl, rfl⟩ (by simp)
  · exact raiseHold_stage (what := .doorBreach [k]) nofun s

/-! ### Overrun and overload -/

theorem clearOverload_stage (k : Cabin) (s : State) : HoldStage (· = .cabinOverload) s (clearOverload k s) := by
  unfold clearOverload
  split
  · split
    · exact clearHold_stage _ s
    · exact .refl s
  · exact .refl s

theorem testOverrun_stage (z : Zone) (s : State) : HoldStage (· = .zoneOverrun z) s (testOverrun z s) := by
  unfold testOverrun
  split
  · next k _ => exact raiseHold_stage (what := .zoneOverrun z k) nofun s
  · exact .refl s

/-- A ZONE_OVERRUN that is cleared may be raised again, for an occupant that is not secured (R72, R73). -/
theorem clearOverrun_cases (z : Zone) (s : State) :
    clearOverrun z s = clearHold (.zoneOverrun z) s ∨ ∃ j, (s.cabin j).secured = false ∧
      (clearOverrun z s).recordsOf (.zoneOverrun z) =
        [{ what := .zoneOverrun z j, raised := s.lines.now, acked := false }] := by
  have gone : (clearHold (.zoneOverrun z) s).recordsOf (.zoneOverrun z) = [] := by
    rw [clearHold_recordsOf, if_pos rfl]
  have lines : (clearHold (.zoneOverrun z) s).lines = s.lines := by simp
  have cabin (j : Cabin) : (clearHold (.zoneOverrun z) s).cabin j = s.cabin j := State.cabin_congr (by simp) j
  unfold clearOverrun testOverrun
  split
  · next j overruns =>
    have fresh : (clearHold (.zoneOverrun z) s).holdsKey (Hold.zoneOverrun z j).key = false := by
      rw [holdsKey_eq, Hold.key, gone]
      rfl
    refine .inr ⟨j, ?_, ?_⟩
    · rw [← (overrunCabin_eq_some.1 overruns).2, cabin]
    · rw [raiseHold_recordsOf fresh, gone, lines]
      exact if_pos rfl
  · exact .inl rfl

/-- No record of the zone names a secured cabin then. -/
theorem clearOverrun_names {z : Zone} {k : Cabin} (secured : (s.cabin k).secured = true) {r : HoldRecord}
    (mem : r ∈ (clearOverrun z s).recordsOf (.zoneOverrun z)) : r.what ≠ .zoneOverrun z k := by
  rcases clearOverrun_cases z s with e | ⟨j, ajar, again⟩
  · rw [e, clearHold_recordsOf, if_pos rfl] at mem
    cases mem
  · rw [again, List.mem_singleton] at mem
    subst mem
    rintro ⟨⟩
    rw [ajar] at secured
    cases secured

theorem recordsOf_of_overrunRecordCabin {z : Zone} {k : Cabin} (named : s.overrunRecordCabin z = some k) :
    ∃ r rs, s.recordsOf (.zoneOverrun z) = r :: rs ∧ r.what.cabin = some k := by
  unfold State.overrunRecordCabin at named
  rw [holdRecord_eq] at named
  cases records : s.recordsOf (.zoneOverrun z) with
  | nil => rw [records] at named; cases named
  | cons r rs => rw [records] at named; exact ⟨r, rs, rfl, named⟩

/-- The clear of a ZONE_OVERRUN that names a secured cabin is a stage of its zone, with the raise that may follow. -/
theorem clearOverrun_stage {z : Zone} {k : Cabin} (named : s.overrunRecordCabin z = some k)
    (secured : (s.cabin k).secured = true) : HoldStage (· = .zoneOverrun z) s (clearOverrun z s) := by
  obtain ⟨r, rs, records, cabin⟩ := recordsOf_of_overrunRecordCabin named
  have cleared := clearHold_stage (.zoneOverrun z) s
  have raised : HoldStage (· = .zoneOverrun z) _ (clearOverrun z s) :=
    testOverrun_stage z (clearHold (.zoneOverrun z) s)
  rcases clearOverrun_cases z s with e | ⟨j, ajar, again⟩
  · rw [e]
    exact cleared
  have present : s.holds.records ≠ [] := fun empty => by rw [recordsOf_of_empty empty] at records; cases records
  have mine : (clearOverrun z s).recordsOf (.zoneOverrun z) ≠ [] := by rw [again]; simp
  have filled : (clearOverrun z s).holds.records ≠ [] := fun empty => mine (recordsOf_of_empty empty _)
  have other : j ≠ k := by
    rintro rfl
    rw [ajar] at secured
    cases secured
  exact
    { drives := raised.drives.trans cleared.drives
      vCmd := raised.vCmd.trans cleared.vCmd
      vLim := raised.vLim.trans cleared.vLim
      others := fun key other => (raised.others key other).trans (cleared.others key other)
      told := by
        refine .inr ⟨_, rfl, fun same => ?_⟩
        rw [again, records] at same
        cases same
        exact other (Option.some.inj cabin)
      emptied := fun _ empty => absurd empty filled
      kept := fun empty _ => absurd empty present
      stopped := fun empty => absurd empty present
      stays := .inr (.inr ⟨_, rfl, mine⟩)
      quiet := fun none _ => by rw [none _ rfl] at records; cases records }

theorem autoClear_stage (z : Zone) (k : Cabin) (s : State) : HoldStage (· = .zoneOverrun z) s (autoClear z k s) := by
  unfold autoClear
  split
  · next clears => exact clearOverrun_stage clears.1 clears.2.2
  · exact .refl s

theorem testCabin_of_located {k : Cabin} {z : Zone} (located : (s.cabin k).location = some z) :
    testCabin k s = if (s.occ z).occupant = some k then testOverrun z s else s := by
  rw [testCabin, located]

end Sys2Proof.Machine
end

