-- ==== Sys2Proof/Proofs/ReportStages.lean ====
section

/-!
# The stages of a DOOR_REPORT

To the hold list a report is two stages: the overload, whose key is CABIN_OVERLOAD, and the rest. Of the rest a report
that leaves the cabin LOCKED and IDLE can only clear AUTO records of the zones, and any other can only raise once: an
overrun where the cabin is in a zone, a breach where it is outside (R41, R48, R51, R52, R70, R72).
-/

namespace Sys2Proof.Machine

variable {s u : State} {k : Cabin}

/-! ### The record -/

theorem notLocked_iff_ne {d : Door} (known : d ≠ .unknown) : d.notLocked = true ↔ d ≠ .locked := by
  cases d <;> simp_all [Door.notLocked]

theorem decodeDoor_known (o : Byte) : decodeDoor o ≠ .unknown := by
  unfold decodeDoor
  split
  · exact nofun
  split
  · exact nofun
  split <;> exact nofun

theorem secured_iff (c : CabinRecord) : c.secured = true ↔ c.door = .locked ∧ c.cycle = .idle := by
  rw [CabinRecord.secured, Bool.and_eq_true, beq_iff_eq, beq_iff_eq]

theorem releaseLapsed_eq_false_iff (s : State) (taken : Option Nat) :
    s.releaseLapsed taken = false ↔ ∃ r, taken = some r ∧ s.lines.now - r < 1000 := by
  cases taken with
  | none => simp [State.releaseLapsed]
  | some r =>
    rw [State.releaseLapsed, State.age, Config.releaseLapse, decide_eq_false_iff_not]
    simp

theorem CabinRecord.reported_fields (c : CabinRecord) (d : Door) (n now capacity : Nat) (lapsed : Bool) :
    (c.reported d n now capacity lapsed).door = d ∧
      (c.reported d n now capacity lapsed).occupancy = min n 40 ∧
      (c.reported d n now capacity lapsed).lastReport = some now ∧
      (c.reported d n now capacity lapsed).location = c.location ∧
      (c.reported d n now capacity lapsed).overloaded =
        if min n 40 ≤ capacity then false
        else if d = .locked ∧ c.location = some .load then true else c.overloaded := by
  rw [CabinRecord.reported, CabinRecord.advanced_eq]
  exact ⟨rfl, rfl, rfl, rfl, rfl⟩

section
variable {c : CabinRecord} (known : c.door ≠ .unknown)
include known

theorem CabinRecord.cycle_of_idle (idle : c.cycle = .idle) (lapsed : Bool) :
    if c.door ≠ .locked ∧ c.location ≠ none then
      (c.advanced lapsed).cycle = .cycling ∧ (c.advanced lapsed).releaseTime = none
    else (c.advanced lapsed).cycle = .idle ∧ (c.advanced lapsed).releaseTime = c.releaseTime := by
  have ajar := notLocked_iff_ne known
  rw [advanced_of_idle idle]
  split
  · next opens => rw [if_pos ⟨ajar.2 opens.1, opens.2⟩]; exact ⟨rfl, rfl⟩
  · next still => rw [if_neg fun opens => still ⟨ajar.1 opens.1, opens.2⟩]; exact ⟨idle, rfl⟩

theorem CabinRecord.cycle_of_releaseSent (sent : c.cycle = .releaseSent) (lapsed : Bool) :
    if c.door ≠ .locked then
      (c.advanced lapsed).cycle = .cycling ∧ (c.advanced lapsed).releaseTime = c.releaseTime
    else if lapsed = false then
      (c.advanced lapsed).cycle = .releaseSent ∧ (c.advanced lapsed).releaseTime = c.releaseTime
    else (c.advanced lapsed).cycle = .idle ∧ (c.advanced lapsed).releaseTime = none := by
  have ajar := notLocked_iff_ne known
  rw [advanced_of_releaseSent sent]
  split
  · next opens => rw [if_pos (ajar.2 opens)]; exact ⟨rfl, rfl⟩
  · next locked =>
    rw [if_neg (mt ajar.1 locked)]
    cases lapsed with
    | false => exact ⟨sent, rfl⟩
    | true => exact ⟨rfl, rfl⟩

theorem CabinRecord.cycle_of_cycling (cycling : c.cycle = .cycling) (lapsed : Bool) :
    if c.door ≠ .locked then
      (c.advanced lapsed).cycle = .cycling ∧ (c.advanced lapsed).releaseTime = c.releaseTime
    else (c.advanced lapsed).cycle = .idle ∧ (c.advanced lapsed).releaseTime = none := by
  have ajar := notLocked_iff_ne known
  rw [advanced_of_cycling cycling]
  split
  · next opens => rw [if_pos (ajar.2 opens)]; exact ⟨cycling, rfl⟩
  · next locked => rw [if_neg (mt ajar.1 locked)]; exact ⟨rfl, rfl⟩

end

/-! ### The overload stage -/

theorem judgeOverload_stage (k : Cabin) (s : State) : HoldStage (· = .cabinOverload) s (judgeOverload k s) := by
  unfold judgeOverload
  dsimp only
  split
  · split
    · exact (clearOverload_stage k (s.setCabin k _)).between ⟨rfl, rfl, rfl⟩ ⟨rfl, rfl, rfl⟩
    · exact .refl s
  · split
    · exact (raiseHold_stage (what := .cabinOverload k) nofun (s.setCabin k _)).between ⟨rfl, rfl, rfl⟩ ⟨rfl, rfl, rfl⟩
    · exact .refl s

/-- What judging the overload does: it clears the flag, sets it, or leaves all as it is (R51, R52). -/
theorem judgeOverload_cases (k : Cabin) (s : State) :
    ((s.cabin k).overloaded = true ∧ ((judgeOverload k s).cabin k).overloaded = false ∧
        ∃ c, judgeOverload k s = clearOverload k (s.setCabin k c)) ∨
      ((s.cabin k).overloaded = false ∧ ((judgeOverload k s).cabin k).overloaded = true ∧
        ∃ c, judgeOverload k s = raiseHold (.cabinOverload k) (s.setCabin k c)) ∨
      judgeOverload k s = s := by
  rw [judgeOverload_cabin, if_pos rfl]
  unfold judgeOverload CabinRecord.overloadJudged
  dsimp only
  by_cases fits : (s.cabin k).occupancy ≤ (s.cabinEntry k).capacity
  · rw [if_pos fits, if_pos fits]
    split
    · next flagged => exact .inl ⟨flagged, rfl, _, rfl⟩
    · exact .inr (.inr rfl)
  · rw [if_neg fits, if_neg fits]
    by_cases laden : (s.cabin k).door = .locked ∧ (s.cabin k).location = some .load ∧ (!(s.cabin k).overloaded) = true
    · rw [if_pos laden]
      obtain ⟨locked, inside, clear⟩ := laden
      exact .inr (.inl ⟨by simpa using clear, if_pos ⟨locked, inside⟩, _, rfl⟩)
    · exact .inr (.inr (if_neg laden))

theorem clearOverload_of_named (named : (s.holdRecord .cabinOverload).map (·.what) = some (.cabinOverload k)) :
    clearOverload k s = clearHold .cabinOverload s := by
  obtain ⟨⟨what, raised, acked⟩, found, here⟩ := Option.map_eq_some_iff.1 named
  cases here
  rw [clearOverload, found]
  exact if_pos rfl

theorem clearOverload_of_other (other : (s.holdRecord .cabinOverload).map (·.what) ≠ some (.cabinOverload k)) :
    clearOverload k s = s := by
  unfold clearOverload
  split
  · next j raised acked found =>
    split
    · next here =>
      subst here
      exact absurd (by rw [found]; rfl) other
    · rfl
  · rfl

theorem judgeOverload_raises (before : (s.cabin k).overloaded = false)
    (after : ((judgeOverload k s).cabin k).overloaded = true) :
    (judgeOverload k s).holdsKey .cabinOverload = true ∧
      (s.holdsKey .cabinOverload = false → ∃ r ∈ (judgeOverload k s).holds.records, r.what = .cabinOverload k) := by
  rcases judgeOverload_cases k s with ⟨flagged, -⟩ | ⟨-, -, c, e⟩ | e
  · rw [flagged] at before
    cases before
  · rw [e]
    refine ⟨by rw [raiseHold_holdsKey]; exact Bool.or_true _, fun fresh => ?_⟩
    rw [raiseHold_records (s := s.setCabin k c) (h := .cabinOverload k) fresh]
    exact ⟨_, List.mem_append_right _ (List.mem_singleton_self _), rfl⟩
  · rw [e, before] at after
    cases after

theorem judgeOverload_clears (before : (s.cabin k).overloaded = true)
    (after : ((judgeOverload k s).cabin k).overloaded = false)
    (named : (s.holdRecord .cabinOverload).map (·.what) = some (.cabinOverload k)) :
    (judgeOverload k s).holdsKey .cabinOverload = false := by
  rcases judgeOverload_cases k s with ⟨-, -, c, e⟩ | ⟨clear, -⟩ | e
  · rw [e, clearOverload_of_named (s := s.setCabin k c) named, clearHold_holdsKey]
    simp
  · rw [clear] at before
    cases before
  · rw [e, before] at after
    cases after

theorem judgeOverload_keeps (other : (s.cabin k).overloaded = ((judgeOverload k s).cabin k).overloaded ∨
      (s.holdRecord .cabinOverload).map (·.what) ≠ some (.cabinOverload k))
    (cleared : (s.cabin k).overloaded = true ∨ ((judgeOverload k s).cabin k).overloaded = false) :
    (judgeOverload k s).holdRecord .cabinOverload = s.holdRecord .cabinOverload := by
  rcases judgeOverload_cases k s with ⟨before, after, c, e⟩ | ⟨before, after, -⟩ | e
  · rw [before, after] at other
    rw [e, clearOverload_of_other (s := s.setCabin k c) (other.resolve_left nofun)]
    rfl
  · rw [before, after] at cleared
    exact cleared.elim nofun nofun
  · rw [e]

/-! ### The overrun test -/

theorem overrunCabin_congr (tracker : u.tracker = s.tracker) (cabin : u.cabin = s.cabin) (z : Zone) :
    u.overrunCabin z = s.overrunCabin z := by
  rw [State.overrunCabin, State.occ_congr tracker, cabin, State.overrunCabin]

theorem testOverrun_cabin (z : Zone) (s : State) : (testOverrun z s).cabin = s.cabin :=
  funext (State.cabin_congr (by simp))

theorem testOverrun_testOverrun (z : Zone) (s : State) : testOverrun z (testOverrun z s) = testOverrun z s := by
  have same : (testOverrun z s).overrunCabin z = s.overrunCabin z :=
    overrunCabin_congr (by simp) (testOverrun_cabin z s) z
  cases overruns : s.overrunCabin z with
  | none =>
    have none : testOverrun z s = s := by rw [testOverrun, overruns]
    rw [none, none]
  | some j =>
    have raised : testOverrun z s = raiseHold (.zoneOverrun z j) s := by rw [testOverrun, overruns]
    rw [testOverrun, same, overruns]
    refine raiseHold_of_stands ?_
    rw [raised, raiseHold_holdsKey]
    exact Bool.or_eq_true_iff.2 (.inr (beq_self_eq_true _))

theorem testCabin_testCabin (k : Cabin) (s : State) : testCabin k (testCabin k s) = testCabin k s := by
  cases located : (s.cabin k).location with
  | none => rw [testCabin_of_outside located, testCabin_of_outside located]
  | some z =>
    rw [testCabin_of_located located]
    split
    · next here =>
      rw [testCabin_of_located (z := z) (by rw [testOverrun_cabin, located]), State.occ_congr (s := s) (by simp),
        if_pos here, testOverrun_testOverrun]
    · next other => rw [testCabin_of_located located, if_neg other]

theorem testCabin_stage {z : Zone} (located : (s.cabin k).location = some z) :
    HoldStage (· = .zoneOverrun z) s (testCabin k s) := by
  rw [testCabin_of_located located]
  split
  · exact testOverrun_stage z s
  · exact .refl s

/-- A cabin that is LOCKED and IDLE does not overrun its zone (R70). -/
theorem testCabin_of_secured (secured : (s.cabin k).secured = true) : testCabin k s = s := by
  cases located : (s.cabin k).location with
  | none => exact testCabin_of_outside located
  | some z =>
    rw [testCabin_of_located located]
    split
    · next here =>
      unfold testOverrun
      split
      · next j overruns =>
        obtain ⟨occ, ajar⟩ := overrunCabin_eq_some.1 overruns
        rw [occ] at here
        obtain rfl : j = k := Option.some.inj here
        rw [ajar] at secured
        cases secured
      · rfl
    · rfl

/-! ### The advanced cycle -/

/-- A cycle that ends or rests LOCKED and IDLE does nothing to the list. -/
theorem advanceCycle_of_secured (secured : ((advanceCycle k s).cabin k).secured = true) :
    (advanceCycle k s).holds = s.holds ∧ (advanceCycle k s).rot = s.rot := by
  rw [advanceCycle_cabin, if_pos rfl, secured_iff] at secured
  obtain ⟨locked, idle⟩ := secured
  rw [CabinRecord.advanced_eq] at locked
  have shut : ¬ (s.cabin k).door.notLocked = true := fun ajar => notLocked_ne_locked ajar locked
  have completed : (gateCompletion k (endCycle k s)).holds = s.holds ∧
      (gateCompletion k (endCycle k s)).rot = s.rot := by
    rw [gateCompletion, testCabin_of_secured]
    · exact ⟨rfl, rfl⟩
    · rw [endCycle_cabin, if_pos rfl, secured_iff]
      exact ⟨locked, rfl⟩
  cases cycle : (s.cabin k).cycle with
  | idle =>
    rw [advanceCycle_of_idle cycle, if_neg fun opens => shut opens.1]
    exact ⟨rfl, rfl⟩
  | releaseSent =>
    rw [advanceCycle_of_releaseSent cycle, if_neg shut]
    split
    · exact completed
    · exact ⟨rfl, rfl⟩
  | cycling =>
    rw [advanceCycle_of_cycling cycle, if_neg shut]
    exact completed

/-- A cycle that is not over does nothing to the list, or tests the cabin's zone (R46, R47). -/
theorem advanceCycle_of_not_secured (known : (s.cabin k).door ≠ .unknown)
    (ajar : ((advanceCycle k s).cabin k).secured = false) :
    advanceCycle k s = s ∨ ∃ y, (y.holds = s.holds ∧ y.rot = s.rot ∧ y.drives = s.drives) ∧
      (y.cabin k).location = (s.cabin k).location ∧ advanceCycle k s = testCabin k y := by
  have completes (shut : ¬ (s.cabin k).door.notLocked = true)
      (e : advanceCycle k s = gateCompletion k (endCycle k s)) : False := by
    have locked : (s.cabin k).door = .locked := by
      by_contra other
      exact shut ((notLocked_iff_ne known).2 other)
    rw [e, completed_cabin, if_pos rfl, Bool.eq_false_iff, ne_eq, secured_iff] at ajar
    exact ajar ⟨locked, rfl⟩
  cases cycle : (s.cabin k).cycle with
  | idle =>
    have e := advanceCycle_of_idle cycle
    split at e
    · refine .inr ⟨_, ?_, ?_, e⟩
      · simp
      · rw [notify_cabin, State.setCabin_cabin, if_pos rfl]
    · exact .inl e
  | releaseSent =>
    have e := advanceCycle_of_releaseSent cycle
    split at e
    · exact .inr ⟨s.setCabin k { s.cabin k with cycle := .cycling }, ⟨rfl, rfl, rfl⟩,
        by rw [State.setCabin_cabin, if_pos rfl], e⟩
    · next shut =>
      split at e
      · exact (completes shut e).elim
      · exact .inl e
  | cycling =>
    have e := advanceCycle_of_cycling cycle
    split at e
    · exact .inl e
    · next shut => exact (completes shut e).elim

/-! ### The rest of a report as a stage -/

/-- The steps of a report after the overload is judged, but for the sequencer's. -/
def reportGated (k : Cabin) (s : State) : State := gateReport k (judgeBreach k (advanceCycle k s))

theorem reportGated_cabin (k : Cabin) (s : State) : ((reportGated k s).cabin) = (advanceCycle k s).cabin :=
  funext (State.cabin_congr (by simp [reportGated]))

theorem gateReport_of_not_secured (ajar : (s.cabin k).secured = false) : gateReport k s = testCabin k s := by
  have none (z : Zone) : autoClear z k s = s := if_neg fun h => by rw [ajar] at h; cases h.2.2
  rw [gateReport, none, none]

theorem gateReport_of_secured (secured : (s.cabin k).secured = true) :
    gateReport k s = autoClear .load k (autoClear .unload k s) := by
  refine testCabin_of_secured ?_
  rw [State.cabin_congr (s := s) (by simp)]
  exact secured

theorem judgeBreach_of_locked (locked : (s.cabin k).door = .locked) : judgeBreach k s = s :=
  if_neg fun h => notLocked_ne_locked h.2.2 locked

theorem judgeBreach_of_located {z : Zone} (located : (s.cabin k).location = some z) : judgeBreach k s = s :=
  if_neg fun ⟨_, outside, _⟩ => by rw [located] at outside; cases outside

theorem judgeBreach_stage (k : Cabin) (s : State) : HoldStage (· = .doorBreach) s (judgeBreach k s) := by
  unfold judgeBreach
  split
  · exact raiseBreach_stage k s
  · exact .refl s

theorem autoClears_stage (k : Cabin) (s : State) :
    HoldStage (· ≠ .cabinOverload) s (autoClear .load k (autoClear .unload k s)) := by
  refine ((autoClear_stage .unload k s).trans (autoClear_stage .load k _) ?_).mono ?_
  · rintro _ rfl
    exact nofun
  · rintro _ (rfl | rfl) <;> exact nofun

theorem reportGated_of_secured (secured : ((advanceCycle k s).cabin k).secured = true) :
    reportGated k s = autoClear .load k (autoClear .unload k (advanceCycle k s)) := by
  rw [reportGated, judgeBreach_of_locked ((secured_iff _).1 secured).1, gateReport_of_secured secured]

theorem reportGated_of_not_secured (ajar : ((advanceCycle k s).cabin k).secured = false) :
    reportGated k s = testCabin k (judgeBreach k (advanceCycle k s)) := by
  refine gateReport_of_not_secured ?_
  rw [State.cabin_congr (s := advanceCycle k s) (by simp)]
  exact ajar

theorem reportGated_stage (known : (s.cabin k).door ≠ .unknown) :
    HoldStage (· ≠ .cabinOverload) s (reportGated k s) := by
  cases secured : ((advanceCycle k s).cabin k).secured with
  | true =>
    obtain ⟨holds, rot⟩ := advanceCycle_of_secured secured
    rw [reportGated_of_secured secured]
    exact (autoClears_stage k _).between ⟨holds, rot, by simp⟩ ⟨rfl, rfl, rfl⟩
  | false =>
    rw [reportGated_of_not_secured secured]
    have advanced := advanceCycle_of_not_secured known secured
    have location : ((advanceCycle k s).cabin k).location = (s.cabin k).location := by
      rw [advanceCycle_cabin, if_pos rfl, CabinRecord.advanced_eq]
    cases located : (s.cabin k).location with
    | none =>
      have outside : ((judgeBreach k (advanceCycle k s)).cabin k).location = none := by
        rw [State.cabin_congr (s := advanceCycle k s) (by simp), location, located]
      have same : (advanceCycle k s).holds = s.holds ∧ (advanceCycle k s).rot = s.rot ∧
          (advanceCycle k s).drives = s.drives := by
        rcases advanced with e | ⟨y, same, outside, e⟩
        · rw [e]
          exact ⟨rfl, rfl, rfl⟩
        · rw [e, testCabin_of_outside (outside.trans located)]
          exact same
      rw [testCabin_of_outside outside]
      refine ((judgeBreach_stage k _).between same ⟨rfl, rfl, rfl⟩).mono ?_
      rintro _ rfl
      exact nofun
    | some z =>
      rw [judgeBreach_of_located (location.trans located)]
      have tested : HoldStage (· = .zoneOverrun z) s (testCabin k (advanceCycle k s)) := by
        rcases advanced with e | ⟨y, same, inside, e⟩
        · rw [e]
          exact testCabin_stage located
        · rw [e, testCabin_testCabin]
          exact (testCabin_stage (inside.trans located)).between same ⟨rfl, rfl, rfl⟩
      refine tested.mono ?_
      rintro _ rfl
      exact nofun

/-- A cabin past the cutoff that is not secured overruns its zone (R70). -/
theorem reportGated_overruns {z : Zone} (located : (s.cabin k).location = some z)
    (past : s.occ z = { occupant := some k, past := true })
    (ajar : ((advanceCycle k s).cabin k).secured = false) : (reportGated k s).holdsKey (.zoneOverrun z) = true := by
  have location : ((advanceCycle k s).cabin k).location = some z := by
    rw [advanceCycle_cabin, if_pos rfl, CabinRecord.advanced_eq]
    exact located
  have occ : (advanceCycle k s).occ z = { occupant := some k, past := true } := by
    rw [State.occ_congr (s := s) (by simp), past]
  rw [reportGated_of_not_secured ajar, judgeBreach_of_located location, testCabin_of_located location, occ, if_pos rfl]
  exact testOverrun_holdsKey occ ajar

/-- Of an AUTO zone no record names the cabin once it is reported LOCKED and is IDLE (R72). -/
theorem autoClear_names {z : Zone} (named : s.overrunRecordCabin z = some k) (auto : (s.zone z).release = .auto)
    (secured : (s.cabin k).secured = true) {r : HoldRecord} (mem : r ∈ (autoClear z k s).recordsOf (.zoneOverrun z)) :
    r.what ≠ .zoneOverrun z k := by
  rw [autoClear, if_pos ⟨named, auto, secured⟩] at mem
  exact clearOverrun_names secured mem

theorem overrunRecordCabin_congr {z : Zone} (same : u.recordsOf (.zoneOverrun z) = s.recordsOf (.zoneOverrun z)) :
    u.overrunRecordCabin z = s.overrunRecordCabin z := by
  rw [State.overrunRecordCabin, holdRecord_congr same, State.overrunRecordCabin]

theorem reportGated_names {z : Zone} (named : s.overrunRecordCabin z = some k) (auto : (s.zone z).release = .auto)
    (secured : ((advanceCycle k s).cabin k).secured = true) {r : HoldRecord}
    (mem : r ∈ (reportGated k s).holds.records) : r.what ≠ .zoneOverrun z k := by
  intro what
  obtain ⟨holds, -⟩ := advanceCycle_of_secured secured
  have named : (advanceCycle k s).overrunRecordCabin z = some k := by
    rw [← named]
    exact overrunRecordCabin_congr (recordsOf_congr (by rw [holds]) _)
  have auto : ((advanceCycle k s).zone z).release = .auto := by
    rw [State.zone, show (advanceCycle k s).tables = s.tables by simp]
    exact auto
  have mine : r ∈ (reportGated k s).recordsOf (.zoneOverrun z) := mem_recordsOf.2 ⟨mem, by rw [what]; rfl⟩
  rw [reportGated_of_secured secured] at mine
  generalize advanceCycle k s = v at named auto secured mine
  cases z with
  | unload =>
    rw [(autoClear_stage .load k _).others (.zoneOverrun .unload) nofun] at mine
    exact autoClear_names named auto secured mine what
  | load =>
    refine autoClear_names (s := autoClear .unload k v) ?_ ?_ ?_ mine what
    · rw [← named]
      exact overrunRecordCabin_congr ((autoClear_stage .unload k v).others (.zoneOverrun .load) nofun)
    · rw [State.zone, show (autoClear .unload k v).tables = v.tables by simp]
      exact auto
    · rw [State.cabin_congr (s := v) (by simp)]
      exact secured

end Sys2Proof.Machine
end

