-- ==== Sys2Proof/Proofs/DoorReports.lean ====
section

/-!
# A DOOR_REPORT reaches the cabin record

The record, the permits and the clear-down list follow from the steps that write them. For the hold list and the wheel
a report is its overload stage and then the gate's, and their keys are apart.
-/

namespace Sys2Proof.Machine

variable {s : State} {k : Cabin} {d : Door} {n : Nat}

/-! ### The two stages -/

/-- A report up to its judged overload. -/
def reportJudged (k : Cabin) (d : Door) (n : Nat) (s : State) : State := judgeOverload k (recordReport k d n s)

theorem cabinReport_stages (k : Cabin) (d : Door) (n : Nat) (s : State) :
    cabinReport k d n s = sequencerReport k (reportGated k (reportJudged k d n s)) := rfl

theorem reportJudged_cabin (k : Cabin) (d : Door) (n : Nat) (s : State) :
    (reportJudged k d n s).cabin k =
      ((s.cabin k).recorded d n s.lines.now).overloadJudged (s.cabinEntry k).capacity := by
  rw [reportJudged, judgeOverload_cabin, if_pos rfl, recordReport_cabin, if_pos rfl]
  rfl

theorem cabinReport_cabin_advanced (k : Cabin) (d : Door) (n : Nat) (s : State) :
    (cabinReport k d n s).cabin k = (advanceCycle k (reportJudged k d n s)).cabin k :=
  State.cabin_congr (cabinReport_cabins k d n s) k

theorem reportJudged_stage (k : Cabin) (d : Door) (n : Nat) (s : State) :
    HoldStage (· = .cabinOverload) s (reportJudged k d n s) :=
  (judgeOverload_stage k (recordReport k d n s)).between ⟨rfl, rfl, rfl⟩ ⟨rfl, rfl, rfl⟩

theorem gated_stage (known : d ≠ .unknown) (k : Cabin) (n : Nat) (s : State) :
    HoldStage (· ≠ .cabinOverload) (reportJudged k d n s) (cabinReport k d n s) := by
  have gated : HoldStage (· ≠ .cabinOverload) (reportJudged k d n s) (reportGated k (reportJudged k d n s)) :=
    reportGated_stage (by rw [reportJudged_cabin]; exact known)
  exact gated.between ⟨rfl, rfl, rfl⟩ (by rw [cabinReport_stages]; simp)

theorem cabinReport_stage (known : d ≠ .unknown) (k : Cabin) (n : Nat) (s : State) :
    HoldStage (fun _ => True) s (cabinReport k d n s) :=
  ((reportJudged_stage k d n s).trans (gated_stage known k n s) fun _ mine other => other mine).mono
    fun _ _ => trivial

theorem cabinReport_overloadRecords (known : d ≠ .unknown) (k : Cabin) (n : Nat) (s : State) :
    (cabinReport k d n s).recordsOf .cabinOverload = (reportJudged k d n s).recordsOf .cabinOverload :=
  (gated_stage known k n s).others _ fun other => other rfl

theorem cabinReport_secured (k : Cabin) (d : Door) (n : Nat) (s : State) :
    ((advanceCycle k (reportJudged k d n s)).cabin k).secured = true ↔
      ((cabinReport k d n s).cabin k).door = .locked ∧ ((cabinReport k d n s).cabin k).cycle = .idle := by
  rw [secured_iff, cabinReport_cabin_advanced]

/-! ### The cycle -/

theorem cabinReport_of_idle (known : d ≠ .unknown) (idle : (s.cabin k).cycle = .idle) :
    if d ≠ .locked ∧ (s.cabin k).location ≠ none then
      ((cabinReport k d n s).cabin k).cycle = .cycling ∧ ((cabinReport k d n s).cabin k).releaseTime = none
    else ((cabinReport k d n s).cabin k).cycle = .idle ∧
      ((cabinReport k d n s).cabin k).releaseTime = (s.cabin k).releaseTime := by
  rw [cabinReport_cabin, if_pos rfl]
  exact CabinRecord.cycle_of_idle (c := ((s.cabin k).recorded d n s.lines.now).overloadJudged _) known idle _

theorem cabinReport_of_releaseSent
    [Decidable (∃ r, (s.cabin k).releaseTime = some r ∧ s.lines.now - r < 1000)] (known : d ≠ .unknown)
    (sent : (s.cabin k).cycle = .releaseSent) :
    if d ≠ .locked then
      ((cabinReport k d n s).cabin k).cycle = .cycling ∧
        ((cabinReport k d n s).cabin k).releaseTime = (s.cabin k).releaseTime
    else if ∃ r, (s.cabin k).releaseTime = some r ∧ s.lines.now - r < 1000 then
      ((cabinReport k d n s).cabin k).cycle = .releaseSent ∧
        ((cabinReport k d n s).cabin k).releaseTime = (s.cabin k).releaseTime
    else ((cabinReport k d n s).cabin k).cycle = .idle ∧ ((cabinReport k d n s).cabin k).releaseTime = none := by
  rw [cabinReport_cabin, if_pos rfl]
  rw [← if_congr (releaseLapsed_eq_false_iff s (s.cabin k).releaseTime) rfl rfl]
  exact CabinRecord.cycle_of_releaseSent (c := ((s.cabin k).recorded d n s.lines.now).overloadJudged _) known sent _

theorem cabinReport_of_cycling (known : d ≠ .unknown) (cycling : (s.cabin k).cycle = .cycling) :
    if d ≠ .locked then
      ((cabinReport k d n s).cabin k).cycle = .cycling ∧
        ((cabinReport k d n s).cabin k).releaseTime = (s.cabin k).releaseTime
    else ((cabinReport k d n s).cabin k).cycle = .idle ∧ ((cabinReport k d n s).cabin k).releaseTime = none := by
  rw [cabinReport_cabin, if_pos rfl]
  exact CabinRecord.cycle_of_cycling (c := ((s.cabin k).recorded d n s.lines.now).overloadJudged _) known cycling _

/-! ### The overload -/

theorem recordReport_overloaded (k : Cabin) (d : Door) (n : Nat) (s : State) :
    ((recordReport k d n s).cabin k).overloaded = (s.cabin k).overloaded := by
  rw [recordReport_cabin, if_pos rfl]
  rfl

theorem cabinReport_overloaded (k : Cabin) (d : Door) (n : Nat) (s : State) :
    ((cabinReport k d n s).cabin k).overloaded = ((reportJudged k d n s).cabin k).overloaded := by
  rw [cabinReport_cabin_advanced, advanceCycle_cabin, if_pos rfl, CabinRecord.advanced_eq]

theorem cabinReport_overload_raised (known : d ≠ .unknown) (before : (s.cabin k).overloaded = false)
    (after : ((cabinReport k d n s).cabin k).overloaded = true) :
    (cabinReport k d n s).holdsKey .cabinOverload = true ∧ (s.holdsKey .cabinOverload = false →
      ∃ r ∈ (cabinReport k d n s).holds.records, r.what = .cabinOverload k) := by
  have records := cabinReport_overloadRecords known k n s
  rw [cabinReport_overloaded] at after
  obtain ⟨stands, named⟩ := judgeOverload_raises (s := recordReport k d n s)
    (by rw [recordReport_overloaded]; exact before) after
  refine ⟨?_, fun fresh => ?_⟩
  · rw [holdsKey_eq, records, ← holdsKey_eq]
    exact stands
  · obtain ⟨r, mem, what⟩ := named fresh
    have mine : r ∈ (reportJudged k d n s).recordsOf .cabinOverload := mem_recordsOf.2 ⟨mem, by rw [what]; rfl⟩
    rw [← records] at mine
    exact ⟨r, (mem_recordsOf.1 mine).1, what⟩

theorem cabinReport_overload_cleared (known : d ≠ .unknown) (before : (s.cabin k).overloaded = true)
    (after : ((cabinReport k d n s).cabin k).overloaded = false)
    (named : (s.holdRecord .cabinOverload).map (·.what) = some (.cabinOverload k)) :
    (cabinReport k d n s).holdsKey .cabinOverload = false := by
  rw [cabinReport_overloaded] at after
  rw [holdsKey_eq, cabinReport_overloadRecords known, ← holdsKey_eq]
  exact judgeOverload_clears (s := recordReport k d n s) (by rw [recordReport_overloaded]; exact before) after named

theorem cabinReport_overload_kept (known : d ≠ .unknown)
    (other : (s.cabin k).overloaded = ((cabinReport k d n s).cabin k).overloaded ∨
      (s.holdRecord .cabinOverload).map (·.what) ≠ some (.cabinOverload k))
    (cleared : (s.cabin k).overloaded = true ∨ ((cabinReport k d n s).cabin k).overloaded = false) :
    (cabinReport k d n s).holdRecord .cabinOverload = s.holdRecord .cabinOverload := by
  rw [cabinReport_overloaded, ← recordReport_overloaded k d n] at other cleared
  rw [holdRecord_congr (cabinReport_overloadRecords known k n s)]
  exact judgeOverload_keeps (s := recordReport k d n s) other cleared

/-! ### Breach and overrun -/

theorem cabinReport_ajar (position : s.tracker.accepted ≠ .invalid) (outside : (s.cabin k).location = none)
    (ajar : d.notLocked = true) : (cabinReport k d n s).Breached k := by
  obtain ⟨-, -, -, tracker, -⟩ := cabinReport_frame s k d n
  refine cabinReport_breached ?_ ?_
  · rw [State.positionValid, tracker]
    exact positionValid_of_ne_invalid position
  · rw [State.Ajar, cabinReport_cabin, if_pos rfl]
    obtain ⟨door, -, -, location, -⟩ := (s.cabin k).reported_fields d n s.lines.now (s.cabinEntry k).capacity
      (s.releaseLapsed (s.cabin k).releaseTime)
    rw [door, location]
    exact ⟨outside, ajar⟩

theorem cabinReport_overruns {z : Zone} (located : (s.cabin k).location = some z)
    (past : s.occ z = { occupant := some k, past := true })
    (ajar : ¬ (((cabinReport k d n s).cabin k).door = .locked ∧ ((cabinReport k d n s).cabin k).cycle = .idle)) :
    (cabinReport k d n s).holdsKey (.zoneOverrun z) = true := by
  rw [← cabinReport_secured, Bool.not_eq_true] at ajar
  have judged : (reportJudged k d n s).occ z = { occupant := some k, past := true } := by
    rw [State.occ_congr (s := s) (by simp [reportJudged]), past]
  rw [State.holdsKey_congr (s := reportGated k (reportJudged k d n s)) (by rw [cabinReport_stages]; simp)]
  exact reportGated_overruns (by rw [reportJudged_cabin]; exact located) judged ajar

theorem cabinReport_names {z : Zone} (named : s.overrunRecordCabin z = some k) (auto : (s.zone z).release = .auto)
    (door : ((cabinReport k d n s).cabin k).door = .locked) (cycle : ((cabinReport k d n s).cabin k).cycle = .idle)
    {r : HoldRecord} (mem : r ∈ (cabinReport k d n s).holds.records) : r.what ≠ .zoneOverrun z k := by
  rw [show (cabinReport k d n s).holds = (reportGated k (reportJudged k d n s)).holds by
    rw [cabinReport_stages]; simp] at mem
  refine reportGated_names ?_ ?_ ((cabinReport_secured k d n s).2 ⟨door, cycle⟩) mem
  · rw [← named]
    exact overrunRecordCabin_congr ((reportJudged_stage k d n s).others (.zoneOverrun z) nofun)
  · rw [State.zone, show (reportJudged k d n s).tables = s.tables by simp [reportJudged]]
    exact auto

/-! ### The clear-down list -/

theorem sequencerReport_service (k : Cabin) (s : State) :
    (sequencerReport k s).service =
      { s.service with
        list :=
          if s.service.mode = .clearDown ∧ 0 < (s.cabin k).occupancy ∧ k ∉ s.service.list then
            match s.keyOf with
            | some key => insertByKey key k s.service.list
            | none => s.service.list ++ [k]
          else s.service.list } := by
  unfold sequencerReport
  split
  · cases s.keyOf <;> rfl
  · rfl

theorem cabinReport_service (k : Cabin) (d : Door) (n : Nat) (s : State) :
    (cabinReport k d n s).service =
      { s.service with
        list :=
          if s.service.mode = .clearDown ∧ 0 < ((cabinReport k d n s).cabin k).occupancy ∧ k ∉ s.service.list then
            match s.keyOf with
            | some key => insertByKey key k s.service.list
            | none => s.service.list ++ [k]
          else s.service.list } := by
  have service : (reportGated k (reportJudged k d n s)).service = s.service := by simp [reportGated, reportJudged]
  have key : (reportGated k (reportJudged k d n s)).keyOf = s.keyOf := by
    have tracker : (reportGated k (reportJudged k d n s)).tracker = s.tracker := by simp [reportGated, reportJudged]
    have tables : (reportGated k (reportJudged k d n s)).tables = s.tables := by simp [reportGated, reportJudged]
    rw [State.keyOf, State.zone, tracker, tables, State.keyOf, State.zone]
  have cabin : (reportGated k (reportJudged k d n s)).cabin k = (cabinReport k d n s).cabin k := by
    rw [reportGated_cabin, cabinReport_cabin_advanced]
  rw [← cabin, cabinReport_stages, sequencerReport_service, service, key]

/-! ### The blocks -/

theorem untouched_of_report_frame {u : State} (h : u.pending = s.pending ∧ u.lines = s.lines ∧ u.tables = s.tables ∧
    u.tracker = s.tracker ∧ u.heads = s.heads ∧ u.grader = s.grader ∧ u.drives = s.drives) :
    Untouched [.cabins, .permits, .service, .holds, .rot] s u := by
  obtain ⟨pending, -, tables, tracker, heads, grader, drives⟩ := h
  refine ⟨pending, fun b other => ?_⟩
  cases b with
  | tables => exact tables
  | tracker => exact tracker
  | heads => exact heads
  | grader => exact grader
  | drives => exact drives
  | _ => simp at other

theorem observeDoor_of_cabin {src cabin : Byte} (role : src = s.role roleConcentrator) (number : cabin.toNat = k.val) :
    observeDoor src cabin d n s = cabinReport k d n s := by
  rw [observeDoor, if_pos role, decodeCabin_eq number]

/-- Settles O16: each step of the report writes what it is asked to, and to the hold list and the wheel the report is
its two stages. -/
theorem doorReportsReachTheCabinRecord : Obligations.DoorReportsReachTheCabinRecord := by
  intro t dst src k cabin door occupancy s hears dest role number
  have known := decodeDoor_known door
  have done := completes_doorReport (t := t) (cabin := cabin) (door := door) (occupancy := occupancy) hears dest
  rw [observeDoor_of_cabin (s := s.advance t) role number] at done
  have quiet : Quiet (s.advance t) (cabinReport k (decodeDoor door) occupancy.toNat (s.advance t)) :=
    (Quiet.refl _).then_cabinReport k (decodeDoor door) occupancy.toNat
  have frame := cabinReport_frame (s.advance t) k (decodeDoor door) occupancy.toNat
  have stage := cabinReport_stage known k occupancy.toNat (s.advance t)
  have records := cabinReport_cabin k (decodeDoor door) occupancy.toNat (s.advance t)
  have ofIdle := @cabinReport_of_idle (s.advance t) k (decodeDoor door) occupancy.toNat known
  have ofSent (inst) := @cabinReport_of_releaseSent (s.advance t) k (decodeDoor door) occupancy.toNat inst known
  have ofCycling := @cabinReport_of_cycling (s.advance t) k (decodeDoor door) occupancy.toNat known
  have permits := cabinReport_permits k (decodeDoor door) occupancy.toNat (s.advance t)
  have breached := @cabinReport_ajar (s.advance t) k (decodeDoor door) occupancy.toNat
  have raised := @cabinReport_overload_raised (s.advance t) k (decodeDoor door) occupancy.toNat known
  have cleared := @cabinReport_overload_cleared (s.advance t) k (decodeDoor door) occupancy.toNat known
  have kept := @cabinReport_overload_kept (s.advance t) k (decodeDoor door) occupancy.toNat known
  have overruns := @cabinReport_overruns (s.advance t) k (decodeDoor door) occupancy.toNat
  have names := @cabinReport_names (s.advance t) k (decodeDoor door) occupancy.toNat
  have service := cabinReport_service k (decodeDoor door) occupancy.toNat (s.advance t)
  generalize cabinReport k (decodeDoor door) occupancy.toNat (s.advance t) = w at *
  obtain ⟨-, -, lines⟩ := passOn_after quiet (doorReportFrame dst src cabin door occupancy)
  have onRing := roleFrameOnRing_after quiet (doorReportFrame dst src cabin door occupancy)
  obtain ⟨fs, forwarded⟩ := passOn_eq_setRing (doorReportFrame dst src cabin door occupancy) w
  rw [forwarded] at done lines onRing
  have record := (records k).trans (if_pos rfl)
  obtain ⟨doorIs, occupancyIs, reportIs, locationIs, overloadedIs⟩ := ((s.advance t).cabin k).reported_fields
    (decodeDoor door) occupancy.toNat (s.advance t).lines.now ((s.advance t).cabinEntry k).capacity
    ((s.advance t).releaseLapsed ((s.advance t).cabin k).releaseTime)
  rw [← record] at doorIs occupancyIs reportIs locationIs overloadedIs
  refine ⟨_, done, lines.trans quiet.lines, onRing, (untouched_of_report_frame frame).of_advance,
    fun j other => (records j).trans (if_neg other.symm), doorIs, occupancyIs, reportIs, locationIs, ?_, ?_, permits,
    fun position outside ajar => breached position outside ((notLocked_iff_ne known).2 ajar), raised, ⟨cleared, kept⟩,
    stage.emptied, fun empty filled running => ?_, stage.rot_of_holds, stage.vCmd, stage.vLim,
    fun z => overruns, fun z named auto locked idle r mem => names named auto locked idle mem, service⟩
  · exact overloadedIs.trans (by rw [← occupancyIs]; rfl)
  · split
    · next idle => exact ofIdle idle
    · next sent => exact ofSent _ sent
    · next cycling => exact ofCycling cycling
  · exact (stage.stopped empty filled running).trans (if_congr (atRest_iff (s.advance t)) rfl rfl)

end Sys2Proof.Machine
end

