-- ==== Sys2Proof/Proofs/DoorCommandsDecided.lean ====
section

/-!
# Door commands that are denied, and LOCK

A decided door command is one item that arrives at the door queue, and nothing else of the part changes. For an
UNLOCK it is the denial with the reason that the checks of R64 give in their order; for a LOCK the cabin number
decides between the copy and the denial (R63 to R65, R67).
-/

namespace Sys2Proof.Machine

variable {s : State} {t : Nat} {dst src cabin : Byte} {k : Cabin}

/-- The door queue takes an item, and nothing else changes (R20). -/
theorem doorItemArrives_of_pushDoor {c : Instr} {i : DoorItem} (done : Completes c s (pushDoor i (s.advance t))) :
    ∃ u, DoorItemArrives c t s u i ∧ SameBlocks s u :=
  ⟨_, ⟨done, rfl, rfl⟩, sameBlocks_of_eq rfl⟩

theorem doorCommandFrame_wellFormed (hears : s.hears src) (dest : destTaken dst) (cabin action : Byte) :
    (doorCommandFrame dst src cabin action).wellFormed = true :=
  (wellFormed_iff _).2 ⟨by simp [doorCommandFrame], dest.1, dest.2, hears.2.1⟩

/-! ### UNLOCK -/

theorem completes_unlock (hears : s.hears src) (dest : destTaken dst) :
    Completes (.unlock t dst src cabin) s (decideUnlock dst src cabin (s.advance t)) := by
  have done := completes_of_row (c := .unlock t dst src cabin) rfl
    (doorCommandFrame_wellFormed hears dest cabin 0x01) hears.1 hears.2.2
  rwa [show (0x01 : Byte) = actionUnlock from rfl, decideFrame_unlock] at done

/-- An UNLOCK judged against is its denial to its source (R67). -/
theorem unlock_denied {reason : DenialReason} (hears : s.hears src) (dest : destTaken dst)
    (judged : s.judgeUnlock src cabin = .error reason) :
    ∃ u, DoorItemArrives (.unlock t dst src cabin) t s u (s.denialItem 0x01 src cabin reason) ∧ SameBlocks s u := by
  have done := completes_unlock (t := t) (cabin := cabin) hears dest
  rw [decideUnlock, show (s.advance t).judgeUnlock src cabin = .error reason from judged] at done
  exact doorItemArrives_of_pushDoor done

/-- Check 2 of R64. -/
theorem mayCommandDoors_iff (s : State) (src : Byte) :
    s.mayCommandDoors src = true ↔ src = s.role roleConsole ∨ src = s.role roleUnloadGate ∨
      src = s.role roleLoadGate ∨ src = s.role roleConcentrator := by
  simp [State.mayCommandDoors, State.isGate, or_assoc]

theorem decodeCabin_eq_none (outside : 48 ≤ cabin.toNat) : decodeCabin cabin = none :=
  dif_neg (Nat.not_lt.2 outside)

theorem zoneOf_eq_none (nowhere : ∀ z, (s.occ z).occupant ≠ some k) : s.zoneOf k = none := by
  simpa [State.zoneOf] using fun z _ => nowhere z

theorem judgeUnlock_badCabin (outside : 48 ≤ cabin.toNat) : s.judgeUnlock src cabin = .error .badCabin := by
  rw [State.judgeUnlock, decodeCabin_eq_none outside]

/-- The checks on an UNLOCK for a cabin 0 to 47 in the order of R64. -/
theorem judgeUnlock_of_cabin (number : cabin.toNat = k.val) :
    s.judgeUnlock src cabin =
      if s.mayCommandDoors src = false then .error .wrongSource
      else if s.positionValid = false then .error .noPosition
      else (s.zoneOf k).elim (.error .notInZone) fun z => (s.unlockVerdict src z k).elim (.ok (k, z)) .error := by
  simp only [State.judgeUnlock, decodeCabin_eq number, Bool.not_eq_true', zoneChecks_eq_unlockVerdict]
  refine if_congr .rfl rfl (if_congr .rfl rfl ?_)
  cases s.zoneOf k with
  | none => rfl
  | some z =>
    dsimp only [Option.elim]
    cases s.unlockVerdict src z k <;> rfl

/-- Settles O19: the checks in their order, each with the checks before it met. -/
theorem unlocksThatFailAreDenied : Obligations.UnlocksThatFailAreDenied := by
  intro t dst src cabin s hears dest
  refine ⟨fun outside => unlock_denied hears dest (judgeUnlock_badCabin outside), fun k number => ?_⟩
  have judged := judgeUnlock_of_cabin (s := s) (src := src) number
  have may := mayCommandDoors_iff s src
  refine ⟨fun unknown => ?_, fun known invalid => ?_, fun known valid nowhere => ?_,
    fun z reason known valid here only verdict => ?_⟩ <;> refine unlock_denied hears dest (judged.trans ?_)
  · exact if_pos (Bool.eq_false_iff.2 (mt may.1 unknown))
  · have lost : s.positionValid = false := by rw [State.positionValid, invalid]; rfl
    simp [may.2 known, lost]
  · simp [may.2 known, positionValid_of_ne_invalid valid, zoneOf_eq_none nowhere]
  · simp [may.2 known, positionValid_of_ne_invalid valid, zoneOf_eq here only, verdict]

/-! ### LOCK -/

/-- The item of a LOCK by its cabin number (R63). -/
theorem decideLock_eq (dst src cabin : Byte) (s : State) :
    decideLock dst src cabin s =
      pushDoor (if cabin.toNat < 48 then s.commandItem .lock dst cabin 0x02
        else s.denialItem 0x02 src cabin .badCabin) s := by
  by_cases inside : cabin.toNat < 48
  · rw [decideLock, decodeCabin_eq (k := ⟨_, inside⟩) rfl, if_pos inside]
    rfl
  · rw [decideLock, decodeCabin_eq_none (Nat.not_lt.1 inside), if_neg inside]
    rfl

/-- Settles O20: a LOCK is decided on its cabin number alone. -/
theorem locksAreForwardedOnTheCabinAlone : Obligations.LocksAreForwardedOnTheCabinAlone := by
  intro t dst src cabin s hears dest
  have done := completes_of_row (c := .lock t dst src cabin) rfl
    (doorCommandFrame_wellFormed hears dest cabin 0x02) hears.1 hears.2.2
  rw [show (0x02 : Byte) = actionLock from rfl, decideFrame_lock, decideLock_eq] at done
  obtain ⟨u, arrives, same⟩ := doorItemArrives_of_pushDoor done
  exact ⟨u, same, arrives⟩

end Sys2Proof.Machine
end

