-- ==== Sys2Proof/Proofs/ArmedZones.lean ====
section

/-!
# Requests that are DONE, and ARM_ZONE

A request of the console or a gate station is judged by its owner alone. Answered DONE, it changes what its owner's
work changes, and the RESPONSE joins the queue. ARM_ZONE is answered by the cases of R58 in their order; one of them
changes a permit.
-/

namespace Sys2Proof.Machine

variable {s : State} {c : Instr} {t : Nat} {src tag kind : Byte} {args : List Byte} {z : Zone} {k : Cabin}

/-! ### Requests judged by their owner -/

/-- A request of the console is judged by its owner (R169). -/
theorem judgeRequest_of_console {o : Owner} (owner : ownerOf kind = some o) (console : src = s.role roleConsole)
    (args : List Byte) : judgeRequest (ownerOf kind) src kind args s = o src args s := by
  rw [owner]
  exact if_pos console

/-- The console and the gate stations may arm zones (R169). -/
theorem judgeRequest_armZone
    (station : src = s.role roleConsole ∨ src = s.role roleUnloadGate ∨ src = s.role roleLoadGate)
    (args : List Byte) : judgeRequest (ownerOf 0x48) src 0x48 args s = armZone src args s := by
  have owner : ownerOf 0x48 = some armZone := rfl
  rcases station with console | gate
  · exact judgeRequest_of_console owner console args
  · have may : (s.isGate src && gateKind 0x48) = true := by
      simpa [State.isGate, gateKind, reqArmZone] using gate
    unfold judgeRequest
    rw [owner, if_pos may]
    exact ite_self _

/-- A request of a source that the part takes reaches the judgement of its kind (R168). -/
theorem completes_of_takes (takes : s.takes src) (short : args.length ≤ 62)
    (frame : s.frameOf c = some (t, requestFrame s.ownAddress src tag kind args)) :
    Completes c s (takeRequest (ownerOf kind) src tag kind args (s.advance t)) :=
  completes_of_request frame (requestFrame_wellFormed takes.1.2.1 s tag kind short) takes.1

/-- A request answered DONE after work of the blocks (R168). -/
theorem done_of_answer {v : State} {changed : List Block} {ns : List Notice} (room : s.ring.responses.length < 8)
    (completes : Completes c s (takeRequest (ownerOf kind) src tag kind args (s.advance t)))
    (answered : judgeRequest (ownerOf kind) src kind args (s.advance t) = answer .done v)
    (blocks : Untouched changed (s.advance t) v) (quiet : Quiet (s.advance t) v)
    (desk : SameDesk (s.afterNotices ns) v) :
    Done c t s (pushResponse src tag kind (.plain .done) v) src tag kind changed ns := by
  rw [takeRequest_of_room (s := s.advance t) _ room, answered] at completes
  obtain ⟨forward, driveSet, doorQueue, -, ringOut, ownDue⟩ := quiet.queues
  have responses := pushResponse_responses (x := s.tables) quiet src tag kind (.plain .done)
  have same : Untouched changed s (pushResponse src tag kind (.plain .done) v) :=
    (blocks.of_advance.trans (sameBlocks_of_eq rfl)).mono (by simp)
  exact ⟨⟨completes, quiet.lines, responses, forward, doorQueue, ringOut, ownDue⟩, same, driveSet, desk.notices,
    desk.overflow⟩

/-! ### ARM_ZONE -/

theorem decodeZone_code (z : Zone) : decodeZone z.code = some z := by
  cases z <;> rfl

theorem decodeZone_eq_none {o : Byte} (outside : 1 < o.toNat) : decodeZone o = none := by
  have notUnload : o ≠ 0x00 := by rintro rfl; exact absurd outside (by decide)
  have notLoad : o ≠ 0x01 := by rintro rfl; exact absurd outside (by decide)
  exact (if_neg notUnload).trans (if_neg notLoad)

theorem admits_iff (m : ServiceMode) (z : Zone) :
    m.admits z = true ↔ m = .opened ∨ m = .clearDown ∧ z = .unload := by
  cases m <;> cases z <;> decide

theorem armZone_badLength (other : args.length ≠ 1) : armZone src args s = answer .badLength s := by
  unfold armZone
  split
  · exact absurd rfl other
  · rfl

theorem armZone_badArgument {o : Byte} (outside : 1 < o.toNat) : armZone src [o] s = answer .badArgument s := by
  rw [armZone, decodeZone_eq_none outside]

theorem armZone_code (src : Byte) (z : Zone) (s : State) : armZone src [z.code] s = armNamed z src s := by
  rw [armZone, decodeZone_code]

/-- ARM_ZONE naming a zone, by the cases of R58 in their order. -/
theorem armNamed_eq (z : Zone) (src : Byte) (s : State) :
    armNamed z src s =
      if ¬ (src = s.role roleConsole ∨ src = s.role (gateRole z)) then answer .refusedSource s
      else if ¬ (s.service.mode = .opened ∨ s.service.mode = .clearDown ∧ z = .unload) then answer .refusedState s
      else if s.grader.inForce = 4 then answer .refusedCondition s
      else (s.occ z).occupant.elim (answer .noCabin s) fun k => armFor z k s := by
  have closed : (!s.service.mode.admits z) = true ↔
      ¬ (s.service.mode = .opened ∨ s.service.mode = .clearDown ∧ z = .unload) := by
    rw [← admits_iff, Bool.not_eq_true', Bool.not_eq_true]
  refine if_congr not_or.symm rfl (if_congr closed rfl (if_congr .rfl rfl ?_))
  cases (s.occ z).occupant <;> rfl

section

variable (allowed : src = s.role roleConsole ∨ src = s.role (gateRole z))
  (admitted : s.service.mode = .opened ∨ s.service.mode = .clearDown ∧ z = .unload)
  (calm : s.grader.inForce ≠ 4)

theorem armNamed_refusedSource (stranger : ¬ (src = s.role roleConsole ∨ src = s.role (gateRole z))) :
    armNamed z src s = answer .refusedSource s := by
  rw [armNamed_eq, if_pos stranger]

include allowed

theorem armNamed_refusedState (closed : ¬ (s.service.mode = .opened ∨ s.service.mode = .clearDown ∧ z = .unload)) :
    armNamed z src s = answer .refusedState s := by
  rw [armNamed_eq, if_neg (not_not_intro allowed), if_pos closed]

include admitted

theorem armNamed_refusedCondition (storm : s.grader.inForce = 4) :
    armNamed z src s = answer .refusedCondition s := by
  rw [armNamed_eq, if_neg (not_not_intro allowed), if_neg (not_not_intro admitted), if_pos storm]

include calm

theorem armNamed_noCabin (vacant : (s.occ z).occupant = none) : armNamed z src s = answer .noCabin s := by
  rw [armNamed_eq, if_neg (not_not_intro allowed), if_neg (not_not_intro admitted), if_neg calm, vacant]
  rfl

theorem armNamed_of_occupant (here : (s.occ z).occupant = some k) : armNamed z src s = armFor z k s := by
  rw [armNamed_eq, if_neg (not_not_intro allowed), if_neg (not_not_intro admitted), if_neg calm, here]
  rfl

end

theorem armFor_clear (clear : s.permits.get z = .clear) :
    armFor z k s = answer .done (putPermit z (.armed k) s) := by
  rw [armFor, clear]

theorem armFor_armed {j : Cabin} (already : s.permits.get z = .armed j) : armFor z k s = answer .done s := by
  rw [armFor, already]

theorem armFor_spent {j : Cabin} (spent : s.permits.get z = .spent j) : armFor z k s = answer .busy s := by
  rw [armFor, spent]

theorem putPermit_untouched (z : Zone) (p : Permit) (s : State) : Untouched [.permits] s (putPermit z p s) :=
  ⟨rfl, fun b other => by
    cases b with
    | permits => simp at other
    | _ => rfl⟩

/-- Settles O42: the cases of R58 in their order, each with the cases before it excluded. -/
theorem armZoneArmsForTheOccupant : Obligations.ArmZoneArmsForTheOccupant := by
  intro t src tag args s takes short station
  have completes := completes_of_takes (c := .armZone t src tag args) (tag := tag) (kind := 0x48) takes short rfl
  have judged := judgeRequest_armZone (s := s.advance t) station args
  have away {result : Result} (answered : armZone src args (s.advance t) = answer result (s.advance t)) :
      TurnsAway (.armZone t src tag args) t s src tag 0x48 result :=
    turnsAway_of_answer completes takes.2 (judged.trans answered)
  refine ⟨fun other => away (armZone_badLength other), fun o here outside => ?_, fun z here => ?_⟩
  · subst here
    exact away (armZone_badArgument outside)
  subst here
  have named := armZone_code src z (s.advance t)
  refine ⟨fun stranger => away (named.trans (armNamed_refusedSource stranger)),
    fun allowed closed => away (named.trans (armNamed_refusedState allowed closed)),
    fun allowed admitted storm => away (named.trans (armNamed_refusedCondition allowed admitted storm)),
    fun allowed admitted calm vacant => away (named.trans (armNamed_noCabin allowed admitted calm vacant)),
    fun k allowed admitted calm here => ?_⟩
  have armed := named.trans (armNamed_of_occupant (s := s.advance t) allowed admitted calm here)
  refine ⟨fun clear => ?_, fun already => ?_, fun j spent => away (armed.trans (armFor_spent spent))⟩
  · have arms := armed.trans (armFor_clear (s := s.advance t) clear)
    exact ⟨_, done_of_answer takes.2 completes (judged.trans arms) (putPermit_untouched z _ _)
      ((Quiet.refl _).aside ⟨rfl, rfl, rfl, rfl⟩) ((sameDesk_advance t s).aside ⟨rfl, rfl, rfl⟩), rfl⟩
  · have stays := armed.trans (armFor_armed (s := s.advance t) already)
    exact ⟨_, done_of_answer takes.2 completes (judged.trans stays) (.refl _) (.refl _) (sameDesk_advance t s)⟩

end Sys2Proof.Machine
end

