-- ==== Sys2Proof/Proofs/AcknowledgedHolds.lean ====
section

/-!
# ACK_HOLD

A clear tells the console and returns the wheel where it empties the list; a raise tells it and stops a RUNNING wheel.
The two together are the clear of an ATTENDED ZONE_OVERRUN, after which the zone's occupant is tested. ACK_HOLD picks
the record, and the kind of the record picks the effect (R70, R73, R130 to R132, R147 to R149).
-/

namespace Sys2Proof.Machine

variable {s u : State} {z : Zone} {k : Cabin} {key : HoldKey}

/-! ### Notices in order -/

theorem SameDesk.refl (s : State) : SameDesk s s := ⟨rfl, rfl, rfl, rfl⟩

theorem SameDesk.afterNotices (h : SameDesk s u) (ns : List Notice) :
    SameDesk (s.afterNotices ns) (u.afterNotices ns) := by
  induction ns generalizing s u with
  | nil => exact h
  | cons n ns ih => exact ih (h.notify n)

/-- Notices of one change after those of another. -/
theorem SameDesk.append {v : State} {ns ms : List Notice} (first : SameDesk (s.afterNotices ns) v)
    (second : SameDesk (v.afterNotices ms) u) : SameDesk (s.afterNotices (ns ++ ms)) u := by
  rw [State.afterNotices, List.foldl_append]
  exact (first.afterNotices ms).trans second

/-! ### A clear -/

/-- The wheel returns to RUNNING at a clear: the list is empty, and resume-required is clear (R148). -/
abbrev State.returns (s : State) : Prop :=
  s.holds.records = [] ∧ s.holds.resumeRequired = false ∧ (s.rot.wheel = .held ∨ s.rot.wheel = .stopping .held)

theorem onClear_eq (s : State) : onClear s = if s.returns then changeWheel .running s else s := by
  have empty : (s.noHolds && !s.holds.resumeRequired) = true ↔
      s.holds.records = [] ∧ s.holds.resumeRequired = false := by
    rw [Bool.and_eq_true, Bool.not_eq_true', State.noHolds, List.isEmpty_iff]
  unfold onClear
  by_cases gone : s.holds.records = [] ∧ s.holds.resumeRequired = false
  · have back : s.returns ↔ s.rot.wheel = .held ∨ s.rot.wheel = .stopping .held := by simp [State.returns, gone]
    rw [if_pos (empty.2 gone), if_congr back rfl rfl]
    cases s.rot.wheel with
    | stopping d => cases d <;> simp
    | _ => simp
  · rw [if_neg (mt empty.1 gone), if_neg fun h => gone ⟨h.1, h.2.1⟩]

theorem clearHold_of_record {r : HoldRecord} (found : s.holdRecord key = some r) :
    clearHold key s =
      if (removeHold key s).returns then
        changeWheel .running (notify (.holdCleared r.what) (removeHold key s))
      else notify (.holdCleared r.what) (removeHold key s) := by
  have told : (notify (.holdCleared r.what) (removeHold key s)).returns ↔ (removeHold key s).returns := by
    simp [State.returns]
  rw [clearHold, found]
  exact (onClear_eq _).trans (if_congr told rfl rfl)

/-- The rotation record after a clear that removes a record (R148). -/
theorem clearHold_rotation {r : HoldRecord} (found : s.holdRecord key = some r) :
    (clearHold key s).rot =
      if (removeHold key s).returns then { s.rot with wheel := .running, stopPending := false } else s.rot := by
  rw [clearHold_of_record found]
  split <;> simp [removeHold, Wheel.pendsStop]

/-- The notices of a clear that removes a record (R128, R148). -/
theorem clearHold_desk {r : HoldRecord} (found : s.holdRecord key = some r) :
    SameDesk (s.afterNotices
      (.holdCleared r.what :: if (removeHold key s).returns then [.stateChanged .running] else []))
      (clearHold key s) := by
  have removed : SameDesk s (removeHold key s) := ⟨rfl, rfl, rfl, rfl⟩
  rw [clearHold_of_record found]
  split
  · exact (removed.notify _).changeWheel _
  · exact removed.notify _

/-- The frame of a change to the hold list and the rotation record. -/
theorem untouched_of_hold_frame (frame : u.pending = s.pending ∧ u.lines = s.lines ∧ u.tables = s.tables ∧
    u.tracker = s.tracker ∧ u.cabins = s.cabins ∧ u.permits = s.permits ∧ u.service = s.service ∧
    u.heads = s.heads ∧ u.grader = s.grader ∧ u.drives = s.drives) : Untouched [.holds, .rot] s u := by
  obtain ⟨pending, -, tables, tracker, cabins, permits, service, heads, grader, drives⟩ := frame
  refine ⟨pending, fun b other => ?_⟩
  cases b with
  | tables => exact tables
  | tracker => exact tracker
  | cabins => exact cabins
  | permits => exact permits
  | service => exact service
  | heads => exact heads
  | grader => exact grader
  | drives => exact drives
  | _ => simp at other

theorem clearHold_untouched (key : HoldKey) (s : State) : Untouched [.holds, .rot] s (clearHold key s) :=
  untouched_of_hold_frame (clearHold_frame s key)

/-- Where the wheel does not return, a clear leaves the rotation record as well. -/
theorem clearHold_untouched_of_stays {r : HoldRecord} (found : s.holdRecord key = some r)
    (stays : ¬ (removeHold key s).returns) : Untouched [.holds] s (clearHold key s) := by
  refine ⟨(clearHold_untouched key s).1, fun b other => ?_⟩
  by_cases wheel : b = .rot
  · subst wheel
    exact (clearHold_rotation found).trans (if_neg stays)
  · exact (clearHold_untouched key s).2 b (by simpa [wheel] using other)

/-! ### A raise -/

/-- A raise of a new record of any kind but ALL_STOP: the rotation record and the notices (R125, R147, R149). -/
theorem raiseHold_of_fresh {what : Hold} (other : what.key ≠ .allStop) (fresh : s.holdsKey what.key = false) :
    (raiseHold what s).rot =
        (if s.rot.wheel = .running then
          { s.rot with wheel := if s.atRest = true then .held else .stopping .held, stopPending := false }
        else s.rot) ∧
      SameDesk (s.afterNotices ([.holdRaised what] ++
        if s.rot.wheel = .running then
          .stateChanged (.stopping .held) :: if s.atRest = true then [.stateChanged .held] else []
        else [])) (raiseHold what s) := by
  have raised : raiseHold what s = onRaise what.key (stopRaised what s) :=
    if_neg (by rw [fresh]; exact Bool.false_ne_true)
  have rot := stopRaised_rot what s
  have rest : (stopRaised what s).atRest = s.atRest := State.atRest_congr (by rw [rot]) (by simp [stopRaised])
  have desk : SameDesk (s.afterNotices [.holdRaised what]) (stopRaised what s) := stopRaised_desk what s
  rw [raised]
  by_cases running : s.rot.wheel = .running
  · obtain ⟨stopped, told⟩ := onRaise_of_running other (by rw [rot, running])
      (SameDesk.refl (stopRaised what s))
    rw [rot, rest] at stopped
    rw [rest] at told
    rw [if_pos running, if_pos running]
    exact ⟨stopped, desk.append told⟩
  · rw [onRaise_of_other other, rot, if_neg running, if_neg running, if_neg running]
    exact ⟨rot, desk⟩

/-! ### The clear of an overrun -/

/-- The overrun condition of a zone (R70). -/
theorem overrunCabin_eq (s : State) (z : Zone) :
    s.overrunCabin z = (s.occ z).occupant.bind fun k =>
      if (s.occ z).past = true ∧ ¬ ((s.cabin k).door = .locked ∧ (s.cabin k).cycle = .idle) then some k else none := by
  rw [State.overrunCabin]
  rcases s.occ z with ⟨occupant, past⟩
  cases occupant with
  | none => rfl
  | some k =>
    cases past with
    | false => simp
    | true => by_cases secured : (s.cabin k).secured = true <;> simp [secured, ← secured_iff]

theorem clearOverrun_of_free (free : s.overrunCabin z = none) : clearOverrun z s = clearHold (.zoneOverrun z) s := by
  have still : (clearHold (.zoneOverrun z) s).overrunCabin z = none :=
    (overrunCabin_congr (by simp) (funext (State.cabin_congr (by simp))) z).trans free
  rw [clearOverrun, testOverrun, still]

theorem clearOverrun_of_overrun (overruns : s.overrunCabin z = some k) :
    clearOverrun z s = raiseHold (.zoneOverrun z k) (clearHold (.zoneOverrun z) s) := by
  have still : (clearHold (.zoneOverrun z) s).overrunCabin z = some k :=
    (overrunCabin_congr (by simp) (funext (State.cabin_congr (by simp))) z).trans overruns
  rw [clearOverrun, testOverrun, still]

/-- The clear of an overrun leaves no record of its key, so the raise that follows makes one. -/
theorem clearHold_fresh (key : HoldKey) (s : State) : (clearHold key s).holdsKey key = false := by
  rw [clearHold_holdsKey, bne_self_eq_false, Bool.and_false]

/-- The hold list after an overrun is cleared and raised again (R73, R125, R128). -/
theorem clearOverrun_holds (overruns : s.overrunCabin z = some k) :
    (clearOverrun z s).holds =
      { s.holds with
        records := s.holds.records.filter (fun r => r.what.key != .zoneOverrun z) ++
          [{ what := .zoneOverrun z k, raised := s.lines.now, acked := false }] } := by
  rw [clearOverrun_of_overrun overruns, raiseHold_holds, Hold.key, clearHold_fresh]
  simp [appendHold, clearHold_holds, Hold.key, HoldKey.console]

/-- The rotation record and the notices after an overrun is cleared and raised again: a wheel that ran or returned
stops (R73, R147 to R149). -/
theorem clearOverrun_stops {r : HoldRecord} (found : s.holdRecord (.zoneOverrun z) = some r)
    (overruns : s.overrunCabin z = some k) :
    (clearOverrun z s).rot =
        (if (removeHold (.zoneOverrun z) s).returns ∨ s.rot.wheel = .running then
          { s.rot with wheel := if s.atRest = true then .held else .stopping .held, stopPending := false }
        else s.rot) ∧
      SameDesk (s.afterNotices
        ((.holdCleared r.what ::
            if (removeHold (.zoneOverrun z) s).returns then [.stateChanged .running] else []) ++
          [.holdRaised (.zoneOverrun z k)] ++
            if (removeHold (.zoneOverrun z) s).returns ∨ s.rot.wheel = .running then
              .stateChanged (.stopping .held) :: if s.atRest = true then [.stateChanged .held] else []
            else [])) (clearOverrun z s) := by
  have rot := clearHold_rotation found
  have cleared := clearHold_desk found
  obtain ⟨stopped, raised⟩ := raiseHold_of_fresh (s := clearHold (.zoneOverrun z) s) (what := .zoneOverrun z k) nofun
    (clearHold_fresh _ s)
  have running : (clearHold (.zoneOverrun z) s).rot.wheel = .running ↔
      (removeHold (.zoneOverrun z) s).returns ∨ s.rot.wheel = .running := by
    rw [rot]
    by_cases returns : (removeHold (.zoneOverrun z) s).returns
    · rw [if_pos returns]
      exact iff_of_true rfl (.inl returns)
    · rw [if_neg returns, or_iff_right returns]
  have rest : (clearHold (.zoneOverrun z) s).atRest = s.atRest :=
    State.atRest_congr (by rw [rot]; split <;> rfl) (by simp)
  rw [rest, if_congr running rfl rfl] at stopped raised
  rw [clearOverrun_of_overrun overruns, List.append_assoc]
  refine ⟨stopped.trans ?_, cleared.append raised⟩
  rw [rot]
  by_cases returns : (removeHold (.zoneOverrun z) s).returns
  · have stops : (removeHold (.zoneOverrun z) s).returns ∨ s.rot.wheel = .running := .inl returns
    rw [if_pos returns, if_pos stops, if_pos stops]
  · rw [if_neg returns]

theorem clearOverrun_untouched (z : Zone) (s : State) : Untouched [.holds, .rot] s (clearOverrun z s) :=
  untouched_of_hold_frame (clearOverrun_frame s z)

/-! ### The record an ACK_HOLD names -/

theorem HoldKey.code_range (key : HoldKey) : key.code ≠ 0x00 ∧ key.code.toNat ≤ 9 := by
  cases key with
  | zoneOverrun z => cases z <;> decide
  | _ => decide

theorem ackKey_eq_none {kind zone : Byte}
    (unnamed : kind = 0x00 ∨ 9 < kind.toNat ∨ kind = 0x08 ∧ 1 < zone.toNat) : ackKey kind zone = none := by
  unfold ackKey
  split
  · next overrun =>
    have outside : 1 < zone.toNat := by
      rcases unnamed with rfl | many | ⟨-, outside⟩
      · exact absurd overrun (by decide)
      · exact absurd (overrun ▸ many) (by decide)
      · exact outside
    rw [decodeZone_eq_none outside]
    rfl
  · next other =>
    rw [List.find?_eq_none]
    intro key _ named
    obtain ⟨some, few⟩ := key.code_range
    rw [beq_iff_eq.1 named] at some few
    rcases unnamed with none | many | ⟨overrun, -⟩
    · exact some none
    · omega
    · exact other overrun

theorem ackKey_code {zone : Byte} (here : ∀ z, key = .zoneOverrun z → z.code = zone) :
    ackKey key.code zone = some key := by
  cases key with
  | zoneOverrun z =>
    rw [← here z rfl, HoldKey.code, ackKey, if_pos rfl, decodeZone_code]
    rfl
  | _ => rfl

theorem ackHold_badLength {src : Byte} {args : List Byte} (other : args.length ≠ 2) :
    ackHold src args s = answer .badLength s := by
  unfold ackHold
  split
  · exact absurd rfl other
  · rfl

theorem ackHold_badArgument {src kind zone : Byte}
    (unnamed : kind = 0x00 ∨ 9 < kind.toNat ∨ kind = 0x08 ∧ 1 < zone.toNat) :
    ackHold src [kind, zone] s = answer .badArgument s := by
  rw [ackHold, ackKey_eq_none unnamed]

theorem ackHold_code {zone : Byte} (here : ∀ z, key = .zoneOverrun z → z.code = zone) (src : Byte) (s : State) :
    ackHold src [key.code, zone] s = ackRecord key s := by
  rw [ackHold, ackKey_code here]

/-! ### The effect by the kind of the record -/

/-- The condition under which an ACK_HOLD clears a record (R131). -/
def State.ackAccepts (s : State) : Hold → Prop
  | .allStop _ _ => True
  | .consoleHold => True
  | .encoderDisagree => s.tracker.latch = false
  | .doorBreach ks => ∀ k ∈ ks, (s.cabin k).door = .locked
  | .zoneOverrun z k => (s.zone z).release = .attended ∧ (s.cabin k).door = .locked ∧ (s.cabin k).cycle = .idle
  | .cabinOverload _ => True
  | .windStop => False
  | .positionLost => False
  | .drivesLost => False

/-- The kinds that an ACK_HOLD marks acknowledged (R132). -/
def State.ackMarks (s : State) : Hold → Prop
  | .zoneOverrun z _ => (s.zone z).release = .auto
  | .windStop => True
  | .positionLost => True
  | .drivesLost => True
  | _ => False

theorem ackIf_clears (b : Bool) : ackIf b = .clears ↔ b = true := by
  cases b <;> decide

theorem ackIf_marks (b : Bool) : ackIf b ≠ .marks := by
  cases b <;> decide

theorem ackEffect_clears_iff (s : State) (h : Hold) : s.ackEffect h = .clears ↔ s.ackAccepts h := by
  cases h with
  | zoneOverrun z k =>
    cases release : (s.zone z).release <;> simp [State.ackEffect, State.ackAccepts, release, ackIf_clears, secured_iff]
  | _ => simp [State.ackEffect, State.ackAccepts, ackIf_clears]

theorem ackEffect_marks_iff (s : State) (h : Hold) : s.ackEffect h = .marks ↔ s.ackMarks h := by
  cases h with
  | zoneOverrun z k =>
    cases release : (s.zone z).release <;> simp [State.ackEffect, State.ackMarks, release, ackIf_marks]
  | _ => simp [State.ackEffect, State.ackMarks, ackIf_marks]

theorem ackRecord_absent (absent : s.holdsKey key = false) : ackRecord key s = answer .refusedCondition s := by
  have none : s.holdRecord key = none := by simpa [State.holdsKey] using absent
  rw [ackRecord, none]

section

variable {r : HoldRecord} (found : s.holdRecord key = some r)

include found

theorem ackRecord_clears (accepted : s.ackAccepts r.what) : ackRecord key s = answer .done (ackClear key s) := by
  rw [ackRecord, found]
  dsimp only
  rw [(ackEffect_clears_iff s r.what).2 accepted]

theorem ackRecord_marks (marks : s.ackMarks r.what) : ackRecord key s = answer .done (markAcked key s) := by
  rw [ackRecord, found]
  dsimp only
  rw [(ackEffect_marks_iff s r.what).2 marks]

theorem ackRecord_refused (barred : ¬ s.ackAccepts r.what) (unmarked : ¬ s.ackMarks r.what) :
    ackRecord key s = answer .refusedCondition s := by
  rw [← ackEffect_clears_iff] at barred
  rw [← ackEffect_marks_iff] at unmarked
  rw [ackRecord, found]
  dsimp only
  cases effect : s.ackEffect r.what with
  | clears => exact absurd effect barred
  | marks => exact absurd effect unmarked
  | refused => rfl

end

/-! ### ACK_HOLD -/

theorem markAcked_untouched (key : HoldKey) (s : State) : Untouched [.holds] s (markAcked key s) :=
  ⟨rfl, fun b other => by
    cases b with
    | holds => simp at other
    | _ => rfl⟩

/-- Settles O36: the record and its kind pick the effect, and each effect's hold list, rotation record and notices are
those of the clear, the mark, or the clear with the raise after it. -/
theorem ackHoldClearsMarksOrRefuses : Obligations.AckHoldClearsMarksOrRefuses := by
  intro t src tag args s ⟨takes, console⟩ short
  have completes := completes_of_takes (c := .ackHold t src tag args) (tag := tag) (kind := 0x12) takes short rfl
  have judged := judgeRequest_of_console (s := s.advance t) (o := ackHold) (kind := 0x12) rfl console args
  have away {result : Result} (answered : ackHold src args (s.advance t) = answer result (s.advance t)) :
      TurnsAway (.ackHold t src tag args) t s src tag 0x12 result :=
    turnsAway_of_answer completes takes.2 (judged.trans answered)
  refine ⟨fun other => away (ackHold_badLength other), fun kind zone framed => ⟨fun unnamed => ?_,
    fun key named here => ?_⟩⟩
  · subst framed
    exact away (ackHold_badArgument unnamed)
  subst framed named
  have record := ackHold_code here src (s.advance t)
  refine ⟨fun absent => away (record.trans (ackRecord_absent (s := s.advance t) absent)), fun r found => ?_⟩
  intro secured accepted marks others
  have found : (s.advance t).holdRecord key = some r := found
  have answered {v : State} {changed : List Block} {ns : List Notice}
      (answers : ackRecord key (s.advance t) = answer .done v) (blocks : Untouched changed (s.advance t) v)
      (quiet : Quiet (s.advance t) v) (desk : SameDesk ((s.advance t).afterNotices ns) v) :
      Done (.ackHold t src tag [key.code, zone]) t s (pushResponse src tag 0x12 (.plain .done) v) src tag 0x12
        changed ns :=
    done_of_answer takes.2 completes (judged.trans (record.trans answers)) blocks quiet
      (((sameDesk_advance t s).afterNotices ns).trans desk)
  refine ⟨fun barred unmarked => away (record.trans (ackRecord_refused found barred unmarked)), fun marks => ?_,
    fun accepted z overrun => ?_, fun accepted other => ?_⟩
  · exact ⟨_, answered (ackRecord_marks found marks) (markAcked_untouched key _)
      ((Quiet.refl _).aside ⟨rfl, rfl, rfl, rfl⟩) ⟨rfl, rfl, rfl, rfl⟩, rfl⟩
  · subst overrun
    have clears := ackRecord_clears found accepted
    intro returns cleared rest next
    have atRest : rest = (s.advance t).atRest := Bool.eq_iff_iff.2 (decide_eq_true_iff.trans (atRest_iff _).symm)
    have overruns : (s.advance t).overrunCabin z = next := by
      refine (overrunCabin_eq s z).trans ?_
      dsimp only [next]
      cases (s.occ z).occupant <;> rfl
    have quiet := (Quiet.refl (s.advance t)).then_clearOverrun z
    have blocks := clearOverrun_untouched z (s.advance t)
    have back : returns = true ↔ (removeHold (.zoneOverrun z) (s.advance t)).returns := decide_eq_true_iff
    clear_value rest next
    subst atRest
    cases next with
    | none =>
      have desk := clearHold_desk found
      have rot := clearHold_rotation found
      have holds := clearHold_holds (s.advance t) (.zoneOverrun z)
      simp only [← back, ← clearOverrun_of_free overruns] at desk rot holds
      exact ⟨_, answered clears blocks quiet desk, holds, rot⟩
    | some k =>
      obtain ⟨rot, desk⟩ := clearOverrun_stops found overruns
      have stops : (removeHold (.zoneOverrun z) (s.advance t)).returns ∨ (s.advance t).rot.wheel = .running ↔
          (returns || decide (s.rot.wheel = .running)) = true := by
        rw [Bool.or_eq_true, back, decide_eq_true_iff]
        rfl
      simp only [stops] at desk rot
      simp only [← back] at desk
      exact ⟨_, answered clears blocks quiet desk, clearOverrun_holds overruns, rot⟩
  · have clears : ackRecord key (s.advance t) = answer .done (clearHold key (s.advance t)) := by
      rw [ackRecord_clears found accepted]
      cases key with
      | zoneOverrun z => exact absurd rfl (other z)
      | _ => rfl
    have quiet := (Quiet.refl (s.advance t)).then_clearHold key
    have desk := clearHold_desk found
    have rot := clearHold_rotation found
    have holds := clearHold_holds (s.advance t) key
    split
    · next returns =>
      rw [if_pos (show (removeHold key (s.advance t)).returns from returns)] at desk rot
      exact ⟨_, answered clears (clearHold_untouched key _) quiet desk, holds, rot⟩
    · next stays =>
      rw [if_neg (show ¬ (removeHold key (s.advance t)).returns from stays)] at desk
      exact ⟨_, answered clears (clearHold_untouched_of_stays found stays) quiet desk, holds⟩

end Sys2Proof.Machine
end

