-- ==== Sys2Proof/Proofs/AloofHolds.lean ====
section

/-!
# The holds of the grader and the drives

WIND_STOP is the wind grader's record and DRIVES_LOST the drive stations' (R120, R163). The release gate, the cabin
records and the tracker raise and clear holds of their own, so these two stand after their work just where they stood
before it.
-/

namespace Sys2Proof.Machine

/-- The holds that neither the gate, the cabin records nor the tracker raise or clear. -/
def HoldKey.Aloof (key : HoldKey) : Prop := key = .windStop ∨ key = .drivesLost

theorem HoldKey.Aloof.ne {key key' : HoldKey} (aloof : key.Aloof) (wind : key' ≠ .windStop)
    (drives : key' ≠ .drivesLost) : key' ≠ key := by
  rcases aloof with rfl | rfl
  · exact wind
  · exact drives

/-- A raise leaves every other key. -/
theorem raiseHold_of_other {what : Hold} {key : HoldKey} (other : what.key ≠ key) (s : State) :
    (raiseHold what s).holdsKey key = s.holdsKey key := by
  rw [raiseHold_holdsKey, beq_eq_false_iff_ne.2 other.symm, Bool.or_false]

/-- A clear leaves every other key. -/
theorem clearHold_of_other {key' key : HoldKey} (other : key' ≠ key) (s : State) :
    (clearHold key' s).holdsKey key = s.holdsKey key := by
  rw [clearHold_holdsKey, bne_iff_ne.2 other.symm, Bool.and_true]

@[simp] theorem notify_holdsKey (n : Notice) (s : State) (key : HoldKey) :
    (notify n s).holdsKey key = s.holdsKey key := State.holdsKey_congr (notify_holds n s) key

@[simp] theorem State.setCabin_holdsKey (s : State) (k : Cabin) (c : CabinRecord) (key : HoldKey) :
    (s.setCabin k c).holdsKey key = s.holdsKey key := rfl

section

variable {key : HoldKey} (aloof : key.Aloof)
include aloof

theorem raiseHold_aloof {what : Hold} (wind : what.key ≠ .windStop) (drives : what.key ≠ .drivesLost) (s : State) :
    (raiseHold what s).holdsKey key = s.holdsKey key :=
  raiseHold_of_other (aloof.ne wind drives) s

theorem clearHold_aloof {key' : HoldKey} (wind : key' ≠ .windStop) (drives : key' ≠ .drivesLost) (s : State) :
    (clearHold key' s).holdsKey key = s.holdsKey key :=
  clearHold_of_other (aloof.ne wind drives) s

/-- A cabin added to the breach list changes no key. -/
theorem raiseBreach_aloof (k : Cabin) (s : State) : (raiseBreach k s).holdsKey key = s.holdsKey key := by
  unfold raiseBreach
  split
  · split
    · rfl
    · rw [notify_holdsKey, Bool.eq_iff_iff, State.holdsKey_iff, State.holdsKey_iff]
      simp [HoldRecord.addBreach_key]
  · exact raiseHold_aloof aloof (what := .doorBreach [k]) nofun nofun s

theorem clearOverload_aloof (k : Cabin) (s : State) : (clearOverload k s).holdsKey key = s.holdsKey key := by
  unfold clearOverload
  split
  · split
    · exact clearHold_aloof aloof (key' := .cabinOverload) nofun nofun s
    · rfl
  · rfl

/-! ### The release gate -/

theorem testOverrun_aloof (z : Zone) (s : State) : (testOverrun z s).holdsKey key = s.holdsKey key := by
  unfold testOverrun
  split
  · next k _ => exact raiseHold_aloof aloof (what := .zoneOverrun z k) nofun nofun s
  · rfl

theorem testCabin_aloof (k : Cabin) (s : State) : (testCabin k s).holdsKey key = s.holdsKey key := by
  unfold testCabin
  split
  · split
    · exact testOverrun_aloof aloof _ s
    · rfl
  · rfl

theorem clearOverrun_aloof (z : Zone) (s : State) : (clearOverrun z s).holdsKey key = s.holdsKey key :=
  (testOverrun_aloof aloof z _).trans (clearHold_aloof aloof (key' := .zoneOverrun z) nofun nofun s)

theorem autoClear_aloof (z : Zone) (k : Cabin) (s : State) : (autoClear z k s).holdsKey key = s.holdsKey key := by
  unfold autoClear
  split
  · exact clearOverrun_aloof aloof z s
  · rfl

theorem gateReport_aloof (k : Cabin) (s : State) : (gateReport k s).holdsKey key = s.holdsKey key := by
  rw [gateReport, testCabin_aloof aloof, autoClear_aloof aloof, autoClear_aloof aloof]

theorem gateCompletion_aloof (k : Cabin) (s : State) : (gateCompletion k s).holdsKey key = s.holdsKey key :=
  testCabin_aloof aloof k s

/-! ### The cabin records -/

theorem uncommandedOpening_aloof (k : Cabin) (s : State) :
    (uncommandedOpening k s).holdsKey key = s.holdsKey key := by
  simp [uncommandedOpening, gateCycleChange, testCabin_aloof aloof]

theorem advanceCycle_aloof (k : Cabin) (s : State) : (advanceCycle k s).holdsKey key = s.holdsKey key := by
  unfold advanceCycle
  dsimp only
  split
  · split
    · exact uncommandedOpening_aloof aloof k s
    · rfl
  · split
    · exact testCabin_aloof aloof k _
    · split
      · exact gateCompletion_aloof aloof k _
      · rfl
  · split
    · rfl
    · exact gateCompletion_aloof aloof k _

theorem judgeOverload_aloof (k : Cabin) (s : State) : (judgeOverload k s).holdsKey key = s.holdsKey key := by
  unfold judgeOverload
  dsimp only
  split
  · split
    · exact clearOverload_aloof aloof k _
    · rfl
  · split
    · exact raiseHold_aloof aloof (what := .cabinOverload k) nofun nofun _
    · rfl

theorem judgeBreach_aloof (k : Cabin) (s : State) : (judgeBreach k s).holdsKey key = s.holdsKey key := by
  unfold judgeBreach
  split
  · exact raiseBreach_aloof aloof k s
  · rfl

theorem judgeExitBreach_aloof (k : Cabin) (s : State) : (judgeExitBreach k s).holdsKey key = s.holdsKey key := by
  unfold judgeExitBreach
  split
  · split
    · rfl
    · exact notify_holdsKey _ s key
    · exact raiseBreach_aloof aloof k s
  · rfl

theorem cabinReport_aloof (k : Cabin) (d : Door) (n : Nat) (s : State) :
    (cabinReport k d n s).holdsKey key = s.holdsKey key := by
  have sequenced (u : State) : (sequencerReport k u).holdsKey key = u.holdsKey key :=
    State.holdsKey_congr (by simp) key
  rw [cabinReport_stages, sequenced, reportGated, gateReport_aloof aloof, judgeBreach_aloof aloof,
    advanceCycle_aloof aloof, reportJudged, judgeOverload_aloof aloof]
  rfl

theorem doorStale_aloof (k : Cabin) (s : State) : (doorStale k s).holdsKey key = s.holdsKey key := by
  simp [doorStale, testCabin_aloof aloof]

/-! ### The tracker -/

theorem deliverExit_aloof (moved : Bool) (old new : ByZone Occupancy) (z : Zone) (s : State) :
    (deliverExit moved old new z s).holdsKey key = s.holdsKey key := by
  have exit (k : Cabin) : (zoneExit moved z k s).holdsKey key = s.holdsKey key := by
    rw [State.holdsKey_congr (zoneExit_holds moved z k s), cabinExit_eq, judgeExitBreach_aloof aloof,
      State.setCabin_holdsKey]
  unfold deliverExit
  split
  · split
    · rfl
    · exact exit _
  · rfl

theorem deliverEntry_aloof (old new : ByZone Occupancy) (z : Zone) (s : State) :
    (deliverEntry old new z s).holdsKey key = s.holdsKey key := by
  have entry (k : Cabin) : (zoneEntry z k s).holdsKey key = s.holdsKey key := by
    unfold zoneEntry
    dsimp only
    split
    · exact uncommandedOpening_aloof aloof k _
    · rfl
  unfold deliverEntry
  split
  · split
    · rfl
    · exact entry _
  · rfl

theorem deliverMoves_aloof (moved : Bool) (old new : ByZone Occupancy) (s : State) :
    (deliverMoves moved old new s).holdsKey key = s.holdsKey key := by
  rw [deliverMoves_eq, deliverEntry_aloof aloof, deliverEntry_aloof aloof, deliverExit_aloof aloof,
    deliverExit_aloof aloof]

theorem deliverCrossings_aloof (old new : ByZone Occupancy) (s : State) :
    (deliverCrossings old new s).holdsKey key = s.holdsKey key := by
  refine State.forEach_keeps s (State.holdsKey · key) (fun z u => ?_) _
  unfold deliverCrossing
  split
  · exact testOverrun_aloof aloof z u
  · rfl

theorem recompute_aloof (moved : Bool) (s : State) : (recompute moved s).holdsKey key = s.holdsKey key := by
  rw [recompute_eq, deliverCrossings_aloof aloof, deliverMoves_aloof aloof]
  rfl

theorem sweepBreach_aloof (s : State) : (sweepBreach s).holdsKey key = s.holdsKey key :=
  State.forEach_keeps s (State.holdsKey · key) (judgeBreach_aloof aloof) _

theorem reform_aloof (s : State) : (reform s).holdsKey key = s.holdsKey key := by
  cases valid : s.tracker.accepted.valid <;> cases formed : s.tracker.formed.valid
  case true.true =>
    obtain ⟨v, e, -, -, -, -, -, holds, -⟩ := reform_recomputes valid formed
    rw [e, recompute_aloof aloof, State.holdsKey_congr holds]
  case true.false =>
    rw [reform_loses valid formed, positionLost, notify_holdsKey, deliverMoves_aloof aloof]
    rfl
  case false.true =>
    rw [reform_returns valid formed, positionReturns, clearHold_aloof aloof (key' := .positionLost) nofun nofun,
      notify_holdsKey, deliverCrossings_aloof aloof, sweepBreach_aloof aloof, deliverMoves_aloof aloof]
    rfl
  case false.false =>
    rw [reform_stays valid formed]
    rfl

theorem compareHeads_aloof (s : State) : (compareHeads s).holdsKey key = s.holdsKey key := by
  unfold compareHeads
  split
  · dsimp only
    split
    · exact raiseHold_aloof aloof (what := .encoderDisagree) nofun nofun _
    · rfl
  · rfl

end

end Sys2Proof.Machine
end

