-- ==== Sys2Proof/Proofs/ClearDownList.lean ====
section

/-!
# The clear-down list

What each operation of the sequencer makes of the service mode and the list, and that each keeps the list's law: no
cabin twice, none outside CLEARDOWN, and in CLEARDOWN every occupied cabin (R79, R84 to R91).
-/

namespace Sys2Proof.Machine

variable {s u : State}

/-! ### The occupied cabins -/

theorem mem_occupied {k : Cabin} : k ∈ s.occupied ↔ 0 < (s.cabin k).occupancy := by
  simp [State.occupied, allCabins]

theorem occupied_nodup (s : State) : s.occupied.Nodup := (List.nodup_finRange 48).filter _

theorem ordered_eq_nil_iff {ks : List Cabin} : s.ordered ks = [] ↔ ks = [] := by
  rw [← List.length_eq_zero_iff, (s.ordered_perm ks).length_eq, List.length_eq_zero_iff]

/-! ### The entry to CLEARDOWN -/

/-- CLEARDOWN with its list, told to the console and the gate (R84). -/
def listed (cause : ModeCause) (s : State) : State :=
  gateModeChange .clearDown (notify (.modeChanged .clearDown cause)
    (s.setService { s.service with mode := .clearDown, list := s.ordered s.occupied }))

theorem listed_service (cause : ModeCause) (s : State) :
    (listed cause s).service = { s.service with mode := .clearDown, list := s.ordered s.occupied } := by
  simp [listed]

theorem enterClearDown_eq (cause : ModeCause) (s : State) :
    enterClearDown cause s = checkComplete (listed cause s) := rfl

theorem listed_list_eq_nil_iff (cause : ModeCause) : (listed cause s).service.list = [] ↔ s.occupied = [] := by
  rw [listed_service]
  exact ordered_eq_nil_iff

theorem enterClearDown_of_occupied (occupied : s.occupied ≠ []) (cause : ModeCause) :
    enterClearDown cause s = listed cause s :=
  (enterClearDown_eq cause s).trans (if_neg fun h => occupied ((listed_list_eq_nil_iff cause).1 h.2))

theorem enterClearDown_of_empty (empty : s.occupied = []) (cause : ModeCause) :
    enterClearDown cause s = completeClearDown (listed cause s) :=
  (enterClearDown_eq cause s).trans
    (if_pos ⟨by rw [listed_service], (listed_list_eq_nil_iff cause).2 empty⟩)

theorem completeClearDown_service (s : State) :
    (completeClearDown s).service = { s.service with mode := .cleared } := by
  simp [completeClearDown]

/-- The sequencer after an entry to CLEARDOWN (R84, R91). -/
theorem enterClearDown_service (cause : ModeCause) (s : State) :
    (enterClearDown cause s).service =
      if s.occupied = [] then { s.service with mode := .cleared, list := [] }
      else { s.service with mode := .clearDown, list := s.ordered s.occupied } := by
  split
  · next empty =>
    rw [enterClearDown_of_empty empty, completeClearDown_service, listed_service, ordered_eq_nil_iff.2 empty]
  · next occupied => rw [enterClearDown_of_occupied occupied, listed_service]

/-! ### Changes by request, and the reordering -/

theorem changeMode_service (m : ServiceMode) (cause : ModeCause) (s : State) :
    (changeMode m cause s).service = { s.service with mode := m } := by
  simp [changeMode]

@[simp] theorem openMode_frame (s : State) :
    (openMode s).pending = s.pending ∧ (openMode s).lines = s.lines ∧ (openMode s).tables = s.tables ∧
    (openMode s).tracker = s.tracker ∧ (openMode s).cabins = s.cabins ∧ (openMode s).heads = s.heads ∧
    (openMode s).grader = s.grader ∧ (openMode s).holds = s.holds ∧ (openMode s).rot = s.rot ∧
    (openMode s).drives = s.drives := by
  unfold openMode
  split <;> simp

/-- OPEN empties the list of a CLEARDOWN (R79). -/
theorem openMode_service (s : State) :
    (openMode s).service =
      if s.service.mode = .clearDown then { mode := .opened, list := [], fMode := 100 }
      else { s.service with mode := .opened } := by
  unfold openMode
  rw [changeMode_service]
  cases mode : s.service.mode <;> rfl

/-- The sequencer after F_mode is read (R89, R90). -/
theorem readFMode_service (s : State) :
    (readFMode s).service =
      { s.service with
        list := if s.service.mode = .clearDown then s.ordered s.service.list else s.service.list
        fMode := (reorderList s).modeFactor } := by
  unfold readFMode reorderList
  dsimp only
  split <;> rfl

/-- The sequencer after a rotation update (R89, R90). -/
theorem rotationUpdate_service (s : State) : (rotationUpdate s).service = (readFMode s).service := by
  have limited : (setLimit s).service = (readFMode s).service := by simp [setLimit]
  unfold rotationUpdate
  dsimp only
  split <;> simp [limited]

/-! ### The law of the list -/

/-- Outside CLEARDOWN the list is empty (R85). -/
theorem clearDownLaw_of_idle (mode : s.service.mode ≠ .clearDown) (list : s.service.list = []) : ClearDownLaw s :=
  ⟨by rw [list]; exact .nil, fun _ => list, fun other => absurd other mode⟩

/-- In CLEARDOWN the list is not empty, has no cabin twice and holds every occupied cabin (R85, R91). -/
theorem clearDownLaw_of_list (mode : s.service.mode = .clearDown) (nodup : s.service.list.Nodup)
    (filled : s.service.list ≠ []) (covers : ∀ k, 0 < (s.cabin k).occupancy → k ∈ s.service.list) : ClearDownLaw s :=
  ⟨nodup, fun other => absurd mode other, fun _ => ⟨filled, covers⟩⟩

theorem ClearDownLaw.of_same (law : ClearDownLaw s) (service : u.service = s.service)
    (occupancy : ∀ k, (u.cabin k).occupancy = (s.cabin k).occupancy) : ClearDownLaw u := by
  unfold ClearDownLaw
  simp only [service, occupancy]
  exact law

/-- A list with the same cabins in another order keeps the law. -/
theorem ClearDownLaw.of_perm (law : ClearDownLaw s) (mode : u.service.mode = s.service.mode)
    (perm : u.service.list.Perm s.service.list)
    (occupancy : ∀ k, (u.cabin k).occupancy = (s.cabin k).occupancy) : ClearDownLaw u := by
  obtain ⟨nodup, idle, running⟩ := law
  refine ⟨perm.nodup_iff.2 nodup, fun other => ?_, fun clearDown => ?_⟩
  · have empty := idle (by rwa [← mode])
    rw [empty] at perm
    exact perm.eq_nil
  · obtain ⟨filled, covers⟩ := running (mode ▸ clearDown)
    refine ⟨fun empty => filled ?_, fun k occupied => perm.mem_iff.2 (covers k ?_)⟩
    · rw [empty] at perm
      exact perm.nil_eq.symm
    · rwa [← occupancy]

theorem enterClearDown_law (cause : ModeCause) (s : State) : ClearDownLaw (enterClearDown cause s) := by
  have service := enterClearDown_service cause s
  have cabin (k : Cabin) : (enterClearDown cause s).cabin k = s.cabin k := State.cabin_congr (by simp) k
  by_cases empty : s.occupied = []
  · rw [if_pos empty] at service
    exact clearDownLaw_of_idle (by rw [service]; nofun) (by rw [service])
  · rw [if_neg empty] at service
    have perm := s.ordered_perm s.occupied
    refine clearDownLaw_of_list (by rw [service]) ?_ ?_ fun k occupied => ?_
    · rw [service]
      exact perm.nodup_iff.2 (occupied_nodup s)
    · rw [service]
      exact mt ordered_eq_nil_iff.1 empty
    · rw [service]
      rw [cabin] at occupied
      exact perm.mem_iff.2 (mem_occupied.2 occupied)

/-- A change to a mode other than CLEARDOWN keeps the law where the list is empty. -/
theorem changeMode_law {m : ServiceMode} (other : m ≠ .clearDown) (empty : s.service.list = [])
    (cause : ModeCause) : ClearDownLaw (changeMode m cause s) := by
  have service := changeMode_service m cause s
  exact clearDownLaw_of_idle (by rw [service]; exact other) (by rw [service]; exact empty)

theorem openMode_law (law : ClearDownLaw s) : ClearDownLaw (openMode s) := by
  have service := openMode_service s
  split at service
  · exact clearDownLaw_of_idle (by rw [service]; nofun) (by rw [service])
  · next other => exact clearDownLaw_of_idle (by rw [service]; nofun) (by rw [service]; exact law.2.1 other)

/-- A passage takes an empty cabin off the list and moves an occupied one to its tail (R87, R91). -/
theorem ClearDownLaw.afterPassage {k : Cabin} (law : ClearDownLaw s) (mode : s.service.mode = .clearDown)
    (member : k ∈ s.service.list)
    (service : u.service = s.service.afterPassage k (s.cabin k).occupancy)
    (occupancy : ∀ k, (u.cabin k).occupancy = (s.cabin k).occupancy) : ClearDownLaw u := by
  obtain ⟨nodup, -, running⟩ := law
  obtain ⟨-, covers⟩ := running mode
  unfold Service.afterPassage at service
  split at service
  · have perm : u.service.list.Perm s.service.list := by
      rw [service]
      exact List.perm_append_singleton k _ |>.trans (List.perm_cons_erase member).symm
    exact ClearDownLaw.of_perm ⟨nodup, fun other => absurd mode other, running⟩ (by rw [service]) perm occupancy
  · next empty =>
    split at service
    · exact clearDownLaw_of_idle (by rw [service]; nofun) (by rw [service])
    · next filled =>
      refine clearDownLaw_of_list (by rw [service]; exact mode) ?_ ?_ fun j occupied => ?_
      · rw [service]
        exact nodup.erase k
      · rw [service]
        exact filled
      · rw [occupancy] at occupied
        have other : j ≠ k := by
          rintro rfl
          exact empty occupied
        rw [service]
        exact (List.mem_erase_of_ne other).2 (covers j occupied)

/-- A report lists its cabin where it is occupied and not listed (R86, R88). -/
theorem cabinReport_law (k : Cabin) (d : Door) (n : Nat) (law : ClearDownLaw s) :
    ClearDownLaw (cabinReport k d n s) := by
  have service := cabinReport_service k d n s
  have others (j : Cabin) (other : k ≠ j) : (cabinReport k d n s).cabin j = s.cabin j := by
    rw [cabinReport_cabin, if_neg other]
  generalize cabinReport k d n s = u at service others
  by_cases mode : s.service.mode = .clearDown
  · obtain ⟨nodup, -, running⟩ := law
    obtain ⟨filled, covers⟩ := running mode
    by_cases joins : 0 < (u.cabin k).occupancy ∧ k ∉ s.service.list
    · have perm : u.service.list.Perm (k :: s.service.list) := by
        rw [service, if_pos ⟨mode, joins⟩]
        cases s.keyOf with
        | some key => exact insertByKey_perm key k _
        | none => exact List.perm_append_singleton k _
      refine clearDownLaw_of_list (by rw [service]; exact mode) (perm.nodup_iff.2 (nodup.cons joins.2))
        (fun empty => ?_) fun j occupied => perm.mem_iff.2 ?_
      · rw [empty] at perm
        exact List.cons_ne_nil _ _ perm.nil_eq.symm
      · by_cases here : k = j
        · exact here ▸ List.mem_cons_self
        · rw [others j here] at occupied
          exact List.mem_cons_of_mem _ (covers j occupied)
    · rw [if_neg fun h => joins h.2] at service
      refine clearDownLaw_of_list (by rw [service]; exact mode) (by rw [service]; exact nodup)
        (by rw [service]; exact filled) fun j occupied => ?_
      rw [service]
      by_cases here : k = j
      · subst here
        by_contra unlisted
        exact joins ⟨occupied, unlisted⟩
      · rw [others j here] at occupied
        exact covers j occupied
  · rw [if_neg fun h => mode h.1] at service
    exact clearDownLaw_of_idle (by rw [service]; exact mode) (by rw [service]; exact law.2.1 mode)

/-- The reordering at a rotation update keeps the law (R89). -/
theorem rotationUpdate_law (law : ClearDownLaw s) : ClearDownLaw (rotationUpdate s) := by
  have service := (rotationUpdate_service s).trans (readFMode_service s)
  refine law.of_perm (by rw [service]) ?_ fun k => congrArg _ (State.cabin_congr (by simp) k)
  rw [service]
  dsimp only
  split
  · exact s.ordered_perm _
  · exact .refl _

end Sys2Proof.Machine
end

