-- ==== Sys2Proof/Proofs/SteadyEffects.lean ====
section

/-!
# Steady effects

Every effect of a command is steady, that is, it leaves the wind grade, does not open the service and keeps the
clear-down list's law, but for OPEN_SERVICE, RESTART and the turns of the wind grader: an evaluation, the end of a
dwell, and the begin and end of settling (R79, R114 to R120, R178).
-/

namespace Sys2Proof.Machine

variable {s u v s₀ : State}

/-! ### What a steady effect keeps -/

/-- The effect leaves the grader and WIND_STOP, does not open the service, and keeps the clear-down list's law. -/
structure Steady (s u : State) : Prop where
  grader : u.grader = s.grader
  windStop : u.holdsKey .windStop = s.holdsKey .windStop
  opened : u.service.mode = .opened → s.service.mode = .opened
  listed : ClearDownLaw s → ClearDownLaw u

theorem windStop_aloof : HoldKey.Aloof .windStop := .inl rfl

namespace Steady

theorem trans (first : Steady s v) (second : Steady v u) : Steady s u where
  grader := second.grader.trans first.grader
  windStop := second.windStop.trans first.windStop
  opened := first.opened ∘ second.opened
  listed := second.listed ∘ first.listed

/-- An effect that leaves the sequencer and every occupancy. -/
theorem of_service (grader : u.grader = s.grader) (windStop : u.holdsKey .windStop = s.holdsKey .windStop)
    (service : u.service = s.service) (occupancy : ∀ k, (u.cabin k).occupancy = (s.cabin k).occupancy) :
    Steady s u where
  grader := grader
  windStop := windStop
  opened := by rw [service]; exact id
  listed law := law.of_same service occupancy

theorem refl (s : State) : Steady s s := of_service rfl rfl rfl fun _ => rfl

theorem then_held (h : Steady s₀ s) (windStop : u.holdsKey .windStop = s.holdsKey .windStop)
    (same : u.cabins = s.cabins ∧ u.service = s.service ∧ u.grader = s.grader) : Steady s₀ u := by
  obtain ⟨cabins, service, grader⟩ := same
  exact h.trans (of_service grader windStop service fun k => congrArg _ (State.cabin_congr cabins k))

theorem aside (h : Steady s₀ s) (same : u.cabins = s.cabins ∧ u.service = s.service ∧ u.grader = s.grader ∧
    u.holds = s.holds) : Steady s₀ u := by
  obtain ⟨cabins, service, grader, holds⟩ := same
  exact h.then_held (State.holdsKey_congr holds _) ⟨cabins, service, grader⟩

/-- The sequencer's work, which keeps the list's law and leaves the mode or moves it to one but OPEN. -/
theorem then_sequenced (h : Steady s₀ s) (opened : u.service.mode = .opened → s.service.mode = .opened)
    (listed : ClearDownLaw s → ClearDownLaw u) (same : u.grader = s.grader ∧ u.holds = s.holds) : Steady s₀ u :=
  h.trans ⟨same.1, State.holdsKey_congr same.2 _, opened, listed⟩

theorem then_setCabin (h : Steady s₀ s) {k : Cabin} {c : CabinRecord}
    (occupancy : c.occupancy = (s.cabin k).occupancy) : Steady s₀ (s.setCabin k c) := by
  refine h.trans (of_service rfl rfl rfl fun j => ?_)
  rw [State.setCabin_cabin]
  split
  · next here => rw [occupancy, here]
  · rfl

theorem then_forEach {α : Type} {f : α → State → State} (h : Steady s₀ s)
    (step : ∀ x s, Steady s₀ s → Steady s₀ (f x s)) (xs : List α) : Steady s₀ (s.forEach xs f) := by
  unfold State.forEach
  induction xs generalizing s with
  | nil => exact h
  | cons x xs ih => exact ih (step x s h)

theorem then_guarded {c : Prop} [Decidable c] {f : State → State} (h : Steady s₀ s)
    (step : ∀ {u}, Steady s₀ u → Steady s₀ (f u)) : Steady s₀ (if c then f s else s) := by
  split
  · exact step h
  · exact h

/-! ### Holds, cabins and drives -/

theorem then_raiseHold (h : Steady s₀ s) {what : Hold} (other : what.key ≠ .windStop) :
    Steady s₀ (raiseHold what s) :=
  h.then_held (raiseHold_of_other other s) (by simp)

theorem then_clearHold (h : Steady s₀ s) {key : HoldKey} (other : key ≠ .windStop) : Steady s₀ (clearHold key s) :=
  h.then_held (clearHold_of_other other s) (by simp)

theorem then_testOverrun (h : Steady s₀ s) (z : Zone) : Steady s₀ (testOverrun z s) :=
  h.then_held (testOverrun_aloof windStop_aloof z s) (by simp)

theorem then_cabinReport (h : Steady s₀ s) (k : Cabin) (d : Door) (n : Nat) : Steady s₀ (cabinReport k d n s) := by
  refine h.trans ⟨by simp, cabinReport_aloof windStop_aloof k d n s, ?_, cabinReport_law k d n⟩
  rw [cabinReport_service]
  exact id

theorem then_doorStale (h : Steady s₀ s) (k : Cabin) : Steady s₀ (doorStale k s) := by
  have unknown := h.then_setCabin (k := k) (c := { s.cabin k with door := .unknown }) rfl
  exact unknown.then_held ((doorStale_aloof windStop_aloof k s).trans (State.setCabin_holdsKey s k _ _).symm)
    (by simp [doorStale])

theorem then_staleEvent (h : Steady s₀ s) (k : Cabin) : Steady s₀ (staleEvent k s) :=
  h.then_guarded fun h => h.then_doorStale k

theorem then_forgetDoor (h : Steady s₀ s) (k : Cabin) : Steady s₀ (forgetDoor k s) := by
  have forgotten := h.then_setCabin (k := k) (c := { s.cabin k with lastReport := none }) rfl
  unfold forgetDoor
  dsimp only
  split
  · exact forgotten
  · exact forgotten.then_doorStale k

theorem then_deriveReady (h : Steady s₀ s) (n : Fin 4) : Steady s₀ (deriveReady n s) := by
  unfold deriveReady
  dsimp only
  split
  · exact h
  · unfold judgeDrivesLost
    split
    · exact Steady.then_raiseHold (h.aside (by simp)) nofun
    · split
      · exact Steady.then_clearHold (h.aside (by simp)) nofun
      · exact h.aside (by simp)

theorem then_judgeEnd (h : Steady s₀ s) : Steady s₀ (judgeEnd s) := h.aside (by simp)

theorem then_driveReport (h : Steady s₀ s) (n : Fin 4) (ready : Bool) (fault : Byte) (speed : Nat) :
    Steady s₀ (driveReport n ready fault speed s) := by
  unfold driveReport
  exact (Steady.then_deriveReady (h.aside (u := s.setDrive n _) (by simp)) n).then_judgeEnd

theorem then_dropDrive (h : Steady s₀ s) (n : Fin 4) : Steady s₀ (dropDrive n s) := by
  unfold dropDrive
  dsimp only
  split
  · exact (Steady.then_deriveReady (h.aside (u := s.setDrive n _) (by simp)) n).then_judgeEnd
  · exact h

theorem then_driveLapse (h : Steady s₀ s) (n : Fin 4) : Steady s₀ (driveLapse n s) :=
  h.then_guarded fun h => h.then_dropDrive n

theorem then_forgetDrive (h : Steady s₀ s) (n : Fin 4) : Steady s₀ (forgetDrive n s) :=
  Steady.then_dropDrive (h.aside (by simp)) n

/-! ### The tracker -/

/-- A re-formation may bring the passage of one listed cabin, and leaves the sequencer otherwise (R87). -/
theorem then_reform (h : Steady s₀ s) : Steady s₀ (reform s) := by
  have occupancy (k : Cabin) : ((reform s).cabin k).occupancy = (s.cabin k).occupancy := by
    cases valid : s.tracker.accepted.valid with
    | true => rw [reform_cabin_of_valid valid]; exact (CabinRecord.moved_reports _ _ _ _).2.1
    | false => rw [reform_cabin_of_invalid valid]; exact (CabinRecord.moved_reports _ _ _ _).2.1
  have windStop := reform_aloof windStop_aloof s
  by_cases passes : ∃ k, s.PassesFormed k
  · obtain ⟨k, passes⟩ := passes
    have service := reform_service_of_passes passes
    obtain ⟨mode, -, member, -⟩ := passes
    refine h.trans ⟨by simp, windStop, fun opened => ?_, fun law => law.afterPassage mode member service occupancy⟩
    rw [service, Service.afterPassage] at opened
    split at opened
    · exact opened
    · split at opened
      · cases opened
      · exact opened
  · exact h.trans (of_service (by simp) windStop (reform_service_of_not fun k hk => passes ⟨k, hk⟩) occupancy)

theorem then_reformAfter (h : Steady s₀ s) (was : Bool) : Steady s₀ (reformAfter was s) :=
  h.then_reform.then_guarded fun h => h.then_raiseHold nofun

theorem then_encoderReport (h : Steady s₀ s) (e : EncoderId) (p : Nat) (health : Health) :
    Steady s₀ (encoderReport e p health s) := by
  unfold encoderReport
  split
  · generalize moved : s.setTracker _ = v
    have told : Steady s₀ v := h.aside (by rw [← moved]; exact ⟨rfl, rfl, rfl, rfl⟩)
    exact (told.then_held (compareHeads_aloof windStop_aloof v) (by simp)).then_reformAfter _
  · exact h

theorem then_dropHeads (h : Steady s₀ s) (a b : Bool) : Steady s₀ (dropHeads a b s) := by
  unfold dropHeads
  dsimp only
  split
  · generalize dropped : s.setTracker _ = v
    have told : Steady s₀ v := h.aside (by rw [← dropped]; exact ⟨rfl, rfl, rfl, rfl⟩)
    exact told.then_reformAfter true
  · exact h

theorem then_encoderLapse (h : Steady s₀ s) (e : EncoderId) : Steady s₀ (encoderLapse e s) :=
  h.then_guarded fun h => h.then_dropHeads _ _

/-- New boundaries move no cabin past the UNLOAD end as a passage would (R37, R88). -/
theorem then_zonesChanged (h : Steady s₀ s) : Steady s₀ (zonesChanged s) := by
  refine h.then_guarded fun {u} h => h.trans (of_service (by simp) (recompute_aloof windStop_aloof false u) ?_
    fun k => ?_)
  · rw [recompute_service, deliverExit_service_of_not (moved := false) nofun]
    rfl
  · rw [recompute_cabin]
    exact (CabinRecord.moved_reports _ _ _ _).2.1

/-! ### Modes of the service -/

theorem then_enterClearDown (h : Steady s₀ s) (cause : ModeCause) : Steady s₀ (enterClearDown cause s) := by
  refine h.then_sequenced (fun opened => ?_) (fun _ => enterClearDown_law cause s) (by simp)
  rw [enterClearDown_service] at opened
  split at opened <;> cases opened

/-- CLEARED goes to CLOSED by request or by STOW (R81, R82). -/
theorem then_close (h : Steady s₀ s) (mode : s.service.mode = .cleared) :
    Steady s₀ (changeMode .closed .request s) := by
  refine h.then_sequenced (fun opened => ?_) (fun law => ?_) (by simp)
  · rw [changeMode_service] at opened
    cases opened
  · exact changeMode_law (m := .closed) nofun (law.2.1 (by rw [mode]; nofun)) .request

theorem then_rotationUpdate (h : Steady s₀ s) : Steady s₀ (rotationUpdate s) := by
  refine h.then_sequenced ?_ rotationUpdate_law (by simp)
  rw [rotationUpdate_service, readFMode_service]
  exact id

end Steady

end Sys2Proof.Machine
end

