-- ==== Sys2Proof/Proofs/SequencerInvariant.lean ====
section

/-!
# Laws of the wind grade and the clear-down list

A law that the steady effects keep is kept by every step once it is shown for the few other effects: the two resets,
OPEN_SERVICE, and the begin and end of settling, an evaluation and the end of a dwell.
-/

namespace Sys2Proof.Machine

variable {s u v s₀ : State}

/-! ### Requests that are steady -/

theorem windStop_of_key {h : Hold} (key : h.key = .windStop) : h = .windStop := by
  cases h with
  | windStop => rfl
  | _ => cases key

/-- An acknowledged hold that clears is never WIND_STOP, which is only marked (R131). -/
theorem Steady.then_ackRecord (h : Steady s₀ s) (key : HoldKey) : Steady s₀ (ackRecord key s).2 := by
  unfold ackRecord
  split
  · exact h
  · next r found =>
    have here : r.what.key = key := by simpa using List.find?_some found
    split
    · next clears =>
      show Steady s₀ (ackClear key s)
      have other : key ≠ .windStop := by
        rintro rfl
        rw [windStop_of_key here] at clears
        cases clears
      unfold ackClear
      split
      · exact h.then_held (clearOverrun_aloof windStop_aloof _ s) (by simp)
      · exact h.then_clearHold other
    · exact h.then_held (markAcked_holdsKey s key .windStop) ⟨rfl, rfl, rfl⟩
    · exact h

theorem Steady.then_putResume (h : Steady s₀ s) (b : Bool) : Steady s₀ (putResume b s) :=
  h.then_held rfl ⟨rfl, rfl, rfl⟩

theorem Steady.then_setTurning (h : Steady s₀ s) : Steady s₀ (setTurning s) :=
  Steady.then_putResume (h.aside (by simp)) false

/-- Every request is steady but for the loads, RESTART and OPEN_SERVICE. -/
theorem owner_steady {kind : Byte} {o : Owner} (found : ownerOf kind = some o) (src : Byte) (args : List Byte)
    (s : State) : Steady s (o src args s).2 ∨ o = loadRequest ∨ o = restart ∨ o = openService := by
  have h := Steady.refl s
  have plain {decide : State → Reply × State} (step : Steady s (decide s).2) :
      Steady s (plainRequest decide src args s).2 := by
    unfold plainRequest
    split
    · exact step
    · exact h
  have mem := ownerOf_mem found
  simp only [requestTable, List.mem_cons, Prod.mk.injEq, List.not_mem_nil, or_false] at mem
  rcases mem with ⟨-, rfl⟩ | ⟨-, rfl⟩ | ⟨-, rfl⟩ | ⟨-, rfl⟩ | ⟨-, rfl⟩ | ⟨-, rfl⟩ | ⟨-, rfl⟩ |
    ⟨-, rfl⟩ | ⟨-, rfl⟩ | ⟨-, rfl⟩ | ⟨-, rfl⟩ | ⟨-, rfl⟩ | ⟨-, rfl⟩ | ⟨-, rfl⟩ | ⟨-, rfl⟩ |
    ⟨-, rfl⟩ | ⟨-, rfl⟩ | ⟨-, rfl⟩ | ⟨-, rfl⟩ | ⟨-, rfl⟩ | ⟨-, rfl⟩
  · refine .inl ?_
    unfold readStatus
    split
    · exact h.then_guarded fun h => h.aside (by simp [clearOverflow])
    · exact h
  · rw [readTableRequest, readTable_state]; exact .inl h
  · exact .inr (.inl rfl)
  · refine .inl ?_
    unfold setLocks
    split
    · split
      · exact h
      · exact h.aside (by simp [answer])
    · exact h
  · exact .inr (.inr (.inl rfl))
  · rw [readHolds_state]; exact .inl h
  · exact .inl (plain (h.then_raiseHold (what := .consoleHold) nofun))
  · refine .inl ?_
    unfold ackHold
    split
    · split
      · exact h.then_ackRecord _
      · exact h
    · exact h
  · rw [readCabins_state]; exact .inl h
  · rw [readWind_state]; exact .inl h
  · refine .inl (plain ?_)
    split
    · exact h.aside (by simp [answer])
    · exact h
  · refine .inl (plain ?_)
    have stowed : Steady s (sequencerStow (changeWheel .stowed s)) := by
      unfold sequencerStow
      split
      · next cleared => exact Steady.then_close (h.aside (by simp)) cleared
      · exact h.aside (by simp)
    split
    · split
      · exact stowed
      · exact stowed
      · exact h
      · exact h
    · exact h
  · refine .inl (plain ?_)
    split
    · split
      · exact h
      · exact h.then_setTurning
    · exact h
  · refine .inl (plain ?_)
    split <;> exact h.aside (by simp [answer])
  · refine .inl (plain ?_)
    split
    · split
      · exact h.then_setTurning
      · exact h
    · exact h
  · refine .inl (plain ?_)
    split
    · split
      · exact h
      · exact Steady.then_putResume (h.aside (by simp)) true
    · exact h
  · refine .inl ?_
    unfold setTrim
    split
    · exact h.aside (by simp [putTrim])
    · exact h
  · exact .inr (.inr (.inr rfl))
  · refine .inl (plain ?_)
    split
    · exact h.then_enterClearDown .request
    · exact h
    · exact h
  · refine .inl (plain ?_)
    split
    · next cleared => exact h.then_close cleared
    · exact h
    · exact h
  · refine .inl ?_
    have named (z : Zone) : Steady s (armNamed z src s).2 := by
      unfold armNamed armFor
      split
      · exact h
      split
      · exact h
      split
      · exact h
      split
      · exact h
      split
      · exact h.aside (by simp [answer])
      · exact h
      · exact h
    unfold armZone
    split
    · split
      · exact named _
      · exact h
    · exact h

/-! ### Loads that are steady -/

namespace Steady

theorem then_setTables (h : Steady s₀ s) (x : Tables) : Steady s₀ (s.setTables x) := h.aside ⟨rfl, rfl, rfl, rfl⟩

theorem then_applyRoster (h : Steady s₀ s) (ps : Entries) : Steady s₀ (applyRoster ps s).2 := by
  unfold applyRoster
  dsimp only
  split
  · exact h
  · have loaded := h.then_setTables { s.tables with roster := loadedTable clampRoster s.tables.roster ps }
    generalize s.setTables { s.tables with roster := loadedTable clampRoster s.tables.roster ps } = v at loaded ⊢
    generalize (fun i : Fin 14 => s.tables.roster[i] != (loadedTable clampRoster s.tables.roster ps)[i]) = changed
    rw [rosterConsequences_eq]
    have dropped := loaded.then_dropHeads (changed roleEncoderA) (changed roleEncoderB)
    have doors := dropped.then_guarded (c := changed roleConcentrator = true) (f := forgetDoors)
      fun h => h.then_forEach (fun k _ h => h.then_forgetDoor k) _
    have heads := doors.then_forEach (f := dropHeadIf changed)
      (fun _ _ h => h.then_guarded fun h => h.aside (by simp)) allFour
    exact heads.then_forEach (f := forgetDriveIf changed)
      (fun _ _ h => h.then_guarded fun h => h.then_forgetDrive _) allFour

theorem then_applyCabins (h : Steady s₀ s) (ps : Entries) : Steady s₀ (applyCabins ps s).2 :=
  (h.then_setTables { s.tables with cabins := loadedTable clampCabin s.tables.cabins ps }).then_forEach
    (f := fun (k : Cabin) s' =>
      if s.tables.cabins[k].inService && !(loadedTable clampCabin s.tables.cabins ps)[k].inService then
        clearPermitsOf k s' else s')
    (fun _ _ h => h.then_guarded fun h => h.aside ⟨rfl, rfl, rfl, rfl⟩) allCabins

theorem then_applyZones (h : Steady s₀ s) (ps : Entries) : Steady s₀ (applyZones ps s).2 := by
  unfold applyZones
  dsimp only
  split
  · exact h
  · exact (h.then_setTables _).then_zonesChanged

theorem then_applyParameters (h : Steady s₀ s) (ps : Entries) : Steady s₀ (applyParameters ps s).2 := by
  unfold applyParameters
  dsimp only
  have loaded := h.then_setTables { s.tables with params := loadedTable clampParam s.tables.params ps }
  generalize s.setTables { s.tables with params := loadedTable clampParam s.tables.params ps } = v at loaded ⊢
  have encoders {u : State} (h : Steady s₀ u) : Steady s₀ (encodersLowered u) := h.then_dropHeads _ _
  have doors {u : State} (h : Steady s₀ u) : Steady s₀ (stalenessLowered u) :=
    h.then_forEach (fun k _ h => h.then_staleEvent k) _
  have drives {u : State} (h : Steady s₀ u) : Steady s₀ (drivesLowered u) :=
    h.then_forEach (fun n _ h => h.then_driveLapse n) _
  have heads {u : State} (h : Steady s₀ u) : Steady s₀ (headsLowered u) := h.aside (by simp)
  exact (((loaded.then_guarded encoders).then_guarded doors).then_guarded drives).then_guarded heads

/-- A HEADS load before settling restarts. -/
theorem then_headsLoaded (h : Steady s₀ s) (ps : Entries) : Steady s₀
    ((s.setTables { s.tables with heads := loadedTable clampHead s.tables.heads ps }).forEach allFour
      fun n s => if (written ps n.val).isSome then restartHead n s else s) :=
  (h.then_setTables _).then_forEach (fun _ _ h => h.then_guarded fun h => h.aside (by simp)) allFour

end Steady

/-! ### Frames that are steady -/

theorem Steady.then_observe (h : Steady s₀ s) (f : Frame) : Steady s₀ (observe f s) := by
  have position (src : Byte) (p : Nat) (health : Health) : Steady s₀ (observePosition src p health s) := by
    unfold observePosition
    split
    · exact h.then_encoderReport _ _ _
    split
    · exact h.then_encoderReport _ _ _
    · exact h
  have drive (src : Byte) (ready : Bool) (fault : Byte) (speed : Nat) :
      Steady s₀ (observeDrive src ready fault speed s) := by
    unfold observeDrive
    split
    · exact h.then_driveReport _ ready fault speed
    · exact h
  have wind (src : Byte) (speed direction : Nat) (health : Health) :
      Steady s₀ (observeWind src speed direction health s) := by
    unfold observeWind
    split
    · exact h.aside (by simp)
    · exact h
  have door (src cabin : Byte) (d : Door) (n : Nat) : Steady s₀ (observeDoor src cabin d n s) := by
    unfold observeDoor
    split
    · split
      · exact h.then_cabinReport _ d n
      · exact h
    · exact h
  unfold observe
  split
  · split
    · exact position _ _ _
    split
    · exact drive _ _ _ _
    · exact h
  · split
    · exact wind _ _ _ _
    · exact h
  · split
    · exact door _ _ _ _
    · exact h
  · exact h

theorem Steady.then_doorCommand (h : Steady s₀ s) (f : Frame) : Steady s₀ (doorCommand f s) := by
  have unlocked (dst src cabin : Byte) : Steady s₀ (decideUnlock dst src cabin s) := by
    unfold decideUnlock
    split
    · next k z _ =>
      unfold forwardUnlock
      have spent : Steady s₀ (spendPermit z k s) := h.aside ⟨rfl, rfl, rfl, rfl⟩
      have started : Steady s₀ (startCycle k (spendPermit z k s)) := spent.then_setCabin rfl
      have copied : Steady s₀ (forwardDoor .unlock dst cabin actionUnlock (startCycle k (spendPermit z k s))) :=
        started.aside (by simp [forwardDoor])
      exact copied.then_guarded fun h => h.then_testOverrun z
    · exact h.aside (by simp [deny])
  have locked (dst src cabin : Byte) : Steady s₀ (decideLock dst src cabin s) := by
    unfold decideLock
    split
    · exact h.aside (by simp [forwardDoor])
    · exact h.aside (by simp [deny])
  unfold doorCommand
  split
  · split
    · exact unlocked _ _ _
    split
    · exact locked _ _ _
    · exact h
  · exact h

/-! ### What a law is to be shown of -/

/-- A law that steady effects keep, with the effects it is to be shown of one by one. -/
structure SequencerInvariant (law : State → Prop) : Prop where
  steady : ∀ {s u}, Steady s u → law s → law u
  powerOn : ∀ strap underWay key pending, law (State.powerOn strap underWay key pending)
  restarted : ∀ s : State, law s.restarted
  opens : ∀ {s}, s.grader.inForce.val < 3 → law s → law (openMode s)
  startSettling : ∀ {s}, law s → law (startSettling s)
  endSettling : ∀ {s}, law s → law (endSettling s)
  evaluate : ∀ {s}, law s → law (evaluate s)
  expireDwell : ∀ {s}, law s → law (expireDwell s)

namespace SequencerInvariant

variable {law : State → Prop}

/-! ### Loads -/

theorem apply (i : SequencerInvariant law) (h : law s) (t : Table) (ps : Entries) : law (t.apply ps s).2 := by
  have same := Steady.refl s
  have loaded (x : Tables) : Steady s (s.setTables x) := same.aside ⟨rfl, rfl, rfl, rfl⟩
  cases t
  case roster => exact i.steady (same.then_applyRoster ps) h
  case cabins => exact i.steady (same.then_applyCabins ps) h
  case zones => exact i.steady (same.then_applyZones ps) h
  case parameters => exact i.steady (same.then_applyParameters ps) h
  case heads => exact i.startSettling (i.steady (same.then_headsLoaded ps) h)
  case pass => exact i.steady (loaded _) h
  case rules => exact i.startSettling (i.steady (loaded _) h)

theorem loadTable (i : SequencerInvariant law) (h : law s) (args : List Byte) : law (loadTable args s).2 := by
  have loaded (t : Table) (args : List Byte) : law (loadOn t args s).2 := by
    unfold loadOn
    split
    · exact h
    split
    · exact h
    split
    · exact h
    split
    · exact h
    · exact i.apply h t _
  unfold Machine.loadTable
  split
  · split
    · exact loaded _ _
    · exact h
  · exact h

/-! ### The other requests -/

theorem restart (i : SequencerInvariant law) (h : law s) (src : Byte) (args : List Byte) :
    law (restart src args s).2 := by
  unfold Machine.restart plainRequest
  split
  · dsimp only
    split
    · exact i.steady ((Steady.refl s.restarted).aside (by simp [answer])) (i.restarted s)
    · exact h
  · exact h

theorem openService (i : SequencerInvariant law) (h : law s) (src : Byte) (args : List Byte) :
    law (openService src args s).2 := by
  unfold Machine.openService plainRequest
  split
  · dsimp only
    split
    · exact h
    split
    · exact h
    split
    · exact h
    · next calm => exact i.opens (Nat.lt_of_not_le calm) h
  · exact h

theorem judgeRequest (i : SequencerInvariant law) (h : law s) (src kind : Byte) (args : List Byte) :
    law (judgeRequest (ownerOf kind) src kind args s).2 := by
  have asked : law (match ownerOf kind with
      | some o => o src args s
      | none => answer .badKind s).2 := by
    cases found : ownerOf kind with
    | none => exact h
    | some o =>
      rcases owner_steady found src args s with same | rfl | rfl | rfl
      · exact i.steady same h
      · exact i.loadTable h args
      · exact i.restart h src args
      · exact i.openService h src args
  unfold Machine.judgeRequest
  split
  · exact asked
  split
  · exact asked
  · exact h

/-! ### Frames and events -/

theorem requestArrives (i : SequencerInvariant law) (h : law s) (f : Frame) : law (requestArrives f s) := by
  unfold Machine.requestArrives
  split
  · next tag kind args _ =>
    unfold takeRequest
    split
    · exact i.steady ((Steady.refl _).aside (by simp)) (i.judgeRequest h f.source kind args)
    · exact h
  · exact h

theorem decideFrame (i : SequencerInvariant law) (h : law s) (f : Frame) : law (decideFrame f s) := by
  have same := Steady.refl s
  unfold Machine.decideFrame
  split
  · exact h
  split
  · exact i.steady (same.then_doorCommand f) h
  split
  · have raised := same.then_raiseHold (what := .allStop f.source (f.payload.headD 0x00)) nofun
    exact i.steady (raised.aside (u := takeAllStop f s) (by simp [takeAllStop])) h
  split
  · exact i.requestArrives h f
  · have observed := same.then_observe f
    rcases passOn_cases f (observe f s) with e | e <;> rw [e]
    · exact i.steady observed h
    · exact i.steady (observed.aside (by simp)) h

theorem event (i : SequencerInvariant law) {c : Instr} {t : Nat} {e : State → State}
    (event : Instr.event c = some (t, e)) (h : law s) : law (e s) := by
  have same := Steady.refl s
  cases c
  case encoderLapse => cases event; exact i.steady (same.then_encoderLapse _) h
  case staleEvent => cases event; exact i.steady (same.then_staleEvent _) h
  case windEvaluation => cases event; exact i.evaluate h
  case dwellExpiry => cases event; exact i.expireDwell h
  case settlingEnd => cases event; exact i.endSettling h
  case driveLapse => cases event; exact i.steady (same.then_driveLapse _) h
  case rotationUpdate => cases event; exact i.steady same.then_rotationUpdate h
  case frameSendEnd | headLapse => cases event; exact i.steady (same.aside (by simp)) h
  all_goals cases event

/-- Every step keeps the law. -/
theorem kept (i : SequencerInvariant law) : Kept law := by
  have aside {s u : State} (h : law s) (same : u.cabins = s.cabins ∧ u.service = s.service ∧
      u.grader = s.grader ∧ u.holds = s.holds) : law u := i.steady ((Steady.refl s).aside same) h
  have steps : StepInvariant law law :=
    { resetLow := fun _ h => aside h ⟨rfl, rfl, rfl, rfl⟩
      release := fun _ _ _ => i.powerOn _ _ _ _
      key := fun _ _ h => aside h ⟨rfl, rfl, rfl, rfl⟩
      time := fun _ _ _ h => aside h ⟨rfl, rfl, rfl, rfl⟩
      reception := fun _ h => aside h ⟨rfl, rfl, rfl, rfl⟩
      frame := fun f _ h => i.decideFrame h f
      event := fun _ _ _ _ event h => i.event event h
      arbiter := fun _ h => aside h ⟨rfl, rfl, rfl, rfl⟩ }
  exact steps.kept fun _ _ h => aside h ⟨rfl, rfl, rfl, rfl⟩

end SequencerInvariant

end Sys2Proof.Machine
end

