-- ==== Sys2Proof/Proofs/GradeAndClearDown.lean ====
section

/-!
# The grade in force and the clear-down list over every step

WIND_STOP is raised and cleared just where the grade in force enters and leaves 4, and a grade of 3 or above sends
OPEN to CLEARDOWN in the same change (R79, R83, R117 to R120). The clear-down list's law rests on the operations of
the sequencer, each shown to keep it (R84 to R91).
-/

namespace Sys2Proof.Machine

variable {s u : State}

/-! ### A change of the grade in force -/

/-- WIND_STOP follows the grade in force into 4 and out of it (R120). -/
def windStopped (g : Grade) (s : State) : State :=
  if s.grader.inForce ≠ 4 ∧ g = 4 then raiseHold .windStop (gradeTold g s)
  else if s.grader.inForce = 4 ∧ g ≠ 4 then clearHold .windStop (gradeTold g s)
  else gradeTold g s

theorem changeGrade_eq (g : Grade) (s : State) : changeGrade g s =
    sequencerGrade g (if g = 4 then clearBothPermits (windStopped g s) else windStopped g s) := rfl

theorem windStopped_frame (g : Grade) (s : State) :
    (windStopped g s).cabins = s.cabins ∧ (windStopped g s).service = s.service := by
  unfold windStopped
  split
  · simp [gradeTold]
  · split <;> simp [gradeTold]

/-- WIND_STOP stands after a change just at grade 4, if it did so before. -/
theorem windStopped_holdsKey (g : Grade) (before : s.grader.inForce = 4 ↔ s.holdsKey .windStop = true) :
    g = 4 ↔ (windStopped g s).holdsKey .windStop = true := by
  have told : (gradeTold g s).holdsKey .windStop = s.holdsKey .windStop :=
    State.holdsKey_congr (by simp [gradeTold]) _
  unfold windStopped
  split
  · next enters => simp [raiseHold_holdsKey, enters.2, Hold.key]
  · next stays =>
    split
    · next leaves => simp [clearHold_holdsKey, leaves.2]
    · next still =>
      rw [told, ← before]
      exact ⟨fun h => not_not.1 fun other => stays ⟨other, h⟩, fun h => not_not.1 fun other => still ⟨h, other⟩⟩

/-- The change as the sequencer meets it: the cabins and the mode of before, and WIND_STOP as the grade has it. -/
theorem changeGrade_sequenced (g : Grade) (s : State) : ∃ v, changeGrade g s = sequencerGrade g v ∧
    v.cabins = s.cabins ∧ v.service = s.service ∧ v.holdsKey .windStop = (windStopped g s).holdsKey .windStop := by
  obtain ⟨cabins, service⟩ := windStopped_frame g s
  refine ⟨_, changeGrade_eq g s, ?_⟩
  split
  · exact ⟨cabins, service, rfl⟩
  · exact ⟨cabins, service, rfl⟩

theorem changeGrade_holdsKey (g : Grade) (before : s.grader.inForce = 4 ↔ s.holdsKey .windStop = true) :
    g = 4 ↔ (changeGrade g s).holdsKey .windStop = true := by
  obtain ⟨v, e, -, -, key⟩ := changeGrade_sequenced g s
  rw [e, State.holdsKey_congr (show (sequencerGrade g v).holds = v.holds by simp), key]
  exact windStopped_holdsKey g before

/-- After a change of the grade the service is OPEN only at a grade below 3 (R79, R83). -/
theorem changeGrade_opened (g : Grade) (opened : (changeGrade g s).service.mode = .opened) : g < 3 := by
  obtain ⟨v, e, -⟩ := changeGrade_sequenced g s
  rw [e] at opened
  unfold sequencerGrade at opened
  split at opened
  · rw [enterClearDown_service] at opened
    split at opened <;> cases opened
  · next stays => exact Nat.lt_of_not_le fun high => stays ⟨opened, high⟩

theorem changeGrade_law (g : Grade) (law : ClearDownLaw s) : ClearDownLaw (changeGrade g s) := by
  obtain ⟨v, e, cabins, service, -⟩ := changeGrade_sequenced g s
  rw [e]
  unfold sequencerGrade
  split
  · exact enterClearDown_law .wind v
  · exact law.of_same service fun k => congrArg _ (State.cabin_congr cabins k)

/-! ### The clear-down list's law over the grader's turns -/

theorem putDwell_law (d : Option Dwell) (law : ClearDownLaw s) : ClearDownLaw (putDwell d s) :=
  law.of_same rfl fun _ => rfl

theorem gradeStep_law (c : Grade) (law : ClearDownLaw s) : ClearDownLaw (gradeStep c s) := by
  unfold gradeStep
  split
  · exact changeGrade_law c (putDwell_law none law)
  · split
    · exact putDwell_law none law
    · exact putDwell_law _ law

theorem evaluate_law (law : ClearDownLaw s) : ClearDownLaw (evaluate s) :=
  gradeStep_law _ (law.of_same (by simp) fun k => congrArg _ (State.cabin_congr (by simp) k))

theorem expireDwell_law (law : ClearDownLaw s) : ClearDownLaw (expireDwell s) := by
  unfold expireDwell
  split
  · split
    · exact changeGrade_law _ (putDwell_law none law)
    · exact law
  · exact law

theorem clearDownLaw_invariant : SequencerInvariant ClearDownLaw where
  steady h law := h.listed law
  powerOn _ _ _ _ := clearDownLaw_of_idle nofun rfl
  restarted _ := clearDownLaw_of_idle nofun rfl
  opens _ law := openMode_law law
  startSettling law := law.of_same rfl fun _ => rfl
  endSettling law := law.of_same (by simp) fun k => congrArg _ (State.cabin_congr (by simp) k)
  evaluate law := evaluate_law law
  expireDwell law := expireDwell_law law

/-- Settles O59: each operation of the sequencer keeps the list's law, and every other effect leaves the list and the
occupancies it speaks of. -/
theorem stepsKeepTheClearDownLaw : Obligations.StepsKeepTheClearDownLaw := clearDownLaw_invariant.kept

/-! ### The grade's law over the grader's turns -/

/-- The first three parts of the grade's law: the grade in force is at least the computed one, WIND_STOP stands just
at 4, and OPEN is below 3 (R79, R117, R120). -/
structure GradeHeld (s : State) : Prop where
  computed : s.grader.computed ≤ s.grader.inForce
  windStop : s.grader.inForce = 4 ↔ s.holdsKey .windStop = true
  opened : s.service.mode = .opened → s.grader.inForce < 3

/-- The dwell of the grade in force (R118): it runs outside settling, and its highest computed grade lies below. -/
def Dwells (g : Grader) (d : Dwell) : Prop :=
  g.settling = none ∧ d.grade = g.inForce ∧ d.highest < g.inForce ∧ g.computed ≤ d.highest

theorem gradeLaw_iff (s : State) :
    GradeLaw s ↔ GradeHeld s ∧ ∀ d, s.grader.dwell = some d → Dwells s.grader d :=
  ⟨fun ⟨computed, windStop, opened, dwells⟩ => ⟨⟨computed, windStop, opened⟩, dwells⟩,
    fun ⟨held, dwells⟩ => ⟨held.computed, held.windStop, held.opened, dwells⟩⟩

/-- With no dwell under way the first three parts are the law. -/
theorem GradeHeld.law (held : GradeHeld s) (idle : s.grader.dwell = none) : GradeLaw s :=
  (gradeLaw_iff s).2 ⟨held, fun d dwell => by rw [idle] at dwell; cases dwell⟩

/-- A change of the grade, rise or fall, with no dwell left (R117, R119). -/
theorem changeGrade_gradeLaw {g : Grade} (windStop : s.grader.inForce = 4 ↔ s.holdsKey .windStop = true)
    (computed : s.grader.computed ≤ g) (idle : s.grader.dwell = none) : GradeLaw (changeGrade g s) := by
  have grader := changeGrade_grader g s
  refine GradeHeld.law ⟨?_, ?_, fun opened => ?_⟩ ?_
  · rw [grader]
    exact computed
  · rw [grader]
    exact changeGrade_holdsKey g windStop
  · rw [grader]
    exact changeGrade_opened g opened
  · rw [grader]
    exact idle

/-- A fall of the computed grade starts the dwell or feeds it, and does neither while settling (R118). -/
theorem fallDwell_dwells {c : Grade} {d : Dwell} (fall : c < s.grader.inForce)
    (before : ∀ d, s.grader.dwell = some d →
      s.grader.settling = none ∧ d.grade = s.grader.inForce ∧ d.highest < s.grader.inForce)
    (dwell : s.fallDwell c = some d) :
    s.grader.settling = none ∧ d.grade = s.grader.inForce ∧ d.highest < s.grader.inForce ∧ c ≤ d.highest := by
  unfold State.fallDwell at dwell
  split at dwell
  · next settling =>
    obtain ⟨outside, -⟩ := before d dwell
    rw [settling] at outside
    cases outside
  · next settling _ =>
    cases dwell
    exact ⟨settling, rfl, fall, le_rfl⟩
  · next d₀ settling running =>
    cases dwell
    obtain ⟨-, grade, highest⟩ := before d₀ running
    exact ⟨settling, grade, max_lt highest fall, le_max_right _ _⟩

/-- An evaluation's step from a state whose computed grade is already the new one (R117, R118). -/
theorem gradeStep_gradeLaw (windStop : s.grader.inForce = 4 ↔ s.holdsKey .windStop = true)
    (opened : s.service.mode = .opened → s.grader.inForce < 3)
    (before : ∀ d, s.grader.dwell = some d →
      s.grader.settling = none ∧ d.grade = s.grader.inForce ∧ d.highest < s.grader.inForce) :
    GradeLaw (gradeStep s.grader.computed s) := by
  unfold gradeStep
  split
  · exact changeGrade_gradeLaw (s := putDwell none s) windStop le_rfl rfl
  · next high =>
    have held (d : Option Dwell) : GradeHeld (putDwell d s) := ⟨le_of_not_gt high, windStop, opened⟩
    split
    · exact (held none).law rfl
    · next other =>
      have fall : s.grader.computed < s.grader.inForce := lt_of_le_of_ne (le_of_not_gt high) other
      exact (gradeLaw_iff _).2 ⟨held _, fun d dwell => fallDwell_dwells (s := s) fall before dwell⟩

theorem evaluate_gradeLaw (law : GradeLaw s) : GradeLaw (evaluate s) := by
  obtain ⟨held, dwells⟩ := (gradeLaw_iff s).1 law
  unfold evaluate
  dsimp only
  generalize decide (s.siteFigures.valid < s.p 19) = short
  generalize overrideGrade short _ = c
  have grader : (putHeadsShort short s.siteFigures.valid s).grader = { s.grader with headsShort := short } := by
    unfold putHeadsShort
    split
    · next same => rw [← same]
    · simp
  have service : (putHeadsShort short s.siteFigures.valid s).service = s.service := by simp
  have key : (putHeadsShort short s.siteFigures.valid s).holdsKey .windStop = s.holdsKey .windStop :=
    State.holdsKey_congr (by simp) _
  generalize putHeadsShort short s.siteFigures.valid s = v at grader service key
  refine gradeStep_gradeLaw (s := v.setGrader { v.grader with computed := c }) ?_ ?_ ?_
  · show v.grader.inForce = 4 ↔ v.holdsKey .windStop = true
    rw [grader, key]
    exact held.windStop
  · show v.service.mode = .opened → v.grader.inForce < 3
    rw [grader, service]
    exact held.opened
  · show ∀ d, v.grader.dwell = some d →
      v.grader.settling = none ∧ d.grade = v.grader.inForce ∧ d.highest < v.grader.inForce
    rw [grader]
    intro d dwell
    obtain ⟨settling, grade, highest, -⟩ := dwells d dwell
    exact ⟨settling, grade, highest⟩

/-- The end of a dwell takes the highest grade it computed, which is at least the last one (R119). -/
theorem expireDwell_gradeLaw (law : GradeLaw s) : GradeLaw (expireDwell s) := by
  obtain ⟨held, dwells⟩ := (gradeLaw_iff s).1 law
  unfold expireDwell
  split
  · next d dwell =>
    obtain ⟨-, -, -, computed⟩ := dwells d dwell
    split
    · exact changeGrade_gradeLaw (s := putDwell none s) held.windStop computed rfl
    · exact law
  · exact law

/-- The grader of a reset: grade 4 with WIND_STOP, no dwell, and not OPEN (R178). -/
theorem gradeLaw_of_reset {now settle : Nat} (grader : s.grader = resetGrader now settle)
    (holds : s.holds = resetHolds now) (service : s.service = resetService) : GradeLaw s := by
  refine GradeHeld.law ⟨?_, ?_, fun opened => ?_⟩ ?_
  · rw [grader]
    exact le_rfl
  · rw [grader, State.holdsKey_iff, holds]
    exact ⟨fun _ => ⟨_, List.mem_cons_self, rfl⟩, fun _ => rfl⟩
  · rw [service] at opened
    cases opened
  · rw [grader]
    rfl

theorem gradeLaw_invariant : SequencerInvariant GradeLaw where
  steady h law := by
    obtain ⟨held, dwells⟩ := (gradeLaw_iff _).1 law
    refine (gradeLaw_iff _).2 ⟨⟨?_, ?_, fun opened => ?_⟩, ?_⟩
    all_goals rw [h.grader]
    · exact held.computed
    · rw [h.windStop]
      exact held.windStop
    · exact held.opened (h.opened opened)
    · exact dwells
  powerOn _ _ _ _ := gradeLaw_of_reset rfl rfl rfl
  restarted _ := gradeLaw_of_reset rfl rfl rfl
  opens {s} calm law := by
    obtain ⟨held, dwells⟩ := (gradeLaw_iff _).1 law
    have grader : (openMode s).grader = s.grader := by simp
    refine (gradeLaw_iff _).2 ⟨⟨?_, ?_, fun _ => ?_⟩, ?_⟩
    all_goals rw [grader]
    · exact held.computed
    · rw [State.holdsKey_congr (show (openMode s).holds = s.holds by simp)]
      exact held.windStop
    · exact calm
    · exact dwells
  startSettling law := by
    obtain ⟨held, -⟩ := (gradeLaw_iff _).1 law
    exact GradeHeld.law ⟨held.computed, held.windStop, held.opened⟩ rfl
  endSettling {s} law := by
    obtain ⟨held, dwells⟩ := (gradeLaw_iff _).1 law
    unfold endSettling
    split
    · split
      · refine (gradeLaw_iff _).2 ⟨⟨held.computed, held.windStop, held.opened⟩, fun d dwell => ?_⟩
        obtain ⟨-, grade, highest, computed⟩ := dwells d dwell
        exact ⟨rfl, grade, highest, computed⟩
      · exact law
    · exact law
  evaluate law := evaluate_gradeLaw law
  expireDwell law := expireDwell_gradeLaw law

/-- Settles O53: a rise takes the computed grade at once, a fall waits for its dwell and then takes the highest grade
computed in it, and no other effect but OPEN_SERVICE below grade 3 touches what the law speaks of. -/
theorem stepsKeepTheGradeLaw : Obligations.StepsKeepTheGradeLaw := gradeLaw_invariant.kept

end Sys2Proof.Machine
end

