-- ==== Sys2Proof/Proofs/ServiceRequests.lean ====
section

/-!
# OPEN_SERVICE, CLOSE_SERVICE and BEGIN_CLEARDOWN

Each request is answered by the mode, the wheel and the grade; a change of the mode tells the console and clears the
ARMED permits that the new mode does not allow (R62, R79 to R81). BEGIN_CLEARDOWN with no occupied cabin completes at
once and takes the wheel to STANDBY (R84, R91, R143).
-/

namespace Sys2Proof.Machine

variable {s u : State} {c : Instr} {t : Nat} {src tag kind : Byte} {args : List Byte}

/-! ### Requests without arguments -/

theorem plainRequest_badLength (some : args ≠ []) (decide : State → Reply × State) (src : Byte) (s : State) :
    plainRequest decide src args s = answer .badLength s := by
  cases args with
  | nil => exact absurd rfl some
  | cons => rfl

/-- A request of the console turned away by its owner (R168, R169). -/
theorem turnsAway_of_owner {o : Owner} {result : Result} (owner : ownerOf kind = some o) (takes : s.takesConsole src)
    (short : args.length ≤ 62) (frame : s.frameOf c = some (t, requestFrame s.ownAddress src tag kind args))
    (answered : o src args (s.advance t) = answer result (s.advance t)) : TurnsAway c t s src tag kind result :=
  turnsAway_of_answer (completes_of_takes takes.1 short frame) takes.1.2
    ((judgeRequest_of_console (s := s.advance t) owner takes.2 args).trans answered)

/-- A request of the console answered DONE by its owner, with the changed blocks and notices of its work. -/
theorem done_of_owner {o : Owner} {v : State} {changed : List Block} {ns : List Notice} (owner : ownerOf kind = some o)
    (takes : s.takesConsole src) (short : args.length ≤ 62)
    (frame : s.frameOf c = some (t, requestFrame s.ownAddress src tag kind args))
    (quiet : Quiet (s.advance t) (o src args (s.advance t)).2) (answered : o src args (s.advance t) = answer .done v)
    (blocks : Untouched changed (s.advance t) v) (desk : SameDesk ((s.advance t).afterNotices ns) v) :
    Done c t s (pushResponse src tag kind (.plain .done) v) src tag kind changed ns := by
  rw [answered] at quiet
  exact done_of_answer takes.1.2 (completes_of_takes takes.1 short frame)
    ((judgeRequest_of_console (s := s.advance t) owner takes.2 args).trans answered) blocks quiet
    (((sameDesk_advance t s).afterNotices ns).trans desk)

/-! ### Permits over a change of the mode (R62) -/

theorem gateModeChange_get (m : ServiceMode) (s : State) (z : Zone) :
    (gateModeChange m s).permits.get z = (s.permits.get z).underMode m z := by
  cases z <;> rfl

/-- A zone that the mode allows keeps its permit. -/
theorem Permit.underMode_of_admits {m : ServiceMode} {z : Zone} (allowed : m.admits z = true) (p : Permit) :
    p.underMode m z = p := by
  cases p with
  | armed => exact if_pos allowed
  | _ => rfl

/-- A zone that the mode does not allow loses an ARMED permit. -/
theorem Permit.underMode_of_barred {m : ServiceMode} {z : Zone} (barred : m.admits z = false) (p : Permit) :
    p.underMode m z = p.withoutArmed := by
  cases p with
  | armed => exact if_neg (by rw [barred]; nofun)
  | _ => rfl

theorem Permit.withoutArmed_idem (p : Permit) : p.withoutArmed.withoutArmed = p.withoutArmed := by
  cases p <;> rfl

/-- OPEN allows both zones, so its permits stay. -/
theorem gateModeChange_opened (s : State) : (gateModeChange .opened s).permits = s.permits := by
  unfold gateModeChange
  rw [Permit.underMode_of_admits rfl, Permit.underMode_of_admits rfl]
  rfl

/-- CLOSED and CLEARED allow no zone, so no permit stays ARMED. -/
theorem gateModeChange_idle {m : ServiceMode} (idle : ∀ z, m.admits z = false) (s : State) (z : Zone) :
    (gateModeChange m s).permits.get z = (s.permits.get z).withoutArmed := by
  rw [gateModeChange_get, Permit.underMode_of_barred (idle z)]

/-- CLEARDOWN allows the UNLOAD zone alone. -/
theorem gateModeChange_clearDown (s : State) :
    (gateModeChange .clearDown s).permits =
      { unload := s.permits.unload, load := s.permits.load.withoutArmed } := by
  unfold gateModeChange
  rw [Permit.underMode_of_admits rfl, Permit.underMode_of_barred rfl]
  rfl

/-! ### OPEN_SERVICE and CLOSE_SERVICE -/

theorem SameDesk.changeMode (h : SameDesk s u) (m : ServiceMode) (cause : ModeCause) :
    SameDesk (Machine.notify (.modeChanged m cause) s) (changeMode m cause u) :=
  SameDesk.aside ((h.aside (v := u.setService { u.service with mode := m }) ⟨rfl, rfl, rfl⟩).notify _) ⟨rfl, rfl, rfl⟩

/-- A change of the mode reaches the sequencer and the permits. -/
theorem changeMode_untouched (m : ServiceMode) (cause : ModeCause) (s : State) :
    Untouched [.service, .permits] s (changeMode m cause s) := by
  refine ⟨(changeMode_frame s m cause).1, fun b other => ?_⟩
  cases b with
  | service | permits => simp at other
  | _ => simp [Block.same]

theorem changeMode_permits_eq (m : ServiceMode) (cause : ModeCause) (s : State) :
    (changeMode m cause s).permits = (gateModeChange m s).permits := by
  simp [changeMode, gateModeChange]

/-- The clear-down list is emptied, and F_mode becomes 100, where OPEN ends a CLEARDOWN (R79). -/
def listDropped (s : State) : State :=
  if s.service.mode = .clearDown then s.setService { s.service with list := [], fMode := 100 } else s

theorem openMode_eq (s : State) : openMode s = changeMode .opened .request (listDropped s) := by
  unfold openMode listDropped
  cases s.service.mode <;> rfl

theorem listDropped_frame (s : State) : (listDropped s).lines = s.lines ∧ (listDropped s).tables = s.tables ∧
    (listDropped s).ring = s.ring ∧ (listDropped s).permits = s.permits := by
  unfold listDropped
  split
  · exact ⟨rfl, rfl, rfl, rfl⟩
  · exact ⟨rfl, rfl, rfl, rfl⟩

theorem openMode_untouched (s : State) : Untouched [.service] s (openMode s) := by
  have permits : (openMode s).permits = s.permits := by
    rw [openMode_eq, changeMode_permits_eq, gateModeChange_opened]
    exact (listDropped_frame s).2.2.2
  refine ⟨(openMode_frame s).1, fun b other => ?_⟩
  cases b with
  | service => simp at other
  | permits => exact permits
  | _ => simp [Block.same]

theorem openMode_desk (s : State) : SameDesk (notify (.modeChanged .opened .request) s) (openMode s) := by
  obtain ⟨lines, tables, ring, -⟩ := listDropped_frame s
  rw [openMode_eq]
  exact ((SameDesk.refl s).aside ⟨lines, tables, ring⟩).changeMode _ _

/-- OPEN_SERVICE by its table (R79). -/
theorem openService_eq (src : Byte) (s : State) : openService src [] s =
    if s.service.mode = .opened then answer .done s
    else if s.service.mode = .closed ∧ (s.rot.wheel = .stowed ∨ s.rot.wheel = .braked) then answer .refusedState s
    else if 3 ≤ s.grader.inForce.val then answer .refusedCondition s
    else answer .done (openMode s) := rfl

theorem closeService_cleared (mode : s.service.mode = .cleared) (src : Byte) :
    closeService src [] s = answer .done (changeMode .closed .request s) := by
  simp only [closeService, plainRequest, mode]

theorem closeService_closed (mode : s.service.mode = .closed) (src : Byte) :
    closeService src [] s = answer .done s := by
  simp only [closeService, plainRequest, mode]

theorem closeService_refused (mode : s.service.mode = .opened ∨ s.service.mode = .clearDown) (src : Byte) :
    closeService src [] s = answer .refusedState s := by
  rcases mode with mode | mode <;> simp only [closeService, plainRequest, mode]

/-- Settles O40: the rows of R79 and R81, each with the rows before it excluded. -/
theorem openAndCloseServiceFollowTheirTables : Obligations.OpenAndCloseServiceFollowTheirTables := by
  intro t src tag args s takes short o c barred
  have opening {result : Result} (answered : openService src args (s.advance t) = answer result (s.advance t)) :
      TurnsAway o t s src tag 0x40 result := turnsAway_of_owner (o := openService) rfl takes short rfl answered
  have closing {result : Result} (answered : closeService src args (s.advance t) = answer result (s.advance t)) :
      TurnsAway c t s src tag 0x42 result := turnsAway_of_owner (o := closeService) rfl takes short rfl answered
  have opens {v : State} {changed : List Block} {ns : List Notice} :=
    done_of_owner (c := o) (tag := tag) (v := v) (changed := changed) (ns := ns) (kind := 0x40) (o := openService) rfl
      takes short rfl ((Quiet.refl (s.advance t)).then_openService src args)
  have closes {v : State} {changed : List Block} {ns : List Notice} :=
    done_of_owner (c := c) (tag := tag) (v := v) (changed := changed) (ns := ns) (kind := 0x42) (o := closeService) rfl
      takes short rfl ((Quiet.refl (s.advance t)).then_closeService src args)
  refine ⟨fun some => ⟨opening (plainRequest_badLength some _ _ _), closing (plainRequest_badLength some _ _ _)⟩,
    fun bare opened => ?_, fun bare barred => ?_, fun bare other free high => ?_, fun bare other free calm => ?_,
    fun bare mode => ?_, fun bare mode => ?_, fun bare mode => ?_⟩ <;> subst bare
  · exact ⟨_, opens ((openService_eq src _).trans (if_pos opened)) (.refl _) (.refl _)⟩
  · have other : s.service.mode ≠ .opened := by rw [barred.1]; nofun
    exact opening ((openService_eq src _).trans ((if_neg other).trans (if_pos barred)))
  · exact opening ((openService_eq src _).trans ((if_neg other).trans ((if_neg free).trans (if_pos high))))
  · have answered : openService src [] (s.advance t) = answer .done (openMode (s.advance t)) :=
      (openService_eq src _).trans ((if_neg other).trans ((if_neg free).trans (if_neg (Nat.not_le.2 calm))))
    exact ⟨_, opens answered (openMode_untouched _) (openMode_desk _), openMode_service (s.advance t)⟩
  · refine ⟨_, closes (closeService_cleared (s := s.advance t) mode src) (changeMode_untouched _ _ _)
      ((SameDesk.refl _).changeMode .closed .request), changeMode_service _ _ (s.advance t), fun z => ?_⟩
    show (changeMode .closed .request (s.advance t)).permits.get z = _
    rw [changeMode_permits_eq]
    exact gateModeChange_idle (fun z => by cases z <;> rfl) _ z
  · exact ⟨_, closes (closeService_closed (s := s.advance t) mode src) (.refl _) (.refl _)⟩
  · exact closing (closeService_refused (s := s.advance t) mode src)

/-! ### The entry to CLEARDOWN (R84, R85) -/

theorem listed_permits (cause : ModeCause) (s : State) :
    (listed cause s).permits = { unload := s.permits.unload, load := s.permits.load.withoutArmed } := by
  rw [listed, gateModeChange_clearDown]
  simp

theorem listed_desk (cause : ModeCause) (s : State) :
    SameDesk (notify (.modeChanged .clearDown cause) s) (listed cause s) :=
  SameDesk.aside (((SameDesk.refl s).aside
    (v := s.setService { s.service with mode := .clearDown, list := s.ordered s.occupied }) ⟨rfl, rfl, rfl⟩).notify _)
    ⟨rfl, rfl, rfl⟩

theorem listed_frame (cause : ModeCause) (s : State) :
    (listed cause s).rot = s.rot ∧ (listed cause s).drives = s.drives := by
  simp [listed]

theorem enterClearDown_untouched (cause : ModeCause) (s : State) :
    Untouched [.service, .permits, .rot] s (enterClearDown cause s) := by
  refine ⟨(enterClearDown_frame s cause).1, fun b other => ?_⟩
  cases b with
  | service | permits | rot => simp at other
  | _ => simp [Block.same]

/-- An entry that lists a cabin leaves the wheel. -/
theorem enterClearDown_untouched_of_occupied (occupied : s.occupied ≠ []) (cause : ModeCause) :
    Untouched [.service, .permits] s (enterClearDown cause s) := by
  obtain ⟨pending, same⟩ := enterClearDown_untouched cause s
  refine ⟨pending, fun b other => ?_⟩
  by_cases wheel : b = .rot
  · subst wheel
    rw [enterClearDown_of_occupied occupied]
    exact (listed_frame cause s).1
  · exact same b (by simpa [wheel] using other)

/-! ### The key order of the list (R85) -/

theorem insertByKey_pairwise (key : Cabin → Nat) (k : Cabin) {xs : List Cabin}
    (sorted : xs.Pairwise fun a b => key a ≤ key b) : (insertByKey key k xs).Pairwise fun a b => key a ≤ key b := by
  induction xs with
  | nil => exact List.pairwise_singleton _ _
  | cons x xs ih =>
    obtain ⟨least, rest⟩ := List.pairwise_cons.1 sorted
    unfold insertByKey
    split
    · next before =>
      refine List.pairwise_cons.2 ⟨fun a mem => ?_, sorted⟩
      rcases List.mem_cons.1 mem with rfl | mem
      · exact Nat.le_of_lt before
      · exact (Nat.le_of_lt before).trans (least a mem)
    · next after =>
      refine List.pairwise_cons.2 ⟨fun a mem => ?_, ih rest⟩
      rcases List.mem_cons.1 ((insertByKey_perm key k xs).mem_iff.1 mem) with rfl | mem
      · exact Nat.le_of_not_lt after
      · exact least a mem

theorem sortByKey_pairwise (key : Cabin → Nat) (xs : List Cabin) :
    (sortByKey key xs).Pairwise fun a b => key a ≤ key b := by
  induction xs with
  | nil => exact .nil
  | cons k xs ih => exact insertByKey_pairwise key k ih

theorem ordered_of_invalid (invalid : s.tracker.accepted = .invalid) (ks : List Cabin) : s.ordered ks = ks := by
  simp [State.ordered, State.keyOf, invalid, Accepted.value]

/-- While the position is valid the list ascends in the order keys. -/
theorem ordered_pairwise {p : Nat} (position : s.tracker.accepted.value = some p) (ks : List Cabin) :
    (s.ordered ks).Pairwise fun a b =>
      orderKey p (s.zone .unload).finish a ≤ orderKey p (s.zone .unload).finish b := by
  have key : s.keyOf = some (orderKey p (s.zone .unload).finish) := by rw [State.keyOf, position]; rfl
  rw [State.ordered, key]
  exact sortByKey_pairwise _ ks

/-! ### The stop to STANDBY (R143) -/

theorem enterStopping_eq (d : StopDest) (s : State) :
    enterStopping d s = if s.atRest = true then changeWheel d.rest (changeWheel (.stopping d) s)
      else changeWheel (.stopping d) s := by
  have wheel : (changeWheel (.stopping d) s).rot.wheel = .stopping d := by simp
  have rest : (changeWheel (.stopping d) s).atRest = s.atRest := State.atRest_congr (by simp) (by simp)
  rw [enterStopping, judgeEnd, wheel]
  dsimp only
  rw [rest]

/-- The wheel and the notices of a stop to STANDBY; a stop under way to HELD takes STANDBY for its end, unjudged
(log 13). -/
def Wheel.toStandby (rest : Bool) : Wheel → Wheel × List Notice
  | .running =>
    if rest = true then (.standby, [.stateChanged (.stopping .standby), .stateChanged .standby])
    else (.stopping .standby, [.stateChanged (.stopping .standby)])
  | .stopping .held => (.stopping .standby, [.stateChanged (.stopping .standby)])
  | .held => (.standby, [.stateChanged .standby])
  | w => (w, [])

theorem stopToStandby_stops (s : State) :
    let stopped := s.rot.wheel.toStandby s.atRest
    (stopToStandby s).rot.wheel = stopped.1 ∧ (stopToStandby s).rot.vCmd = s.rot.vCmd ∧
      SameDesk (s.afterNotices stopped.2) (stopToStandby s) := by
  have desk := SameDesk.refl s
  unfold stopToStandby
  cases wheel : s.rot.wheel with
  | running =>
    dsimp only [Wheel.toStandby]
    rw [enterStopping_eq]
    split
    · exact ⟨by simp [StopDest.rest], by simp, (desk.changeWheel _).changeWheel _⟩
    · exact ⟨by simp, by simp, desk.changeWheel _⟩
  | stopping d =>
    cases d with
    | held => exact ⟨by simp [Wheel.toStandby], by simp, desk.changeWheel _⟩
    | standby => exact ⟨wheel, rfl, desk⟩
  | held => exact ⟨by simp [Wheel.toStandby], by simp, desk.changeWheel _⟩
  | _ => exact ⟨wheel, rfl, desk⟩

/-- CLEARED with its two notices, before the stop (R91). -/
def cleared (s : State) : State :=
  gateModeChange .cleared (notify .clearDownComplete
    (notify (.modeChanged .cleared .listEmpty) (s.setService { s.service with mode := .cleared })))

theorem cleared_permits (s : State) (z : Zone) : (cleared s).permits.get z = (s.permits.get z).withoutArmed := by
  rw [cleared, gateModeChange_idle (fun z => by cases z <;> rfl)]
  simp

theorem cleared_desk (s : State) :
    SameDesk (s.afterNotices [.modeChanged .cleared .listEmpty, .clearDownComplete]) (cleared s) :=
  SameDesk.aside ((((SameDesk.refl s).aside (v := s.setService { s.service with mode := .cleared })
    ⟨rfl, rfl, rfl⟩).notify _).notify _) ⟨rfl, rfl, rfl⟩

/-- A clear-down with no occupied cabin completes at once: its permits, wheel and notices (R84, R91, R143). -/
theorem enterClearDown_completes (empty : s.occupied = []) (cause : ModeCause) :
    let v := enterClearDown cause s
    let stopped := s.rot.wheel.toStandby s.atRest
    (∀ z, v.permits.get z = (s.permits.get z).withoutArmed) ∧ v.rot.wheel = stopped.1 ∧ v.rot.vCmd = s.rot.vCmd ∧
      SameDesk (s.afterNotices ([.modeChanged .clearDown cause, .modeChanged .cleared .listEmpty,
        .clearDownComplete] ++ stopped.2)) v := by
  have e : enterClearDown cause s = stopToStandby (cleared (listed cause s)) := enterClearDown_of_empty empty cause
  have rot : (cleared (listed cause s)).rot = s.rot := by simp [cleared, listed]
  have rest : (cleared (listed cause s)).atRest = s.atRest :=
    State.atRest_congr (by rw [rot]) (by simp [cleared, listed])
  obtain ⟨wheel, vCmd, stops⟩ := stopToStandby_stops (cleared (listed cause s))
  rw [rot, rest] at wheel stops
  rw [rot] at vCmd
  rw [e]
  refine ⟨fun z => ?_, wheel, vCmd, SameDesk.append ?_ stops⟩
  · have permits : (stopToStandby (cleared (listed cause s))).permits = (cleared (listed cause s)).permits := by simp
    rw [permits, cleared_permits, listed_permits]
    cases z
    · rfl
    · exact Permit.withoutArmed_idem _
  · exact SameDesk.append (ns := [_]) (listed_desk cause s) (cleared_desk _)

/-! ### BEGIN_CLEARDOWN -/

theorem beginClearDown_opened (mode : s.service.mode = .opened) (src : Byte) :
    beginClearDown src [] s = answer .done (enterClearDown .request s) := by
  simp only [beginClearDown, plainRequest, mode]

theorem beginClearDown_clearDown (mode : s.service.mode = .clearDown) (src : Byte) :
    beginClearDown src [] s = answer .done s := by
  simp only [beginClearDown, plainRequest, mode]

theorem beginClearDown_refused (mode : s.service.mode = .closed ∨ s.service.mode = .cleared) (src : Byte) :
    beginClearDown src [] s = answer .refusedState s := by
  rcases mode with mode | mode <;> simp only [beginClearDown, plainRequest, mode]

/-- Settles O41: the mode picks the answer, and in OPEN the occupied cabins tell a clear-down that runs from one that
completes at once. -/
theorem beginClearDownListsTheOccupiedCabins : Obligations.BeginClearDownListsTheOccupiedCabins := by
  intro t src tag args s takes short c occupied rest
  have away {result : Result} (answered : beginClearDown src args (s.advance t) = answer result (s.advance t)) :
      TurnsAway c t s src tag 0x41 result := turnsAway_of_owner (o := beginClearDown) rfl takes short rfl answered
  have done {v : State} {changed : List Block} {ns : List Notice} :=
    done_of_owner (c := c) (tag := tag) (v := v) (changed := changed) (ns := ns) (kind := 0x41) (o := beginClearDown)
      rfl takes short rfl ((Quiet.refl (s.advance t)).then_beginClearDown src args)
  refine ⟨fun some => away (plainRequest_badLength some _ _ _), fun bare mode => ?_, fun bare mode => ?_,
    fun bare mode filled => ?_, fun bare mode empty => ?_⟩ <;> subst bare
  · exact ⟨_, done (beginClearDown_clearDown (s := s.advance t) mode src) (.refl _) (.refl _)⟩
  · exact away (beginClearDown_refused (s := s.advance t) mode src)
  · have filled : (s.advance t).occupied ≠ [] := filled
    have enters := enterClearDown_of_occupied filled .request
    have service := enterClearDown_service .request (s.advance t)
    rw [if_neg filled] at service
    refine ⟨_, done (beginClearDown_opened (s := s.advance t) mode src)
      (enterClearDown_untouched_of_occupied filled .request) (ns := [_])
      (by rw [enters]; exact listed_desk .request _), ?_⟩
    refine ⟨congrArg (·.mode) service, congrArg (·.fMode) service, ?_, fun invalid => ?_, fun p position => ?_⟩
    · show (enterClearDown .request (s.advance t)).permits = _
      rw [enters]
      exact listed_permits .request _
    · show (enterClearDown .request (s.advance t)).service.list = _
      rw [service]
      exact ordered_of_invalid (s := s.advance t) invalid _
    · show (enterClearDown .request (s.advance t)).service.list.Perm _ ∧
        (enterClearDown .request (s.advance t)).service.list.Pairwise _
      rw [service]
      exact ⟨(s.advance t).ordered_perm _, ordered_pairwise (s := s.advance t) position _⟩
  · have empty : (s.advance t).occupied = [] := empty
    obtain ⟨permits, wheel, vCmd, desk⟩ := enterClearDown_completes empty .request
    have service := enterClearDown_service .request (s.advance t)
    rw [if_pos empty] at service
    have atRest : rest = (s.advance t).atRest := Bool.eq_iff_iff.2 (decide_eq_true_iff.trans (atRest_iff _).symm)
    intro stopped
    have stops : stopped = (s.advance t).rot.wheel.toStandby (s.advance t).atRest := by
      rw [← atRest]
      show stopped = s.rot.wheel.toStandby rest
      dsimp only [stopped]
      cases s.rot.wheel with
      | stopping d => cases d <;> rfl
      | _ => rfl
    rw [stops]
    exact ⟨_, done (beginClearDown_opened (s := s.advance t) mode src) (enterClearDown_untouched .request _) desk,
      service, permits, wheel, vCmd⟩

end Sys2Proof.Machine
end

