-- ==== Sys2Proof/Proofs/RotationUpdates.lean ====
section

/-!
# The rotation update

The limit stages change F_mode, the order of the list and V_lim alone, so the emergency test reads what stood before
them. The update then brakes on the test's cause, or ramps V_cmd towards the target, judges the end of stopping and
queues the drive set (R89, R90, R149 to R156, R165, R166).
-/

namespace Sys2Proof.Machine

variable {s u : State}

/-! ### The limit stages (R89, R90, R152) -/

theorem readFMode_eq (s : State) : readFMode s = s.setService (readFMode s).service := by
  unfold readFMode reorderList
  split <;> rfl

/-- The limit stages change the sequencer and V_lim alone. -/
theorem setLimit_eq (s : State) : setLimit s =
    (s.setService (readFMode s).service).setRot { s.rot with vLim := (readFMode s).speedLimit } := by
  unfold setLimit
  dsimp only
  generalize (readFMode s).speedLimit = limit
  rw [readFMode_eq]
  rfl

theorem readFMode_list (s : State) : (readFMode s).service.list =
    if s.service.mode = .clearDown then s.ordered s.service.list else s.service.list := by
  rw [readFMode_service]

/-- F_mode by the key of the head of the list (R90). -/
theorem modeFactor_eq (s : State) : s.modeFactor =
    match s.service.mode, s.tracker.accepted.value, s.service.list with
    | .clearDown, some p, k :: _ =>
      if s.p 6 * 8192 < orderKey p (s.zone .unload).finish k then s.p 5 else 100
    | _, _, _ => 100 := by
  unfold State.modeFactor State.keyOf
  cases s.service.mode with
  | clearDown =>
    cases s.tracker.accepted.value with
    | none => rfl
    | some p => cases s.service.list <;> rfl
  | _ => rfl

theorem reorderList_eq (s : State) : reorderList s = putList (readFMode s).service.list s := by
  rw [readFMode_list]
  unfold reorderList
  split <;> rfl

/-- F_mode is read after the list is reordered (R89, R90). -/
theorem readFMode_fMode (s : State) : (readFMode s).service.fMode =
    match s.service.mode, s.tracker.accepted.value, (readFMode s).service.list with
    | .clearDown, some p, k :: _ =>
      if s.p 6 * 8192 < orderKey p (s.zone .unload).finish k then s.p 5 else 100
    | _, _, _ => 100 := by
  have factor : (readFMode s).service.fMode = (reorderList s).modeFactor := rfl
  rw [factor, reorderList_eq, modeFactor_eq]
  rfl

theorem driveFactor_eq (s : State) : s.driveFactor =
    if s.readyCount = 4 then s.p 11 else if s.readyCount = 3 then s.p 12
    else if s.readyCount = 2 then s.p 13 else 0 := by
  unfold State.driveFactor
  split <;> simp_all

/-- V_lim by the F_mode read before it (R152). -/
theorem readFMode_speedLimit (s : State) : (readFMode s).speedLimit =
    min (6291456 / s.p 0 * (readFMode s).service.fMode / 100 * min s.windFactor (min s.driveFactor (s.p 4)) / 100)
      (16 * s.p 3) := by
  rw [readFMode_eq]
  rfl

/-! ### The emergency brake (R150, R154, R166) -/

/-- The emergency test reads nothing that the limit stages change. -/
theorem emergencyCause_setLimit (s : State) : (setLimit s).emergencyCause = s.emergencyCause := by
  rw [setLimit_eq]
  rfl

/-- Every cause of the emergency test sends an ALL_STOP (R150, R166). -/
theorem emergencyCause_emergency {cause : BrakeCause} (found : s.emergencyCause = some cause) :
    cause.emergency = true := by
  unfold State.emergencyCause at found
  split at found
  · split at found
    · next r _ =>
      unfold Hold.brakeCause at found
      split at found <;> cases found <;> rfl
    · split at found <;> cases found
      rfl
  · cases found

theorem keptAllStop_emergency (s : State) : keptAllStop true s =
    let allStops := s.ring.driveSet.filter (fun f => f.kind == 0x5A)
    if allStops = [] then [{ dest := 63, source := s.ownAddress, kind := 0x5A, payload := [0x02] }]
    else allStops := by
  unfold keptAllStop
  simp only [Bool.true_and, List.isEmpty_iff]
  rfl

/-- The entry to BRAKED of any cause before its two notices (R150). -/
def brakedFor (cause : BrakeCause) (s : State) : State :=
  queueDriveSet 0 true cause.emergency ((putWheel .braked s).setRot { (putWheel .braked s).rot with vCmd := 0 })

theorem enterBraked_eq_brakedFor (cause : BrakeCause) (s : State) : enterBraked cause s =
    notify (.emergencyBrake cause) (notify (.stateChanged .braked) (brakedFor cause s)) := rfl

theorem enterBraked_sets (cause : BrakeCause) (s : State) :
    (enterBraked cause s).ring.driveSet = s.driveSetOf 0 true ++ keptAllStop cause.emergency s := by
  have set : (brakedFor cause s).ring.driveSet = s.driveSetOf 0 true ++ keptAllStop cause.emergency s := by
    rw [← driveSet_eq]
    rfl
  simp [enterBraked_eq_brakedFor, set]

theorem enterBraked_tells (cause : BrakeCause) (h : SameDesk s u) :
    SameDesk (s.afterNotices [.stateChanged .braked, .emergencyBrake cause]) (enterBraked cause u) := by
  have start : SameDesk s (brakedFor cause u) := ⟨h.tables, h.ownAddress, h.notices, h.overflow⟩
  exact (start.notify (.stateChanged .braked)).notify (.emergencyBrake cause)

theorem enterBraked_leaves (cause : BrakeCause) (s : State) :
    (enterBraked cause s).ring.forward = s.ring.forward ∧ (enterBraked cause s).ring.doorQueue = s.ring.doorQueue ∧
      (enterBraked cause s).ring.responses = s.ring.responses := by
  have queues : (brakedFor cause s).ring.forward = s.ring.forward ∧
      (brakedFor cause s).ring.doorQueue = s.ring.doorQueue ∧
      (brakedFor cause s).ring.responses = s.ring.responses := ⟨rfl, rfl, rfl⟩
  simp [enterBraked_eq_brakedFor, queues]

/-! ### The target (R75, R155) -/

/-- The stopping speed of a cabin short of a zone's end by P25, while the position is valid (R75, R153). -/
def State.stopSpeed (s : State) (z : Zone) (k : Cabin) : Option Nat :=
  s.tracker.accepted.value.map (fun p =>
    stoppingSpeed (s.p 2) (signedDistance (coordinate p k) (((s.zone z).finish : Int) - s.p 25)))

/-- The stopping speed of a BRAKE_POINT hold; CABIN_OVERLOAD is stopped at the LOAD zone. -/
def State.holdSpeed (s : State) : Hold → Option Nat
  | .zoneOverrun z k => s.stopSpeed z k
  | .cabinOverload k => s.stopSpeed .load k
  | _ => none

theorem brakeDistances_speed (s : State) (h : Hold) :
    (s.brakeDistances h).map (fun d => stoppingSpeed (s.p 2) d.1) = s.holdSpeed h := by
  have speed {z : Zone} {k : Cabin} (point : h.brakePoint = some (z, k)) :
      (s.brakeDistances h).map (fun d => stoppingSpeed (s.p 2) d.1) = s.stopSpeed z k := by
    unfold State.brakeDistances State.stopSpeed
    rw [point]
    cases s.tracker.accepted.value <;> rfl
  cases h with
  | zoneOverrun z k => exact speed rfl
  | cabinOverload k => exact speed rfl
  | _ => rfl

/-- The BRAKE_POINT records bound the speed by the least of their stopping speeds. -/
theorem brakePointSpeed_eq (s : State) (start : Nat) : s.brakePointSpeed start =
    (s.holds.records.filterMap fun r => s.holdSpeed r.what).foldl min start := by
  rw [List.foldl_filterMap]
  unfold State.brakePointSpeed
  congr 1
  funext v r
  rw [← brakeDistances_speed]
  cases s.brakeDistances r.what <;> rfl

theorem positionInvalid_iff (s : State) : s.positionValid = false ↔ s.tracker.accepted = .invalid := by
  unfold State.positionValid
  cases s.tracker.accepted <;> simp [Accepted.valid, Accepted.value]

theorem target_eq (s : State) : s.target =
    if s.rot.wheel.moving = false then 0
    else if s.haltStands = true ∨ (s.tracker.accepted = .invalid ∧ s.brakePointStands = true) ∨
        s.rot.stopPending = true then 0
    else if s.holds.records ≠ [] then
      (s.holds.records.filterMap fun r => s.holdSpeed r.what).foldl min (min s.rot.vCmd s.rot.vLim)
    else if s.rot.wheel = .running then s.rot.vLim
    else 0 := by
  unfold State.target
  simp only [brakePointSpeed_eq, Bool.not_eq_true', Bool.or_eq_true, Bool.and_eq_true, positionInvalid_iff, or_assoc,
    State.noHolds, List.isEmpty_eq_false_iff]

/-! ### The ramp stage (R149, R156, R165) -/

theorem judgeEnd_of_rest {d : StopDest} (wheel : s.rot.wheel = .stopping d) (rest : s.atRest = true) :
    judgeEnd s = changeWheel d.rest s := by
  rw [judgeEnd, wheel]
  exact if_pos rest

theorem judgeEnd_of_motion {d : StopDest} (wheel : s.rot.wheel = .stopping d) (moves : ¬ s.atRest = true) :
    judgeEnd s = s := by
  rw [judgeEnd, wheel]
  exact if_neg moves

theorem judgeEnd_of_other (other : ∀ d, s.rot.wheel ≠ .stopping d) : judgeEnd s = s := by
  unfold judgeEnd
  split
  · next d wheel => exact absurd wheel (other d)
  · rfl

/-- The state with V_cmd ramped towards the target (R156). -/
def ramped (s : State) : State := s.setRot { s.rot with vCmd := s.ramp s.target }

theorem rampStage_rot (s : State) : (rampStage s).rot = (judgeEnd (ramped s)).rot := rfl

theorem rampStage_vCmd (s : State) : (rampStage s).rot.vCmd = s.ramp s.target :=
  (judgeEnd_speeds (ramped s)).1

theorem rampStage_vLim (s : State) : (rampStage s).rot.vLim = s.rot.vLim :=
  (judgeEnd_speeds (ramped s)).2

/-- Judging the end of stopping leaves the queues but the notices. -/
theorem ramped_queues (s : State) :
    (judgeEnd (ramped s)).ring.forward = s.ring.forward ∧ (judgeEnd (ramped s)).ring.driveSet = s.ring.driveSet ∧
      (judgeEnd (ramped s)).ring.doorQueue = s.ring.doorQueue ∧
      (judgeEnd (ramped s)).ring.responses = s.ring.responses := by
  obtain ⟨forward, driveSet, doorQueue, responses, -⟩ := ((Quiet.refl (ramped s)).then_judgeEnd).queues
  exact ⟨forward, driveSet, doorQueue, responses⟩

theorem rampStage_driveSet (s : State) : (rampStage s).ring.driveSet =
    s.driveSetOf (rampStage s).rot.vCmd (decide ((rampStage s).rot.wheel.moving = false)) ++
      s.ring.driveSet.filter (fun f => f.kind == 0x5A) := by
  have tables : (judgeEnd (ramped s)).tables = s.tables := (judgeEnd_frame (ramped s)).2.2.1
  have own : (judgeEnd (ramped s)).ownAddress = s.ownAddress := by
    rw [State.ownAddress, (judgeEnd_frame (ramped s)).2.1]
    rfl
  have demand (w : Wheel) : w.brakeDemand = decide (w.moving = false) := by
    rw [Wheel.brakeDemand]
    cases w.moving <;> rfl
  have kept : keptAllStop false (judgeEnd (ramped s)) = s.ring.driveSet.filter (fun f => f.kind == 0x5A) := by
    show (judgeEnd (ramped s)).ring.driveSet.filter isAllStop = _
    rw [(ramped_queues s).2.1]
    rfl
  rw [← State.driveSetOf_congr tables own, ← driveSet_eq, ← kept, ← demand]
  rfl

theorem rampStage_leaves (s : State) :
    (rampStage s).ring.forward = s.ring.forward ∧ (rampStage s).ring.doorQueue = s.ring.doorQueue ∧
      (rampStage s).ring.responses = s.ring.responses := by
  obtain ⟨forward, -, doorQueue, responses⟩ := ramped_queues s
  exact ⟨forward, doorQueue, responses⟩

/-- A stopping wheel that the ramp finds at rest takes its destination, and any other stays (R149). -/
theorem rampStage_ends (s : State) :
    let rest := (rampStage s).rot.vCmd = 0 ∧ ∀ n, (s.drive n).fresh = true → (s.drive n).speed ≤ 16
    (∀ d, s.rot.wheel = .stopping d → rest → (rampStage s).rot.wheel = d.rest ∧
      (rampStage s).rot.stopPending = false ∧ SameDesk (s.afterNotices [.stateChanged d.rest]) (rampStage s)) ∧
    ((∀ d, s.rot.wheel = .stopping d → ¬ rest) → (rampStage s).rot.wheel = s.rot.wheel ∧
      (rampStage s).rot.stopPending = s.rot.stopPending ∧ SameDesk s (rampStage s)) := by
  intro rest
  have rests : (ramped s).atRest = true ↔ rest := by
    rw [atRest_iff]
    dsimp only [rest]
    rw [rampStage_vCmd]
    rfl
  have told {v : State} (desk : SameDesk v (judgeEnd (ramped s))) : SameDesk v (rampStage s) :=
    ⟨desk.tables, desk.ownAddress, desk.notices, desk.overflow⟩
  have start : SameDesk s (ramped s) := ⟨rfl, rfl, rfl, rfl⟩
  rw [rampStage_rot]
  refine ⟨fun d wheel here => ?_, fun away => ?_⟩
  · have ends := judgeEnd_of_rest (s := ramped s) wheel (rests.2 here)
    refine ⟨?_, ?_, told ?_⟩
    · rw [ends, changeWheel_rot]
    · rw [ends, changeWheel_rot]
      cases d <;> rfl
    · rw [ends]
      exact start.changeWheel _
  · have stays : judgeEnd (ramped s) = ramped s := by
      by_cases stopping : ∃ d, s.rot.wheel = .stopping d
      · obtain ⟨d, wheel⟩ := stopping
        exact judgeEnd_of_motion (s := ramped s) wheel (mt rests.1 (away d wheel))
      · exact judgeEnd_of_other fun d wheel => stopping ⟨d, wheel⟩
    refine ⟨?_, ?_, told ?_⟩
    · rw [stays]
      rfl
    · rw [stays]
      rfl
    · rw [stays]
      exact start

/-! ### One update -/

theorem rotationUpdate_of_cause {cause : BrakeCause} (found : s.emergencyCause = some cause) :
    rotationUpdate s = enterBraked cause (setLimit s) := by
  rw [← emergencyCause_setLimit] at found
  unfold rotationUpdate
  dsimp only
  rw [found]

theorem rotationUpdate_of_calm (calm : s.emergencyCause = none) : rotationUpdate s = rampStage (setLimit s) := by
  rw [← emergencyCause_setLimit] at calm
  unfold rotationUpdate
  dsimp only
  rw [calm]

theorem rotationUpdate_untouched (s : State) : Untouched [.service, .rot] s (rotationUpdate s) := by
  refine ⟨(rotationUpdate_frame s).1, fun b other => ?_⟩
  cases b with
  | service | rot => simp at other
  | _ => simp [Block.same]

theorem rotationUpdate_leaves (s : State) :
    (rotationUpdate s).ring.forward = s.ring.forward ∧ (rotationUpdate s).ring.doorQueue = s.ring.doorQueue ∧
      (rotationUpdate s).ring.responses = s.ring.responses := by
  have ring : (setLimit s).ring = s.ring := by simp
  rw [← ring]
  cases found : s.emergencyCause with
  | some cause =>
    rw [rotationUpdate_of_cause found]
    exact enterBraked_leaves cause _
  | none =>
    rw [rotationUpdate_of_calm found]
    exact rampStage_leaves _

theorem rotationUpdate_vLim (s : State) : (rotationUpdate s).rot.vLim = (readFMode s).speedLimit := by
  have limited : (setLimit s).rot.vLim = (readFMode s).speedLimit := rfl
  rw [← limited]
  cases found : s.emergencyCause with
  | some cause => rw [rotationUpdate_of_cause found, enterBraked_rot]
  | none => rw [rotationUpdate_of_calm found, rampStage_vLim]

/-- The target that an update ramps towards, by its new V_lim (R155). -/
theorem target_setLimit (s : State) : (setLimit s).target =
    if s.rot.wheel.moving = false then 0
    else if s.haltStands = true ∨ (s.tracker.accepted = .invalid ∧ s.brakePointStands = true) ∨
        s.rot.stopPending = true then 0
    else if s.holds.records ≠ [] then
      (s.holds.records.filterMap fun r => s.holdSpeed r.what).foldl min
        (min s.rot.vCmd (readFMode s).speedLimit)
    else if s.rot.wheel = .running then (readFMode s).speedLimit
    else 0 := by
  rw [target_eq, setLimit_eq]
  rfl

/-- A braking update: the wheel, the two notices and the drive set with its ALL_STOP (R150, R166). -/
theorem rotationUpdate_brakes {cause : BrakeCause} (found : s.emergencyCause = some cause) :
    let v := rotationUpdate s
    let allStops := s.ring.driveSet.filter (fun f => f.kind == 0x5A)
    v.rot.wheel = .braked ∧ v.rot.stopPending = false ∧ v.rot.vCmd = 0 ∧
      SameDesk (s.afterNotices [.stateChanged .braked, .emergencyBrake cause]) v ∧
      v.ring.driveSet = s.driveSetOf 0 true ++
        if allStops = [] then [{ dest := 63, source := s.ownAddress, kind := 0x5A, payload := [0x02] }]
        else allStops := by
  rw [rotationUpdate_of_cause found]
  have set := enterBraked_sets cause (setLimit s)
  rw [emergencyCause_emergency found, keptAllStop_emergency] at set
  have desk : SameDesk s (setLimit s) := (SameDesk.refl s).aside (by simp)
  refine ⟨by simp, by simp, by simp, enterBraked_tells cause desk, set.trans ?_⟩
  rw [setLimit_eq]
  rfl

/-- An update with no cause to brake: V_cmd, the drive set and the end of stopping (R149, R156, R165). -/
theorem rotationUpdate_ramps (calm : s.emergencyCause = none) :
    let v := rotationUpdate s
    let rest := v.rot.vCmd = 0 ∧ ∀ n, (s.drive n).fresh = true → (s.drive n).speed ≤ 16
    v.rot.vCmd = s.ramp (setLimit s).target ∧
      v.ring.driveSet = s.driveSetOf v.rot.vCmd (decide (v.rot.wheel.moving = false)) ++
        s.ring.driveSet.filter (fun f => f.kind == 0x5A) ∧
      (∀ d, s.rot.wheel = .stopping d → rest → v.rot.wheel = d.rest ∧ v.rot.stopPending = false ∧
        SameDesk (s.afterNotices [.stateChanged d.rest]) v) ∧
      ((∀ d, s.rot.wheel = .stopping d → ¬ rest) → v.rot.wheel = s.rot.wheel ∧
        v.rot.stopPending = s.rot.stopPending ∧ SameDesk s v) := by
  rw [rotationUpdate_of_calm calm]
  have vCmd := rampStage_vCmd (setLimit s)
  have set := rampStage_driveSet (setLimit s)
  obtain ⟨ends, stays⟩ := rampStage_ends (setLimit s)
  have desk : SameDesk s (setLimit s) := (SameDesk.refl s).aside (by simp)
  generalize rampStage (setLimit s) = v at vCmd set ends stays ⊢
  generalize target : (setLimit s).target = x at vCmd ⊢
  rw [setLimit_eq] at vCmd set ends stays desk
  refine ⟨vCmd, set, fun d wheel here => ?_, fun away => ?_⟩
  · obtain ⟨wheel, pending, told⟩ := ends d wheel here
    exact ⟨wheel, pending, (desk.afterNotices [.stateChanged d.rest]).trans told⟩
  · obtain ⟨wheel, pending, told⟩ := stays away
    exact ⟨wheel, pending, desk.trans told⟩

/-- Settles O44: the limit stages, then the emergency brake or the ramp with its end of stopping. -/
theorem rotationUpdatesRunTheirStages : Obligations.RotationUpdatesRunTheirStages := by
  intro t s reset
  have done := completes_of_event (c := .rotationUpdate t) reset rfl
  obtain ⟨forward, doorQueue, responses⟩ := rotationUpdate_leaves (s.advance t)
  have service := rotationUpdate_service (s.advance t)
  have list := readFMode_list (s.advance t)
  have fMode := readFMode_fMode (s.advance t)
  have vLim := rotationUpdate_vLim (s.advance t)
  have limit := readFMode_speedLimit (s.advance t)
  have target := target_setLimit (s.advance t)
  rw [← service] at list fMode limit
  refine ⟨_, done, (rotationUpdate_frame (s.advance t)).2.1, (rotationUpdate_untouched (s.advance t)).of_advance,
    forward, doorQueue, responses, ?_, ?_, fun idle => ?_, fun mode p position => ?_, fMode, ?_⟩
  · rw [service, readFMode_service]
    rfl
  · rw [list]
    split
    · exact (s.advance t).ordered_perm _
    · exact .refl _
  · rw [list]
    split
    · next mode =>
      exact ordered_of_invalid (s := s.advance t) (idle.resolve_left (not_not_intro mode)) _
    · rfl
  · rw [list, if_pos (show (s.advance t).service.mode = .clearDown from mode)]
    exact ordered_pairwise (s := s.advance t) position _
  · intro wind drive limited rise fall old allStops
    have limits : (readFMode (s.advance t)).speedLimit = limited := by
      rw [limit, driveFactor_eq]
      rfl
    rw [limits] at vLim target
    refine ⟨vLim, ?_⟩
    have told {ns : List Notice} {v : State} (desk : SameDesk ((s.advance t).afterNotices ns) v) :
        NoticesQueued s v ns := (((sameDesk_advance t s).afterNotices ns).trans desk).noticesQueued
    have cause : (s.advance t).emergencyCause = s.emergencyCause := rfl
    split
    · next found =>
      obtain ⟨wheel, pending, vCmd, desk, set⟩ := rotationUpdate_brakes (cause.trans found)
      exact ⟨wheel, pending, vCmd, told desk, set⟩
    · next calm =>
      obtain ⟨vCmd, set, ends, stays⟩ := rotationUpdate_ramps (cause.trans calm)
      intro speedAt points aim
      have speeds : (s.advance t).holds.records.filterMap (fun r => (s.advance t).holdSpeed r.what) = points :=
        List.filterMap_congr fun r _ => by cases r.what <;> rfl
      rw [target, speeds] at vCmd
      refine ⟨vCmd, set, ?_⟩
      have still {w : Wheel} (wheel : s.rot.wheel = w) (other : ∀ d, w ≠ .stopping d) :
          (rotationUpdate (s.advance t)).rot.wheel = w ∧
            (rotationUpdate (s.advance t)).rot.stopPending = s.rot.stopPending ∧
            NoticesQueued s (rotationUpdate (s.advance t)) [] := by
        obtain ⟨stayed, pending, desk⟩ := stays fun d stopping => absurd (wheel.symm.trans stopping) (other d)
        exact ⟨stayed.trans wheel, pending, told desk⟩
      cases wheel : s.rot.wheel with
      | stopping d =>
        dsimp only
        split
        · next rest =>
          obtain ⟨ended, pending, desk⟩ := ends d wheel rest
          exact ⟨ended, pending, told desk⟩
        · next moves =>
          obtain ⟨stayed, pending, desk⟩ := stays fun _ _ => moves
          exact ⟨stayed.trans wheel, pending, told desk⟩
      | _ => exact still wheel nofun

end Sys2Proof.Machine
end

