-- ==== Sys2Proof/Proofs/WindHeadRecords.lean ====
section

/-!
# The records of the wind heads

What a sample, a restart and a HEADS load make of a head's record. Every figure stays in its range because the gust
ring holds clamped speeds only and the accumulator moves towards 256 times such a speed without passing it (R95 to
R101).
-/

namespace Sys2Proof.Machine

variable {h : Head}

/-! ### The accumulator (R101) -/

/-- A floored division by a power of two leaves a number between 0 and where it was. -/
theorem floored_between (x : Int) (k : Nat) : min x 0 ≤ x / 2 ^ k ∧ x / 2 ^ k ≤ max x 0 := by
  have pos : (1 : Int) ≤ 2 ^ k := one_le_pow₀ one_le_two
  have split := Int.mul_ediv_add_emod x (2 ^ k)
  have low := Int.emod_nonneg x (b := 2 ^ k) (by omega)
  have high := Int.emod_lt_of_pos x (b := 2 ^ k) (by omega)
  generalize (2 ^ k : Int) = d at *
  constructor
  · rw [min_le_iff]
    by_contra! both
    nlinarith
  · rw [le_max_iff]
    by_contra! both
    nlinarith

/-- An initialized accumulator moves by the floored part of its distance; the sum is not negative. -/
theorem accumulate_moves (a c k : Nat) :
    (accumulate true a c k : Int) = a + (256 * (c : Int) - a) / 2 ^ k := by
  have between := floored_between (256 * (c : Int) - a) k
  rw [accumulate, if_pos rfl, Int.toNat_of_nonneg] <;> push_cast <;> omega

theorem accumulate_starts (a c k : Nat) : accumulate false a c k = 256 * c := rfl

/-- The accumulator stays at most 256 times the greatest speed (R95). -/
theorem accumulate_le {a c : Nat} (initialized : Bool) (k : Nat) (before : a ≤ 255744) (speed : c ≤ 999) :
    accumulate initialized a c k ≤ 255744 := by
  cases initialized with
  | false => rw [accumulate_starts]; omega
  | true =>
    have moves := accumulate_moves a c k
    have between := floored_between (256 * (c : Int) - a) k
    omega

/-! ### The gust ring (R101) -/

theorem enterRing_eq (ring : List Nat) (c : Nat) :
    enterRing ring c = (if ring.length < 12 then ring else ring.drop 1) ++ [c] := by
  unfold enterRing Config.gustSamples
  split <;> simp

/-- The ring holds the samples entered, up to 12. -/
theorem enterRing_length {ring : List Nat} (c : Nat) (room : ring.length ≤ 12) :
    (enterRing ring c).length = min 12 (ring.length + 1) := by
  rw [enterRing_eq]
  split <;> simp <;> omega

theorem enterRing_le {ring : List Nat} {c : Nat} (before : ∀ x ∈ ring, x ≤ 999) (speed : c ≤ 999) :
    ∀ x ∈ enterRing ring c, x ≤ 999 := by
  intro x mem
  rw [enterRing_eq, List.mem_append, List.mem_singleton] at mem
  rcases mem with old | rfl
  · refine before x ?_
    split at old
    · exact old
    · exact List.mem_of_mem_drop old
  · exact speed

/-- The gust of a full ring of clamped speeds is one of them at most. -/
theorem gustOf_le {ring : List Nat} (full : ring.length = 12) (speeds : ∀ x ∈ ring, x ≤ 999) :
    gustOf ring ≤ 999 := by
  have sum := List.sum_le_card_nsmul ring 999 speeds
  rw [full, smul_eq_mul] at sum
  unfold gustOf
  omega

/-! ### Ranges (R95 to R97) -/

/-- An emptied head is in range whatever its entry and its freshness (R96). -/
theorem Head.restart_inRange {b : Bool} (range : h.inRange b) (fresh b' : Bool) :
    ({ h.restart with fresh := fresh } : Head).inRange b' := by
  obtain ⟨-, -, -, acc, -⟩ := range
  exact ⟨rfl, Nat.zero_le _, nofun, acc, nofun, Nat.zero_le _, Nat.zero_le _, fun _ => rfl,
    fun _ => ⟨rfl, rfl, rfl, rfl⟩⟩

theorem Head.reset_inRange (b : Bool) : resetHead.inRange b :=
  ⟨rfl, by decide, nofun, by decide, nofun, by decide, by decide, fun _ => rfl, fun _ => ⟨rfl, rfl, rfl, rfl⟩⟩

/-- A record that differs in its report alone, and is believed only where its entry is disabled or it was believed
before. -/
theorem Head.inRange_reported {b : Bool} (range : h.inRange b) (health : Health) (sample : Option Nat) (fresh : Bool)
    (emptied : (fresh && b) = false → (h.fresh && b) = false) :
    ({ h with health := health, lastSample := sample, fresh := fresh } : Head).inRange b := by
  obtain ⟨length, entered, ring, acc, sector, gust, sustained, warming, empty⟩ := range
  exact ⟨length, entered, ring, acc, sector, gust, sustained, warming, empty ∘ emptied⟩

/-- A sample entered into a believed head of an enabled entry (R98, R101). -/
theorem Head.enter_inRange {b : Bool} {c sector : Nat} (range : h.inRange b) (fresh : h.fresh = true)
    (speed : c ≤ 999) (direction : sector ≤ 7) (shift : Nat) : (h.enter c sector shift).inRange true := by
  obtain ⟨length, entered, ring, acc, -, gust, -, warming, -⟩ := range
  have room : h.ring.length ≤ 12 := by omega
  have grown := enterRing_length c room
  have speeds := enterRing_le ring speed
  have moved := accumulate_le h.initialized shift acc speed
  rw [length] at grown
  refine ⟨grown, Nat.min_le_left _ _, speeds, moved, ?_, ?_, ?_, ?_, ?_⟩
  · rintro _ ⟨⟩
    exact direction
  · dsimp only [Head.enter]
    split
    · next full => exact gustOf_le (grown.trans full) speeds
    · exact gust
  · show sustainedOf _ ≤ 999
    unfold sustainedOf
    omega
  · intro few
    have few : min 12 (h.entered + 1) < 12 := few
    have still : (h.enter c sector shift).gust = h.gust := if_neg (show ¬ min 12 (h.entered + 1) = 12 by omega)
    rw [still]
    exact warming (by omega)
  · intro stale
    have : (h.fresh && true) = false := stale
    rw [fresh] at this
    cases this

theorem correctedSpeed_le (e : HeadEntry) (r : Nat) : correctedSpeed e r ≤ 999 := Nat.min_le_left _ _

theorem sectorOf_le (direction : Nat) : sectorOf direction ≤ 7 := by
  unfold sectorOf
  omega

/-- A sample keeps a head in its ranges, whatever it reads (R98). -/
theorem Head.sample_inRange {e : HeadEntry} (range : h.inRange e.enabled) (now speed direction : Nat)
    (health : Health) : (h.sample e now speed direction health).inRange e.enabled := by
  cases health with
  | degraded =>
    dsimp only [Head.sample]
    split
    · exact Head.inRange_reported (Head.restart_inRange range false e.enabled) .degraded _ _ id
    · exact Head.inRange_reported range .degraded _ _ id
  | ok =>
    dsimp only [Head.sample]
    have refreshed := Head.inRange_reported range .ok (some now) true fun disabled => by
      rw [show e.enabled = false from disabled, Bool.and_false]
    split
    · next enabled =>
      rw [enabled]
      exact Head.enter_inRange refreshed rfl (correctedSpeed_le e speed) (sectorOf_le direction) e.shift
    · exact refreshed

/-! ### The heads that a HEADS load restarts (R94) -/

/-- The step of a HEADS load for one head: a head whose entry is written restarts. -/
def restartWritten (ps : Entries) (n : Fin 4) (s : State) : State :=
  if (written ps n.val).isSome then restartHead n s else s

/-- The entries of a HEADS load in place and the heads restarted, before settling starts. -/
def headsLoaded (ps : Entries) (s : State) : State :=
  (s.setTables { s.tables with heads := loadedTable clampHead s.tables.heads ps }).forEach allFour (restartWritten ps)

theorem applyHeads_eq (ps : Entries) (s : State) :
    applyHeads ps s = (.clamped (loadedClamps clampHead ps), startSettling (headsLoaded ps s)) := rfl

theorem restartWritten_head (ps : Entries) (n : Fin 4) (s : State) (m : Fin 4) :
    (restartWritten ps n s).head m =
      if n = m then (if (written ps m.val).isSome then (s.head m).restart else s.head m) else s.head m := by
  unfold restartWritten restartHead
  by_cases here : n = m
  · subst here
    split <;> simp
  · split <;> simp [here]

theorem headsLoaded_head (ps : Entries) (s : State) (n : Fin 4) :
    (headsLoaded ps s).head n = if (written ps n.val).isSome then (s.head n).restart else s.head n := by
  have restarted := forEach_view State.head
    (fun n h => if (written ps n.val).isSome then h.restart else h) (restartWritten_head ps) allFour_nodup
    (s.setTables { s.tables with heads := loadedTable clampHead s.tables.heads ps }) n
  exact restarted.trans (if_pos (List.mem_finRange n))

theorem headsLoaded_frame (ps : Entries) (s : State) :
    let u := headsLoaded ps s
    u.pending = s.pending ∧ u.lines = s.lines ∧
      u.tables = { s.tables with heads := loadedTable clampHead s.tables.heads ps } ∧ u.ring = s.ring ∧
      u.tracker = s.tracker ∧ u.cabins = s.cabins ∧ u.permits = s.permits ∧ u.service = s.service ∧
      u.grader = s.grader ∧ u.holds = s.holds ∧ u.rot = s.rot ∧ u.drives = s.drives := by
  have kept := State.forEach_keeps
    (s.setTables { s.tables with heads := loadedTable clampHead s.tables.heads ps })
    (fun u => (u.pending, u.lines, u.tables, u.ring, u.tracker, u.cabins, u.permits, u.service, u.grader, u.holds,
      u.rot, u.drives))
    (f := restartWritten ps) (fun n v => by unfold restartWritten; split <;> simp) allFour
  simpa [headsLoaded] using kept

theorem headsLoaded_entry (ps : Entries) (s : State) (n : Fin 4) :
    (headsLoaded ps s).headEntry n = (loadedTable clampHead s.tables.heads ps)[n] := by
  obtain ⟨-, -, tables, -⟩ := headsLoaded_frame ps s
  rw [State.headEntry, tables]

end Sys2Proof.Machine
end

