-- ==== Sys2Proof/Proofs/WindSamplesAndHeadLoads.lean ====
section

/-!
# WIND samples and HEADS loads

A sample reaches the one head whose role its source holds and writes that record alone; a HEADS load writes its
clamped entries, restarts the heads of those entries and starts settling (R94, R96, R98 to R101, R119).
-/

namespace Sys2Proof.Machine

variable {s : State}

/-! ### A sample reaches its head -/

/-- A WIND sample that is heard is observed and passes on (R14, R16). -/
theorem completes_wind {t : Nat} {dst src : Byte} {speed direction : BitVec 16} {health : Byte} (hears : s.hears src)
    (dest : destTaken dst) :
    Completes (.wind t dst src speed direction health) s
      (passOn (windFrame dst src speed direction health)
        (observeWind src speed.toNat direction.toNat (decodeHealth health) (s.advance t))) := by
  have wellFormed : (windFrame dst src speed direction health).wellFormed = true :=
    (wellFormed_iff _).2 ⟨by simp [windFrame, halfOctets, octets2], dest.1, dest.2, hears.2.1⟩
  have done := completes_of_row (c := .wind t dst src speed direction health) rfl wellFormed hears.1 hears.2.2
  rwa [decideFrame_windFrame] at done

/-- A source that holds one role among four acts for that one. -/
theorem roleAmong_eq_some {role : Fin 4 → Fin 14} {src : Byte} {n : Fin 4} (holds : src = s.role (role n))
    (only : ∀ m, src = s.role (role m) → m = n) : s.roleAmong role src = some n := by
  cases found : s.roleAmong role src with
  | none =>
    have other := List.find?_eq_none.1 found n (List.mem_finRange n)
    simp [holds] at other
  | some m =>
    have here : s.role (role m) = src := by simpa using List.find?_some found
    rw [only m here.symm]

theorem windSample_untouched (n : Fin 4) (speed direction : Nat) (health : Health) (s : State) :
    Untouched [.heads] s (windSample n speed direction health s) :=
  ⟨rfl, fun b other => by
    cases b with
    | heads => simp at other
    | _ => rfl⟩

theorem passOn_untouched (f : Frame) (s : State) : Untouched [] s (passOn f s) := by
  rcases passOn_cases f s with e | e <;> rw [e]
  · exact .refl s
  · rw [pushForward_eq]
    exact sameBlocks_of_eq rfl

/-- A WIND sample writes the record of its head, and its frame passes on. -/
theorem wind_reaches {n : Fin 4} {t : Nat} {dst src : Byte} {speed direction : BitVec 16} {health : Byte}
    (hears : s.hears src) (dest : destTaken dst) (holds : src = s.role (headRole n))
    (only : ∀ m, src = s.role (headRole m) → m = n) :
    ∃ u, Completes (.wind t dst src speed direction health) s u ∧ u.lines = s.linesAt t ∧
      RoleFrameOnRing s u (windFrame dst src speed direction health) ∧ u.ring.notices = s.ring.notices ∧
      Untouched [.heads] s u ∧ (∀ m, m ≠ n → u.head m = s.head m) ∧
      u.head n = (s.head n).sample (s.headEntry n) (max s.lines.now t) speed.toNat direction.toNat
        (decodeHealth health) := by
  have done := completes_wind (t := t) (speed := speed) (direction := direction) (health := health) hears dest
  have among : (s.advance t).roleAmong headRole src = some n := roleAmong_eq_some (s := s.advance t) holds only
  rw [observeWind, among] at done
  have work : Quiet (s.advance t)
      (windSample n speed.toNat direction.toNat (decodeHealth health) (s.advance t)) :=
    (Quiet.refl _).aside (by simp)
  obtain ⟨-, ring, lines⟩ := passOn_after work (windFrame dst src speed direction health)
  have blocks := (windSample_untouched n speed.toNat direction.toNat (decodeHealth health) (s.advance t)).trans
    (passOn_untouched (windFrame dst src speed direction health) _)
  have heads (m : Fin 4) := State.head_congr
    ((passOn_untouched (windFrame dst src speed direction health)
      (windSample n speed.toNat direction.toNat (decodeHealth health) (s.advance t))).2 .heads nofun) m
  refine ⟨_, done, lines, roleFrameOnRing_after work _, by rw [ring]; rfl, .of_advance (t := t) blocks,
    fun m other => ?_, ?_⟩
  · rw [heads, windSample, State.setHead_head, if_neg other.symm]
    rfl
  · rw [heads, windSample, State.setHead_head, if_pos rfl]
    rfl

/-! ### What an entered sample is (R99) -/

theorem correctedSpeed_eq (e : HeadEntry) (r : Nat) : correctedSpeed e r =
    min 999 ((if e.unit = .deci then min r 999 else min ((r + 5) / 10) 999) * e.factor / 1024) := by
  unfold correctedSpeed normalizeSpeed
  cases e.unit <;> rfl

/-- Settles O15, by health and entry: the record that `Head.sample` makes of a report. -/
theorem windSamplesReachTheirHead : Obligations.WindSamplesReachTheirHead := by
  intro n t dst src speed direction health s hears dest holds only
  obtain ⟨u, done, lines, frame, notices, blocks, others, sampled⟩ :=
    wind_reaches (t := t) (speed := speed) (direction := direction) (health := health) hears dest holds only
  refine ⟨u, done, lines, frame, notices, blocks, others, ?_⟩
  dsimp only
  split
  · next degraded =>
    rw [sampled, decodeHealth, if_neg degraded]
    rfl
  · next ok =>
    rw [decodeHealth, if_pos (not_not.1 ok)] at sampled
    split
    · next disabled =>
      rw [sampled]
      exact if_neg (by rw [disabled]; nofun)
    · next enabled =>
      have entered : u.head n =
          ({ s.head n with health := .ok, lastSample := some (max s.lines.now t), fresh := true } : Head).enter
            (correctedSpeed (s.headEntry n) speed.toNat) (sectorOf direction.toNat) (s.headEntry n).shift :=
        sampled.trans (if_pos (Bool.eq_true_of_not_eq_false enabled))
      rw [entered, ← correctedSpeed_eq]
      generalize correctedSpeed (s.headEntry n) speed.toNat = c
      refine ⟨rfl, rfl, rfl, rfl, enterRing_eq _ _, rfl, rfl, rfl, rfl, ?_⟩
      split
      · next initialized =>
        have moves := accumulate_moves (s.head n).acc c (s.headEntry n).shift
        rw [← initialized] at moves
        exact moves
      · next starts =>
        have acc := accumulate_starts (s.head n).acc c (s.headEntry n).shift
        rw [← Bool.eq_false_iff.2 starts] at acc
        exact acc

/-! ### HEADS loads -/

theorem headsLoaded_quiet (ps : Entries) (s : State) :
    Quiet (s.setTables { s.tables with heads := loadedTable clampHead s.tables.heads ps }) (headsLoaded ps s) := by
  obtain ⟨pending, lines, tables, ring, -⟩ := headsLoaded_frame ps s
  exact (Quiet.refl _).aside ⟨pending, lines, tables, ring⟩

theorem headsLoaded_untouched (ps : Entries) (s : State) : Untouched [.tables, .heads] s (headsLoaded ps s) := by
  obtain ⟨pending, -, -, -, tracker, cabins, permits, service, grader, holds, rot, drives⟩ := headsLoaded_frame ps s
  refine ⟨pending, fun b other => ?_⟩
  cases b with
  | tables | heads => simp at other
  | tracker => exact tracker
  | cabins => exact cabins
  | permits => exact permits
  | service => exact service
  | grader => exact grader
  | holds => exact holds
  | rot => exact rot
  | drives => exact drives

/-- The clamps of a HEADS entry are the conditions it meets (R93, R94). -/
theorem clampHead_count (j : Fin 4) (e : List Byte) :
    (clampHead j e).2 =
      (let factor := 256 * (e.getD 2 0).toNat + (e.getD 3 0).toNat
      [decide (1 < (e.getD 0 0).toNat), decide (1 < (e.getD 1 0).toNat), decide (factor < 512 ∨ 2048 < factor),
        decide ((e.getD 4 0).toNat < 4 ∨ 10 < (e.getD 4 0).toNat)]).count true := by
  simp only [clampHead, clampYes, clampNum, count_true_cons, entryOctet, List.count_nil, Bool.decide_or, Nat.add_assoc]
  rfl

theorem clampHead_eq (j : Fin 4) (e : List Byte) :
    (clampHead j e).1 =
      { enabled := e.getD 0 0 != 0x00, unit := if e.getD 1 0 = 0x00 then .deci else .centi
        factor := max 512 (min 2048 (256 * (e.getD 2 0).toNat + (e.getD 3 0).toNat))
        shift := max 4 (min 10 (e.getD 4 0).toNat) } := by
  have unit : (if (clampYes (e.getD 1 0)).1 then WindUnit.centi else .deci) =
      if e.getD 1 0 = 0x00 then .deci else .centi := by
    by_cases zero : e.getD 1 0 = 0x00
    · rw [zero]; rfl
    · exact (if_pos (bne_iff_ne.2 zero)).trans (if_neg zero).symm
  exact congrArg (fun unit => ({ (clampHead j e).1 with unit := unit } : HeadEntry)) unit

/-- Settles O32: the load's entries are the clamped ones, its heads the restarted ones, and settling starts at its
moment. -/
theorem headLoadsRestartTheHeadsTheyWrite : Obligations.HeadLoadsRestartTheHeadsTheyWrite := by
  intro t src tag start body s takes load ps
  obtain ⟨-, -, tables, ring, -, -, -, -, grader, -⟩ := headsLoaded_frame ps (s.advance t)
  have heads := headsLoaded_head ps (s.advance t)
  have entries := headsLoaded_entry ps (s.advance t)
  have quiet := headsLoaded_quiet ps (s.advance t)
  have blocks := headsLoaded_untouched ps (s.advance t)
  have applied := applyHeads_eq ps (s.advance t)
  generalize headsLoaded ps (s.advance t) = v at *
  have settled : Quiet _ (startSettling v) := quiet.aside (by simp)
  refine ⟨_, _, answers_of_load (table := .heads) takes load applied settled, ?_, ?_, ?_, ?_,
    loadedClamps_eq clampHead_count _, ?_, fun n => ?_⟩
  · have changed := (blocks.trans (startSettling_untouched v)).trans
      (pushResponse_untouched src tag 0x03 (.clamped (loadedClamps clampHead ps)) _)
    exact changed.of_advance.mono (by simp)
  · show v.tables = { s.tables with heads := v.tables.heads }
    rw [tables]
    rfl
  · show v.ring.notices = s.ring.notices
    rw [ring]
    rfl
  · show v.ring.driveSet = s.ring.driveSet
    rw [ring]
    rfl
  · show (startSettling v).grader = _
    have period : v.p 24 = s.p 24 := by rw [State.p, tables]; rfl
    have now : v.lines.now = max s.lines.now t := by rw [quiet.lines]; rfl
    show { v.grader with dwell := none, settling := some (v.lines.now + 1000 * v.p 24) } = _
    rw [grader, period, now]
    rfl
  · have head : v.head n = if (written ps n.val).isSome then (s.head n).restart else s.head n := heads n
    have entry : v.headEntry n = (loadedTable clampHead s.tables.heads ps)[n] := entries n
    cases found : written ps n.val with
    | none =>
      rw [found] at head
      exact ⟨entry.trans (loaded_of_unwritten found), head⟩
    | some e =>
      rw [found] at head
      exact ⟨entry.trans ((loaded_of_written found).trans (clampHead_eq n e)), head⟩

end Sys2Proof.Machine
end

