-- ==== Sys2Proof/Proofs/SiteFigures.lean ====
section

/-!
# The site figures

The figures are the greatest and smallest of lists over the valid heads, which stand in head order, so the first head
of the greatest gust is the lowest-numbered one (R97, R103).
-/

namespace Sys2Proof.Machine

/-! ### The greatest and the smallest of some numbers -/

theorem le_greatest {xs : List Nat} {x : Nat} (mem : x ∈ xs) : x ≤ greatest xs :=
  List.le_max_of_le mem le_rfl

theorem greatest_mem {xs : List Nat} (some : xs ≠ []) : greatest xs ∈ xs := by
  induction xs with
  | nil => exact absurd rfl some
  | cons x xs ih =>
    have tail : greatest (x :: xs) = max x (greatest xs) := rfl
    rw [tail]
    cases xs with
    | nil => simp [greatest]
    | cons y ys =>
      rcases max_choice x (greatest (y :: ys)) with e | e <;> rw [e]
      · exact List.mem_cons_self
      · exact List.mem_cons_of_mem x (ih nofun)

theorem smallest_spec {xs : List Nat} (some : xs ≠ []) : smallest xs ∈ xs ∧ ∀ x ∈ xs, smallest xs ≤ x := by
  cases xs with
  | nil => exact absurd rfl some
  | cons x xs =>
    show xs.foldr min x ∈ x :: xs ∧ ∀ y ∈ x :: xs, xs.foldr min x ≤ y
    clear some
    induction xs with
    | nil => simp
    | cons y ys ih =>
      obtain ⟨mem, least⟩ := ih
      rw [List.foldr_cons]
      refine ⟨?_, fun z there => ?_⟩
      · rcases min_choice y (ys.foldr min x) with e | e <;> rw [e]
        · simp
        · rcases List.mem_cons.1 mem with first | later
          · rw [first]; exact List.mem_cons_self
          · simp [later]
      · rw [List.mem_cons, List.mem_cons] at there
        rcases there with first | here | later
        · exact (min_le_right _ _).trans (least z (first ▸ List.mem_cons_self))
        · exact here ▸ min_le_left _ _
        · exact (min_le_right _ _).trans (least z (List.mem_cons_of_mem x later))

/-! ### The valid heads (R97) -/

theorem headValid_eq (s : State) (n : Fin 4) : s.headValid n =
    ((s.headEntry n).enabled && (s.head n).fresh && decide (12 ≤ (s.head n).entered)) := by
  unfold State.headValid State.headState Config.gustSamples
  cases (s.headEntry n).enabled <;> cases (s.head n).fresh
  case true.true =>
    by_cases warm : 12 ≤ (s.head n).entered
    · simp [warm, Nat.not_lt.2 warm]
    · simp [warm, Nat.not_le.1 warm]
  all_goals rfl

theorem headValid_iff (s : State) (n : Fin 4) : s.headValid n = true ↔
    (s.headEntry n).enabled = true ∧ (s.head n).fresh = true ∧ 12 ≤ (s.head n).entered := by
  rw [headValid_eq, Bool.and_eq_true, Bool.and_eq_true, decide_eq_true_iff, and_assoc]

theorem mem_validHeads (s : State) (n : Fin 4) : n ∈ s.validHeads ↔ s.headValid n = true := by
  simp [State.validHeads, allFour]

theorem validHeads_ordered (s : State) : s.validHeads.Pairwise (· < ·) :=
  (List.pairwise_lt_finRange 4).sublist List.filter_sublist

/-- The first of some numbers in order that meets a condition is the smallest that does. -/
theorem first_of_ordered {xs : List (Fin 4)} {p : Fin 4 → Bool} (ordered : xs.Pairwise (· < ·)) {x : Fin 4}
    (mem : x ∈ xs) (meets : p x = true) :
    ∃ n ∈ xs, xs.find? p = some n ∧ p n = true ∧ ∀ m ∈ xs, m < n → p m = false := by
  obtain ⟨n, found⟩ := Option.isSome_iff_exists.1 (List.find?_isSome.2 ⟨x, mem, meets⟩)
  obtain ⟨met, before, after, rfl, none⟩ := List.find?_eq_some_iff_append.1 found
  refine ⟨n, by simp, found, met, fun m there less => ?_⟩
  rcases List.mem_append.1 there with early | late
  · simpa using none m early
  · have tail := (List.pairwise_append.1 ordered).2.1
    rcases List.mem_cons.1 late with rfl | late
    · exact absurd less (lt_irrefl _)
    · exact absurd less ((List.pairwise_cons.1 tail).1 m late).not_gt

/-- Settles O48: each figure is a greatest or smallest over the valid heads, taken by one of them. -/
theorem siteFiguresAreOfTheValidHeads : Obligations.SiteFiguresAreOfTheValidHeads := by
  intro s fig valid
  have mem (n : Fin 4) : n ∈ s.validHeads ↔ valid n := (mem_validHeads s n).trans (headValid_iff s n)
  have gustMem {n : Fin 4} (v : valid n) : (s.head n).gust ∈ s.validHeads.map (fun n => (s.head n).gust) :=
    List.mem_map_of_mem ((mem n).2 v)
  have sustainedMem {n : Fin 4} (v : valid n) :
      (s.head n).sustained ∈ s.validHeads.map (fun n => (s.head n).sustained) :=
    List.mem_map_of_mem ((mem n).2 v)
  have spread : fig.spread = fig.gust - smallest (s.validHeads.map fun n => (s.head n).gust) := rfl
  refine ⟨?_, ?_, fun n v => ⟨le_greatest (gustMem v), le_greatest (sustainedMem v), ?_⟩, fun none => ?_, ?_,
    fun n => ⟨fun v => if_pos ((headValid_iff s n).2 v), fun v => if_neg (mt (headValid_iff s n).1 v)⟩⟩
  · show (allFour.filter s.headValid).length = _
    rw [funext (headValid_eq s)]
    rfl
  · exact List.length_filter_le _ _
  · have least := (smallest_spec (List.ne_nil_of_mem (gustMem v))).2 _ (gustMem v)
    omega
  · have empty : s.validHeads = [] := List.eq_nil_iff_forall_not_mem.2 fun n here => none n ((mem n).1 here)
    simp only [fig, State.siteFigures, empty]
    exact ⟨rfl, rfl, rfl, rfl⟩
  · rintro ⟨n, v⟩
    have gusts := List.ne_nil_of_mem (gustMem v)
    obtain ⟨g, gValid, gust⟩ := List.mem_map.1 (greatest_mem gusts)
    obtain ⟨m, mValid, sustained⟩ := List.mem_map.1 (greatest_mem (List.ne_nil_of_mem (sustainedMem v)))
    obtain ⟨l, lValid, least⟩ := List.mem_map.1 (smallest_spec gusts).1
    obtain ⟨f, fValid, found, top, before⟩ := first_of_ordered (validHeads_ordered s) gValid
      (p := fun n => (s.head n).gust == fig.gust) (beq_iff_eq.2 gust)
    refine ⟨⟨g, (mem g).1 gValid, gust.symm⟩, ⟨m, (mem m).1 mValid, sustained.symm⟩, ⟨l, (mem l).1 lValid, ?_⟩,
      f, (mem f).1 fValid, (beq_iff_eq.1 top).symm, ?_, fun k less v => ?_⟩
    · have below : (s.head l).gust ≤ fig.gust := le_greatest (gustMem ((mem l).1 lValid))
      omega
    · show (s.validHeads.find? fun n => (s.head n).gust == fig.gust).bind _ = _
      rw [found]
      rfl
    · exact lt_of_le_of_ne (le_greatest (gustMem v)) (beq_eq_false_iff_ne.1 (before k ((mem k).2 v) less))

end Sys2Proof.Machine
end

