-- ==== Sys2Proof/Proofs/StationEffects.lean ====
section

/-!
# What effects keep of the drives and the wind heads

DRIVES_LOST is judged wherever a drive's readiness is derived anew, and a head's record is written by a sample, a
restart or a drop (R98, R102, R162, R163). Every other effect leaves both: the drive records, the wind heads with the
enabled fields of their entries, and the key DRIVES_LOST.
-/

namespace Sys2Proof.Machine

variable {s u v s₀ : State}

/-! ### The law of the drives (R162, R163) -/

/-- A record replaced with its ready field as it was leaves every drive as ready as it was. -/
theorem State.setDrive_ready {n : Fin 4} {d : Drive} (ready : d.ready = (s.drive n).ready) (m : Fin 4) :
    ((s.setDrive n d).drive m).ready = (s.drive m).ready := by
  rw [State.setDrive_drive]
  split
  · next here => rw [ready, here]
  · rfl

/-- DRIVES_LOST stands after the judgement just while the ready count is below 2, if it did at the count before. -/
theorem judgeDrivesLost_holdsKey {before : Nat} (stood : s.holdsKey .drivesLost = true ↔ before < 2) :
    (judgeDrivesLost before s).holdsKey .drivesLost = true ↔ s.readyCount < 2 := by
  unfold judgeDrivesLost
  split
  · next lost => simp [raiseHold_holdsKey, Hold.key, lost.2]
  · split
    · next regained => simp [clearHold_holdsKey, Nat.lt_of_succ_le regained.2]
    · rw [stood]
      omega

/-- Deriving a drive's readiness anew restores the law where that drive's record alone is out of step. -/
theorem deriveReady_driveLaw {n : Fin 4} (others : ∀ m, n ≠ m → (s.drive m).ready = (s.drive m).derivedReady)
    (lost : s.holdsKey .drivesLost = true ↔ s.readyCount < 2) : DriveLaw (deriveReady n s) := by
  refine ⟨fun m => ?_, ?_⟩
  · rw [deriveReady_drive]
    split
    · rfl
    · next other => exact others m other
  · unfold deriveReady
    dsimp only
    split
    · exact lost
    · generalize changed : notify _ (s.setDrive n _) = v
      have stood : v.holdsKey .drivesLost = true ↔ s.readyCount < 2 := by
        rw [← changed, notify_holdsKey]
        exact lost
      have drives : (judgeDrivesLost s.readyCount v).drives = v.drives := by simp
      rw [State.readyCount_congr fun m => congrArg _ (State.drive_congr drives m)]
      exact judgeDrivesLost_holdsKey stood

/-- A report or a lapse writes a drive's record but for its ready field, which is then derived (R160, R161). -/
theorem DriveLaw.derived (law : DriveLaw s) {n : Fin 4} {d : Drive} (ready : d.ready = (s.drive n).ready) :
    DriveLaw (deriveReady n (s.setDrive n d)) := by
  obtain ⟨derived, lost⟩ := law
  refine deriveReady_driveLaw (fun m other => ?_) ?_
  · rw [State.setDrive_drive, if_neg other]
    exact derived m
  · rw [State.readyCount_congr (State.setDrive_ready ready)]
    exact lost

/-! ### The law of the wind heads (R95 to R97) -/

theorem HeadLaw.setHead (law : HeadLaw s) {n : Fin 4} {h : Head} (range : h.inRange (s.headEntry n).enabled) :
    HeadLaw (s.setHead n h) := by
  intro m
  rw [State.setHead_head]
  split
  · next here => exact here ▸ range
  · exact law m

theorem windSample_headLaw (n : Fin 4) (speed direction : Nat) (health : Health) (law : HeadLaw s) :
    HeadLaw (windSample n speed direction health s) :=
  law.setHead (Head.sample_inRange (law n) _ _ _ _)

theorem dropHead_headLaw (n : Fin 4) (law : HeadLaw s) : HeadLaw (dropHead n s) := by
  unfold dropHead
  split
  · exact law.setHead (Head.restart_inRange (law n) false _)
  · exact law

/-- A HEADS load may disable a head, and restarts the heads whose entries it writes (R94). -/
theorem headsLoaded_headLaw (ps : Entries) (law : HeadLaw s) : HeadLaw (headsLoaded ps s) := by
  intro n
  rw [headsLoaded_head, headsLoaded_entry]
  cases found : written ps n.val with
  | none =>
    rw [loaded_of_unwritten found]
    exact law n
  | some e => exact Head.restart_inRange (law n) (s.head n).fresh _

/-! ### What an effect keeps -/

/-- The effect keeps the drives' law and the wind heads' law. -/
structure StationsKept (s u : State) : Prop where
  drives : DriveLaw s → DriveLaw u
  heads : HeadLaw s → HeadLaw u

theorem drivesLost_aloof : HoldKey.Aloof .drivesLost := .inr rfl

namespace StationsKept

theorem trans (first : StationsKept s v) (second : StationsKept v u) : StationsKept s u where
  drives := second.drives ∘ first.drives
  heads := second.heads ∘ first.heads

theorem refl (s : State) : StationsKept s s := ⟨id, id⟩

/-- An effect that leaves the drives' law and its record, for what it does to the heads. -/
theorem of_drives (drives : u.drives = s.drives) (lost : u.holdsKey .drivesLost = s.holdsKey .drivesLost)
    (heads : HeadLaw s → HeadLaw u) : StationsKept s u where
  drives law := by
    refine ⟨fun n => ?_, ?_⟩
    · rw [State.drive_congr drives]
      exact law.1 n
    · rw [lost, State.readyCount_congr fun n => congrArg _ (State.drive_congr drives n)]
      exact law.2
  heads := heads

theorem headLaw_of_same (heads : u.heads = s.heads) (entries : u.tables.heads = s.tables.heads) (law : HeadLaw s) :
    HeadLaw u := fun n => by
  rw [State.head_congr heads, State.headEntry, entries]
  exact law n

theorem then_held (h : StationsKept s₀ s) (lost : u.holdsKey .drivesLost = s.holdsKey .drivesLost)
    (same : u.heads = s.heads ∧ u.drives = s.drives ∧ u.tables.heads = s.tables.heads) : StationsKept s₀ u := by
  obtain ⟨heads, drives, entries⟩ := same
  exact h.trans (of_drives drives lost (headLaw_of_same heads entries))

theorem aside (h : StationsKept s₀ s) (same : u.heads = s.heads ∧ u.drives = s.drives ∧
    u.tables.heads = s.tables.heads ∧ u.holds = s.holds) : StationsKept s₀ u := by
  obtain ⟨heads, drives, entries, holds⟩ := same
  exact h.then_held (State.holdsKey_congr holds _) ⟨heads, drives, entries⟩

/-- An effect on the wind heads alone. -/
theorem then_blown (h : StationsKept s₀ s) (heads : HeadLaw s → HeadLaw u)
    (same : u.drives = s.drives ∧ u.holds = s.holds) : StationsKept s₀ u :=
  h.trans (of_drives same.1 (State.holdsKey_congr same.2 _) heads)

/-- A reset leaves the four drives not ready, with DRIVES_LOST among its records, and the heads empty (R106, R138,
R167). -/
theorem of_reset {now : Nat} (heads : u.heads = Vector.replicate 4 resetHead) (holds : u.holds = resetHolds now)
    (drives : u.drives = Vector.replicate 4 resetDrive) : StationsKept s u where
  drives _ := by
    have drive (n : Fin 4) : u.drive n = resetDrive := by
      rw [State.drive, drives]
      exact Vector.getElem_replicate _
    refine ⟨fun n => ?_, ?_⟩
    · rw [drive]
      rfl
    · rw [State.readyCount, State.holdsKey, State.holdRecord, holds]
      simp only [drive]
      exact iff_of_true rfl (by decide)
  heads _ n := by
    have head : u.head n = resetHead := by
      rw [State.head, heads]
      exact Vector.getElem_replicate _
    rw [head]
    exact Head.reset_inRange _

theorem then_forEach {α : Type} {f : α → State → State} (h : StationsKept s₀ s)
    (step : ∀ x s, StationsKept s₀ s → StationsKept s₀ (f x s)) (xs : List α) : StationsKept s₀ (s.forEach xs f) := by
  unfold State.forEach
  induction xs generalizing s with
  | nil => exact h
  | cons x xs ih => exact ih (step x s h)

theorem then_guarded {c : Prop} [Decidable c] {f : State → State} (h : StationsKept s₀ s)
    (step : ∀ {u}, StationsKept s₀ u → StationsKept s₀ (f u)) : StationsKept s₀ (if c then f s else s) := by
  split
  · exact step h
  · exact h

/-! ### Drives and wind heads -/

theorem then_judgeEnd (h : StationsKept s₀ s) : StationsKept s₀ (judgeEnd s) := h.aside (by simp)

theorem then_derived (h : StationsKept s₀ s) {n : Fin 4} {d : Drive} (ready : d.ready = (s.drive n).ready) :
    StationsKept s₀ (judgeEnd (deriveReady n (s.setDrive n d))) := by
  have derived : StationsKept s (deriveReady n (s.setDrive n d)) :=
    ⟨fun law => law.derived ready, headLaw_of_same (by simp) (by simp)⟩
  exact (h.trans derived).then_judgeEnd

theorem then_driveReport (h : StationsKept s₀ s) (n : Fin 4) (ready : Bool) (fault : Byte) (speed : Nat) :
    StationsKept s₀ (driveReport n ready fault speed s) := h.then_derived rfl

theorem then_dropDrive (h : StationsKept s₀ s) (n : Fin 4) : StationsKept s₀ (dropDrive n s) := by
  unfold dropDrive
  split
  · exact h.then_derived rfl
  · exact h

theorem then_driveLapse (h : StationsKept s₀ s) (n : Fin 4) : StationsKept s₀ (driveLapse n s) :=
  h.then_guarded fun h => h.then_dropDrive n

/-- The report time of a drive is no part of the law (R161). -/
theorem then_forgetDrive (h : StationsKept s₀ s) (n : Fin 4) : StationsKept s₀ (forgetDrive n s) := by
  have untimed : StationsKept s (s.setDrive n { s.drive n with lastReport := none }) := by
    refine ⟨fun law => ⟨fun m => ?_, ?_⟩, headLaw_of_same rfl rfl⟩
    · rw [State.setDrive_drive]
      split
      · exact law.1 n
      · exact law.1 m
    · rw [State.readyCount_congr (State.setDrive_ready (d := { s.drive n with lastReport := none }) rfl)]
      exact law.2
  exact (h.trans untimed).then_dropDrive n

theorem then_windSample (h : StationsKept s₀ s) (n : Fin 4) (speed direction : Nat) (health : Health) :
    StationsKept s₀ (windSample n speed direction health s) :=
  h.then_blown (windSample_headLaw n speed direction health) (by simp)

theorem then_dropHead (h : StationsKept s₀ s) (n : Fin 4) : StationsKept s₀ (dropHead n s) :=
  h.then_blown (dropHead_headLaw n) (by simp)

theorem then_headLapse (h : StationsKept s₀ s) (n : Fin 4) : StationsKept s₀ (headLapse n s) :=
  h.then_guarded fun h => h.then_dropHead n

/-! ### Holds and cabins -/

theorem then_raiseHold (h : StationsKept s₀ s) {what : Hold} (other : what.key ≠ .drivesLost) :
    StationsKept s₀ (raiseHold what s) :=
  h.then_held (raiseHold_of_other other s) (by simp)

theorem then_clearHold (h : StationsKept s₀ s) {key : HoldKey} (other : key ≠ .drivesLost) :
    StationsKept s₀ (clearHold key s) :=
  h.then_held (clearHold_of_other other s) (by simp)

theorem then_testOverrun (h : StationsKept s₀ s) (z : Zone) : StationsKept s₀ (testOverrun z s) :=
  h.then_held (testOverrun_aloof drivesLost_aloof z s) (by simp)

theorem then_cabinReport (h : StationsKept s₀ s) (k : Cabin) (d : Door) (n : Nat) :
    StationsKept s₀ (cabinReport k d n s) :=
  h.then_held (cabinReport_aloof drivesLost_aloof k d n s) (by simp)

theorem then_doorStale (h : StationsKept s₀ s) (k : Cabin) : StationsKept s₀ (doorStale k s) :=
  h.then_held (doorStale_aloof drivesLost_aloof k s) (by simp)

theorem then_staleEvent (h : StationsKept s₀ s) (k : Cabin) : StationsKept s₀ (staleEvent k s) :=
  h.then_guarded fun h => h.then_doorStale k

theorem then_forgetDoor (h : StationsKept s₀ s) (k : Cabin) : StationsKept s₀ (forgetDoor k s) := by
  have forgotten : StationsKept s₀ (s.setCabin k { s.cabin k with lastReport := none }) := h.aside ⟨rfl, rfl, rfl, rfl⟩
  unfold forgetDoor
  dsimp only
  split
  · exact forgotten
  · exact forgotten.then_doorStale k

/-! ### The tracker -/

theorem then_reformAfter (h : StationsKept s₀ s) (was : Bool) : StationsKept s₀ (reformAfter was s) :=
  (h.then_held (reform_aloof drivesLost_aloof s) (by simp)).then_guarded fun h => h.then_raiseHold nofun

theorem then_encoderReport (h : StationsKept s₀ s) (e : EncoderId) (p : Nat) (health : Health) :
    StationsKept s₀ (encoderReport e p health s) := by
  unfold encoderReport
  split
  · generalize moved : s.setTracker _ = v
    have told : StationsKept s₀ v := h.aside (by rw [← moved]; exact ⟨rfl, rfl, rfl, rfl⟩)
    exact (told.then_held (compareHeads_aloof drivesLost_aloof v) (by simp)).then_reformAfter _
  · exact h

theorem then_dropHeads (h : StationsKept s₀ s) (a b : Bool) : StationsKept s₀ (dropHeads a b s) := by
  unfold dropHeads
  dsimp only
  split
  · generalize dropped : s.setTracker _ = v
    have told : StationsKept s₀ v := h.aside (by rw [← dropped]; exact ⟨rfl, rfl, rfl, rfl⟩)
    exact told.then_reformAfter true
  · exact h

theorem then_encoderLapse (h : StationsKept s₀ s) (e : EncoderId) : StationsKept s₀ (encoderLapse e s) :=
  h.then_guarded fun h => h.then_dropHeads _ _

theorem then_zonesChanged (h : StationsKept s₀ s) : StationsKept s₀ (zonesChanged s) :=
  h.then_guarded fun {u} h => h.then_held (recompute_aloof drivesLost_aloof false u) (by simp)

/-! ### The wind grader -/

/-- A change of the grade in force raises or clears WIND_STOP alone (R120). -/
theorem then_changeGrade (h : StationsKept s₀ s) (g : Grade) : StationsKept s₀ (changeGrade g s) := by
  have told : StationsKept s₀ (gradeTold g s) := h.aside (by simp [gradeTold])
  have stopped : StationsKept s₀ (windStopped g s) := by
    unfold windStopped
    split
    · exact told.then_raiseHold nofun
    · exact told.then_guarded fun h => h.then_clearHold nofun
  rw [changeGrade_eq]
  exact (stopped.then_guarded (c := g = 4) (f := clearBothPermits) fun h => h.aside (by simp)).aside (by simp)

theorem then_evaluate (h : StationsKept s₀ s) : StationsKept s₀ (evaluate s) := by
  unfold evaluate gradeStep
  dsimp only
  split
  · exact StationsKept.then_changeGrade (h.aside (by simp)) _
  · split <;> exact h.aside (by simp)

theorem then_expireDwell (h : StationsKept s₀ s) : StationsKept s₀ (expireDwell s) := by
  unfold expireDwell
  split
  · split
    · exact StationsKept.then_changeGrade (h.aside (by simp)) _
    · exact h
  · exact h

end StationsKept

end Sys2Proof.Machine
end

