-- ==== Sys2Proof/Proofs/DriveAndHeadLaws.lean ====
section

/-!
# The drives and the wind heads over every step

Each command's effect is made of the effects that keep both laws, the resets among them, so every step keeps the laws
from any state that meets them (R95 to R97, R101, R162, R163).
-/

namespace Sys2Proof.Machine

variable {s s₀ : State}

/-! ### The record of DRIVES_LOST -/

theorem drivesLost_of_key {what : Hold} (key : what.key = .drivesLost) : what = .drivesLost := by
  cases what with
  | drivesLost => rfl
  | _ => cases key

namespace StationsKept

/-! ### Loads -/

theorem then_setTables (h : StationsKept s₀ s) {x : Tables} (entries : x.heads = s.tables.heads) :
    StationsKept s₀ (s.setTables x) := h.aside ⟨rfl, rfl, entries, rfl⟩

theorem then_applyRoster (h : StationsKept s₀ s) (ps : Entries) : StationsKept s₀ (applyRoster ps s).2 := by
  unfold applyRoster
  dsimp only
  split
  · exact h
  · have loaded := h.then_setTables
      (x := { s.tables with roster := loadedTable clampRoster s.tables.roster ps }) rfl
    generalize s.setTables { s.tables with roster := loadedTable clampRoster s.tables.roster ps } = v at loaded ⊢
    generalize (fun i : Fin 14 => s.tables.roster[i] != (loadedTable clampRoster s.tables.roster ps)[i]) = changed
    rw [rosterConsequences_eq]
    have dropped := loaded.then_dropHeads (changed roleEncoderA) (changed roleEncoderB)
    have doors := dropped.then_guarded (c := changed roleConcentrator = true) (f := forgetDoors)
      fun h => h.then_forEach (fun k _ h => h.then_forgetDoor k) _
    have heads := doors.then_forEach (f := dropHeadIf changed)
      (fun n _ h => h.then_guarded fun h => h.then_dropHead n) allFour
    exact heads.then_forEach (f := forgetDriveIf changed)
      (fun n _ h => h.then_guarded fun h => h.then_forgetDrive n) allFour

theorem then_applyParameters (h : StationsKept s₀ s) (ps : Entries) : StationsKept s₀ (applyParameters ps s).2 := by
  unfold applyParameters
  dsimp only
  have loaded := h.then_setTables
    (x := { s.tables with params := loadedTable clampParam s.tables.params ps }) rfl
  generalize s.setTables { s.tables with params := loadedTable clampParam s.tables.params ps } = v at loaded ⊢
  have encoders {u : State} (h : StationsKept s₀ u) : StationsKept s₀ (encodersLowered u) := h.then_dropHeads _ _
  have doors {u : State} (h : StationsKept s₀ u) : StationsKept s₀ (stalenessLowered u) :=
    h.then_forEach (fun k _ h => h.then_staleEvent k) _
  have drives {u : State} (h : StationsKept s₀ u) : StationsKept s₀ (drivesLowered u) :=
    h.then_forEach (fun n _ h => h.then_driveLapse n) _
  have heads {u : State} (h : StationsKept s₀ u) : StationsKept s₀ (headsLowered u) :=
    h.then_forEach (fun n _ h => h.then_headLapse n) _
  exact (((loaded.then_guarded encoders).then_guarded doors).then_guarded drives).then_guarded heads

theorem then_applyHeads (h : StationsKept s₀ s) (ps : Entries) : StationsKept s₀ (applyHeads ps s).2 := by
  obtain ⟨-, -, -, -, -, -, -, -, -, holds, -, drives⟩ := headsLoaded_frame ps s
  rw [applyHeads_eq]
  exact (h.then_blown (headsLoaded_headLaw ps) ⟨drives, holds⟩).aside (by simp)

/-- A load of any table: the others' owners leave the drives and the wind heads (R172). -/
theorem then_apply (h : StationsKept s₀ s) (t : Table) (ps : Entries) : StationsKept s₀ (t.apply ps s).2 := by
  cases t
  case roster => exact h.then_applyRoster ps
  case parameters => exact h.then_applyParameters ps
  case heads => exact h.then_applyHeads ps
  case pass => exact h.then_setTables rfl
  case rules => exact aside (h.then_setTables rfl) (u := startSettling _) (by simp)
  case cabins =>
    have loaded := h.then_setTables
      (x := { s.tables with cabins := loadedTable clampCabin s.tables.cabins ps }) rfl
    exact loaded.then_forEach
      (f := fun (k : Cabin) s' =>
        if s.tables.cabins[k].inService && !(loadedTable clampCabin s.tables.cabins ps)[k].inService then
          clearPermitsOf k s' else s')
      (fun _ _ h => h.then_guarded fun h => h.aside ⟨rfl, rfl, rfl, rfl⟩) allCabins
  case zones =>
    show StationsKept s₀ (applyZones ps s).2
    unfold applyZones
    dsimp only
    split
    · exact h
    · exact then_zonesChanged (h.then_setTables rfl)

theorem then_loadTable (h : StationsKept s₀ s) (args : List Byte) : StationsKept s₀ (loadTable args s).2 := by
  have loaded (t : Table) (args : List Byte) : StationsKept s₀ (loadOn t args s).2 := by
    unfold loadOn
    split
    · exact h
    split
    · exact h
    split
    · exact h
    split
    · exact h
    · exact h.then_apply t _
  unfold loadTable
  split
  · split
    · exact loaded _ _
    · exact h
  · exact h

/-! ### The other requests -/

/-- An acknowledged hold that clears is never DRIVES_LOST, which is only marked (R131). -/
theorem then_ackRecord (h : StationsKept s₀ s) (key : HoldKey) : StationsKept s₀ (ackRecord key s).2 := by
  unfold ackRecord
  split
  · exact h
  · next r found =>
    have here : r.what.key = key := by simpa using List.find?_some found
    split
    · next clears =>
      show StationsKept s₀ (ackClear key s)
      have other : key ≠ .drivesLost := by
        rintro rfl
        rw [drivesLost_of_key here] at clears
        cases clears
      unfold ackClear
      split
      · exact h.then_held (clearOverrun_aloof drivesLost_aloof _ s) (by simp)
      · exact h.then_clearHold other
    · exact h.then_held (markAcked_holdsKey s key .drivesLost) ⟨rfl, rfl, rfl⟩
    · exact h

theorem then_putResume (h : StationsKept s₀ s) (b : Bool) : StationsKept s₀ (putResume b s) :=
  h.then_held rfl ⟨rfl, rfl, rfl⟩

theorem then_setTurning (h : StationsKept s₀ s) : StationsKept s₀ (setTurning s) :=
  then_putResume (h.aside (by simp)) false

/-- A reset of every block brings both laws with it (R178). -/
theorem then_restart (src : Byte) (args : List Byte) (s : State) : StationsKept s (restart src args s).2 := by
  unfold restart plainRequest
  split
  · dsimp only
    split
    · exact aside (s := s.restarted) (of_reset rfl rfl rfl) (by simp [answer])
    · exact .refl s
  · exact .refl s

/-- Every request keeps both laws. -/
theorem owner {kind : Byte} {o : Owner} (found : ownerOf kind = some o) (src : Byte) (args : List Byte)
    (s : State) : StationsKept s (o src args s).2 := by
  have h := StationsKept.refl s
  have plain {decide : State → Reply × State} (step : StationsKept s (decide s).2) :
      StationsKept s (plainRequest decide src args s).2 := by
    unfold plainRequest
    split
    · exact step
    · exact h
  have mem := ownerOf_mem found
  simp only [requestTable, List.mem_cons, Prod.mk.injEq, List.not_mem_nil, or_false] at mem
  rcases mem with ⟨-, rfl⟩ | ⟨-, rfl⟩ | ⟨-, rfl⟩ | ⟨-, rfl⟩ | ⟨-, rfl⟩ | ⟨-, rfl⟩ | ⟨-, rfl⟩ |
    ⟨-, rfl⟩ | ⟨-, rfl⟩ | ⟨-, rfl⟩ | ⟨-, rfl⟩ | ⟨-, rfl⟩ | ⟨-, rfl⟩ | ⟨-, rfl⟩ | ⟨-, rfl⟩ |
    ⟨-, rfl⟩ | ⟨-, rfl⟩ | ⟨-, rfl⟩ | ⟨-, rfl⟩ | ⟨-, rfl⟩ | ⟨-, rfl⟩
  · unfold readStatus
    split
    · exact h.then_guarded fun h => h.aside (by simp [clearOverflow])
    · exact h
  · rw [readTableRequest, readTable_state]; exact h
  · exact h.then_loadTable args
  · unfold setLocks
    split
    · split
      · exact h
      · exact h.aside (by simp [answer])
    · exact h
  · exact then_restart src args s
  · rw [readHolds_state]; exact h
  · exact plain (h.then_raiseHold (what := .consoleHold) nofun)
  · unfold ackHold
    split
    · split
      · exact h.then_ackRecord _
      · exact h
    · exact h
  · rw [readCabins_state]; exact h
  · rw [readWind_state]; exact h
  · refine plain ?_
    split <;> exact h.aside (by simp [answer])
  · refine plain ?_
    have stowed : StationsKept s (sequencerStow (changeWheel .stowed s)) := by
      unfold sequencerStow
      split <;> exact h.aside (by simp)
    split
    · split
      · exact stowed
      · exact stowed
      · exact h
      · exact h
    · exact h
  · refine plain ?_
    split
    · split
      · exact h
      · exact h.then_setTurning
    · exact h
  · refine plain ?_
    split <;> exact h.aside (by simp [answer])
  · refine plain ?_
    split
    · split
      · exact h.then_setTurning
      · exact h
    · exact h
  · refine plain ?_
    split
    · split
      · exact h
      · exact then_putResume (h.aside (by simp)) true
    · exact h
  · unfold setTrim
    split
    · exact h.aside (by simp [putTrim])
    · exact h
  · refine plain ?_
    split
    · exact h
    split
    · exact h
    split <;> exact h.aside (by simp [answer])
  · refine plain ?_
    split <;> exact h.aside (by simp [answer])
  · refine plain ?_
    split <;> exact h.aside (by simp [answer])
  · have named (z : Zone) : StationsKept s (armNamed z src s).2 := by
      unfold armNamed armFor
      split
      · exact h
      split
      · exact h
      split
      · exact h
      split
      · exact h
      split <;> exact h.aside (by simp [answer])
    unfold armZone
    split
    · split
      · exact named _
      · exact h
    · exact h

theorem judgeRequest (src kind : Byte) (args : List Byte) (s : State) :
    StationsKept s (judgeRequest (ownerOf kind) src kind args s).2 := by
  have asked : StationsKept s (match ownerOf kind with
      | some o => o src args s
      | none => answer .badKind s).2 := by
    cases found : ownerOf kind with
    | none => exact .refl s
    | some o => exact owner found src args s
  unfold Machine.judgeRequest
  split
  · exact asked
  split
  · exact asked
  · exact .refl s

/-! ### Frames -/

theorem then_observe (h : StationsKept s₀ s) (f : Frame) : StationsKept s₀ (observe f s) := by
  have position (src : Byte) (p : Nat) (health : Health) : StationsKept s₀ (observePosition src p health s) := by
    unfold observePosition
    split
    · exact h.then_encoderReport _ _ _
    split
    · exact h.then_encoderReport _ _ _
    · exact h
  have drive (src : Byte) (ready : Bool) (fault : Byte) (speed : Nat) :
      StationsKept s₀ (observeDrive src ready fault speed s) := by
    unfold observeDrive
    split
    · exact h.then_driveReport _ ready fault speed
    · exact h
  have wind (src : Byte) (speed direction : Nat) (health : Health) :
      StationsKept s₀ (observeWind src speed direction health s) := by
    unfold observeWind
    split
    · exact h.then_windSample _ speed direction health
    · exact h
  have door (src cabin : Byte) (d : Door) (n : Nat) : StationsKept s₀ (observeDoor src cabin d n s) := by
    unfold observeDoor
    split
    · split
      · exact h.then_cabinReport _ d n
      · exact h
    · exact h
  unfold observe
  split
  · split
    · exact position _ _ _
    split
    · exact drive _ _ _ _
    · exact h
  · split
    · exact wind _ _ _ _
    · exact h
  · split
    · exact door _ _ _ _
    · exact h
  · exact h

theorem then_doorCommand (h : StationsKept s₀ s) (f : Frame) : StationsKept s₀ (doorCommand f s) := by
  have unlocked (dst src cabin : Byte) : StationsKept s₀ (decideUnlock dst src cabin s) := by
    unfold decideUnlock forwardUnlock
    split
    · exact StationsKept.then_guarded (h.aside (by simp [forwardDoor])) fun h => h.then_testOverrun _
    · exact h.aside (by simp [deny])
  have locked (dst src cabin : Byte) : StationsKept s₀ (decideLock dst src cabin s) := by
    unfold decideLock
    split
    · exact h.aside (by simp [forwardDoor])
    · exact h.aside (by simp [deny])
  unfold doorCommand
  split
  · split
    · exact unlocked _ _ _
    split
    · exact locked _ _ _
    · exact h
  · exact h

theorem requestArrives (f : Frame) (s : State) : StationsKept s (requestArrives f s) := by
  unfold Machine.requestArrives
  split
  · next tag kind args _ =>
    unfold takeRequest
    split
    · exact (judgeRequest f.source kind args s).aside (by simp)
    · exact .refl s
  · exact .refl s

theorem decideFrame (f : Frame) (s : State) : StationsKept s (decideFrame f s) := by
  have same := StationsKept.refl s
  unfold Machine.decideFrame
  split
  · exact same
  split
  · exact same.then_doorCommand f
  split
  · have raised := same.then_raiseHold (what := .allStop f.source (f.payload.headD 0x00)) nofun
    exact raised.aside (u := takeAllStop f s) (by simp [takeAllStop])
  split
  · exact requestArrives f s
  · have observed := same.then_observe f
    rcases passOn_cases f (observe f s) with e | e <;> rw [e]
    · exact observed
    · exact observed.aside (by simp)

/-! ### Events and steps -/

theorem event {c : Instr} {t : Nat} {e : State → State} (event : Instr.event c = some (t, e)) (s : State) :
    StationsKept s (e s) := by
  have same := StationsKept.refl s
  cases c
  case encoderLapse => cases event; exact same.then_encoderLapse _
  case staleEvent => cases event; exact same.then_staleEvent _
  case windEvaluation => cases event; exact same.then_evaluate
  case dwellExpiry => cases event; exact same.then_expireDwell
  case headLapse => cases event; exact same.then_headLapse _
  case driveLapse => cases event; exact same.then_driveLapse _
  case settlingEnd | rotationUpdate | frameSendEnd => cases event; exact same.aside (by simp)
  all_goals cases event

/-- A law that each of these effects keeps, every step keeps. -/
theorem kept {law : State → Prop} (keeps : ∀ {s u}, StationsKept s u → law s → law u) : Kept law := by
  have aside {s u : State} (h : law s) (same : u.heads = s.heads ∧ u.drives = s.drives ∧
      u.tables.heads = s.tables.heads ∧ u.holds = s.holds) : law u := keeps ((StationsKept.refl s).aside same) h
  have steps : StepInvariant law law :=
    { resetLow := fun _ h => aside h ⟨rfl, rfl, rfl, rfl⟩
      release := fun _ _ h => keeps (of_reset rfl rfl rfl) h
      key := fun _ _ h => aside h ⟨rfl, rfl, rfl, rfl⟩
      time := fun _ _ _ h => aside h ⟨rfl, rfl, rfl, rfl⟩
      reception := fun _ h => aside h ⟨rfl, rfl, rfl, rfl⟩
      frame := fun f s h => keeps (decideFrame f s) h
      event := fun _ _ _ s event h => keeps (StationsKept.event event s) h
      arbiter := fun _ h => aside h ⟨rfl, rfl, rfl, rfl⟩ }
  exact steps.kept fun _ _ h => aside h ⟨rfl, rfl, rfl, rfl⟩

end StationsKept

/-- Settles O54: DRIVES_LOST is judged at each change of the ready count, and a head that is not believed or disabled
is emptied in the same effect. -/
theorem stepsKeepTheDriveAndHeadLaws : Obligations.StepsKeepTheDriveAndHeadLaws :=
  ⟨StationsKept.kept StationsKept.drives, StationsKept.kept StationsKept.heads⟩

end Sys2Proof.Machine
end

