-- ==== Sys2Proof/Proofs/WindRules.lean ====
section

/-!
# The rules of an evaluation

A comparison and a combination are each one arithmetic condition on their codes, so a rule's run on the two markers
and the candidate can be read off its entry (R109 to R112, R114).
-/

namespace Sys2Proof.Machine

/-! ### Comparisons and combinations -/

/-- The set of an IN test is read bit by bit (R110). -/
theorem inSet_holds (v threshold : Nat) :
    Comparison.inSet.holds v threshold = decide (v ≤ 7 ∧ threshold / 2 ^ v % 2 = 1) := by
  simp only [Comparison.holds, Nat.testBit_eq_decide_div_mod_eq, Bool.decide_and]

theorem isSet_holds (v threshold : Nat) : Comparison.isSet.holds v threshold = decide (v ≠ 0) :=
  (decide_not (p := v = 0)).symm

theorem judge_of_value {x : RuleTest} {fig : SiteFigures} {g : Grade} {m : Markers} {v : Option Nat}
    (value : x.quantity.value fig g m = v) :
    x.judge fig g m = v.elim false fun v => x.comparison.holds v x.threshold := by
  rw [← value, RuleTest.judge]
  cases x.quantity.value fig g m <;> rfl

/-- The weight of a case of the two results (R111). -/
def caseWeight (a b : Bool) : Nat := 2 ^ (2 * bit a + bit b)

theorem combine_eq (code : Nat) (a b : Bool) : combine code a b = decide (code / caseWeight a b % 2 = 1) :=
  Nat.testBit_eq_decide_div_mod_eq

/-- Settles O46: a code is read at the bit of the case that occurred, which is whether its weight is in the sum. -/
theorem testsCompareAndCombineAsTheirTables : Obligations.TestsCompareAndCombineAsTheirTables := by
  refine ⟨fun v th => ⟨decide_eq_true_iff, decide_eq_true_iff, ?_, ?_⟩, ?_, ?_, ?_, ?_⟩
  · rw [inSet_holds, decide_eq_true_iff]
  · rw [isSet_holds, decide_eq_true_iff]
  · intro x fig g m sector undefined
    exact judge_of_value (v := none) (by rw [sector]; exact undefined)
  · intro code a b _
    have weight : caseWeight a b = if a = true then (if b = true then 8 else 4) else if b = true then 2 else 1 := by
      cases a <;> cases b <;> rfl
    dsimp only
    rw [combine_eq, weight, decide_eq_true_iff]
  · intro q fig g m
    cases q <;> rfl
  · intro m marker op outcome
    refine ⟨rfl, ?_⟩
    cases marker <;> cases op <;> rfl

/-! ### The candidate of the rules (R114) -/

/-- The markers and the candidate side by side. -/
def packed (acc : Markers × Grade) : Bool × Bool × Grade := (acc.1.m1, acc.1.m2, acc.2)

/-- A run on the packed pair that follows the model's rule by rule ends at the model's candidate. -/
theorem candidateGrade_of_runs {run : Bool × Bool × Grade → RuleEntry → Bool × Bool × Grade} {fig : SiteFigures}
    {g : Grade} (runs : ∀ acc r, run (packed acc) r = packed (runRule fig g r acc)) (rules : Vector RuleEntry 16) :
    (rules.toList.foldl run (false, false, 0)).2.2 = candidateGrade rules fig g := by
  show (rules.toList.foldl run (packed (⟨false, false⟩, 0))).2.2 = _
  rw [List.foldl_hom packed runs]
  rfl

theorem runRule_of_disabled {r : RuleEntry} (disabled : r.enabled = false) (fig : SiteFigures) (g : Grade)
    (acc : Markers × Grade) : runRule fig g r acc = acc :=
  if_neg (ne_true_of_eq_false disabled)

/-- Where no rule is enabled the candidate stays 0 (R107). -/
theorem candidateGrade_of_disabled {rules : Vector RuleEntry 16}
    (disabled : ∀ i : Fin 16, rules[i].enabled = false) (fig : SiteFigures) (g : Grade) :
    candidateGrade rules fig g = 0 := by
  have start : rules.toList.foldl (fun acc r => runRule fig g r acc) (⟨false, false⟩, 0) = (⟨false, false⟩, 0) := by
    refine List.foldlRecOn (motive := (· = _)) rules.toList _ rfl fun acc same r mem => ?_
    obtain ⟨i, bound, here⟩ := Vector.mem_iff_getElem.1 (Vector.mem_toList_iff.1 mem)
    exact (runRule_of_disabled (here ▸ disabled ⟨i, bound⟩) fig g acc).trans same
  exact congrArg Prod.snd start

end Sys2Proof.Machine
end

