-- ==== Sys2Proof/Proofs/WindEvaluations.lean ====
section

/-!
# The evaluation and its grade step

An evaluation sets the flag and the computed grade, and then takes one of three turns by how the computed grade stands
to the grade in force: a rise is a change of the grade, an equal one ends the dwell, a fall feeds it (R115 to R117).
-/

namespace Sys2Proof.Machine

variable {s : State}

/-! ### Before the grade step -/

/-- Whether fewer than P19 heads are valid (R115). -/
def State.short (s : State) : Bool := decide (s.siteFigures.valid < s.p 19)

/-- The computed grade of an evaluation (R114, R115). -/
def State.computes (s : State) : Grade :=
  overrideGrade s.short (candidateGrade s.tables.rules s.siteFigures s.grader.inForce)

/-- The state with the flag and the computed grade of an evaluation, before its grade step (R114, R115). -/
def judged (s : State) : State :=
  let v := putHeadsShort s.short s.siteFigures.valid s
  v.setGrader { v.grader with computed := s.computes }

theorem evaluate_eq (s : State) : evaluate s = gradeStep s.computes (judged s) := rfl

theorem putHeadsShort_grader (short : Bool) (n : Nat) (s : State) :
    (putHeadsShort short n s).grader = { s.grader with headsShort := short } := by
  unfold putHeadsShort
  split
  · next same => rw [← same]
  · simp

theorem putHeadsShort_desk (short : Bool) (n : Nat) (s : State) :
    SameDesk (s.afterNotices (if s.grader.headsShort = short then [] else [.headsShort n]))
      (putHeadsShort short n s) := by
  unfold putHeadsShort
  split
  · exact .refl s
  · exact ((SameDesk.refl s).aside (v := s.setGrader { s.grader with headsShort := short }) ⟨rfl, rfl, rfl⟩).notify _

theorem judged_grader (s : State) :
    (judged s).grader = { s.grader with headsShort := s.short, computed := s.computes } := by
  show { (putHeadsShort s.short s.siteFigures.valid s).grader with computed := s.computes } = _
  rw [putHeadsShort_grader]

theorem judged_untouched (s : State) : Untouched [.grader] s (judged s) := by
  obtain ⟨pending, -, tables, tracker, cabins, permits, service, heads, holds, rot, drives⟩ :=
    putHeadsShort_frame s s.short s.siteFigures.valid
  refine ⟨pending, fun b other => ?_⟩
  cases b with
  | grader => simp at other
  | tables => exact tables
  | tracker => exact tracker
  | cabins => exact cabins
  | permits => exact permits
  | service => exact service
  | heads => exact heads
  | holds => exact holds
  | rot => exact rot
  | drives => exact drives

/-! ### A rise of the grade in force (R116, R120) -/

/-- A rise to 4 leaves a WIND_STOP record. -/
theorem changeGrade_windStop (rise : s.grader.inForce < 4) : (changeGrade 4 s).holdsKey .windStop = true := by
  obtain ⟨v, e, -, -, key⟩ := changeGrade_sequenced 4 s
  rw [e, State.holdsKey_congr (sequencerGrade_frame v 4).2.2.2.2.2.2.2.1, key, windStopped,
    if_pos ⟨ne_of_lt rise, rfl⟩, raiseHold_holdsKey]
  exact Bool.or_true _

theorem sequencerGrade_permits (g : Grade) (s : State) : PermitsClear s (sequencerGrade g s) := by
  unfold sequencerGrade
  split
  · exact enterClearDown_permits .wind s
  · exact .of_permits rfl

/-- At 4 no permit stands: the sequencer, which acts last, arms none (R61). -/
theorem changeGrade_clears (s : State) (z : Zone) : (changeGrade 4 s).permits.get z = .clear := by
  rw [changeGrade_eq, if_pos rfl]
  exact (sequencerGrade_permits 4 _).clear (by cases z <;> rfl)

/-- A grade of 3 or above sends OPEN to CLEARDOWN, which with no occupied cabin is completed at once (R83, R91). -/
theorem changeGrade_service_of_forced {g : Grade} (opened : s.service.mode = .opened) (high : 3 ≤ g.val) :
    (changeGrade g s).service.mode = .clearDown ∨ (changeGrade g s).service.mode = .cleared := by
  obtain ⟨v, e, -, service, -⟩ := changeGrade_sequenced g s
  rw [e, sequencerGrade, if_pos ⟨service ▸ opened, high⟩, enterClearDown_service]
  split
  · exact .inr rfl
  · exact .inl rfl

theorem changeGrade_service_of_calm {g : Grade} (calm : ¬(s.service.mode = .opened ∧ 3 ≤ g.val)) :
    (changeGrade g s).service = s.service := by
  obtain ⟨v, e, -, service, -⟩ := changeGrade_sequenced g s
  rw [e, sequencerGrade, if_neg (service ▸ calm), service]

/-! ### The three turns of the grade step (R116, R117) -/

theorem evaluate_of_rise (rise : s.grader.inForce < s.computes) :
    evaluate s = changeGrade s.computes (putDwell none (judged s)) := by
  rw [evaluate_eq, gradeStep, if_pos (by rwa [judged_grader])]

theorem evaluate_of_equal (equal : s.computes = s.grader.inForce) : evaluate s = putDwell none (judged s) := by
  have inForce : (judged s).grader.inForce = s.grader.inForce := by rw [judged_grader]
  rw [evaluate_eq, gradeStep, inForce, if_neg (equal ▸ lt_irrefl _), if_pos equal]

theorem evaluate_of_fall (fall : s.computes < s.grader.inForce) :
    evaluate s = putDwell ((judged s).fallDwell s.computes) (judged s) := by
  have inForce : (judged s).grader.inForce = s.grader.inForce := by rw [judged_grader]
  rw [evaluate_eq, gradeStep, inForce, if_neg (lt_asymm fall), if_neg (ne_of_lt fall)]

/-- An evaluation that does not raise the grade in force only puts a dwell. -/
theorem evaluate_of_stay (stay : s.computes ≤ s.grader.inForce) : ∃ d, evaluate s = putDwell d (judged s) := by
  rcases lt_or_eq_of_le stay with fall | equal
  · exact ⟨_, evaluate_of_fall fall⟩
  · exact ⟨_, evaluate_of_equal equal⟩

/-- What every evaluation leaves of the grader's other fields. -/
theorem evaluate_grader (s : State) :
    (evaluate s).grader.computed = s.computes ∧ (evaluate s).grader.headsShort = s.short ∧
      (evaluate s).grader.settling = s.grader.settling := by
  rcases lt_or_ge s.grader.inForce s.computes with rise | stay
  · rw [evaluate_of_rise rise, changeGrade_grader]
    simp [putDwell, judged_grader]
  · obtain ⟨d, e⟩ := evaluate_of_stay stay
    rw [e]
    simp [putDwell, judged_grader]

theorem evaluate_untouched (s : State) :
    Untouched [.permits, .service, .grader, .holds, .rot] s (evaluate s) := by
  have dwelt (d : Option Dwell) : Untouched [.grader] s (putDwell d (judged s)) :=
    ((judged_untouched s).trans (setGrader_untouched _ _)).mono (by simp)
  rcases lt_or_ge s.grader.inForce s.computes with rise | stay
  · rw [evaluate_of_rise rise]
    exact ((dwelt none).trans (changeGrade_untouched _ _)).mono (by simp)
  · obtain ⟨d, e⟩ := evaluate_of_stay stay
    rw [e]
    exact (dwelt d).mono (by simp)

/-- What an evaluation leaves that does not raise the grade in force (R116, R117). -/
theorem evaluate_stays (stay : s.computes ≤ s.grader.inForce) :
    Untouched [.grader] s (evaluate s) ∧ (evaluate s).grader.inForce = s.grader.inForce ∧
      SameDesk (s.afterNotices (if s.grader.headsShort = s.short then [] else [.headsShort s.siteFigures.valid]))
        (evaluate s) := by
  obtain ⟨d, e⟩ := evaluate_of_stay stay
  rw [e]
  refine ⟨((judged_untouched s).trans (setGrader_untouched _ _)).mono (by simp), ?_,
    (putHeadsShort_desk s.short s.siteFigures.valid s).aside ⟨rfl, rfl, rfl⟩⟩
  show (judged s).grader.inForce = s.grader.inForce
  rw [judged_grader]

/-- What an evaluation leaves that raises the grade in force (R116, R120, R61, R83). -/
theorem evaluate_rises (rise : s.grader.inForce < s.computes) :
    (evaluate s).grader.inForce = s.computes ∧ (evaluate s).grader.dwell = none ∧
      (s.computes = 4 → (evaluate s).holdsKey .windStop = true ∧ ∀ z, (evaluate s).permits.get z = .clear) ∧
      (s.computes ≠ 4 → (evaluate s).holds = s.holds) ∧
      (s.service.mode = .opened → 3 ≤ s.computes.val →
        (evaluate s).service.mode = .clearDown ∨ (evaluate s).service.mode = .cleared) ∧
      (¬(s.service.mode = .opened ∧ 3 ≤ s.computes.val) → (evaluate s).service = s.service) := by
  have same := (judged_untouched s).2
  have service : (putDwell none (judged s)).service = s.service := same .service (by simp)
  have holds : (putDwell none (judged s)).holds = s.holds := same .holds (by simp)
  have inForce : (putDwell none (judged s)).grader.inForce = s.grader.inForce := by
    show (judged s).grader.inForce = s.grader.inForce
    rw [judged_grader]
  have dwell : (putDwell none (judged s)).grader.dwell = none := rfl
  rw [evaluate_of_rise rise]
  generalize putDwell none (judged s) = v at service holds inForce dwell
  generalize s.computes = c at rise
  rw [← inForce] at rise
  rw [changeGrade_grader, ← service, ← holds]
  refine ⟨rfl, dwell, ?_, fun other => ?_, changeGrade_service_of_forced, changeGrade_service_of_calm⟩
  · rintro rfl
    exact ⟨changeGrade_windStop rise, changeGrade_clears v⟩
  · rw [changeGrade_holds_of_fall other, if_neg (ne_of_lt (lt_of_lt_of_le rise (show c ≤ 4 from Fin.le_last c)))]

/-! ### The dwell of a fall (R117) -/

theorem judged_fallDwell (c : Grade) (s : State) : (judged s).fallDwell c = s.fallDwell c := by
  have tables : (judged s).tables = s.tables := (judged_untouched s).2 .tables (by simp)
  have lines : (judged s).lines = s.lines := (putHeadsShort_frame s s.short s.siteFigures.valid).2.1
  simp only [State.fallDwell, State.dwellLength, State.p, judged_grader, tables, lines]

/-- A grade above 0 dwells for its parameter's seconds. -/
theorem dwellLength_eq {g : Grade} (above : g ≠ 0) (s : State) : s.dwellLength g =
    1000 * if g = 1 then s.p 20 else if g = 2 then s.p 21 else if g = 3 then s.p 22 else s.p 23 := by
  match g, above with
  | 1, _ | 2, _ | 3, _ | 4, _ => rfl

/-- Settles O47: a rule's run on the packed markers and candidate is the model's, and the three turns of the grade
step are a rise, no change, and a fall. -/
theorem evaluationsRaiseAtOnceAndDwellBeforeAFall : Obligations.EvaluationsRaiseAtOnceAndDwellBeforeAFall := by
  intro t s reset fig short g value holds run computed
  have judges (m : Markers) (x : RuleTest) : holds m.m1 m.m2 x = x.judge fig g m := by
    have valued : value m.m1 m.m2 x.quantity = x.quantity.value fig g m := by
      cases x.quantity <;> rfl
    rw [judge_of_value valued.symm]
    simp only [holds]
    cases value m.m1 m.m2 x.quantity with
    | none => rfl
    | some v =>
      cases comparison : x.comparison with
      | atLeast | below => rfl
      | inSet => exact (inSet_holds v x.threshold).symm
      | isSet => exact (isSet_holds v x.threshold).symm
  have runs (acc : Markers × Grade) (r : RuleEntry) : run (packed acc) r = packed (runRule fig g r acc) := by
    obtain ⟨m, best⟩ := acc
    cases enabled : r.enabled with
    | false =>
      rw [runRule_of_disabled enabled]
      exact if_pos enabled
    | true =>
      simp only [run, packed, runRule, enabled, judges, combine_eq, Bool.true_eq_false, if_false, if_true]
      generalize r.testA.judge fig g m = a
      generalize r.testB.judge fig g m = b
      cases a <;> cases b
      all_goals
        rcases r.effect with _ | ⟨marker, op⟩
        · rfl
        · cases marker <;> cases op <;> rfl
  have candidate : computed = (s.advance t).computes := by
    simp only [computed, candidateGrade_of_runs runs]
    rfl
  clear_value computed
  subst candidate
  have done : Completes (.windEvaluation t) s (evaluate (s.advance t)) := completes_of_event reset rfl
  obtain ⟨computes, headsShort, settling⟩ := evaluate_grader (s.advance t)
  refine ⟨_, done, (evaluate_frame (s.advance t)).2.1, (evaluate_untouched (s.advance t)).of_advance, computes,
    headsShort, settling, fun disabled enough => ?_, fun stay => ?_, fun equal => ?_, fun fall => ?_,
    fun rise => evaluate_rises (s := s.advance t) rise⟩
  · show (if short = true then (4 : Grade) else candidateGrade s.tables.rules fig g) = 0
    rw [enough, candidateGrade_of_disabled disabled]
    rfl
  · obtain ⟨blocks, inForce, desk⟩ := evaluate_stays (s := s.advance t) stay
    exact ⟨blocks.of_advance, inForce, (((sameDesk_advance t s).afterNotices _).trans desk).noticesQueued⟩
  · rw [evaluate_of_equal (s := s.advance t) equal]
    rfl
  · have above : s.grader.inForce ≠ 0 := Fin.ne_zero_of_lt fall
    have grader : (s.advance t).grader = s.grader := rfl
    rw [evaluate_of_fall (s := s.advance t) fall]
    show (judged (s.advance t)).fallDwell _ = _
    rw [judged_fallDwell, State.fallDwell, grader, dwellLength_eq above]
    cases s.grader.settling <;> cases s.grader.dwell <;> rfl

end Sys2Proof.Machine
end

