-- ==== Sys2Proof/Proofs/HoldList.lean ====
section

/-!
# The hold list's own law, and HOLD

The hold list needs no other block for its law: the effects that the breach list shares with the cabins keep it one by
one, so every step does (R123, R125, R126). HOLD is one raise of CONSOLE_HOLD: it finds the record standing, or makes
it and sets resume-required, and a RUNNING wheel then stops (R129, R147, R149).
-/

namespace Sys2Proof.Machine

variable {s u : State}

/-! ### The law of the hold list -/

/-- A ZONES load touches the hold list only by the moves and crossings of the new zones (R56). -/
theorem applyZones_holdsKept (ps : Entries) (s : State) : HoldsKept s (applyZones ps s).2 := by
  unfold applyZones
  dsimp only
  split
  · exact .refl s
  · generalize ({ unload := _, load := _ } : ByZone ZoneEntry) = zones
    have loaded : HoldsKept s (s.setTables { s.tables with zones := zones }) := (HoldsKept.refl s).aside ⟨rfl, rfl⟩
    unfold zonesChanged
    split
    · exact loaded.then_recompute false
    · exact loaded

theorem holdLaw_invariant : BlockInvariant HoldLaw where
  routine effect := effect.law
  powerOn _ _ _ _ := (heldBreach_of_reset rfl rfl).1
  restarted _ := (heldBreach_of_reset rfl rfl).1
  reform moved := moved.toHoldsKept.then_reform.law
  zones {s} ps := (applyZones_holdsKept ps s).law
  unlock {s z k} _ := HoldsKept.law ((HoldsKept.refl s).aside (u := startCycle k (spendPermit z k s)) (by simp))
  arm {s z k} _ := HoldsKept.law (.of_records (s := s) (u := putPermit z (.armed k) s) (Nat.le_refl _) rfl)
  acked _ _ _ := clearHold_law _

/-- Settles O51: every effect on the list is a raise of a key without a record, a cabin new to the breach list, a
clear, a mark or a reset. -/
theorem stepsKeepTheHoldLaw : Obligations.StepsKeepTheHoldLaw := holdLaw_invariant.kept

/-! ### A raise of CONSOLE_HOLD -/

/-- A raise of a CONSOLE-class kind without a record appends it and sets resume-required (R125). -/
theorem raiseHold_holds_of_console {what : Hold} (console : what.key.console = true)
    (fresh : s.holdsKey what.key = false) :
    (raiseHold what s).holds =
      { records := s.holds.records ++ [{ what := what, raised := s.lines.now, acked := false }]
        resumeRequired := true } := by
  rw [raiseHold_holds, fresh, if_neg Bool.false_ne_true, appendHold, console, Bool.or_true]
  rfl

theorem raiseHold_untouched (what : Hold) (s : State) : Untouched [.holds, .rot] s (raiseHold what s) :=
  untouched_of_hold_frame (raiseHold_frame s what)

/-- A change to the hold list that leaves the rotation record. -/
theorem Untouched.holds_of_rot (h : Untouched [.holds, .rot] s u) (rot : u.rot = s.rot) : Untouched [.holds] s u := by
  refine ⟨h.1, fun b other => ?_⟩
  by_cases wheel : b = .rot
  · subst wheel
    exact rot
  · exact h.2 b (by simpa [wheel] using other)

/-! ### HOLD -/

theorem holdRequest_bare (src : Byte) (s : State) :
    holdRequest src [] s = answer .done (raiseHold .consoleHold s) := rfl

/-- Settles O35: the raise finds the record, or makes it beside a wheel that does not run, or makes it and stops the
wheel. -/
theorem holdStopsTheWheelForTheConsole : Obligations.HoldStopsTheWheelForTheConsole := by
  intro t src tag args s takes short c new
  have done {changed : List Block} {ns : List Notice} (bare : args = [])
      (blocks : Untouched changed (s.advance t) (raiseHold .consoleHold (s.advance t)))
      (desk : SameDesk ((s.advance t).afterNotices ns) (raiseHold .consoleHold (s.advance t))) :
      Done c t s (pushResponse src tag 0x11 (.plain .done) (raiseHold .consoleHold (s.advance t))) src tag 0x11
        changed ns :=
    done_of_owner (o := holdRequest) rfl takes short rfl ((Quiet.refl (s.advance t)).then_holdRequest src args)
      (bare ▸ holdRequest_bare src (s.advance t)) blocks desk
  have blocks := raiseHold_untouched .consoleHold (s.advance t)
  refine ⟨fun extra => ?_, fun bare stands => ?_, fun bare fresh idle => ?_, fun bare fresh running => ?_⟩
  · exact turnsAway_of_owner (o := holdRequest) rfl takes short rfl (plainRequest_badLength extra _ src _)
  · have same : raiseHold .consoleHold (s.advance t) = s.advance t := raiseHold_of_stands (s := s.advance t) stands
    exact ⟨_, done bare (same.symm ▸ .refl _) (ns := []) (same.symm ▸ .refl _)⟩
  · obtain ⟨rot, desk⟩ := raiseHold_of_fresh (s := s.advance t) (what := .consoleHold) nofun fresh
    have idle : ¬ (s.advance t).rot.wheel = .running := idle
    rw [if_neg idle] at rot desk
    exact ⟨_, done bare (blocks.holds_of_rot rot) desk, raiseHold_holds_of_console (s := s.advance t) rfl fresh⟩
  · obtain ⟨rot, desk⟩ := raiseHold_of_fresh (s := s.advance t) (what := .consoleHold) nofun fresh
    have running : (s.advance t).rot.wheel = .running := running
    intro rest
    have atRest : rest = (s.advance t).atRest := Bool.eq_iff_iff.2 (decide_eq_true_iff.trans (atRest_iff _).symm)
    rw [if_pos running, ← atRest] at rot desk
    exact ⟨_, done bare blocks desk, raiseHold_holds_of_console (s := s.advance t) rfl fresh, rot⟩

end Sys2Proof.Machine
end

