-- ==== Sys2Proof/Proofs/WheelEffects.lean ====
section

/-!
# What effects keep of the wheel

The wheel is moved by raises and clears, by the end of stopping and by the completion of clear-down (R147 to R150,
R143). None of these raises the reference; only the entry to BRAKED lowers it. Every effect built of them keeps the
wheel's law, and leaves V_cmd as it was or 0 in BRAKED (R139, R140, R147, R156).
-/

namespace Sys2Proof.Machine

variable {s u v s₀ : State}

theorem Wheel.pendsStop_iff (w : Wheel) : w.pendsStop = true ↔ w = .stopping .standby := by
  cases w with
  | stopping d => cases d <;> simp [Wheel.pendsStop]
  | _ => simp [Wheel.pendsStop]

/-- The reference is 0 at rest (R156). -/
theorem WheelLaw.rest (law : WheelLaw s) (still : s.rot.wheel.moving = false) : s.rot.vCmd = 0 := law.2.2.1 still

/-! ### What an effect keeps -/

/-- The effect keeps the wheel's law, and leaves V_cmd, with a wheel in BRAKED staying there; or it has entered
BRAKED. -/
structure WheelKept (s u : State) : Prop where
  law : WheelLaw s → WheelLaw u
  speed : (u.rot.vCmd = s.rot.vCmd ∧ (s.rot.wheel = .braked → u.rot.wheel = .braked)) ∨
    (u.rot.vCmd = 0 ∧ u.rot.wheel = .braked)

namespace WheelKept

theorem trans (first : WheelKept s v) (second : WheelKept v u) : WheelKept s u where
  law := second.law ∘ first.law
  speed := by
    rcases second.speed with ⟨same, stays⟩ | braked
    · rcases first.speed with ⟨same', stays'⟩ | ⟨zero, braked⟩
      · exact .inl ⟨same.trans same', stays ∘ stays'⟩
      · exact .inr ⟨same.trans zero, stays braked⟩
    · exact .inr braked

/-- An effect that leaves the rotation record. -/
theorem of_rot (rot : u.rot = s.rot)
    (running : s.rot.wheel = .running → s.holds.records = [] → u.holds.records = [])
    (stowed : s.rot.wheel = .stowed → s.service.mode = .closed → u.service.mode = .closed) :
    WheelKept s u where
  law law := by
    obtain ⟨pending, empty, rest, closed⟩ := law
    rw [WheelLaw, rot]
    exact ⟨pending, fun h => running h (empty h), rest, fun h => stowed h (closed h)⟩
  speed := by
    rw [rot]
    exact .inl ⟨rfl, id⟩

/-- An effect that moves the wheel out of a state but BRAKED. -/
theorem of_wheel {w : Wheel} (rot : u.rot = { s.rot with wheel := w, stopPending := w.pendsStop })
    (free : s.rot.wheel ≠ .braked) (running : w = .running → u.holds.records = [])
    (rest : WheelLaw s → w.moving = false → s.rot.vCmd = 0) (stowed : w = .stowed → u.service.mode = .closed) :
    WheelKept s u where
  law law := by
    rw [WheelLaw, rot]
    exact ⟨w.pendsStop_iff, running, rest law, stowed⟩
  speed := by
    rw [rot]
    exact .inl ⟨rfl, fun braked => absurd braked free⟩

/-- An entry to BRAKED (R150). -/
theorem of_braked (rot : u.rot = { s.rot with wheel := .braked, stopPending := false, vCmd := 0 }) :
    WheelKept s u where
  law _ := by
    rw [WheelLaw, rot]
    exact ⟨⟨nofun, nofun⟩, nofun, fun _ => rfl, nofun⟩
  speed := by
    rw [rot]
    exact .inr ⟨rfl, rfl⟩

theorem refl (s : State) : WheelKept s s := of_rot rfl (fun _ => id) fun _ => id

theorem aside (h : WheelKept s₀ s) (same : u.rot = s.rot ∧ u.holds = s.holds ∧ u.service.mode = s.service.mode) :
    WheelKept s₀ u := by
  obtain ⟨rot, holds, mode⟩ := same
  exact h.trans (of_rot rot (by rw [holds]; exact fun _ => id) (by rw [mode]; exact fun _ => id))

/-- A change of the service mode while the wheel is not STOWED, or to CLOSED. -/
theorem then_mode (h : WheelKept s₀ s) (same : u.rot = s.rot ∧ u.holds = s.holds)
    (stowed : s.rot.wheel = .stowed → s.service.mode = .closed → u.service.mode = .closed) : WheelKept s₀ u :=
  h.trans (of_rot same.1 (by rw [same.2]; exact fun _ => id) stowed)

theorem then_forEach {α : Type} {f : α → State → State} (h : WheelKept s₀ s)
    (step : ∀ x s, WheelKept s₀ s → WheelKept s₀ (f x s)) (xs : List α) : WheelKept s₀ (s.forEach xs f) := by
  unfold State.forEach
  induction xs generalizing s with
  | nil => exact h
  | cons x xs ih => exact ih (step x s h)

theorem then_guarded {c : Prop} [Decidable c] {f : State → State} (h : WheelKept s₀ s)
    (step : ∀ {u}, WheelKept s₀ u → WheelKept s₀ (f u)) : WheelKept s₀ (if c then f s else s) := by
  split
  · exact step h
  · exact h

/-! ### Changes of the wheel -/

theorem then_changeWheel (h : WheelKept s₀ s) {w : Wheel} (free : s.rot.wheel ≠ .braked)
    (running : w = .running → s.holds.records = []) (rest : WheelLaw s → w.moving = false → s.rot.vCmd = 0)
    (stowed : w = .stowed → s.service.mode = .closed) : WheelKept s₀ (changeWheel w s) :=
  h.trans (of_wheel (changeWheel_rot s w) free (by simpa using running) rest (by simpa using stowed))

theorem then_judgeEnd (h : WheelKept s₀ s) : WheelKept s₀ (judgeEnd s) := by
  rcases judgeEnd_cases s with ⟨d, wheel, rest, e⟩ | e <;> rw [e]
  · refine h.then_changeWheel (by rw [wheel]; nofun) ?_ (fun _ _ => ((atRest_iff s).1 rest).1) ?_
    · cases d <;> nofun
    · cases d <;> nofun
  · exact h

theorem then_stopToStandby (h : WheelKept s₀ s) : WheelKept s₀ (stopToStandby s) := by
  unfold stopToStandby
  split
  · next wheel =>
    exact (h.then_changeWheel (w := .stopping .standby) (by rw [wheel]; nofun) nofun nofun nofun).then_judgeEnd
  · next wheel => exact h.then_changeWheel (by rw [wheel]; nofun) nofun nofun nofun
  · next wheel =>
    exact h.then_changeWheel (by rw [wheel]; nofun) nofun (fun law _ => law.rest (by rw [wheel]; rfl)) nofun
  · exact h

/-! ### Raises and clears -/

/-- A raise stops a RUNNING wheel, so the list is empty in RUNNING still (R147). -/
theorem then_raiseHold (h : WheelKept s₀ s) (what : Hold) : WheelKept s₀ (raiseHold what s) := by
  refine h.trans ?_
  cases stands : s.holdsKey what.key with
  | true => rw [raiseHold_of_stands stands]; exact .refl s
  | false =>
    by_cases key : what.key = .allStop
    · rw [raiseHold_allStop key, if_neg (by rw [← key, stands]; nofun)]
      split
      · exact of_braked (by rw [enterBraked_rot, stopRaised_rot])
      · next still =>
        refine of_rot (stopRaised_rot what s) (fun running => absurd ?_ still) (by simp [stopRaised])
        rw [running]
        rfl
    · have rot := (raiseHold_of_fresh key stands).1
      have stowed : (raiseHold what s).service.mode = s.service.mode := by simp
      split at rot
      · next running =>
        refine of_wheel (w := if s.atRest = true then .held else .stopping .held) (rot.trans ?_)
          (by rw [running]; nofun) ?_ (fun _ => ?_) ?_
        · split <;> rfl
        · split <;> nofun
        · split
          · next rest => exact fun _ => ((atRest_iff s).1 rest).1
          · nofun
        · split <;> nofun
      · next other => exact of_rot rot (fun running => absurd running other) (by rw [stowed]; exact fun _ => id)

theorem then_raiseBreach (h : WheelKept s₀ s) (k : Cabin) : WheelKept s₀ (raiseBreach k s) := by
  unfold raiseBreach
  split
  · split
    · exact h
    · exact h.trans (of_rot (by simp) (by simp +contextual) (by simp))
  · exact h.then_raiseHold _

/-- A clear sets the wheel RUNNING only where it has emptied the list (R148). -/
theorem then_clearHold (h : WheelKept s₀ s) (key : HoldKey) : WheelKept s₀ (clearHold key s) := by
  refine h.trans ?_
  cases found : s.holdRecord key with
  | none => rw [clearHold_of_absent found]; exact .refl s
  | some r =>
    have rot := clearHold_rotation found
    have holds := clearHold_holds s key
    split at rot
    · next returns =>
      obtain ⟨empty, -, back⟩ := returns
      refine of_wheel (w := .running) rot ?_ (fun _ => ?_) nofun nofun
      · have back : s.rot.wheel = .held ∨ s.rot.wheel = .stopping .held := back
        rcases back with wheel | wheel <;> rw [wheel] <;> nofun
      · rw [holds]
        exact empty
    · exact of_rot rot (fun _ empty => by rw [holds, empty]; rfl) (by simp)

theorem then_markAcked (h : WheelKept s₀ s) (key : HoldKey) : WheelKept s₀ (markAcked key s) :=
  h.trans (of_rot (by simp) (fun _ empty => by simp [markAcked, empty]) (by simp))

theorem then_clearOverload (h : WheelKept s₀ s) (k : Cabin) : WheelKept s₀ (clearOverload k s) := by
  unfold clearOverload
  split
  · exact h.then_guarded fun h => h.then_clearHold _
  · exact h

/-! ### The release gate -/

theorem then_testOverrun (h : WheelKept s₀ s) (z : Zone) : WheelKept s₀ (testOverrun z s) := by
  unfold testOverrun
  split
  · exact h.then_raiseHold _
  · exact h

theorem then_testCabin (h : WheelKept s₀ s) (k : Cabin) : WheelKept s₀ (testCabin k s) := by
  unfold testCabin
  split
  · exact h.then_guarded fun h => h.then_testOverrun _
  · exact h

theorem then_clearOverrun (h : WheelKept s₀ s) (z : Zone) : WheelKept s₀ (clearOverrun z s) :=
  (h.then_clearHold (.zoneOverrun z)).then_testOverrun z

theorem then_gateReport (h : WheelKept s₀ s) (k : Cabin) : WheelKept s₀ (gateReport k s) := by
  have cleared {u : State} (h : WheelKept s₀ u) (z : Zone) : WheelKept s₀ (autoClear z k u) :=
    h.then_guarded fun h => h.then_clearOverrun z
  exact (cleared (cleared h .unload) .load).then_testCabin k

theorem then_gateCompletion (h : WheelKept s₀ s) (k : Cabin) : WheelKept s₀ (gateCompletion k s) :=
  (h.then_testCabin k).aside (by simp [gateCompletion])

/-! ### The service sequencer -/

/-- The service moves on from a mode but CLOSED, in which the wheel is not STOWED (R140). -/
theorem then_sequenced (h : WheelKept s₀ s) (mode : s.service.mode ≠ .closed)
    (same : u.rot = s.rot ∧ u.holds = s.holds) : WheelKept s₀ u :=
  h.then_mode same fun _ closed => absurd closed mode

theorem then_checkComplete (h : WheelKept s₀ s) : WheelKept s₀ (checkComplete s) := by
  unfold checkComplete
  split
  · next complete =>
    have cleared : WheelKept s₀ (cleared s) := h.then_sequenced (by rw [complete.1]; nofun) (by simp [cleared])
    exact cleared.then_stopToStandby
  · exact h

theorem then_enterClearDown (h : WheelKept s₀ s) (mode : s.service.mode ≠ .closed) (cause : ModeCause) :
    WheelKept s₀ (enterClearDown cause s) := by
  rw [enterClearDown_eq]
  exact then_checkComplete (h.then_sequenced mode (by simp [listed]))

theorem then_sequencerGrade (h : WheelKept s₀ s) (g : Grade) : WheelKept s₀ (sequencerGrade g s) := by
  unfold sequencerGrade
  split
  · next opened => exact h.then_enterClearDown (by rw [opened.1]; nofun) .wind
  · exact h

theorem then_putList (h : WheelKept s₀ s) (ks : List Cabin) : WheelKept s₀ (putList ks s) := h.aside ⟨rfl, rfl, rfl⟩

theorem then_sequencerReport (h : WheelKept s₀ s) (k : Cabin) : WheelKept s₀ (sequencerReport k s) := by
  unfold sequencerReport
  split
  · split <;> exact h.then_putList _
  · exact h

theorem then_sequencerExit (h : WheelKept s₀ s) (moved : Bool) (k : Cabin) : WheelKept s₀ (sequencerExit moved k s) := by
  refine h.then_guarded fun h => ?_
  unfold passage
  split
  · exact (h.then_putList _).then_checkComplete
  · exact h.then_putList _

/-! ### The cabin records -/

theorem then_uncommandedOpening (h : WheelKept s₀ s) (k : Cabin) : WheelKept s₀ (uncommandedOpening k s) :=
  then_testCabin (h.aside (by simp)) k

theorem then_advanceCycle (h : WheelKept s₀ s) (k : Cabin) : WheelKept s₀ (advanceCycle k s) := by
  have completed : WheelKept s₀ (gateCompletion k (endCycle k s)) := then_gateCompletion (h.aside (by simp)) k
  unfold advanceCycle
  dsimp only
  split
  · exact h.then_guarded fun h => h.then_uncommandedOpening k
  · split
    · exact then_testCabin (h.aside (by simp)) k
    · split
      · exact completed
      · exact h
  · split
    · exact h
    · exact completed

theorem then_judgeOverload (h : WheelKept s₀ s) (k : Cabin) : WheelKept s₀ (judgeOverload k s) := by
  unfold judgeOverload
  dsimp only
  split
  · split
    · exact then_clearOverload (h.aside (by simp)) k
    · exact h
  · split
    · exact then_raiseHold (h.aside (by simp)) _
    · exact h

theorem then_judgeBreach (h : WheelKept s₀ s) (k : Cabin) : WheelKept s₀ (judgeBreach k s) :=
  h.then_guarded fun h => h.then_raiseBreach k

theorem then_judgeExitBreach (h : WheelKept s₀ s) (k : Cabin) : WheelKept s₀ (judgeExitBreach k s) := by
  unfold judgeExitBreach
  split
  · split
    · exact h
    · exact h.aside (by simp)
    · exact h.then_raiseBreach k
  · exact h

theorem then_cabinReport (h : WheelKept s₀ s) (k : Cabin) (d : Door) (n : Nat) :
    WheelKept s₀ (cabinReport k d n s) := by
  have recorded : WheelKept s₀ (recordReport k d n s) := h.aside (by simp)
  exact ((((recorded.then_judgeOverload k).then_advanceCycle k).then_judgeBreach k).then_gateReport
    k).then_sequencerReport k

theorem then_doorStale (h : WheelKept s₀ s) (k : Cabin) : WheelKept s₀ (doorStale k s) :=
  then_testCabin (h.aside (by simp)) k

theorem then_staleEvent (h : WheelKept s₀ s) (k : Cabin) : WheelKept s₀ (staleEvent k s) :=
  h.then_guarded fun h => h.then_doorStale k

theorem then_forgetDoor (h : WheelKept s₀ s) (k : Cabin) : WheelKept s₀ (forgetDoor k s) := by
  have forgotten : WheelKept s₀ (s.setCabin k { s.cabin k with lastReport := none }) := h.aside ⟨rfl, rfl, rfl⟩
  unfold forgetDoor
  dsimp only
  split
  · exact forgotten
  · exact forgotten.then_doorStale k

/-! ### The moves between memberships -/

theorem then_zoneExit (h : WheelKept s₀ s) (moved : Bool) (z : Zone) (k : Cabin) :
    WheelKept s₀ (zoneExit moved z k s) := by
  have left : WheelKept s₀ (clearPermitAt z k (cabinExit k s)) := by
    rw [cabinExit_eq]
    exact aside (then_judgeExitBreach (h.aside (u := s.setCabin k (s.cabin k).left) (by simp)) k) (by simp)
  exact left.then_guarded fun h => h.then_sequencerExit moved k

theorem then_zoneEntry (h : WheelKept s₀ s) (z : Zone) (k : Cabin) : WheelKept s₀ (zoneEntry z k s) := by
  unfold zoneEntry
  dsimp only
  split
  · exact then_uncommandedOpening (h.aside (by simp)) k
  · exact h.aside (by simp)

theorem then_deliverMoves (h : WheelKept s₀ s) (moved : Bool) (old new : ByZone Occupancy) :
    WheelKept s₀ (deliverMoves moved old new s) := by
  refine (h.then_forEach (fun z _ h => ?_) _).then_forEach (fun z _ h => ?_) _
  · unfold deliverExit
    split
    · split
      · exact h
      · exact h.then_zoneExit moved z _
    · exact h
  · unfold deliverEntry
    split
    · split
      · exact h
      · exact h.then_zoneEntry z _
    · exact h

theorem then_deliverCrossings (h : WheelKept s₀ s) (old new : ByZone Occupancy) :
    WheelKept s₀ (deliverCrossings old new s) :=
  h.then_forEach (fun z _ h => h.then_guarded fun h => h.then_testOverrun z) _

theorem then_sweepBreach (h : WheelKept s₀ s) : WheelKept s₀ (sweepBreach s) :=
  h.then_forEach (fun k _ h => h.then_judgeBreach k) _

theorem then_recompute (h : WheelKept s₀ s) (moved : Bool) : WheelKept s₀ (recompute moved s) := by
  rw [recompute_eq]
  exact (then_deliverMoves (h.aside (by simp)) _ _ _).then_deliverCrossings _ _

theorem then_positionReturns (h : WheelKept s₀ s) (a : Accepted) : WheelKept s₀ (positionReturns a s) := by
  have moved := then_deliverMoves (h.aside (u := putOcc (membership s.tables.zones a) s) (by simp)) false
    emptyZones (membership s.tables.zones a)
  have crossed := moved.then_sweepBreach.then_deliverCrossings emptyZones (membership s.tables.zones a)
  exact then_clearHold (aside (u := notify (.positionMode a) _) crossed (by simp)) .positionLost

theorem then_reform (h : WheelKept s₀ s) : WheelKept s₀ (reform s) := by
  have formed : WheelKept s₀ (putAccepted s.tracker.formed s) := h.aside (by simp)
  unfold reform
  dsimp only
  split
  · unfold positionMoves
    refine then_recompute ?_ true
    split
    · exact formed
    · exact formed.aside (by simp)
  · have moved := then_deliverMoves (formed.aside (u := putOcc emptyZones (putAccepted s.tracker.formed s)) (by simp))
      false s.tracker.occ emptyZones
    exact moved.aside (by simp [positionLost, putAccepted])
  · exact formed.then_positionReturns _
  · exact formed

/-! ### The tracker -/

theorem then_reformAfter (h : WheelKept s₀ s) (was : Bool) : WheelKept s₀ (reformAfter was s) :=
  h.then_reform.then_guarded fun h => h.then_raiseHold _

theorem then_compareHeads (h : WheelKept s₀ s) : WheelKept s₀ (compareHeads s) := by
  unfold compareHeads
  split
  · dsimp only
    split
    · exact then_raiseHold (h.aside (by simp)) _
    · exact h.aside (by simp)
  · exact h

theorem then_encoderReport (h : WheelKept s₀ s) (e : EncoderId) (p : Nat) (health : Health) :
    WheelKept s₀ (encoderReport e p health s) := by
  unfold encoderReport
  split
  · exact (then_compareHeads (h.aside (by simp))).then_reformAfter _
  · exact h

theorem then_dropHeads (h : WheelKept s₀ s) (a b : Bool) : WheelKept s₀ (dropHeads a b s) := by
  unfold dropHeads
  dsimp only
  split
  · exact then_reformAfter (h.aside (by simp)) true
  · exact h

theorem then_encoderLapse (h : WheelKept s₀ s) (e : EncoderId) : WheelKept s₀ (encoderLapse e s) :=
  h.then_guarded fun h => h.then_dropHeads _ _

theorem then_zonesChanged (h : WheelKept s₀ s) : WheelKept s₀ (zonesChanged s) :=
  h.then_guarded fun h => h.then_recompute false

/-! ### The drives -/

theorem then_deriveReady (h : WheelKept s₀ s) (n : Fin 4) : WheelKept s₀ (deriveReady n s) := by
  have judged {u : State} (h : WheelKept s₀ u) (before : Nat) : WheelKept s₀ (judgeDrivesLost before u) := by
    unfold judgeDrivesLost
    split
    · exact h.then_raiseHold _
    · exact h.then_guarded fun h => h.then_clearHold _
  unfold deriveReady
  dsimp only
  split
  · exact h
  · exact judged (h.aside (by simp)) _

theorem then_driveReport (h : WheelKept s₀ s) (n : Fin 4) (ready : Bool) (fault : Byte) (speed : Nat) :
    WheelKept s₀ (driveReport n ready fault speed s) :=
  (then_deriveReady (h.aside (u := s.setDrive n _) (by simp)) n).then_judgeEnd

theorem then_dropDrive (h : WheelKept s₀ s) (n : Fin 4) : WheelKept s₀ (dropDrive n s) := by
  unfold dropDrive
  split
  · exact (then_deriveReady (h.aside (by simp)) n).then_judgeEnd
  · exact h

theorem then_driveLapse (h : WheelKept s₀ s) (n : Fin 4) : WheelKept s₀ (driveLapse n s) :=
  h.then_guarded fun h => h.then_dropDrive n

theorem then_forgetDrive (h : WheelKept s₀ s) (n : Fin 4) : WheelKept s₀ (forgetDrive n s) :=
  then_dropDrive (h.aside (by simp)) n

/-! ### The grade in force -/

theorem then_changeGrade (h : WheelKept s₀ s) (g : Grade) : WheelKept s₀ (changeGrade g s) := by
  have told : WheelKept s₀ (gradeTold g s) := h.aside (by simp [gradeTold])
  have stopped : WheelKept s₀ (windStopped g s) := by
    unfold windStopped
    split
    · exact told.then_raiseHold _
    · exact told.then_guarded fun h => h.then_clearHold _
  rw [changeGrade_eq]
  exact (stopped.then_guarded (c := g = 4) (f := clearBothPermits) fun h => h.aside (by simp)).then_sequencerGrade g

theorem then_evaluate (h : WheelKept s₀ s) : WheelKept s₀ (evaluate s) := by
  unfold evaluate gradeStep
  dsimp only
  split
  · exact then_changeGrade (h.aside (by simp)) _
  · split <;> exact h.aside (by simp)

theorem then_expireDwell (h : WheelKept s₀ s) : WheelKept s₀ (expireDwell s) := by
  unfold expireDwell
  split
  · split
    · exact then_changeGrade (h.aside (by simp)) _
    · exact h
  · exact h

end WheelKept

end Sys2Proof.Machine
end

