-- ==== Sys2Proof/Proofs/WheelSteps.lean ====
section

/-!
# The wheel over every step

Requests, frames and events are made of the effects that keep the wheel's law and never raise the reference. Three
stand apart: RESTART, which is taken at rest; RESET_BRAKE, which alone leaves BRAKED; and the rotation update, which
moves V_cmd (R145, R151, R178).
-/

namespace Sys2Proof.Machine

variable {s u v s₀ : State}

namespace WheelKept

/-! ### Loads -/

theorem then_setTables (h : WheelKept s₀ s) (x : Tables) : WheelKept s₀ (s.setTables x) := h.aside ⟨rfl, rfl, rfl⟩

theorem then_applyRoster (h : WheelKept s₀ s) (ps : Entries) : WheelKept s₀ (applyRoster ps s).2 := by
  unfold applyRoster
  dsimp only
  split
  · exact h
  · have loaded := h.then_setTables { s.tables with roster := loadedTable clampRoster s.tables.roster ps }
    generalize s.setTables { s.tables with roster := loadedTable clampRoster s.tables.roster ps } = v at loaded ⊢
    generalize (fun i : Fin 14 => s.tables.roster[i] != (loadedTable clampRoster s.tables.roster ps)[i]) = changed
    rw [rosterConsequences_eq]
    have dropped := loaded.then_dropHeads (changed roleEncoderA) (changed roleEncoderB)
    have doors := dropped.then_guarded (c := changed roleConcentrator = true) (f := forgetDoors)
      fun h => h.then_forEach (fun k _ h => h.then_forgetDoor k) _
    have heads := doors.then_forEach (f := dropHeadIf changed)
      (fun _ _ h => h.then_guarded fun h => h.aside (by simp)) allFour
    exact heads.then_forEach (f := forgetDriveIf changed)
      (fun n _ h => h.then_guarded fun h => h.then_forgetDrive n) allFour

theorem then_applyParameters (h : WheelKept s₀ s) (ps : Entries) : WheelKept s₀ (applyParameters ps s).2 := by
  unfold applyParameters
  dsimp only
  have loaded := h.then_setTables { s.tables with params := loadedTable clampParam s.tables.params ps }
  generalize s.setTables { s.tables with params := loadedTable clampParam s.tables.params ps } = v at loaded ⊢
  have encoders {u : State} (h : WheelKept s₀ u) : WheelKept s₀ (encodersLowered u) := h.then_dropHeads _ _
  have doors {u : State} (h : WheelKept s₀ u) : WheelKept s₀ (stalenessLowered u) :=
    h.then_forEach (fun k _ h => h.then_staleEvent k) _
  have drives {u : State} (h : WheelKept s₀ u) : WheelKept s₀ (drivesLowered u) :=
    h.then_forEach (fun n _ h => h.then_driveLapse n) _
  have heads {u : State} (h : WheelKept s₀ u) : WheelKept s₀ (headsLowered u) := h.aside (by simp)
  exact (((loaded.then_guarded encoders).then_guarded doors).then_guarded drives).then_guarded heads

/-- A load of any table: the others' owners leave the wheel, the holds and the service (R172). -/
theorem then_apply (h : WheelKept s₀ s) (t : Table) (ps : Entries) : WheelKept s₀ (t.apply ps s).2 := by
  cases t with
  | roster => exact h.then_applyRoster ps
  | parameters => exact h.then_applyParameters ps
  | zones =>
    show WheelKept s₀ (applyZones ps s).2
    unfold applyZones
    dsimp only
    split
    · exact h
    · exact (h.then_setTables _).then_zonesChanged
  | pass => exact h.then_setTables _
  | rules =>
    have loaded := h.then_setTables { s.tables with rules := loadedTable clampRule s.tables.rules ps }
    exact loaded.aside (u := startSettling _) ⟨rfl, rfl, rfl⟩
  | heads =>
    show WheelKept s₀ (applyHeads ps s).2
    have loaded := headsLoaded_frame ps s
    rw [applyHeads_eq]
    exact h.aside (by simp [loaded])
  | cabins =>
    have loaded := h.then_setTables { s.tables with cabins := loadedTable clampCabin s.tables.cabins ps }
    exact loaded.then_forEach
      (f := fun (k : Cabin) s' =>
        if s.tables.cabins[k].inService && !(loadedTable clampCabin s.tables.cabins ps)[k].inService then
          clearPermitsOf k s' else s')
      (fun _ _ h => h.then_guarded fun h => h.aside ⟨rfl, rfl, rfl⟩) allCabins

theorem then_loadTable (h : WheelKept s₀ s) (args : List Byte) : WheelKept s₀ (loadTable args s).2 := by
  have loaded (t : Table) (args : List Byte) : WheelKept s₀ (loadOn t args s).2 := by
    unfold loadOn
    split
    · exact h
    split
    · exact h
    split
    · exact h
    split
    · exact h
    · exact h.then_apply t _
  unfold loadTable
  split
  · split
    · exact loaded _ _
    · exact h
  · exact h

/-! ### The other requests -/

theorem then_plainRequest {decide : State → Reply × State} (h : WheelKept s₀ s) (step : WheelKept s₀ (decide s).2)
    (src : Byte) (args : List Byte) : WheelKept s₀ (plainRequest decide src args s).2 := by
  unfold plainRequest
  split
  · exact step
  · exact h

theorem then_ackRecord (h : WheelKept s₀ s) (key : HoldKey) : WheelKept s₀ (ackRecord key s).2 := by
  unfold ackRecord
  split
  · exact h
  split
  · show WheelKept s₀ (ackClear key s)
    unfold ackClear
    split
    · exact h.then_clearOverrun _
    · exact h.then_clearHold _
  · exact h.then_markAcked key
  · exact h

theorem then_putResume (h : WheelKept s₀ s) (b : Bool) : WheelKept s₀ (putResume b s) :=
  h.trans (of_rot rfl (fun _ => id) fun _ => id)

/-- The wheel is set turning from rest with no hold (R141, R144). -/
theorem then_setTurning (h : WheelKept s₀ s) (free : s.rot.wheel ≠ .braked) (empty : s.noHolds = true) :
    WheelKept s₀ (setTurning s) :=
  (h.then_changeWheel (w := .running) free (fun _ => List.isEmpty_iff.1 empty) nofun nofun).then_putResume false

theorem then_unstow (h : WheelKept s₀ s) (src : Byte) (args : List Byte) : WheelKept s₀ (unstow src args s).2 := by
  refine h.then_plainRequest ?_ src args
  split
  · next wheel =>
    exact h.then_changeWheel (by rw [wheel]; nofun) nofun (fun law _ => law.rest (by rw [wheel]; rfl)) nofun
  · exact h

/-- A STOWED wheel stands with the service CLOSED: it was so, or STOW makes it so (R82, R140). -/
theorem then_stow (h : WheelKept s₀ s) (src : Byte) (args : List Byte) : WheelKept s₀ (stow src args s).2 := by
  refine h.then_plainRequest ?_ src args
  split
  · next wheel =>
    have stowed (mode : s.service.mode = .closed ∨ s.service.mode = .cleared) :
        WheelKept s₀ (sequencerStow (changeWheel .stowed s)) := by
      refine h.trans (of_wheel (w := .stowed) ?_ (by rw [wheel]; nofun) nofun
        (fun law _ => law.rest (by rw [wheel]; rfl)) fun _ => ?_)
      · unfold sequencerStow
        split <;> simp [Wheel.pendsStop]
      · unfold sequencerStow
        split
        · rw [changeMode_service]
        · next other => simpa using mode.resolve_right (by simpa using other)
    split
    · next closed => exact stowed (.inl closed)
    · next cleared => exact stowed (.inr cleared)
    · exact h
    · exact h
  · exact h

/-- OPEN_SERVICE is refused to a STOWED wheel with the service CLOSED (R79). -/
theorem then_openService (h : WheelKept s₀ s) (src : Byte) (args : List Byte) :
    WheelKept s₀ (openService src args s).2 := by
  refine h.then_plainRequest ?_ src args
  split
  · exact h
  split
  · exact h
  split
  · exact h
  · next free _ =>
    exact then_mode h (u := openMode s) (by simp) fun stowed closed => absurd ⟨closed, .inl stowed⟩ free

theorem then_armZone (h : WheelKept s₀ s) (src : Byte) (args : List Byte) : WheelKept s₀ (armZone src args s).2 := by
  have named (z : Zone) : WheelKept s₀ (armNamed z src s).2 := by
    unfold armNamed armFor
    split
    · exact h
    split
    · exact h
    split
    · exact h
    split
    · exact h
    split <;> exact h.aside (by simp [answer])
  unfold armZone
  split
  · split
    · exact named _
    · exact h
  · exact h

end WheelKept

/-! ### What a whole command keeps -/

/-- What every command but a rotation update and a power-on reset does, from a state that meets the wheel's law. -/
structure ReferenceKept (s u : State) : Prop where
  law : WheelLaw s → WheelLaw u
  speed : WheelLaw s → u.rot.vCmd = s.rot.vCmd ∨ (u.rot.vCmd = 0 ∧ u.rot.wheel = .braked)

theorem WheelKept.reference (h : WheelKept s u) : ReferenceKept s u where
  law := h.law
  speed _ := h.speed.imp_left And.left

theorem ReferenceKept.refl (s : State) : ReferenceKept s s := (WheelKept.refl s).reference

theorem ReferenceKept.of_aside (same : u.rot = s.rot ∧ u.holds = s.holds ∧ u.service.mode = s.service.mode) :
    ReferenceKept s u := ((WheelKept.refl s).aside same).reference

theorem ReferenceKept.aside (h : ReferenceKept s v)
    (same : u.rot = v.rot ∧ u.holds = v.holds ∧ u.service.mode = v.service.mode) : ReferenceKept s u where
  law := ((WheelKept.refl v).aside same).law ∘ h.law
  speed := by
    rw [same.1]
    exact h.speed

/-- RESTART is taken in STOWED and STANDBY, where V_cmd is 0 (R178). -/
theorem restart_reference (src : Byte) (args : List Byte) (s : State) :
    ReferenceKept s (restart src args s).2 := by
  have same := ReferenceKept.refl s
  unfold restart plainRequest
  split
  · dsimp only
    split
    · next taken =>
      have still : s.rot.wheel.moving = false := by rcases taken.1 with wheel | wheel <;> rw [wheel] <;> rfl
      have restarted : ReferenceKept s s.restarted := by
        refine ⟨fun _ => ⟨?_, ?_, fun _ => rfl, fun _ => rfl⟩, fun law => .inl (law.rest still).symm⟩
        · refine iff_of_false nofun fun (wheel : s.rot.wheel = _) => ?_
          rw [wheel] at still
          cases still
        · intro (wheel : s.rot.wheel = _)
          rw [wheel] at still
          cases still
      exact restarted.aside (by simp [answer])
    · exact same
  · exact same

/-- RESET_BRAKE takes a wheel at rest out of BRAKED (R145). -/
theorem resetBrake_reference (src : Byte) (args : List Byte) (s : State) :
    ReferenceKept s (resetBrake src args s).2 := by
  have same := ReferenceKept.refl s
  unfold resetBrake plainRequest
  split
  · dsimp only
    split
    · next wheel =>
      split
      · exact same
      · have rest (law : WheelLaw s) : s.rot.vCmd = 0 := law.rest (by rw [wheel]; rfl)
        refine ⟨fun law => ?_, fun _ => .inl (by simp [answer])⟩
        rw [WheelLaw, show (answer .done (putResume true (changeWheel .held s))).2.rot = _ from changeWheel_rot s .held]
        exact ⟨Wheel.pendsStop_iff .held, nofun, fun _ => rest law, nofun⟩
    · exact same
  · exact same

theorem owner_reference {kind : Byte} {o : Owner} (found : ownerOf kind = some o) (src : Byte) (args : List Byte)
    (s : State) : ReferenceKept s (o src args s).2 := by
  have h := WheelKept.refl s
  have mem := ownerOf_mem found
  simp only [requestTable, List.mem_cons, Prod.mk.injEq, List.not_mem_nil, or_false] at mem
  rcases mem with ⟨-, rfl⟩ | ⟨-, rfl⟩ | ⟨-, rfl⟩ | ⟨-, rfl⟩ | ⟨-, rfl⟩ | ⟨-, rfl⟩ | ⟨-, rfl⟩ |
    ⟨-, rfl⟩ | ⟨-, rfl⟩ | ⟨-, rfl⟩ | ⟨-, rfl⟩ | ⟨-, rfl⟩ | ⟨-, rfl⟩ | ⟨-, rfl⟩ | ⟨-, rfl⟩ |
    ⟨-, rfl⟩ | ⟨-, rfl⟩ | ⟨-, rfl⟩ | ⟨-, rfl⟩ | ⟨-, rfl⟩ | ⟨-, rfl⟩
  · refine WheelKept.reference ?_
    unfold readStatus
    split
    · exact h.then_guarded fun h => h.aside (by simp [clearOverflow])
    · exact h
  · rw [readTableRequest, readTable_state]; exact h.reference
  · exact (h.then_loadTable args).reference
  · refine WheelKept.reference ?_
    unfold setLocks
    split
    · split
      · exact h
      · exact h.aside (by simp [answer])
    · exact h
  · exact restart_reference src args s
  · rw [readHolds_state]; exact h.reference
  · exact (h.then_plainRequest (h.then_raiseHold .consoleHold) src args).reference
  · refine WheelKept.reference ?_
    unfold ackHold
    split
    · split
      · exact h.then_ackRecord _
      · exact h
    · exact h
  · rw [readCabins_state]; exact h.reference
  · rw [readWind_state]; exact h.reference
  · exact (h.then_unstow src args).reference
  · exact (h.then_stow src args).reference
  · refine (h.then_plainRequest ?_ src args).reference
    split
    · next wheel =>
      split
      · exact h
      · next ready => exact h.then_setTurning (by rw [wheel]; nofun) (by simp at ready; exact ready.1)
    · exact h
  · refine (h.then_plainRequest ?_ src args).reference
    split
    · exact h.then_stopToStandby
    · exact h.then_stopToStandby
    · exact h.then_stopToStandby
    · exact h
  · refine (h.then_plainRequest ?_ src args).reference
    split
    · next wheel =>
      split
      · next empty => exact h.then_setTurning (by rw [wheel]; nofun) empty
      · exact h
    · exact h
  · exact resetBrake_reference src args s
  · refine WheelKept.reference ?_
    unfold setTrim
    split
    · exact h.aside (by simp [putTrim])
    · exact h
  · exact (h.then_openService src args).reference
  · refine (h.then_plainRequest ?_ src args).reference
    split
    · next opened => exact h.then_enterClearDown (by rw [opened]; nofun) .request
    · exact h
    · exact h
  · refine (h.then_plainRequest ?_ src args).reference
    split
    · next cleared => exact h.then_sequenced (u := changeMode .closed .request s) (by rw [cleared]; nofun) (by simp)
    · exact h
    · exact h
  · exact (h.then_armZone src args).reference

theorem judgeRequest_reference (src kind : Byte) (args : List Byte) (s : State) :
    ReferenceKept s (judgeRequest (ownerOf kind) src kind args s).2 := by
  have same := ReferenceKept.refl s
  have asked : ReferenceKept s (match ownerOf kind with
      | some o => o src args s
      | none => answer .badKind s).2 := by
    cases found : ownerOf kind with
    | none => exact same
    | some o => exact owner_reference found src args s
  unfold judgeRequest
  split
  · exact asked
  split
  · exact asked
  · exact same

theorem requestArrives_reference (f : Frame) (s : State) : ReferenceKept s (requestArrives f s) := by
  have same := ReferenceKept.refl s
  unfold requestArrives
  split
  · next tag kind args _ =>
    unfold takeRequest
    split
    · exact (judgeRequest_reference f.source kind args s).aside (by simp)
    · exact same
  · exact same

/-! ### Frames -/

namespace WheelKept

theorem then_observe (h : WheelKept s₀ s) (f : Frame) : WheelKept s₀ (observe f s) := by
  have position (src : Byte) (p : Nat) (health : Health) : WheelKept s₀ (observePosition src p health s) := by
    unfold observePosition
    split
    · exact h.then_encoderReport _ _ _
    · exact h.then_guarded fun h => h.then_encoderReport _ _ _
  have drive (src : Byte) (ready : Bool) (fault : Byte) (speed : Nat) :
      WheelKept s₀ (observeDrive src ready fault speed s) := by
    unfold observeDrive
    split
    · exact h.then_driveReport _ ready fault speed
    · exact h
  have wind (src : Byte) (speed direction : Nat) (health : Health) :
      WheelKept s₀ (observeWind src speed direction health s) := by
    unfold observeWind
    split <;> exact h.aside (by simp)
  have door (src cabin : Byte) (d : Door) (n : Nat) : WheelKept s₀ (observeDoor src cabin d n s) := by
    unfold observeDoor
    split
    · split
      · exact h.then_cabinReport _ d n
      · exact h
    · exact h
  unfold observe
  split
  · split
    · exact position _ _ _
    split
    · exact drive _ _ _ _
    · exact h
  · split
    · exact wind _ _ _ _
    · exact h
  · split
    · exact door _ _ _ _
    · exact h
  · exact h

theorem then_doorCommand (h : WheelKept s₀ s) (f : Frame) : WheelKept s₀ (doorCommand f s) := by
  have unlocked (dst src cabin : Byte) : WheelKept s₀ (decideUnlock dst src cabin s) := by
    unfold decideUnlock forwardUnlock
    split
    · exact then_guarded (h.aside (by simp [forwardDoor])) fun h => h.then_testOverrun _
    · exact h.aside (by simp [deny])
  have locked (dst src cabin : Byte) : WheelKept s₀ (decideLock dst src cabin s) := by
    unfold decideLock
    split <;> exact h.aside (by simp [forwardDoor, deny])
  unfold doorCommand
  split
  · split
    · exact unlocked _ _ _
    split
    · exact locked _ _ _
    · exact h
  · exact h

end WheelKept

theorem decideFrame_reference (f : Frame) (s : State) : ReferenceKept s (decideFrame f s) := by
  have h := WheelKept.refl s
  unfold decideFrame
  split
  · exact h.reference
  split
  · exact (h.then_doorCommand f).reference
  split
  · exact (h.then_raiseHold (.allStop f.source (f.payload.headD 0x00))).reference.aside (by simp [takeAllStop])
  split
  · exact requestArrives_reference f s
  · have observed := (h.then_observe f).reference
    rcases passOn_cases f (observe f s) with e | e <;> rw [e]
    · exact observed
    · exact observed.aside (by simp)

/-! ### Events and steps -/

/-- Every event of the time base but the rotation update. -/
theorem event_reference {c : Instr} {t : Nat} {e : State → State} (event : Instr.event c = some (t, e))
    (other : ∀ t, c ≠ .rotationUpdate t) (s : State) : ReferenceKept s (e s) := by
  have h := WheelKept.refl s
  cases c
  case rotationUpdate t' => exact absurd rfl (other t')
  case encoderLapse => cases event; exact (h.then_encoderLapse _).reference
  case staleEvent => cases event; exact (h.then_staleEvent _).reference
  case windEvaluation => cases event; exact h.then_evaluate.reference
  case dwellExpiry => cases event; exact h.then_expireDwell.reference
  case driveLapse => cases event; exact (h.then_driveLapse _).reference
  case settlingEnd | headLapse | frameSendEnd => cases event; exact .of_aside (by simp)
  all_goals cases event

theorem inStep_reference {t : Nat} {e : State → State} (keeps : ∀ s, ReferenceKept s (e s)) (s : State) :
    ReferenceKept s (inStep t e s) := by
  rcases inStep_cases s t e with ⟨-, here⟩ | ⟨-, here⟩ <;> rw [here]
  · exact ReferenceKept.refl s
  · exact ⟨(keeps (s.advance t)).law, (keeps (s.advance t)).speed⟩

theorem frameStep_reference {t : Nat} {e : State → State} (keeps : ∀ s, ReferenceKept s (e s)) (s : State) :
    ReferenceKept s (frameStep t e s) := by
  refine inStep_reference (fun s => ?_) s
  rcases onFrame_cases s e with ⟨-, here⟩ | ⟨-, here⟩ <;> rw [here]
  · exact .of_aside ⟨rfl, rfl, rfl⟩
  · exact keeps s

theorem heard_reference (f : Frame) (s : State) : ReferenceKept s (heard f (decideFrame f) s) := by
  unfold heard
  split
  · exact decideFrame_reference f s
  · exact ReferenceKept.refl s

/-- Every command but a power-on reset and a rotation update. -/
theorem exec_reference {c : Instr} (reset : ∀ r, c ≠ .powerOnReset r) (update : ∀ t, c ≠ .rotationUpdate t)
    (done : exec c s = .next u) : ReferenceKept s u := by
  have h := WheelKept.refl s
  have next {v : State} (e : exec c s = .next v) (kept : ReferenceKept s v) : ReferenceKept s u := by
    rw [e] at done
    cases done
    exact kept
  rcases command_cases c s with (rfl | ⟨r, rfl⟩ | ⟨l, rfl⟩) | ⟨t, f, row⟩ | ⟨t, os, rfl⟩ | ⟨t, e, event⟩
  · exact next rfl (.of_aside ⟨rfl, rfl, rfl⟩)
  · exact absurd rfl (reset r)
  · exact next rfl (.of_aside ⟨rfl, rfl, rfl⟩)
  · exact next (exec_row row) (frameStep_reference (heard_reference f) s)
  · cases read : readFrame os with
    | none => exact next (exec_otherFrame_discarded read t s) (frameStep_reference .refl s)
    | some f => exact next (exec_otherFrame_of_readFrame read t s) (frameStep_reference (heard_reference f) s)
  · exact next (exec_event event s) (inStep_reference (event_reference event update) s)

end Sys2Proof.Machine
end

