-- ==== Sys2Proof/Proofs/SpeedReference.lean ====
section

/-!
# The speed reference

A rotation update ramps V_cmd towards a target that is at most V_lim, and at most V_cmd itself while a record stands;
the emergency test keeps it within reach of the ceiling. At every other command the reference stands or falls to 0 in
BRAKED (R152 to R156).
-/

namespace Sys2Proof.Machine

variable {s u : State}

/-! ### The ramp (R155, R156) -/

theorem foldl_min_le (xs : List Nat) (start : Nat) : xs.foldl min start ≤ start := by
  induction xs generalizing start with
  | nil => exact Nat.le_refl _
  | cons x xs ih => exact (ih _).trans (Nat.min_le_left _ _)

/-- The target is at most V_lim, at most V_cmd while a record stands, and 0 at rest (R155). -/
theorem target_bounds (s : State) : s.target ≤ s.rot.vLim ∧ (s.holds.records ≠ [] → s.target ≤ s.rot.vCmd) ∧
    (s.rot.wheel.moving = false → s.target = 0) := by
  rw [target_eq]
  split
  · simp
  · next moves =>
    refine ⟨?_, fun stands => ?_, fun still => absurd still moves⟩
    · split
      · exact Nat.zero_le _
      split
      · exact (foldl_min_le _ _).trans (Nat.min_le_right _ _)
      split
      · exact Nat.le_refl _
      · exact Nat.zero_le _
    · rw [if_pos stands]
      split
      · exact Nat.zero_le _
      · exact (foldl_min_le _ _).trans (Nat.min_le_left _ _)

/-- V_cmd ramps by the quanta and not past the target (R156). -/
theorem ramp_bounds (s : State) (target : Nat) :
    s.ramp target ≤ max target (s.rot.vCmd - s.fall) ∧ s.ramp target ≤ max target s.rot.vCmd ∧
      (s.rot.vCmd < s.ramp target → s.ramp target ≤ target) ∧ s.ramp target ≤ s.rot.vCmd + s.rise ∧
      s.rot.vCmd ≤ s.ramp target + s.fall := by
  unfold State.ramp
  split <;> omega

/-- A calm update finds V_cmd within one step of deceleration of the ceiling (R154). -/
theorem calm_within_ceiling (calm : s.emergencyCause = none) (moving : s.rot.wheel.moving = true) :
    s.rot.vCmd ≤ s.ceiling + s.fall := by
  unfold State.emergencyCause at calm
  rw [if_pos moving] at calm
  split at calm
  · next r found => exact absurd calm (brakeCause_ne_none ((tripsOn_iff s r).1 (List.find?_some found)))
  · split at calm
    · cases calm
    · next reach => exact Nat.le_of_not_lt fun past => reach ((outruns_iff s _).2 past)

/-! ### One update -/

/-- The laws of the reference over one update, from a state that meets the wheel's law (R152, R154, R156). -/
theorem rotationUpdate_reference (law : WheelLaw s) :
    let v := rotationUpdate s
    v.rot.vCmd ≤ s.ceiling ∧
      (s.rot.vCmd < v.rot.vCmd → v.rot.vCmd ≤ v.rot.vLim ∧ v.rot.vLim ≤ s.ceiling ∧
        v.rot.vCmd ≤ s.rot.vCmd + s.rise) ∧
      (v.rot.vCmd + s.fall < s.rot.vCmd → v.rot.vCmd = 0 ∧ v.rot.wheel = .braked) ∧
      (s.holds.records ≠ [] → v.rot.vCmd ≤ s.rot.vCmd) := by
  intro v
  cases found : s.emergencyCause with
  | some cause =>
    obtain ⟨braked, -, zero, -⟩ := rotationUpdate_brakes found
    rw [show v.rot.vCmd = 0 from zero]
    exact ⟨Nat.zero_le _, nofun, fun _ => ⟨rfl, braked⟩, fun _ => Nat.zero_le _⟩
  | none =>
    have vCmd : v.rot.vCmd = s.ramp (setLimit s).target := (rotationUpdate_ramps found).1
    have vLim : v.rot.vLim = (setLimit s).rot.vLim := rotationUpdate_vLim s
    have limit : (setLimit s).rot.vLim ≤ s.ceiling := by
      show (readFMode s).speedLimit ≤ 16 * s.p 3
      rw [readFMode_speedLimit]
      exact Nat.min_le_right _ _
    have reach : s.rot.vCmd - s.fall ≤ s.ceiling := by
      cases moving : s.rot.wheel.moving with
      | false => rw [law.rest moving]; omega
      | true =>
        have within := calm_within_ceiling found moving
        omega
    obtain ⟨top, held, -⟩ := target_bounds (setLimit s)
    have held : s.holds.records ≠ [] → (setLimit s).target ≤ s.rot.vCmd := by
      rw [setLimit_eq] at held ⊢
      exact held
    obtain ⟨falls, rises, within, up, down⟩ := ramp_bounds s (setLimit s).target
    rw [vCmd, vLim]
    refine ⟨by omega, fun risen => ⟨(within risen).trans top, limit, up⟩, fun fast => by omega, fun stands => ?_⟩
    have := held stands
    omega

/-- An update moves the wheel only to BRAKED, or to the end of a stop with V_cmd 0 (R149, R150). -/
theorem rotationUpdate_wheelLaw (law : WheelLaw s) : WheelLaw (rotationUpdate s) := by
  have holds : (rotationUpdate s).holds = s.holds := (rotationUpdate_untouched s).2 .holds (by simp)
  have mode : (rotationUpdate s).service.mode = s.service.mode := by
    rw [rotationUpdate_service, readFMode_service]
  cases found : s.emergencyCause with
  | some cause =>
    obtain ⟨wheel, pending, zero, -⟩ := rotationUpdate_brakes found
    rw [WheelLaw, wheel, pending]
    exact ⟨⟨nofun, nofun⟩, nofun, fun _ => zero, nofun⟩
  | none =>
    obtain ⟨vCmd, -, ends, stays⟩ := rotationUpdate_ramps found
    by_cases ended : ∃ d, s.rot.wheel = .stopping d ∧
        (rotationUpdate s).rot.vCmd = 0 ∧ ∀ n, (s.drive n).fresh = true → (s.drive n).speed ≤ 16
    · obtain ⟨d, stopping, rest⟩ := ended
      obtain ⟨wheel, pending, -⟩ := ends d stopping rest
      rw [WheelLaw, wheel, pending]
      exact ⟨⟨nofun, by cases d <;> nofun⟩, by cases d <;> nofun, fun _ => rest.1, by cases d <;> nofun⟩
    · obtain ⟨wheel, pending, -⟩ := stays fun d stopping rest => ended ⟨d, stopping, rest⟩
      have ⟨pends, empty, _, closed⟩ := law
      rw [WheelLaw, wheel, pending, holds, mode]
      refine ⟨pends, empty, fun still => ?_, closed⟩
      have idle : (setLimit s).target = 0 := (target_bounds (setLimit s)).2.2 (by rw [setLimit_eq]; exact still)
      have rest := law.rest still
      rw [vCmd, idle, State.ramp, rest]
      rfl

/-! ### Every command -/

/-- Every command but a power-on reset keeps the wheel's law. -/
theorem exec_wheelLaw {c : Instr} (reset : ∀ r, c ≠ .powerOnReset r) (done : exec c s = .next u)
    (law : WheelLaw s) : WheelLaw u := by
  by_cases update : ∃ t, c = .rotationUpdate t
  · obtain ⟨t, rfl⟩ := update
    cases done
    rcases inStep_cases s t rotationUpdate with ⟨-, here⟩ | ⟨-, here⟩ <;> rw [here]
    · exact law
    · exact rotationUpdate_wheelLaw (s := s.advance t) law
  · exact (exec_reference reset (fun t e => update ⟨t, e⟩) done).law law

/-- Settles O52: a power-on reset meets the law, a rotation update keeps it, and every other command is made of effects
that do. -/
theorem stepsKeepTheWheelLaw : Obligations.StepsKeepTheWheelLaw := by
  intro s u law done
  unfold step at done
  split at done
  · cases done
    exact law
  · next c rest _ =>
    by_cases reset : ∃ r, c = .powerOnReset r
    · obtain ⟨r, rfl⟩ := reset
      cases done
      exact ⟨⟨nofun, nofun⟩, nofun, fun _ => rfl, fun _ => rfl⟩
    · exact exec_wheelLaw (fun r e => reset ⟨r, e⟩) done (s := s.setPending rest) law

/-- Settles O45: an update ramps within its bounds, and every other command leaves the reference or brakes it to 0. -/
theorem referenceKeepsItsLaws : Obligations.ReferenceKeepsItsLaws := by
  intro c s u law reset done
  have after := exec_wheelLaw reset done law
  by_cases update : ∃ t, c = .rotationUpdate t
  · obtain ⟨t, rfl⟩ := update
    cases done
    rcases inStep_cases s t rotationUpdate with ⟨low, here⟩ | ⟨-, here⟩
    · rw [here] at after ⊢
      exact ⟨fun _ _ high => absurd (low.symm.trans high) nofun, fun rises => absurd rises (Nat.lt_irrefl _),
        fun falls => by omega, fun _ => Nat.le_refl _, after.rest⟩
    · rw [here] at after ⊢
      obtain ⟨top, rises, falls, stands⟩ := rotationUpdate_reference (s := s.advance t) law
      exact ⟨fun _ _ _ => top, fun risen => ⟨⟨t, rfl⟩, rises risen⟩, falls, stands, after.rest⟩
  · have speed := (exec_reference reset (fun t e => update ⟨t, e⟩) done).speed law
    have lower : u.rot.vCmd ≤ s.rot.vCmd := by
      rcases speed with same | ⟨zero, -⟩
      · exact Nat.le_of_eq same
      · rw [zero]
        exact Nat.zero_le _
    refine ⟨fun t e => absurd ⟨t, e⟩ update, fun rises => absurd rises (Nat.not_lt.2 lower), fun falls => ?_,
      fun _ => lower, after.rest⟩
    exact speed.resolve_left fun same => by omega

end Sys2Proof.Machine
end

