-- ==== Sys2Proof/Proofs/WheelRequests.lean ====
section

/-!
# The requests of the rotation controller

Each of UNSTOW, STOW, START, STOP, RESUME and RESET_BRAKE takes no argument and is answered by the wheel state, then
by its own condition; accepted, it is a change of the wheel, with the resume-required flag or the service mode beside it
(R140 to R145, R82).
-/

namespace Sys2Proof.Machine

variable {s u : State}

/-! ### A request and its answers -/

/-- The wheel changed and nothing else, with its notice (R139). -/
theorem changeWheel_untouched (w : Wheel) (s : State) : Untouched [.rot] s (changeWheel w s) := by
  refine ⟨(changeWheel_frame s w).1, fun b other => ?_⟩
  cases b with
  | rot => simp at other
  | _ => simp [Block.same]

theorem changeWheel_desk (w : Wheel) (s : State) :
    SameDesk (s.afterNotices [.stateChanged w]) (changeWheel w s) := (SameDesk.refl s).changeWheel w

/-- The wheel changed and resume-required set to a value. -/
theorem putResume_changeWheel_untouched (b : Bool) (w : Wheel) (s : State) :
    Untouched [.rot, .holds] s (putResume b (changeWheel w s)) := by
  refine ⟨(changeWheel_frame s w).1, fun block other => ?_⟩
  cases block with
  | rot | holds => simp at other
  | _ => simp [Block.same]

theorem putResume_changeWheel_rot (b : Bool) (w : Wheel) (s : State) :
    (putResume b (changeWheel w s)).rot = { s.rot with wheel := w, stopPending := w.pendsStop } :=
  changeWheel_rot s w

theorem putResume_changeWheel_holds (b : Bool) (w : Wheel) (s : State) :
    (putResume b (changeWheel w s)).holds = { s.holds with resumeRequired := b } := by
  simp [putResume]

theorem putResume_changeWheel_desk (b : Bool) (w : Wheel) (s : State) :
    SameDesk (s.afterNotices [.stateChanged w]) (putResume b (changeWheel w s)) :=
  (changeWheel_desk w s).aside (by simp)

/-! ### UNSTOW, STOW and RESET_BRAKE (R140, R145) -/

theorem unstow_stowed (wheel : s.rot.wheel = .stowed) (src : Byte) :
    unstow src [] s = answer .done (changeWheel .standby s) := by
  simp only [unstow, plainRequest, wheel]

theorem unstow_refused (wheel : s.rot.wheel ≠ .stowed) (src : Byte) : unstow src [] s = answer .refusedState s := by
  unfold unstow plainRequest
  dsimp only
  split
  · contradiction
  · rfl

theorem stow_eq (wheel : s.rot.wheel = .standby) (src : Byte) : stow src [] s =
    if s.service.mode = .closed ∨ s.service.mode = .cleared then
      answer .done (sequencerStow (changeWheel .stowed s))
    else answer .refusedCondition s := by
  simp only [stow, plainRequest, wheel]
  cases mode : s.service.mode <;> simp

theorem stow_refused (wheel : s.rot.wheel ≠ .standby) (src : Byte) : stow src [] s = answer .refusedState s := by
  unfold stow plainRequest
  dsimp only
  split
  · contradiction
  · rfl

theorem resetBrake_eq (wheel : s.rot.wheel = .braked) (src : Byte) : resetBrake src [] s =
    if s.holdsKey .allStop then answer .refusedCondition s
    else answer .done (putResume true (changeWheel .held s)) := by
  simp only [resetBrake, plainRequest, wheel]

theorem resetBrake_refused (wheel : s.rot.wheel ≠ .braked) (src : Byte) :
    resetBrake src [] s = answer .refusedState s := by
  unfold resetBrake plainRequest
  dsimp only
  split
  · contradiction
  · rfl

/-- A STOW in CLEARED closes the service beside the wheel (R82). -/
theorem sequencerStow_cleared (mode : s.service.mode = .cleared) :
    sequencerStow (changeWheel .stowed s) = changeMode .closed .request (changeWheel .stowed s) :=
  if_pos (by simpa using mode)

theorem sequencerStow_closed (mode : s.service.mode = .closed) :
    sequencerStow (changeWheel .stowed s) = changeWheel .stowed s :=
  if_neg (by simp [mode])

/-- Settles O37: the wheel state picks the answer, then the service mode of a STOW and the ALL_STOP record of a
RESET_BRAKE. -/
theorem unstowStowAndResetBrakeMoveTheRestStates : Obligations.UnstowStowAndResetBrakeMoveTheRestStates := by
  refine ⟨fun t src tag args s takes short => ?_, fun t src tag args s takes short => ?_⟩
  · have unstows {result : Result} (answered : unstow src args (s.advance t) = answer result (s.advance t)) :
        TurnsAway (.unstow t src tag args) t s src tag 0x30 result :=
      turnsAway_of_owner (o := unstow) rfl takes short rfl answered
    have stows {result : Result} (answered : stow src args (s.advance t) = answer result (s.advance t)) :
        TurnsAway (.stow t src tag args) t s src tag 0x31 result :=
      turnsAway_of_owner (o := stow) rfl takes short rfl answered
    have unstowed {v : State} {changed : List Block} {ns : List Notice} :=
      done_of_owner (c := .unstow t src tag args) (tag := tag) (v := v) (changed := changed) (ns := ns) (kind := 0x30)
        (o := unstow) rfl takes short rfl ((Quiet.refl (s.advance t)).then_unstow src args)
    have stowed {v : State} {changed : List Block} {ns : List Notice} :=
      done_of_owner (c := .stow t src tag args) (tag := tag) (v := v) (changed := changed) (ns := ns) (kind := 0x31)
        (o := stow) rfl takes short rfl ((Quiet.refl (s.advance t)).then_stow src args)
    refine ⟨fun some => unstows (plainRequest_badLength some _ _ _), fun bare wheel => ?_, fun bare wheel => ?_,
      fun some => stows (plainRequest_badLength some _ _ _), fun bare wheel mode => ?_, fun bare wheel mode => ?_,
      fun bare wheel mode => ?_, fun bare wheel => ?_⟩ <;> subst bare
    · exact ⟨_, unstowed (unstow_stowed (s := s.advance t) wheel src) (changeWheel_untouched _ _)
        (changeWheel_desk _ _), changeWheel_rot (s.advance t) .standby⟩
    · exact unstows (unstow_refused (s := s.advance t) wheel src)
    · have answered := (stow_eq (s := s.advance t) wheel src).trans (if_pos (.inl mode))
      rw [sequencerStow_closed (s := s.advance t) mode] at answered
      exact ⟨_, stowed answered (changeWheel_untouched _ _) (changeWheel_desk _ _),
        changeWheel_rot (s.advance t) .stowed⟩
    · have answered := (stow_eq (s := s.advance t) wheel src).trans (if_pos (.inr mode))
      rw [sequencerStow_cleared (s := s.advance t) mode] at answered
      refine ⟨_, _, .refl _, stowed answered
        ((changeWheel_untouched _ _).trans (changeMode_untouched .closed .request _))
        ((changeWheel_desk .stowed (s.advance t)).changeMode .closed .request), ?_, ?_, fun z => ?_⟩
      · show (changeMode .closed .request (changeWheel .stowed (s.advance t))).rot = _
        simp [Wheel.pendsStop, State.advance]
      · show (changeMode .closed .request (changeWheel .stowed (s.advance t))).service = _
        simp [changeMode_service, State.advance]
      · show (changeMode .closed .request (changeWheel .stowed (s.advance t))).permits.get z = _
        rw [changeMode_permits_eq, gateModeChange_idle fun z => by cases z <;> rfl]
        simp [State.advance]
    · have other : ¬ (s.service.mode = .closed ∨ s.service.mode = .cleared) := by
        rcases mode with mode | mode <;> simp [mode]
      exact stows ((stow_eq (s := s.advance t) wheel src).trans (if_neg other))
    · exact stows (stow_refused (s := s.advance t) wheel src)
  · intro c
    have away {result : Result} (answered : resetBrake src args (s.advance t) = answer result (s.advance t)) :
        TurnsAway c t s src tag 0x35 result := turnsAway_of_owner (o := resetBrake) rfl takes short rfl answered
    refine ⟨fun some => away (plainRequest_badLength some _ _ _), fun bare wheel => ?_, fun bare wheel stands => ?_,
      fun bare wheel clear => ?_⟩ <;> subst bare
    · exact away (resetBrake_refused (s := s.advance t) wheel src)
    · exact away ((resetBrake_eq (s := s.advance t) wheel src).trans (if_pos ((State.holdsKey_iff _ _).2 stands)))
    · have absent : ¬ (s.advance t).holdsKey .allStop = true := fun stands => by
        obtain ⟨r, mem, key⟩ := (State.holdsKey_iff _ _).1 stands
        exact clear r mem key
      have answered := (resetBrake_eq (s := s.advance t) wheel src).trans (if_neg absent)
      exact ⟨_, done_of_owner (o := resetBrake) rfl takes short rfl
        ((Quiet.refl (s.advance t)).then_resetBrake src []) answered (putResume_changeWheel_untouched _ _ _)
        (putResume_changeWheel_desk _ _ _), putResume_changeWheel_rot true .held (s.advance t),
        putResume_changeWheel_holds true .held (s.advance t)⟩

/-! ### START and RESUME (R141, R144) -/

theorem start_eq (wheel : s.rot.wheel = .standby) (src : Byte) : start src [] s =
    if s.holds.records ≠ [] ∨ s.tracker.accepted = .invalid then answer .refusedCondition s
    else answer .done (setTurning s) := by
  have barred : (!s.noHolds || !s.positionValid) = true ↔ s.holds.records ≠ [] ∨ s.tracker.accepted = .invalid := by
    rw [Bool.or_eq_true, Bool.not_eq_true', Bool.not_eq_true', positionInvalid_iff, State.noHolds,
      List.isEmpty_eq_false_iff]
  simp only [start, plainRequest, wheel]
  exact if_congr barred rfl rfl

theorem start_refused (wheel : s.rot.wheel ≠ .standby) (src : Byte) : start src [] s = answer .refusedState s := by
  unfold start plainRequest
  dsimp only
  split
  · contradiction
  · rfl

theorem resume_eq (wheel : s.rot.wheel = .held) (src : Byte) : resume src [] s =
    if s.holds.records = [] then answer .done (setTurning s) else answer .refusedCondition s := by
  simp only [resume, plainRequest, wheel]
  exact if_congr List.isEmpty_iff rfl rfl

theorem resume_refused (wheel : s.rot.wheel ≠ .held) (src : Byte) : resume src [] s = answer .refusedState s := by
  unfold resume plainRequest
  dsimp only
  split
  · contradiction
  · rfl

/-- Settles O38: the wheel state, then the empty hold list and for START the position, and the wheel is set turning. -/
theorem startAndResumeSetTheWheelTurning : Obligations.StartAndResumeSetTheWheelTurning := by
  intro t src tag args s takes short a r turning
  have starts {result : Result} (answered : start src args (s.advance t) = answer result (s.advance t)) :
      TurnsAway a t s src tag 0x32 result := turnsAway_of_owner (o := start) rfl takes short rfl answered
  have resumes {result : Result} (answered : resume src args (s.advance t) = answer result (s.advance t)) :
      TurnsAway r t s src tag 0x34 result := turnsAway_of_owner (o := resume) rfl takes short rfl answered
  have turns {c : Instr} {kind : Byte} {v : State} (done : ∀ {changed : List Block} {ns : List Notice},
      Untouched changed (s.advance t) v → SameDesk ((s.advance t).afterNotices ns) v →
        Done c t s (pushResponse src tag kind (.plain .done) v) src tag kind changed ns)
      (turned : v = setTurning (s.advance t)) : turning c kind := by
    subst turned
    exact ⟨_, done (putResume_changeWheel_untouched _ _ _) (putResume_changeWheel_desk _ _ _),
      putResume_changeWheel_rot false .running (s.advance t), putResume_changeWheel_holds false .running (s.advance t)⟩
  refine ⟨fun some => starts (plainRequest_badLength some _ _ _), fun bare wheel => ?_, fun bare wheel barred => ?_,
    fun bare wheel empty valid => ?_, fun some => resumes (plainRequest_badLength some _ _ _), fun bare wheel => ?_,
    fun bare wheel filled => ?_, fun bare wheel empty => ?_⟩ <;> subst bare
  · exact starts (start_refused (s := s.advance t) wheel src)
  · exact starts ((start_eq (s := s.advance t) wheel src).trans (if_pos barred))
  · have ready : ¬ (s.holds.records ≠ [] ∨ s.tracker.accepted = .invalid) := by simp [empty, valid]
    exact turns (done_of_owner (o := start) rfl takes short rfl ((Quiet.refl (s.advance t)).then_start src [])
      ((start_eq (s := s.advance t) wheel src).trans (if_neg ready))) rfl
  · exact resumes (resume_refused (s := s.advance t) wheel src)
  · exact resumes ((resume_eq (s := s.advance t) wheel src).trans (if_neg filled))
  · exact turns (done_of_owner (o := resume) rfl takes short rfl ((Quiet.refl (s.advance t)).then_resume src [])
      ((resume_eq (s := s.advance t) wheel src).trans (if_pos empty))) rfl

/-! ### STOP (R142, R149) -/

theorem stop_eq (src : Byte) (s : State) : stop src [] s =
    if s.rot.wheel = .stowed ∨ s.rot.wheel = .standby ∨ s.rot.wheel = .braked then answer .refusedState s
    else answer .done (stopToStandby s) := by
  simp only [stop, plainRequest]
  cases s.rot.wheel <;> simp

/-- A stop to STANDBY reaches the wheel alone (R142). -/
theorem stopToStandby_untouched (s : State) : Untouched [.rot] s (stopToStandby s) := by
  refine ⟨(stopToStandby_frame s).1, fun b other => ?_⟩
  cases b with
  | rot => simp at other
  | _ => simp [Block.same]

/-- The rotation record after a stop to STANDBY: the wheel, with STOP pending where it goes on stopping. -/
theorem stopToStandby_rot (stops : s.rot.wheel = .running ∨ s.rot.wheel = .stopping .held ∨ s.rot.wheel = .held) :
    (stopToStandby s).rot = { s.rot with
      wheel := (s.rot.wheel.toStandby s.atRest).1
      stopPending := (s.rot.wheel.toStandby s.atRest).1.pendsStop } := by
  unfold stopToStandby
  rcases stops with wheel | wheel | wheel <;> rw [wheel]
  · dsimp only [Wheel.toStandby]
    rw [enterStopping_eq]
    split <;> simp [StopDest.rest]
  · exact changeWheel_rot s _
  · exact changeWheel_rot s _

/-- Settles O39: the stop to STANDBY by the wheel state, judged for rest from RUNNING alone. -/
theorem stopBringsTheWheelToStandby : Obligations.StopBringsTheWheelToStandby := by
  intro t src tag args s takes short c rest
  have away {result : Result} (answered : stop src args (s.advance t) = answer result (s.advance t)) :
      TurnsAway c t s src tag 0x33 result := turnsAway_of_owner (o := stop) rfl takes short rfl answered
  have done {changed : List Block} (bare : args = [])
      (taken : ¬ (s.rot.wheel = .stowed ∨ s.rot.wheel = .standby ∨ s.rot.wheel = .braked))
      (blocks : Untouched changed (s.advance t) (stopToStandby (s.advance t))) :
      Done c t s (pushResponse src tag 0x33 (.plain .done) (stopToStandby (s.advance t))) src tag 0x33 changed
        (s.rot.wheel.toStandby (s.advance t).atRest).2 :=
    done_of_owner (o := stop) rfl takes short rfl ((Quiet.refl (s.advance t)).then_stop src args)
      (bare ▸ (stop_eq src (s.advance t)).trans (if_neg taken)) blocks (stopToStandby_stops (s.advance t)).2.2
  have blocks := stopToStandby_untouched (s.advance t)
  have rot := stopToStandby_rot (s := s.advance t)
  have atRest : rest = (s.advance t).atRest := Bool.eq_iff_iff.2 (decide_eq_true_iff.trans (atRest_iff _).symm)
  rw [← atRest] at done rot
  change (s.rot.wheel = _ ∨ s.rot.wheel = _ ∨ s.rot.wheel = _) → _ = { s.rot with
    wheel := (s.rot.wheel.toStandby rest).1, stopPending := (s.rot.wheel.toStandby rest).1.pendsStop } at rot
  refine ⟨fun some => away (plainRequest_badLength some _ _ _), fun bare wheel => ?_, fun bare wheel => ?_,
    fun bare wheel => ?_, fun bare wheel => ?_, fun bare refused => ?_⟩
  · rw [wheel] at done rot
    have stopped := done bare (by simp) blocks
    have rot := rot (.inl rfl)
    clear_value rest
    cases rest
    · exact ⟨_, stopped, rot⟩
    · exact ⟨_, stopped, rot⟩
  · rw [wheel] at done rot
    exact ⟨_, done bare (by simp) blocks, rot (.inr (.inl rfl))⟩
  · have still : stopToStandby (s.advance t) = s.advance t := by
      unfold stopToStandby
      rw [show (s.advance t).rot.wheel = _ from wheel]
    rw [wheel] at done
    exact ⟨_, done bare (by simp) (still.symm ▸ .refl _)⟩
  · rw [wheel] at done rot
    exact ⟨_, done bare (by simp) blocks, rot (.inr (.inr rfl))⟩
  · exact away (bare ▸ (stop_eq src (s.advance t)).trans (if_pos refused))

end Sys2Proof.Machine
end

