-- ==== Sys2Proof/Proofs/DriveReports.lean ====
section

/-!
# DRIVE_STATUS reports

A report writes the record of its drive and derives readiness from it; DRIVES_LOST is judged by the ready count before
and after, and then the end of stopping is judged (R149, R160, R162, R163).
-/

namespace Sys2Proof.Machine

variable {s u : State}

/-! ### Readiness (R162, R163) -/

/-- Where the ready count does not cross 2, DRIVES_LOST is neither raised nor cleared (R163). -/
theorem judgeDrivesLost_of_same {before : Nat} (same : 2 ≤ before ↔ 2 ≤ s.readyCount) : judgeDrivesLost before s = s := by
  unfold judgeDrivesLost
  rw [if_neg (by omega), if_neg (by omega)]

theorem judgeDrivesLost_speeds (before : Nat) (s : State) :
    (judgeDrivesLost before s).rot.vCmd = s.rot.vCmd ∧ (judgeDrivesLost before s).rot.vLim = s.rot.vLim := by
  unfold judgeDrivesLost
  split
  · exact raiseHold_speeds (h := .drivesLost) nofun s
  · split
    · have stage := clearHold_stage .drivesLost s
      exact ⟨stage.vCmd, stage.vLim⟩
    · exact ⟨rfl, rfl⟩

/-- DRIVES_LOST stands once the ready count has fallen below 2, and is gone once it has come back to 2 (R163). -/
theorem judgeDrivesLost_crossing (before : Nat) (s : State) :
    (2 ≤ before → s.readyCount < 2 → (judgeDrivesLost before s).holdsKey .drivesLost = true) ∧
      (before < 2 → 2 ≤ s.readyCount → (judgeDrivesLost before s).holdsKey .drivesLost = false) := by
  unfold judgeDrivesLost
  refine ⟨fun enough few => ?_, fun few enough => ?_⟩
  · rw [if_pos ⟨enough, few⟩, raiseHold_holdsKey]
    exact Bool.or_true _
  · rw [if_neg (by omega), if_pos ⟨few, enough⟩]
    exact clearHold_fresh _ s

/-- Readiness derived anew is a change of drive records, after which DRIVES_LOST is judged (R162). -/
theorem deriveReady_judges (n : Fin 4) (s : State) : ∃ x, x.rot = s.rot ∧ x.holds = s.holds ∧
    x.drives = (deriveReady n s).drives ∧ deriveReady n s = judgeDrivesLost s.readyCount x := by
  unfold deriveReady
  dsimp only
  split
  · exact ⟨s, rfl, rfl, rfl, (judgeDrivesLost_of_same Iff.rfl).symm⟩
  · exact ⟨_, by simp, by simp, by simp, rfl⟩

/-! ### The report (R160) -/

/-- The record of a drive as reported, its readiness not yet derived. -/
def Drive.told (d : Drive) (ready : Bool) (fault : Byte) (speed now : Nat) : Drive :=
  { d with reportedReady := ready, fault := fault, speed := speed, lastReport := some now, fresh := true }

theorem driveReport_eq (n : Fin 4) (ready : Bool) (fault : Byte) (speed : Nat) (s : State) :
    driveReport n ready fault speed s =
      judgeEnd (deriveReady n (s.setDrive n ((s.drive n).told ready fault speed s.lines.now))) := rfl

theorem driveReport_untouched (n : Fin 4) (ready : Bool) (fault : Byte) (speed : Nat) (s : State) :
    Untouched [.drives, .holds, .rot] s (driveReport n ready fault speed s) := by
  refine ⟨(driveReport_frame s n ready fault speed).1, fun b other => ?_⟩
  cases b with
  | drives | holds | rot => simp at other
  | _ => simp [Block.same]

theorem driveReport_drive (n : Fin 4) (ready : Bool) (fault : Byte) (speed : Nat) (s : State) (m : Fin 4) :
    (driveReport n ready fault speed s).drive m =
      if n = m then
        { reportedReady := ready, fault := fault, speed := speed, lastReport := some s.lines.now, fresh := true
          ready := ready && fault == 0 }
      else s.drive m := by
  rw [driveReport_eq, State.drive_congr (judgeEnd_drives _), deriveReady_drive, State.setDrive_drive]
  split
  · simp [Drive.told, Drive.derivedReady]
  · rfl

/-- What a report does beside the drive's record: DRIVES_LOST is judged on a state with the drives it leaves, and then
the end of stopping (R149, R163). -/
theorem driveReport_judges (n : Fin 4) (ready : Bool) (fault : Byte) (speed : Nat) (s : State) :
    ∃ x, x.rot = s.rot ∧ x.holds = s.holds ∧ x.drives = (driveReport n ready fault speed s).drives ∧
      driveReport n ready fault speed s = judgeEnd (judgeDrivesLost s.readyCount x) := by
  obtain ⟨x, rot, holds, drives, judged⟩ :=
    deriveReady_judges n (s.setDrive n ((s.drive n).told ready fault speed s.lines.now))
  rw [State.readyCount_congr (State.setDrive_ready (d := (s.drive n).told ready fault speed s.lines.now) rfl)] at judged
  exact ⟨x, rot, holds, drives.trans (judgeEnd_drives _).symm, by rw [driveReport_eq, judged]⟩

/-- The hold list and the wheel after a report. -/
theorem driveReport_effects (n : Fin 4) (ready : Bool) (fault : Byte) (speed : Nat) (s : State) :
    let u := driveReport n ready fault speed s
    u.rot.vCmd = s.rot.vCmd ∧ u.rot.vLim = s.rot.vLim ∧
      (2 ≤ s.readyCount → u.readyCount < 2 → u.holdsKey .drivesLost = true) ∧
      (s.readyCount < 2 → 2 ≤ u.readyCount → u.holdsKey .drivesLost = false) ∧
      ((2 ≤ s.readyCount ↔ 2 ≤ u.readyCount) →
        u.holds = s.holds ∧ u.rot.wheel = s.rot.wheel.judged u.atRest) := by
  obtain ⟨x, rot, holds, drives, judged⟩ := driveReport_judges n ready fault speed s
  intro u
  have count : x.readyCount = u.readyCount := State.readyCount_congr fun m => by rw [State.drive_congr drives]
  have key : u.holdsKey .drivesLost = (judgeDrivesLost s.readyCount x).holdsKey .drivesLost :=
    (congrArg (State.holdsKey · .drivesLost) judged).trans (State.holdsKey_congr (by simp) _)
  obtain ⟨vCmd, vLim⟩ := judgeEnd_speeds (judgeDrivesLost s.readyCount x)
  obtain ⟨vCmd', vLim'⟩ := judgeDrivesLost_speeds s.readyCount x
  obtain ⟨lost, regained⟩ := judgeDrivesLost_crossing s.readyCount x
  rw [← judged, vCmd', rot] at vCmd
  rw [← judged, vLim', rot] at vLim
  rw [← key, count] at lost regained
  refine ⟨vCmd, vLim, lost, regained, fun same => ?_⟩
  rw [← count] at same
  have ended : u = judgeEnd x := by rw [← judgeDrivesLost_of_same same]; exact judged
  have rest : u.atRest = x.atRest := State.atRest_congr (by rw [rot]; exact vCmd) drives.symm
  rw [rest, ended, judgeEnd_wheel, rot]
  exact ⟨(judgeEnd_frame x).2.2.2.2.2.2.2.2.2.1.trans holds, rfl⟩

/-- A DRIVE_STATUS that is heard is observed and passes on (R14, R16). -/
theorem completes_driveStatus {t : Nat} {dst src ready fault : Byte} {speed : BitVec 16} (hears : s.hears src)
    (dest : destTaken dst) :
    Completes (.driveStatus t dst src ready fault speed) s
      (passOn (driveStatusFrame dst src ready fault speed)
        (observeDrive src (decodeReady ready) fault speed.toNat (s.advance t))) := by
  have wellFormed : (driveStatusFrame dst src ready fault speed).wellFormed = true :=
    (wellFormed_iff _).2 ⟨by simp [driveStatusFrame, halfOctets, octets2], dest.1, dest.2, hears.2.1⟩
  have done := completes_of_row (c := .driveStatus t dst src ready fault speed) rfl wellFormed hears.1 hears.2.2
  rwa [decideFrame_driveStatusFrame] at done

/-- Settles O17: the drive's record, then the judgement of DRIVES_LOST, then the end of stopping. -/
theorem driveReportsReachTheirDrive : Obligations.DriveReportsReachTheirDrive := by
  intro n t dst src ready fault speed s hears dest role only
  have done := completes_driveStatus (t := t) (ready := ready) (fault := fault) (speed := speed) hears dest
  have among : (s.advance t).roleAmong driveRole src = some n := roleAmong_eq_some (s := s.advance t) role only
  rw [observeDrive, among] at done
  dsimp only at done
  have quiet := (Quiet.refl (s.advance t)).then_driveReport n (decodeReady ready) fault speed.toNat
  have blocks := (driveReport_untouched n (decodeReady ready) fault speed.toNat (s.advance t)).of_advance
  have drive := driveReport_drive n (decodeReady ready) fault speed.toNat (s.advance t)
  obtain ⟨vCmd, vLim, lost, regained, kept⟩ :=
    driveReport_effects n (decodeReady ready) fault speed.toNat (s.advance t)
  generalize driveReport n (decodeReady ready) fault speed.toNat (s.advance t) = w at *
  have onRing := roleFrameOnRing_after quiet (driveStatusFrame dst src ready fault speed)
  obtain ⟨fs, forwarded⟩ := passOn_eq_setRing (driveStatusFrame dst src ready fault speed) w
  rw [forwarded] at done onRing
  refine ⟨_, done, quiet.lines, onRing, blocks, vCmd, vLim, fun m other => (drive m).trans (if_neg other.symm),
    (drive n).trans (if_pos rfl), lost, regained, fun same => ?_⟩
  obtain ⟨holds, wheel⟩ := kept same
  refine ⟨holds, ?_⟩
  have rest : w.atRest = true ↔ s.rot.vCmd = 0 ∧ ∀ m, (w.drive m).fresh = true → (w.drive m).speed ≤ 16 := by
    rw [atRest_iff, vCmd]
    rfl
  have wheel : w.rot.wheel = s.rot.wheel.judged w.atRest := wheel
  cases before : s.rot.wheel with
  | stopping d =>
    rw [before] at wheel
    dsimp only
    split
    · next still => exact wheel.trans (if_pos (rest.2 still))
    · next moves => exact wheel.trans (if_neg (mt rest.1 moves))
  | _ =>
    rw [before] at wheel
    exact wheel

end Sys2Proof.Machine
end

