-- ==== Sys2Proof/Proofs/TablePagesAndReads.lean ====
section

/-!
# Pages of the tables, LOAD_TABLE turned away, and READ_TABLE

The entries of a load or read go round within the page of their start index, and the last one addressed to an index is
the one written (R171). A LOAD_TABLE or READ_TABLE is judged in the order of its rule; what a read answers is the stored
entries, octet for octet (R24, R172, R173).
-/

namespace Sys2Proof.Machine

variable {s : State} {table : Table} {start : Nat}

/-! ### Pages (R171) -/

theorem Table.size_pos (table : Table) : 0 < table.size := by
  cases table <;> decide

/-- The page of an index of the table is not empty, and ends after 16 entries or at the table's end. -/
theorem pageLength_eq (range : start < table.entries) :
    0 < table.pageLength start ∧
      start / 16 * 16 + table.pageLength start = min (start / 16 * 16 + 16) table.entries := by
  unfold Table.pageLength pageStart
  omega

theorem pageIndex_zero (range : start < table.entries) : table.pageIndex start 0 = start := by
  have inside : start - pageStart start + 0 < table.pageLength start := by
    unfold Table.pageLength pageStart
    omega
  rw [Table.pageIndex, Nat.mod_eq_of_lt inside, pageStart]
  omega

/-- An entry stays in the page of the start index. -/
theorem pageIndex_mem (range : start < table.entries) (i : Nat) :
    start / 16 * 16 ≤ table.pageIndex start i ∧
      table.pageIndex start i < min (start / 16 * 16 + 16) table.entries := by
  obtain ⟨present, finish⟩ := pageLength_eq range
  have inside := Nat.mod_lt (start - pageStart start + i) present
  rw [Table.pageIndex, ← finish, pageStart]
  rw [pageStart] at inside
  omega

/-- After the page's last index comes its first. -/
theorem pageIndex_succ (range : start < table.entries) (i : Nat) :
    table.pageIndex start (i + 1) =
      if table.pageIndex start i + 1 = min (start / 16 * 16 + 16) table.entries then start / 16 * 16
      else table.pageIndex start i + 1 := by
  obtain ⟨present, finish⟩ := pageLength_eq range
  have inside := Nat.mod_lt (start - pageStart start + i) present
  have after : table.pageIndex start (i + 1) =
      start / 16 * 16 + ((start - pageStart start + i) % table.pageLength start + 1) % table.pageLength start := by
    rw [Nat.mod_add_mod, Nat.add_assoc]
    rfl
  have here : table.pageIndex start i =
      start / 16 * 16 + (start - pageStart start + i) % table.pageLength start := rfl
  rw [after, here]
  generalize (start - pageStart start + i) % table.pageLength start = r at inside
  split
  · next last => rw [show r + 1 = table.pageLength start by omega, Nat.mod_self, Nat.add_zero]
  · next more => rw [Nat.mod_eq_of_lt (by omega), Nat.add_assoc]

/-! ### The entries of a load (R171) -/

theorem groups_eq (size n : Nat) (os : List Byte) :
    groups size n os = (List.range n).map (fun i => (os.drop (i * size)).take size) := by
  induction n generalizing os with
  | zero => rfl
  | succ n ih =>
    rw [groups, ih, List.range_succ_eq_map, List.map_cons, List.map_map]
    simp [Function.comp_def, Nat.succ_mul, Nat.add_comm]

/-- A body of whole entries: each entry with the index it is addressed to. -/
theorem paged_eq {body : List Byte} {n : Nat} (whole : body.length = n * table.size) (start : Nat) :
    table.paged start body =
      (List.range n).map (fun i => (table.pageIndex start i, (body.drop (i * table.size)).take table.size)) := by
  rw [Table.paged, whole, Nat.mul_div_cancel _ table.size_pos, groups_eq]
  exact List.ext_getElem (by simp) (by simp)

/-- Of the entries addressed to an index, the last is the one written. -/
theorem written_iff (index : Nat → Nat) (entry : Nat → List Byte) (n j : Nat) (e : List Byte) :
    written ((List.range n).map (fun i => (index i, entry i))) j = some e ↔
      ∃ i, i < n ∧ e = entry i ∧ index i = j ∧ ∀ i', i < i' → i' < n → index i' ≠ j := by
  induction n with
  | zero => simp [written]
  | succ n ih =>
    have last : written ((List.range (n + 1)).map (fun i => (index i, entry i))) j =
        if index n = j then some (entry n) else written ((List.range n).map (fun i => (index i, entry i))) j := by
      rw [List.range_succ, List.map_append, written, List.reverse_append]
      by_cases here : index n = j
      · simp [here]
      · simp [here, written]
    rw [last]
    split
    · next here =>
      refine ⟨fun same => ⟨n, n.lt_succ_self, (Option.some.inj same).symm, here, fun i' after before => by omega⟩, ?_⟩
      rintro ⟨i, range, rfl, -, none⟩
      rcases Nat.lt_succ_iff_lt_or_eq.1 range with earlier | rfl
      · exact absurd here (none n earlier n.lt_succ_self)
      · rfl
    · next other =>
      rw [ih]
      constructor
      · rintro ⟨i, range, same, here, none⟩
        refine ⟨i, Nat.lt_succ_of_lt range, same, here, fun i' after before => ?_⟩
        rcases Nat.lt_succ_iff_lt_or_eq.1 before with earlier | rfl
        · exact none i' after earlier
        · exact other
      · rintro ⟨i, range, same, here, none⟩
        rcases Nat.lt_succ_iff_lt_or_eq.1 range with earlier | rfl
        · exact ⟨i, earlier, same, here, fun i' after before => none i' after (Nat.lt_succ_of_lt before)⟩
        · exact absurd here other

/-- Settles O25: the index goes round modulo the page's length, and the search for an index begins at the last entry. -/
theorem loadsStayWithinTheirPage : Obligations.LoadsStayWithinTheirPage := by
  intro table start body n range whole lo hi
  refine ⟨pageIndex_zero range, fun i => ?_, fun j e => ?_⟩
  · obtain ⟨low, high⟩ := pageIndex_mem range i
    exact ⟨low, high, pageIndex_succ range i⟩
  · rw [paged_eq whole]
    exact written_iff _ _ n j e

/-! ### LOAD_TABLE turned away (R172) -/

theorem tableOf_eq_none {code : Byte} (unknown : ∀ table : Table, table.code ≠ code) : tableOf code = none := by
  rw [tableOf, List.find?_eq_none]
  intro table _ found
  exact unknown table (by simpa using found)

section

variable {first : Byte} {body : List Byte}

theorem loadOn_badLength (odd : body = [] ∨ body.length % table.size ≠ 0) :
    loadOn table (first :: body) s = answer .badLength s := if_pos odd

variable (present : body ≠ []) (whole : body.length % table.size = 0)

include present whole

theorem loadOn_badArgument (outside : table.entries ≤ first.toNat) :
    loadOn table (first :: body) s = answer .badArgument s :=
  (if_neg (not_or.2 ⟨present, not_not_intro whole⟩)).trans (if_pos outside)

theorem loadOn_refusedLocked (range : first.toNat < table.entries) (locked : s.locked table = true)
    (awake : s.rot.wheel ≠ .stowed) : loadOn table (first :: body) s = answer .refusedLocked s :=
  (if_neg (not_or.2 ⟨present, not_not_intro whole⟩)).trans
    ((if_neg (Nat.not_le.2 range)).trans (if_pos ⟨locked, awake⟩))

end

theorem loadRequest_of_table (table : Table) (src first : Byte) (body : List Byte) (s : State) :
    loadRequest src (table.code :: first :: body) s = loadOn table (first :: body) s := by
  rw [loadRequest, loadTable, tableOf_code]

theorem loadRequest_unknown {code : Byte} (unknown : ∀ table : Table, table.code ≠ code) (src first : Byte)
    (body : List Byte) (s : State) : loadRequest src (code :: first :: body) s = answer .badArgument s := by
  rw [loadRequest, loadTable, tableOf_eq_none unknown]
  rfl

/-- Settles O27: each case of R172, with the cases before it excluded. -/
theorem loadsAreJudgedInOrder : Obligations.LoadsAreJudgedInOrder := by
  intro t src tag s takes
  refine ⟨fun code first rest unknown short => ?_, fun table => ?_⟩
  · exact turnsAway_of_owner (o := loadRequest) rfl takes (args := code :: first :: rest)
      (Nat.add_le_add_right short 2) rfl       (loadRequest_unknown unknown src first rest _)
  have away {args : List Byte} {result : Result} (short : args.length ≤ 61)
      (answered : loadRequest src (table.code :: args) (s.advance t) = answer result (s.advance t)) :
      TurnsAway (loadOf table t src tag args) t s src tag 0x03 result :=
    turnsAway_of_owner (o := loadRequest) rfl takes (args := table.code :: args)
      (Nat.succ_le_succ short) (frameOf_loadOf table t src tag args s)
      answered
  refine ⟨away (Nat.zero_le _) rfl, fun first body short => ?_⟩
  have judged {result : Result} (answered : loadOn table (first :: body) (s.advance t) = answer result (s.advance t)) :
      TurnsAway (loadOf table t src tag (first :: body)) t s src tag 0x03 result :=
    away (Nat.succ_le_succ short) ((loadRequest_of_table table src first body _).trans answered)
  exact ⟨fun odd => judged (loadOn_badLength odd),
    fun present whole outside => judged (loadOn_badArgument present whole outside),
    fun present whole range locked awake => judged (loadOn_refusedLocked present whole range locked awake)⟩

/-! ### READ_TABLE (R173) -/

theorem vectorOctets_at {α : Type} {n i : Nat} (v : Vector α n) (f : α → List Byte) (r : Fin n) (here : r.val = i) :
    vectorOctets v f i = f v[r] := by
  subst here
  exact dif_pos r.isLt

theorem vectorOctets_length {α : Type} {n i size : Nat} {f : α → List Byte} (each : ∀ a, (f a).length = size)
    (range : i < n) (v : Vector α n) : (vectorOctets v f i).length = size := by
  rw [vectorOctets_at v f ⟨i, range⟩ rfl]
  exact each _

theorem entryOctets_zones (s : State) (i : Nat) :
    s.entryOctets .zones i = (s.zone (if i = 0 then .unload else .load)).octets := by
  rw [apply_ite s.zone, apply_ite ZoneEntry.octets]
  rfl

/-- Every entry of a table has the table's size (section 1.9). -/
theorem entryOctets_length {i : Nat} (range : i < table.entries) (s : State) :
    (s.entryOctets table i).length = table.size := by
  cases table with
  | zones => exact (apply_ite List.length _ _ _).trans (ite_self _)
  | roster => exact vectorOctets_length (f := fun a => [a]) (fun _ => rfl) range s.tables.roster
  | pass => exact vectorOctets_length (f := PassEntry.octets) (fun _ => rfl) range s.tables.pass
  | cabins => exact vectorOctets_length (f := CabinEntry.octets) (fun _ => rfl) range s.tables.cabins
  | parameters => exact vectorOctets_length (f := octets2) (fun _ => rfl) range s.tables.params
  | heads => exact vectorOctets_length (f := HeadEntry.octets) (fun _ => rfl) range s.tables.heads
  | rules => exact vectorOctets_length (f := RuleEntry.octets) (fun _ => rfl) range s.tables.rules

section

variable (range : start < table.entries)

include range

theorem readEntry_length (s : State) (i : Nat) :
    (s.entryOctets table (table.pageIndex start i)).length = table.size :=
  entryOctets_length ((pageIndex_mem range i).2.trans_le (min_le_right _ _)) s

theorem readEntries_length (s : State) (count : Nat) :
    (s.readEntries table start count).length = count * table.size := by
  rw [State.readEntries, List.length_flatMap, funext (readEntry_length range s), List.map_const', List.sum_replicate]
  simp

/-- Entry i of a read stands at its place in the data. -/
theorem readEntries_at {count i : Nat} (s : State) (here : i < count) :
    ((s.readEntries table start count).drop (i * table.size)).take table.size =
      s.entryOctets table (table.pageIndex start i) := by
  rw [Nat.mul_comm]
  exact take_drop_flatMap (readEntry_length range s) (List.getElem?_range here)

end

theorem anyOctet_eq (o : Option Byte) : anyOctet o = o.getD 0xFF := by
  cases o <;> rfl

theorem OverrunRelease.code_eq (r : OverrunRelease) : r.code = yesNo (decide (r = .attended)) := by
  cases r <;> rfl

theorem WindUnit.code_eq (u : WindUnit) : u.code = yesNo (decide (u = .centi)) := by
  cases u <;> rfl

theorem readTable_badLength {args : List Byte} (other : args.length ≠ 3) : readTable args s = answer .badLength s := by
  unfold readTable
  split
  · exact absurd rfl other
  · rfl

theorem readTable_unknown {code : Byte} (unknown : ∀ table : Table, table.code ≠ code) (first count : Byte)
    (s : State) : readTable [code, first, count] s = answer .badArgument s := by
  rw [readTable, tableOf_eq_none unknown]
  rfl

/-- A read of a known table, by the bounds on its start index and count (R173). -/
theorem readTable_of_table (table : Table) (first count : Byte) (s : State) :
    readTable [table.code, first, count] s =
      if table.entries ≤ first.toNat ∨ count.toNat = 0 ∨ table.readLimit < count.toNat then answer .badArgument s
      else (.done (table.code :: first :: count :: s.readEntries table first.toNat count.toNat), s) := by
  have zero : count = 0 ↔ count.toNat = 0 := by
    rw [← BitVec.toNat_inj]
    rfl
  rw [readTable, tableOf_code]
  exact if_congr (or_congr_right (or_congr_left zero)) rfl rfl

/-- Settles O24: a read within its bounds answers the entries of its page, each laid out as its table's. -/
theorem readTableReturnsStoredEntries : Obligations.ReadTableReturnsStoredEntries := by
  intro t src tag args s takes short
  have reads {r : Reply} (answers : readTable args (s.advance t) = (r, s.advance t)) :=
    answersOnly_of_owner (c := .readTable t src tag args) (tag := tag) (kind := 0x02) (o := readTableRequest) takes
      short rfl rfl answers
  refine ⟨fun other => ⟨_, reads (readTable_badLength other)⟩, fun code first count here => ?_⟩
  subst here
  refine ⟨fun unknown => ⟨_, reads (readTable_unknown unknown first count _)⟩, ?_⟩
  rintro table rfl
  have judged := readTable_of_table table first count (s.advance t)
  refine ⟨fun outside => ⟨_, reads (judged.trans (if_pos outside))⟩, fun range present few => ?_⟩
  have inside : ¬ (table.entries ≤ first.toNat ∨ count.toNat = 0 ∨ table.readLimit < count.toNat) := by omega
  refine ⟨_, _, reads (judged.trans (if_neg inside)), readEntries_length range _ _, fun i below => ?_⟩
  intro j entry yes wide
  have stored : entry = s.entryOctets table j := readEntries_at range (s.advance t) below
  clear_value entry
  subst stored
  cases table with
  | roster => exact fun r here => vectorOctets_at _ (fun a => [a]) r here
  | cabins => exact fun r here => vectorOctets_at _ _ r here
  | parameters => exact fun r here => vectorOctets_at _ _ r here
  | pass =>
    intro r here e control
    have code : e.control.code = control := by
      dsimp only [control]
      cases e.control <;> rfl
    refine (vectorOctets_at _ _ r here).trans ?_
    show e.octets = _
    rw [PassEntry.octets, code, anyOctet_eq, anyOctet_eq, anyOctet_eq]
  | zones =>
    rw [entryOctets_zones, ZoneEntry.octets, OverrunRelease.code_eq]
    rfl
  | heads =>
    intro r here e
    refine (vectorOctets_at _ _ r here).trans ?_
    show e.octets = _
    rw [HeadEntry.octets, WindUnit.code_eq]
    rfl
  | rules =>
    intro r here e quantity comparison test grade effect
    have quantities (q : Quantity) : q.code = quantity q := by cases q <;> rfl
    have comparisons (c : Comparison) : c.code = comparison c := by cases c <;> rfl
    have tests (x : RuleTest) : x.octets = test x := by
      rw [RuleTest.octets, quantities, comparisons]
      rfl
    have graded : ruleGradeOctet e.grade = grade := by
      dsimp only [grade]
      cases e.grade <;> rfl
    have effects : effectCode e.effect = effect := by
      dsimp only [effect]
      rcases e.effect with _ | ⟨_ | _, _ | _ | _ | _⟩ <;> rfl
    refine (vectorOctets_at _ _ r here).trans ?_
    show e.octets = _
    rw [RuleEntry.octets, tests, tests, graded, effects]
    rfl

end Sys2Proof.Machine
end

