-- ==== Sys2Proof/Proofs/ParameterLoads.lean ====
section

/-!
# PARAMETERS loads

A loaded value is held between its limits, and a lowered stale time has the tracker, the doors, the drives and the wind
heads take what is due by the new one. Each of these looks at the moment, the tables and its own record alone, so what
it makes of a record does not depend on the records before (R27, R43, R102, R161, R176; log 18).
-/

namespace Sys2Proof.Machine

variable {s u : State}

/-! ### Values and the clamped count -/

theorem clampParam_eq (i : Fin 28) (e : List Byte) :
    clampParam i e =
      (let v := 256 * (e.getD 0 0).toNat + (e.getD 1 0).toNat
      (if i = 26 then v &&& 0x00FE else max (paramLow i) (min (paramHigh i) v),
        clampCount (decide (i ≠ 26 ∧ (v < paramLow i ∨ paramHigh i < v))))) := by
  obtain ⟨low, high, -⟩ := paramRanges_eq i
  show clampParam i e =
    (if i = 26 then entryNum e 0 &&& 0x00FE else max (paramLow i) (min (paramHigh i) (entryNum e 0)),
      clampCount (decide (i ≠ 26 ∧ (entryNum e 0 < paramLow i ∨ paramHigh i < entryNum e 0))))
  dsimp only [clampParam]
  rw [low, high]
  by_cases mask : i = 26
  · simp [mask, clampCount]
  · simp [mask, clampNum, Bool.decide_or]

/-- Where each entry has at most one clamp, the clamped count is the number of clamped entries (R172). -/
theorem loadedClamps_eq_countP {α : Type} {n : Nat} {clamp : Fin n → List Byte → α × Nat}
    {clamped : Fin n → List Byte → Bool} (h : ∀ i e, (clamp i e).2 = clampCount (clamped i e)) (ps : Entries) :
    loadedClamps clamp ps = (List.finRange n).countP (fun i => ((written ps i.val).map (clamped i)).getD false) := by
  unfold loadedClamps
  generalize List.finRange n = is
  induction is with
  | nil => rfl
  | cons i is ih =>
    rw [List.map_cons, List.sum_cons, List.countP_cons, ih, Nat.add_comm]
    congr 1
    cases written ps i.val with
    | none => rfl
    | some e => exact h i e

/-! ### Lapses, record by record -/

/-- Acting for each record, where what is made of a record depends on the lines, the tables and that record alone, acts
on every record as the lines and tables stood. -/
theorem forEach_aged {α β : Type} [DecidableEq α] {view : State → α → β} {act : State → β → β} {f : α → State → State}
    (frame : ∀ x s, (f x s).lines = s.lines ∧ (f x s).tables = s.tables)
    (congr : ∀ {s u : State}, u.lines = s.lines → u.tables = s.tables → act u = act s)
    (step : ∀ x s y, view (f x s) y = if x = y then act s (view s y) else view s y)
    {xs : List α} (distinct : xs.Nodup) {y : α} (mem : y ∈ xs) (s : State) :
    view (s.forEach xs f) y = act s (view s y) := by
  have all := forEach_view (fun s y => (act s, view s y)) (fun _ (a, r) => (a, a r)) (f := f) (fun x s y => by
    obtain ⟨lines, tables⟩ := frame x s
    dsimp only
    rw [congr lines tables, step]
    split <;> rfl) distinct s y
  rw [if_pos mem] at all
  exact congrArg (·.2) all

theorem State.p_congr (tables : u.tables = s.tables) : u.p = s.p := by
  funext i
  rw [State.p, tables, State.p]

theorem State.olderThan_congr (lines : u.lines = s.lines) : u.olderThan = s.olderThan := by
  funext taken limit
  unfold State.olderThan State.age
  rw [lines]

/-- What an overdue report makes of a door's state (R43). -/
def State.agedDoor (s : State) (r : Door × Option Nat) : Door × Option Nat :=
  (if s.olderThan r.2 (s.p 16) then .unknown else r.1, r.2)

/-- What an overdue report makes of a drive's freshness (R161). -/
def State.agedDrive (s : State) (r : Option Nat × Bool) : Option Nat × Bool :=
  (r.1, r.2 && !s.olderThan r.1 (s.p 17))

/-- What an overdue sample makes of a wind head (R102). -/
def State.agedHead (s : State) (h : Head) : Head :=
  if s.olderThan h.lastSample (s.p 18) ∧ h.fresh = true then h.drop else h

section

variable (lines : u.lines = s.lines) (tables : u.tables = s.tables)

include lines tables

theorem State.agedDoor_congr : u.agedDoor = s.agedDoor := by
  unfold State.agedDoor
  rw [State.olderThan_congr lines, State.p_congr tables]

theorem State.agedDrive_congr : u.agedDrive = s.agedDrive := by
  unfold State.agedDrive
  rw [State.olderThan_congr lines, State.p_congr tables]

theorem State.agedHead_congr : u.agedHead = s.agedHead := by
  unfold State.agedHead
  rw [State.olderThan_congr lines, State.p_congr tables]

end

theorem stalenessLowered_cabin (s : State) (k : Cabin) :
    (((stalenessLowered s).cabin k).door, ((stalenessLowered s).cabin k).lastReport) =
      s.agedDoor ((s.cabin k).door, (s.cabin k).lastReport) := by
  refine forEach_aged (view := fun s k => ((s.cabin k).door, (s.cabin k).lastReport)) (f := staleEvent)
    (fun k s => by simp) State.agedDoor_congr (fun j s k => ?_) (List.nodup_finRange 48) (List.mem_finRange k) s
  unfold staleEvent State.doorOverdue State.agedDoor
  by_cases here : j = k
  · subst here
    by_cases unknown : (s.cabin j).door = .unknown
    · simp [unknown]
    · cases s.olderThan (s.cabin j).lastReport (s.p 16) <;> simp [unknown, doorStale_cabin]
  · split <;> simp [here, doorStale_cabin]

theorem drivesLowered_drive (s : State) (n : Fin 4) :
    (((drivesLowered s).drive n).lastReport, ((drivesLowered s).drive n).fresh) =
      s.agedDrive ((s.drive n).lastReport, (s.drive n).fresh) := by
  refine forEach_aged (view := fun s n => ((s.drive n).lastReport, (s.drive n).fresh)) (f := driveLapse)
    (fun n s => by simp) State.agedDrive_congr (fun m s n => ?_) allFour_nodup (List.mem_finRange n) s
  unfold driveLapse State.agedDrive
  by_cases here : m = n
  · subst here
    cases s.olderThan (s.drive m).lastReport (s.p 17) with
    | false => simp
    | true => cases fresh : (s.drive m).fresh <;> simp [fresh, dropDrive_drive]
  · split <;> simp [here, dropDrive_drive]

theorem headsLowered_head (s : State) (n : Fin 4) : (headsLowered s).head n = s.agedHead (s.head n) := by
  refine forEach_aged (view := State.head) (f := headLapse) (fun n s => by simp) State.agedHead_congr
    (fun m s n => ?_) allFour_nodup (List.mem_finRange n) s
  unfold headLapse State.agedHead
  by_cases here : m = n
  · subst here
    cases s.olderThan (s.head m).lastSample (s.p 18) <;> simp [dropHead_head]
  · split <;> simp [here, dropHead_head]

/-- The heads that are overdue by the new P15 are dropped together, which leaves the doors' reports (R27). -/
theorem encodersLowered_reports (s : State) :
    SameReports (s.setTracker (s.tracker.dropped (s.encoderOverdue .a (s.p 15)) (s.encoderOverdue .b (s.p 15))))
      (encodersLowered s) := dropHeads_reports _ _ s

/-! ### The stages of a load -/

/-- The work of a stage whose stale time the load has lowered. -/
def whenLowered (low : Bool) (f : State → State) (s : State) : State := if low then f s else s

/-- The effects of the stale times that a load has lowered, P15 first. -/
def ageReports (low : Fin 28 → Bool) (s : State) : State :=
  whenLowered (low 18) headsLowered
    (whenLowered (low 17) drivesLowered
      (whenLowered (low 16) stalenessLowered (whenLowered (low 15) encodersLowered s)))

theorem applyParameters_eq (ps : Entries) (s : State) :
    applyParameters ps s =
      (let new := loadedTable clampParam s.tables.params ps
      (.clamped (loadedClamps clampParam ps),
        ageReports (fun i => decide (new[i] < s.p i)) (s.setTables { s.tables with params := new }))) := by
  simp only [ageReports, whenLowered, decide_eq_true_eq]
  rfl

theorem Quiet.then_ageReports {s₀ : State} (q : Quiet s₀ s) (low : Fin 28 → Bool) :
    Quiet s₀ (ageReports low s) := by
  have encoders {u : State} (h : Quiet s₀ u) : Quiet s₀ (encodersLowered u) := h.then_dropHeads _ _
  have doors {u : State} (h : Quiet s₀ u) : Quiet s₀ (stalenessLowered u) :=
    h.then_forEach (fun k _ h => h.then_staleEvent k) _
  have drives {u : State} (h : Quiet s₀ u) : Quiet s₀ (drivesLowered u) :=
    h.then_forEach (fun n _ h => h.then_driveLapse n) _
  have heads {u : State} (h : Quiet s₀ u) : Quiet s₀ (headsLowered u) := h.aside (by simp)
  exact (((q.then_guarded encoders).then_guarded doors).then_guarded drives).then_guarded heads

/-- The encoder stage: the overdue heads are not fresh, and doors, drives and wind heads have their reports (R27). -/
theorem encoderStage (low : Bool) (s : State) :
    let u := whenLowered low encodersLowered s
    (low = false → u.tracker = s.tracker) ∧
      (low = true → ∀ e, u.tracker.head e = (s.tracker.head e).dropped (s.encoderOverdue e (s.p 15))) ∧
      (∀ k, (u.cabin k).door = (s.cabin k).door ∧ (u.cabin k).lastReport = (s.cabin k).lastReport) ∧
      u.lines = s.lines ∧ u.tables = s.tables ∧ u.heads = s.heads ∧ u.drives = s.drives := by
  cases low with
  | false => exact ⟨fun _ => rfl, nofun, fun _ => ⟨rfl, rfl⟩, rfl, rfl, rfl, rfl⟩
  | true =>
    obtain ⟨head, door, report⟩ := encodersLowered_reports s
    refine ⟨nofun, fun _ e => (head e).trans (by cases e <;> rfl), fun k => ⟨door k, report k⟩, ?_⟩
    simp [whenLowered]

/-- The door stage: overdue doors are UNKNOWN (R43). -/
theorem doorStage (low : Bool) (s : State) :
    let u := whenLowered low stalenessLowered s
    (∀ k, (u.cabin k).lastReport = (s.cabin k).lastReport ∧
      (u.cabin k).door =
        if low = true ∧ s.olderThan (s.cabin k).lastReport (s.p 16) = true then .unknown else (s.cabin k).door) ∧
      u.lines = s.lines ∧ u.tables = s.tables ∧ u.tracker = s.tracker ∧ u.heads = s.heads ∧ u.drives = s.drives := by
  cases low with
  | false => exact ⟨fun _ => ⟨rfl, (if_neg (by simp)).symm⟩, rfl, rfl, rfl, rfl, rfl⟩
  | true =>
    refine ⟨fun k => ?_, by simp [whenLowered]⟩
    obtain ⟨door, report⟩ := Prod.mk.inj (stalenessLowered_cabin s k)
    simpa using ⟨report, door⟩

/-- The drive stage: overdue drives are not fresh (R161). -/
theorem driveStage (low : Bool) (s : State) :
    let u := whenLowered low drivesLowered s
    (∀ n, (u.drive n).lastReport = (s.drive n).lastReport ∧
      ((u.drive n).fresh = true ↔ (s.drive n).fresh = true ∧
        ¬ (low = true ∧ s.olderThan (s.drive n).lastReport (s.p 17) = true))) ∧
      u.lines = s.lines ∧ u.tables = s.tables ∧ u.tracker = s.tracker ∧ u.cabins = s.cabins ∧ u.heads = s.heads := by
  cases low with
  | false => exact ⟨fun _ => ⟨rfl, by simp [whenLowered]⟩, rfl, rfl, rfl, rfl, rfl⟩
  | true =>
    refine ⟨fun n => ?_, by simp [whenLowered]⟩
    obtain ⟨report, fresh⟩ := Prod.mk.inj (drivesLowered_drive s n)
    exact ⟨report, by simp [whenLowered, fresh]⟩

/-- The stage of the wind heads: overdue heads that are fresh are dropped (R102). -/
theorem headStage (low : Bool) (s : State) :
    let u := whenLowered low headsLowered s
    (∀ n, u.head n =
      if (low = true ∧ s.olderThan (s.head n).lastSample (s.p 18) = true) ∧ (s.head n).fresh = true then (s.head n).drop
      else s.head n) ∧
      u.tracker = s.tracker ∧ u.cabins = s.cabins ∧ u.drives = s.drives := by
  cases low with
  | false => exact ⟨fun _ => (if_neg (by simp)).symm, rfl, rfl, rfl⟩
  | true => exact ⟨fun n => by simpa [whenLowered, State.agedHead] using headsLowered_head s n, by simp [whenLowered]⟩

/-- What the lowered stale times make of the records. -/
structure ReportsAged (low : Fin 28 → Bool) (s u : State) : Prop where
  tracker : low 15 = false → u.tracker = s.tracker
  encoder : low 15 = true → ∀ e, u.tracker.head e = (s.tracker.head e).dropped (s.encoderOverdue e (s.p 15))
  door : ∀ k, (u.cabin k).lastReport = (s.cabin k).lastReport ∧
    (u.cabin k).door =
      if low 16 = true ∧ s.olderThan (s.cabin k).lastReport (s.p 16) = true then .unknown else (s.cabin k).door
  drive : ∀ n, (u.drive n).lastReport = (s.drive n).lastReport ∧
    ((u.drive n).fresh = true ↔ (s.drive n).fresh = true ∧
      ¬ (low 17 = true ∧ s.olderThan (s.drive n).lastReport (s.p 17) = true))
  head : ∀ n, u.head n =
    if (low 18 = true ∧ s.olderThan (s.head n).lastSample (s.p 18) = true) ∧ (s.head n).fresh = true then
      (s.head n).drop
    else s.head n

/-- Each stage acts on its own records as the load found them. -/
theorem ageReports_aged (low : Fin 28 → Bool) (s : State) : ReportsAged low s (ageReports low s) := by
  unfold ageReports
  obtain ⟨kept, encoder, report, lines₁, tables₁, heads₁, drives₁⟩ := encoderStage (low 15) s
  generalize whenLowered (low 15) encodersLowered s = v₁ at *
  obtain ⟨door, lines₂, tables₂, tracker₂, heads₂, drives₂⟩ := doorStage (low 16) v₁
  generalize whenLowered (low 16) stalenessLowered v₁ = v₂ at *
  obtain ⟨drive, lines₃, tables₃, tracker₃, cabins₃, heads₃⟩ := driveStage (low 17) v₂
  generalize whenLowered (low 17) drivesLowered v₂ = v₃ at *
  obtain ⟨head, tracker₄, cabins₄, drives₄⟩ := headStage (low 18) v₃
  generalize whenLowered (low 18) headsLowered v₃ = u at *
  have tracker : u.tracker = v₁.tracker := tracker₄.trans (tracker₃.trans tracker₂)
  refine ⟨fun same => tracker.trans (kept same), fun lowered e => ?_, fun k => ?_, fun n => ?_, fun n => ?_⟩
  · rw [tracker, encoder lowered e]
  · obtain ⟨same, time⟩ := report k
    have here := door k
    rw [State.olderThan_congr lines₁, State.p_congr tables₁, same, time] at here
    rwa [State.cabin_congr (cabins₄.trans cabins₃)]
  · have here := drive n
    rw [State.olderThan_congr (lines₂.trans lines₁), State.p_congr (tables₂.trans tables₁),
      State.drive_congr (drives₂.trans drives₁)] at here
    rwa [State.drive_congr drives₄]
  · rw [head, State.olderThan_congr (lines₃.trans (lines₂.trans lines₁)),
      State.p_congr (tables₃.trans (tables₂.trans tables₁)), State.head_congr (heads₃.trans (heads₂.trans heads₁))]

/-- Settles O31: the values are the clamped ones, and each record is aged where its stale time is lowered. -/
theorem parameterLoadsLimitValuesAndAgeRecords : Obligations.ParameterLoadsLimitValuesAndAgeRecords := by
  intro t src tag start body s takes load ps loaded now older
  generalize hnew : loadedTable clampParam s.tables.params ps = new
  let v := (s.advance t).setTables { s.tables with params := new }
  let low : Fin 28 → Bool := fun i => decide (new[i] < s.p i)
  have applied : Table.parameters.apply ps (s.advance t) =
      (.clamped (loadedClamps clampParam ps), ageReports low v) := by
    subst hnew
    exact applyParameters_eq ps (s.advance t)
  have quiet := (Quiet.refl v).then_ageReports low
  have answers := answers_of_load (tag := tag) takes load applied quiet
  have aged := ageReports_aged low v
  have tables := quiet.tables
  have old (taken : Option Nat) (limit : Nat) : v.olderThan taken limit = true ↔ older taken limit :=
    olderThan_iff v taken limit
  generalize ageReports low v = u at *
  have value (i : Fin 28) : u.p i = new[i] := congrFun (State.p_congr tables) i
  have lowered (i : Fin 28) : low i = true ↔ u.p i < s.p i := by
    rw [value]
    exact decide_eq_true_iff
  have same (i : Fin 28) : v.p i = u.p i := (congrFun (State.p_congr tables) i).symm
  have overdue (i : Fin 28) (taken : Option Nat) :
      (low i = true ∧ v.olderThan taken (v.p i) = true) ↔ u.p i < s.p i ∧ older taken (u.p i) :=
    and_congr (lowered i) (same i ▸ old taken _)
  refine ⟨_, _, answers, ?_, ?_, fun i => ?_, fun kept => ?_, fun less e => ⟨fun due => ?_, fun due => ?_⟩, fun k => ?_,
    fun n => ?_, fun n => ?_⟩
  · show u.tables = { s.tables with params := u.tables.params }
    rw [tables]
    rfl
  · refine (loadedClamps_eq_countP (fun i e => congrArg Prod.snd (clampParam_eq i e)) ps).trans ?_
    refine congrArg (List.countP · _) (funext fun i => ?_)
    dsimp only [loaded]
    cases written ps i.val <;> rfl
  · refine (value i).trans ?_
    rw [← hnew]
    dsimp only [loaded]
    cases found : written ps i.val with
    | none => exact loaded_of_unwritten found
    | some e => exact (loaded_of_written found).trans (congrArg Prod.fst (clampParam_eq i e))
  · have stands : low 15 = false := Bool.eq_false_iff.2 fun less => Nat.not_lt.2 kept ((lowered 15).1 less)
    exact aged.tracker stands
  · have overdue : v.encoderOverdue e (v.p 15) = true := (old _ _).2 (same 15 ▸ due)
    show (u.tracker.head e).fresh = false
    rw [aged.encoder ((lowered 15).2 less), overdue]
    exact Bool.and_false _
  · have young : v.encoderOverdue e (v.p 15) = false :=
      Bool.eq_false_iff.2 fun overdue => due (same 15 ▸ (old _ _).1 overdue)
    show u.tracker.head e = s.tracker.head e
    rw [aged.encoder ((lowered 15).2 less), young, EncoderHead.dropped_false]
    rfl
  · obtain ⟨report, door⟩ := aged.door k
    exact ⟨report, door.trans (if_congr (overdue 16 _) rfl rfl)⟩
  · obtain ⟨report, fresh⟩ := aged.drive n
    exact ⟨report, fresh.trans (and_congr_right fun _ => not_congr (overdue 17 _))⟩
  · refine (aged.head n).trans (if_congr ?_ rfl rfl)
    rw [overdue 18, and_assoc]
    exact Iff.rfl

end Sys2Proof.Machine
end

