-- ==== Sys2Proof/Proofs/StatusLocksAndRestart.lean ====
section

/-!
# READ_STATUS, SET_LOCKS, SET_TRIM and RESTART

The status record goes to the console and the gate stations, and the console's read clears the overflow flag (R170). The
lock set and P4 are the registers that a request writes alone (R146, R175). RESTART puts the reset values in every block
but leaves what a reset of the lines would also take (R178).
-/

namespace Sys2Proof.Machine

variable {s : State} {c : Instr} {t : Nat} {src tag kind : Byte} {args : List Byte} {o : Owner}

/-! ### Answers of an owner -/

/-- The gate stations may use a kind of theirs as the console may (R169). -/
theorem judgeRequest_of_station (owner : ownerOf kind = some o) (gates : gateKind kind = true)
    (station : src = s.role roleConsole ∨ src = s.role roleUnloadGate ∨ src = s.role roleLoadGate)
    (args : List Byte) : judgeRequest (ownerOf kind) src kind args s = o src args s := by
  rcases station with console | gate
  · exact judgeRequest_of_console owner console args
  · have may : (s.isGate src && gateKind kind) = true := by
      rw [gates, Bool.and_true]
      simpa [State.isGate] using gate
    unfold judgeRequest
    rw [owner, if_pos may]
    exact ite_self _

/-- A judged request is answered after a write to the tables and work of the blocks (R168). -/
theorem answers_of_judgement {r : Reply} {x : Tables} {v : State} (takes : s.takes src) (short : args.length ≤ 62)
    (frame : s.frameOf c = some (t, requestFrame s.ownAddress src tag kind args))
    (judged : judgeRequest (ownerOf kind) src kind args (s.advance t) = (r, v))
    (quiet : Quiet ((s.advance t).setTables x) v) :
    Answers c t s (pushResponse src tag kind r v) src tag kind r.result r.data := by
  have done := completes_of_takes takes short frame
  rw [takeRequest_of_room (s := s.advance t) _ takes.2, judged] at done
  exact answers_of_quiet done quiet

/-- A request of the console is answered by its owner after a write to the tables and work of the blocks. -/
theorem answers_of_owner {r : Reply} {x : Tables} {v : State} (owner : ownerOf kind = some o)
    (takes : s.takesConsole src) (short : args.length ≤ 62)
    (frame : s.frameOf c = some (t, requestFrame s.ownAddress src tag kind args))
    (answered : o src args (s.advance t) = (r, v)) (quiet : Quiet ((s.advance t).setTables x) v) :
    Answers c t s (pushResponse src tag kind r v) src tag kind r.result r.data :=
  answers_of_judgement takes.1 short frame
    ((judgeRequest_of_console (s := s.advance t) owner takes.2 args).trans answered) quiet

/-! ### READ_STATUS (R170) -/

theorem readStatus_badLength (some : args ≠ []) : readStatus src args s = answer .badLength s := by
  cases args with
  | nil => exact absurd rfl some
  | cons => rfl

/-- The state after a status read: only the console's clears the overflow flag. -/
def statusRead (src : Byte) (s : State) : State :=
  s.setRing { s.ring with noticeOverflow := if src = s.role roleConsole then false else s.ring.noticeOverflow }

theorem readStatus_nil (src : Byte) (s : State) : readStatus src [] s = (.done s.statusRecord, statusRead src s) := by
  unfold readStatus statusRead
  dsimp only
  split
  · rfl
  · rfl

/-- Settles O23: the record is that of the state at the read, with the flag as it stood before. -/
theorem readStatusReportsTheRecord : Obligations.ReadStatusReportsTheRecord := by
  intro t src tag args s takes short station
  have judged (args : List Byte) :=
    judgeRequest_of_station (s := s.advance t) (kind := 0x01) (o := readStatus) rfl rfl station args
  refine ⟨fun some => ?_, fun bare => ?_⟩
  · exact turnsAway_of_answer (completes_of_takes takes short rfl) takes.2
      ((judged args).trans (readStatus_badLength some))
  · subst bare
    have quiet := (Quiet.refl (s.advance t)).then_readStatus src []
    rw [readStatus_nil] at quiet
    exact ⟨_, _, answers_of_judgement (x := s.tables) takes short rfl ((judged []).trans (readStatus_nil src _)) quiet,
      sameBlocks_of_eq rfl, rfl, rfl, rfl, rfl, rfl⟩

/-! ### SET_LOCKS and SET_TRIM (R175, R146) -/

theorem setLocks_badLength (other : args.length ≠ 1) : setLocks src args s = answer .badLength s := by
  unfold setLocks
  split
  · exact absurd rfl other
  · rfl

theorem setLocks_operate (key : s.lines.svcKey = .operate) (src locks : Byte) :
    setLocks src [locks] s = answer .refusedKey s := by
  rw [setLocks, key]

theorem setLocks_maintain (key : s.lines.svcKey = .maintain) (src locks : Byte) :
    setLocks src [locks] s = answer .done (s.setTables { s.tables with locks := locks.setWidth 7 }) := by
  rw [setLocks, key]

theorem setTrim_badLength (other : args.length ≠ 1) : setTrim src args s = answer .badLength s := by
  unfold setTrim
  split
  · exact absurd rfl other
  · rfl

theorem putTrim_p (v : Nat) (s : State) (i : Fin 28) : (putTrim v s).p i = if i = 4 then v else s.p i := by
  have set_eq : (putTrim v s).p i = if (4 : Nat) = i.val then v else s.p i := by
    simp [putTrim, State.p, Vector.getElem_set]
  rw [set_eq]
  exact if_congr (by rw [Fin.ext_iff, eq_comm]; rfl) rfl rfl

/-- A trim in its range is DONE, and one outside it tells of its one clamp (R146, R24). -/
theorem clamped_trim (v : Nat) :
    Reply.clamped (clampNum 50 100 v).2 =
      if 50 ≤ v ∧ v ≤ 100 then .plain .done else { result := .doneClamped, data := [0x01] } := by
  by_cases inRange : 50 ≤ v ∧ v ≤ 100
  · have count : (clampNum 50 100 v).2 = 0 := by
      simp [clampNum, clampCount, inRange]
    rw [count, if_pos inRange]
    rfl
  · have count : (clampNum 50 100 v).2 = 1 := by
      simp [clampNum, clampCount]
      omega
    rw [count, if_neg inRange]
    rfl

theorem clampNum_trim (v : Nat) :
    (clampNum 50 100 v).1 = if v < 50 then 50 else if 100 < v then 100 else v := by
  dsimp only [clampNum]
  split
  · omega
  · split <;> omega

/-- Settles O33: the key line picks SET_LOCKS' answer; SET_TRIM writes P4 and looks at nothing else. -/
theorem setLocksAndSetTrimWriteTheirRegisters : Obligations.SetLocksAndSetTrimWriteTheirRegisters := by
  refine ⟨fun t src tag args s takes short => ?_, fun t src tag args s takes short => ?_⟩
  · intro c
    have away {result : Result} (answered : setLocks src args (s.advance t) = answer result (s.advance t)) :
        TurnsAway c t s src tag 0x04 result := turnsAway_of_owner (o := setLocks) rfl takes short rfl answered
    refine ⟨fun other => away (setLocks_badLength other), fun locks here => ?_⟩
    subst here
    refine ⟨fun key => away (setLocks_operate (s := s.advance t) key src locks), fun key => ?_⟩
    have answers := answers_of_owner (c := c) (tag := tag) (kind := 0x04) (o := setLocks) rfl takes short rfl
      (setLocks_maintain (s := s.advance t) key src locks) (.refl _)
    refine ⟨_, ⟨answers, ((setTables_untouched t _ s).trans (pushResponse_untouched _ _ _ _ _)).mono (by simp),
      rfl, rfl, rfl⟩, rfl, fun i low => ?_⟩
    show (locks.setWidth 7).getLsbD i = locks.getLsbD i
    simp [low]
  · intro c
    refine ⟨fun other => turnsAway_of_owner (o := setTrim) rfl takes short rfl (setTrim_badLength other),
      fun trim here => ?_⟩
    subst here
    intro inRange
    have answers :=
      answers_of_owner (c := c) (tag := tag) (kind := 0x36) (o := setTrim) rfl takes short rfl rfl (.refl _)
    rw [clamped_trim, apply_ite Reply.result, apply_ite Reply.data] at answers
    exact ⟨_, answers, ((setTables_untouched t _ s).trans (pushResponse_untouched _ _ _ _ _)).mono (by simp), rfl, rfl,
      rfl, ((putTrim_p _ (s.advance t) 4).trans (if_pos rfl)).trans (clampNum_trim _),
      fun i other => (putTrim_p _ (s.advance t) i).trans (if_neg other)⟩

/-! ### RESTART (R178) -/

theorem restart_eq (src : Byte) (s : State) :
    restart src [] s =
      if (s.rot.wheel = .stowed ∨ s.rot.wheel = .standby) ∧ s.service.mode = .closed then
        answer .done (notify .restarted s.restarted)
      else answer .refusedState s := rfl

theorem notify_eq_setRing (n : Notice) (s : State) : notify n s = s.setRing (notify n s).ring := by
  unfold notify
  split
  · rfl
  split
  · rfl
  split
  · rfl
  · rfl

/-- The reset values are those of the blocks other than the ring interface. -/
theorem blocksReset_setRing (s : State) (x : Ring) (settle : Nat) :
    BlocksReset (s.setRing x) settle ↔ BlocksReset s settle := Iff.rfl

theorem restarted_blocksReset (s : State) : BlocksReset s.restarted (s.p 24) := by
  have cabin (k : Cabin) : s.restarted.cabin k = resetCabin := Vector.getElem_replicate _
  have head (n : Fin 4) : s.restarted.head n = resetHead := Vector.getElem_replicate _
  have drive (n : Fin 4) : s.restarted.drive n = resetDrive := Vector.getElem_replicate _
  refine ⟨?_, rfl, rfl, rfl, ?_, cabin, ?_, rfl, head, rfl, rfl, ?_, rfl, rfl, rfl, drive⟩
  · rintro (_ | _) <;> rfl
  · rintro (_ | _) <;> rfl
  · rintro (_ | _) <;> rfl
  · intro r mem
    simp only [State.restarted, resetHolds, List.mem_cons, List.not_mem_nil, or_false] at mem
    rcases mem with rfl | rfl | rfl <;> exact ⟨rfl, rfl⟩

/-- Settles O34: the wheel and the mode pick the answer, and an accepted RESTART resets the blocks and tells so. -/
theorem restartResetsTheBlocksAndKeepsTheTables : Obligations.RestartResetsTheBlocksAndKeepsTheTables := by
  intro t src tag args s takes short c accepted
  have away {result : Result} (answered : restart src args (s.advance t) = answer result (s.advance t)) :
      TurnsAway c t s src tag 0x05 result := turnsAway_of_owner (o := restart) rfl takes short rfl answered
  refine ⟨fun some => away (plainRequest_badLength some _ _ _), fun bare barred => ?_,
    fun bare free => ?_⟩ <;> subst bare
  · exact away ((restart_eq src _).trans (if_neg barred))
  · let v := (s.advance t).restarted
    have answered : restart src [] (s.advance t) = answer .done (notify .restarted v) :=
      (restart_eq src _).trans (if_pos free)
    have quiet : Quiet (s.advance t) (notify .restarted v) :=
      ((Quiet.refl (s.advance t)).aside (u := v) ⟨rfl, rfl, rfl, rfl⟩).then_notify .restarted
    have answers := answers_of_owner (x := s.tables) (c := c) (tag := tag) (kind := 0x05) (o := restart) rfl takes short
      rfl answered quiet
    have desk : SameDesk (s.afterNotices [.restarted]) (notify .restarted v) :=
      ((sameDesk_advance t s).aside (v := v) ⟨rfl, rfl, rfl⟩).notify .restarted
    have reset : BlocksReset (notify .restarted v) (s.p 24) := by
      rw [notify_eq_setRing, blocksReset_setRing]
      exact restarted_blocksReset (s.advance t)
    have rot : (notify .restarted v).rot = v.rot := by simp
    exact ⟨_, answers, quiet.tables, quiet.pending, congrArg (·.wheel) rot, congrArg (·.vLim) rot, quiet.queues.2.1,
      desk.noticesQueued, reset⟩

end Sys2Proof.Machine
end

