-- ==== Sys2Proof/Proofs/CommandQueue.lean ====
section

/-!
# The command queue

What one step does, by the shape of the queue: an empty queue idles (log 2), and otherwise the front command runs on
the commands behind it.
-/

namespace Sys2Proof.Machine

@[simp] theorem State.setPending_setPending (x y : List Instr) (s : State) :
    (s.setPending x).setPending y = s.setPending y := rfl

theorem step_of_pending_nil {s : State} (idle : s.pending = []) : step s = .next s := by
  rw [step, idle]

theorem step_of_pending_cons {s : State} {c : Instr} {rest : List Instr} (front : s.pending = c :: rest) :
    step s = exec c (s.setPending rest) := by
  rw [step, front]

/-- Settles O1: the two shapes of the queue; the queue put in place for the step is replaced by its rest. -/
theorem stepTakesTheFrontCommand : Obligations.StepTakesTheFrontCommand := by
  refine ⟨fun c rest s => ?_, fun s idle => step_of_pending_nil idle⟩
  calc step (s.setPending (c :: rest))
      = exec c ((s.setPending (c :: rest)).setPending rest) :=
        step_of_pending_cons (State.setPending_pending s (c :: rest))
    _ = exec c (s.setPending rest) := by rw [State.setPending_setPending]

end Sys2Proof.Machine
end
